-- ==== Sys2Proof/Word.lean ====
section
/-! DEFINITION. The plain word and index types of the Mandova 408: bytes, turns, levels, and the numbers of its axes,
lines, qualifier inputs, banks and handles (spec 00_scope, O-6). -/

namespace Sys2Proof

/-- A byte of a frame. -/
abbrev Byte := BitVec 8

/-- A turn number: a signed 16-bit integer that wraps (O-6, Turns). -/
abbrev Turn := BitVec 16

/-- The level of a pin or of an action line. -/
inductive Level where
  | low
  | high
  deriving DecidableEq, Repr

/-- An axis, 0..3. -/
abbrev AxisId := Fin 4

/-- An action line, L0..L7. -/
abbrev LineId := Fin 8

/-- A qualifier input, Q0..Q3. -/
abbrev QualId := Fin 4

/-- A bank, 0 or 1. -/
abbrev Bank := Fin 2

/-- The place of a record in the Record Store. The handle that frames carry is this number plus 1 (R1): handle 1 is
`0`, handle 1024 is `1023`, and handle 0, "none", is no `Handle`. -/
abbrev Handle := Fin 1024

end Sys2Proof
end

