-- ==== Sys2Proof/Syntax.lean ====
section
/-! DEFINITION. The commands of the block: `Instr` has one constructor per row of spec/opcode_table.json. -/

namespace Sys2Proof

/-- The pins of an axis that change in one AXIS_INPUT_CHANGE, with their new levels. A and B may change together, so that
the decoder may receive both in one event (R45). A change of I is an event of its own (R115). -/
inductive InputChange where
  | a (level : Level)
  | b (level : Level)
  | ab (levelA levelB : Level)
  | index (level : Level)
  deriving DecidableEq, Repr

/-- The inputs of an axis whose filter width runs out in one FILTER_TIMEOUT (R44, R45). -/
inductive FilterInput where
  | a
  | b
  | ab
  | index
  deriving DecidableEq, Repr

/-- A command of the block. A host command stands for the completion of its request: the command code is the row's (H-4),
and the operands are the tag and the parameter bytes of the request, whatever their number (R143; Log 1). -/
inductive Instr where
  /-- TRANSACTION_START (R139): nCS falls. -/
  | transactionStart
  /-- DESELECT (R145): nCS rises. -/
  | deselect
  /-- BAD_LENGTH (R141): a length byte above 32. -/
  | badLength (code tag length : Byte)
  /-- FRAME_ERROR (R142): a request closed by a CRC byte that does not match. -/
  | frameError (code tag : Byte) (params : List Byte) (crc : Byte)
  /-- UNKNOWN (R143): a request with a good CRC and a code that H-4 does not list. -/
  | unknown (code tag : Byte) (params : List Byte)
  /-- IDENT (R148). -/
  | ident (tag : Byte) (params : List Byte)
  /-- READ_RECORD (R149). -/
  | readRecord (tag : Byte) (params : List Byte)
  /-- READ_AXIS (R150). -/
  | readAxis (tag : Byte) (params : List Byte)
  /-- READ_CAPTURE (R119). -/
  | readCapture (tag : Byte) (params : List Byte)
  /-- READ_LINES (R91). -/
  | readLines (tag : Byte) (params : List Byte)
  /-- NEXT_PENDING (R129). -/
  | nextPending (tag : Byte) (params : List Byte)
  /-- ACK (R130). -/
  | ack (tag : Byte) (params : List Byte)
  /-- ACK_AXIS (R133). -/
  | ackAxis (tag : Byte) (params : List Byte)
  /-- FORCE_LINE (R88). -/
  | forceLine (tag : Byte) (params : List Byte)
  /-- RELEASE_LINE (R89). -/
  | releaseLine (tag : Byte) (params : List Byte)
  /-- CONFIGURE_AXIS (R41). -/
  | configureAxis (tag : Byte) (params : List Byte)
  /-- START (R55). -/
  | start (tag : Byte) (params : List Byte)
  /-- STOP (R56). -/
  | stop (tag : Byte) (params : List Byte)
  /-- SET_POSITION (R57). -/
  | setPosition (tag : Byte) (params : List Byte)
  /-- HOME (R120). -/
  | home (tag : Byte) (params : List Byte)
  /-- RESYNC (R58). -/
  | resync (tag : Byte) (params : List Byte)
  /-- SET_BANK (R38). -/
  | setBank (tag : Byte) (params : List Byte)
  /-- SET_ENABLES (R135). -/
  | setEnables (tag : Byte) (params : List Byte)
  /-- GET_RESULT (R97). -/
  | getResult (tag : Byte) (params : List Byte)
  /-- RESET (R154). -/
  | reset (tag : Byte) (params : List Byte)
  /-- ALLOCATE (R102). -/
  | allocate (tag : Byte) (params : List Byte)
  /-- STAGE (R103). -/
  | stage (tag : Byte) (params : List Byte)
  /-- ARM (R104). -/
  | arm (tag : Byte) (params : List Byte)
  /-- DISARM (R106). -/
  | disarm (tag : Byte) (params : List Byte)
  /-- MOVE (R107). -/
  | move (tag : Byte) (params : List Byte)
  /-- RELEASE (R108). -/
  | release (tag : Byte) (params : List Byte)
  /-- RETIRE_BANK (R109). -/
  | retireBank (tag : Byte) (params : List Byte)
  /-- ARBITER_GRANT (R100). -/
  | arbiterGrant
  /-- LINK_EVENT (R23). -/
  | linkEvent
  /-- UNLINK_EVENT (R24). -/
  | unlinkEvent
  /-- RETIRE_BANK_CHECK (R110). -/
  | retireBankCheck
  /-- STALLED_ADDER_PLACE (R99). -/
  | stalledAdderPlace
  /-- STEP_START (R63). -/
  | stepStart (axis : AxisId)
  /-- EXAMINE_RECORD (R65). -/
  | examineRecord (axis : AxisId)
  /-- AXIS_INPUT_CHANGE (R44). -/
  | axisInputChange (axis : AxisId) (change : InputChange)
  /-- FILTER_TIMEOUT (R44). -/
  | filterTimeout (axis : AxisId) (input : FilterInput)
  /-- RATE_EXPIRY (R51). -/
  | rateExpiry (axis : AxisId)
  /-- SEEK_COMPLETE (R77). -/
  | seekComplete (axis : AxisId)
  /-- PULSE_EXPIRY (R85). -/
  | pulseExpiry (line : LineId)
  /-- NRESET_ASSERT (R155): nRESET falls. -/
  | nresetAssert
  /-- NRESET_RELEASE (R155): nRESET rises. -/
  | nresetRelease
  /-- SUPPLY_DROP (R157): VDD falls below 2.8 V. -/
  | supplyDrop
  /-- SUPPLY_RISE (R157): VDD rises above 2.8 V. -/
  | supplyRise
  /-- SUPPLY_HOLD_END (R156): the 200 µs hold ends. -/
  | supplyHoldEnd
  /-- QUALIFIER_INPUT_CHANGE (R65). -/
  | qualifierInputChange (input : QualId) (level : Level)
  /-- SPI_BYTE_COMPLETE (R140): the eighth rising SCK edge of a byte, `byte` being what SDI carried. -/
  | spiByteComplete (byte : Byte)
  /-- TIME_BASE_TICK (R85): one tick of the 1 µs time base. -/
  | timeBaseTick
  /-- RESET_COMPLETE (R154). -/
  | resetComplete
  /-- RETIRE_BANK_WALK_END (R109). -/
  | retireBankWalkEnd
  deriving DecidableEq, Repr

end Sys2Proof
end

