-- ==== Sys2Proof/Decode.lean ====
section
/-! DEFINITION. The commands that a word of spec/opcode_table.json spells. -/

namespace Sys2Proof

/-- The command whose bits, as the opcode table gives them, are `w`. No row of this table gives bits (every row's "fields"
is empty and none has "fixed"), so no word spells a command. The command codes of the SPI port are H-4's, and the port
decodes them (`Machine.takeRequest`). -/
def decodeTableWord (_nbits _w : Nat) : Option Instr := none

end Sys2Proof
end

