-- ==== Sys2Proof/Config.lean ====
section
/-! DEFINITION. What the part fixes (capacities and limits, with the rule that states each) and its free values. -/

namespace Sys2Proof.Config

/-- Link queue entries (R98). -/
def linkQueueDepth : Nat := 8

/-- Guard set entries (R69). -/
def guardCapacity : Nat := 8

/-- The largest |lag| an evaluator may track (R54, R62). -/
def lagLimit : Nat := 255

/-- Saturation of the unacknowledged fires count (R5). -/
def unackedLimit : Nat := 15

/-- Link requests taken in a row while a mailbox command waits (R100). -/
def streakLimit : Nat := 4

/-- Most parameter bytes of a request (R141). -/
def paramLimit : Nat := 32

/-- The span of a rotary axis lies in `spanMin..spanMax` (O-6, R40). -/
def spanMin : Nat := 1024

/-- See `spanMin`. -/
def spanMax : Nat := 1073741824

/-- The widest re-arm band (R40). -/
def bandMax : Nat := 4095

/-- The lowest position of a linear axis (O-6, R52). -/
def positionMin : Int := -2147483648

/-- The highest position of a linear axis (O-6, R52). -/
def positionMax : Int := 2147483647

/-- FREE VALUE (Log 5). How many filler bytes beyond the first one the part sends before a reply: R144 bounds them, 1..8 in
all, and fixes no number. It is applied to the count of draws made so far, so each reply has a fresh value. -/
opaque extraFiller : Nat → Fin 8

end Sys2Proof.Config
end

