-- ==== Sys2Proof/Machine/Frame.lean ====
section
/-! DEFINITION. The byte formats of the port: little-endian fields (O-6, R141), CRC-8 (R142), request frames (H-3). -/

namespace Sys2Proof.Machine

/-- One of the eight places of the CRC: shift left, and combine with 0x07 if the bit shifted out was 1 (R142). -/
def crcShift (c : Byte) : Byte :=
  if c.msb then (c <<< 1) ^^^ 0x07 else c <<< 1

/-- The CRC after one more byte: combine by exclusive-or, then shift eight times (R142). -/
def crcByte (c b : Byte) : Byte :=
  crcShift (crcShift (crcShift (crcShift (crcShift (crcShift (crcShift (crcShift (c ^^^ b))))))))

/-- The CRC's initial value (R142). -/
def crcInit : Byte := 0xFF

/-- The CRC-8 over a run of bytes (R142). -/
def crc8 (bytes : List Byte) : Byte := bytes.foldl crcByte crcInit

/-- The bytes of a request before its CRC byte: code, tag, length, parameters (R141). -/
def requestBytes (code tag : Byte) (params : List Byte) : List Byte :=
  code :: tag :: BitVec.ofNat 8 params.length :: params

/-- A 16-bit field, least significant byte first (R141). -/
def u16 (lo hi : Byte) : Nat := lo.toNat + 256 * hi.toNat

/-- An unsigned 32-bit field, least significant byte first (R141). -/
def u32 (b0 b1 b2 b3 : Byte) : Nat := b0.toNat + 256 * (b1.toNat + 256 * (b2.toNat + 256 * b3.toNat))

/-- A signed 32-bit field, two's complement (R141). -/
def i32 (b0 b1 b2 b3 : Byte) : Int := (BitVec.ofNat 32 (u32 b0 b1 b2 b3)).toInt

/-- One byte that holds a number. -/
def byte1 (n : Nat) : List Byte := [BitVec.ofNat 8 n]

/-- The two bytes of a 16-bit number, least significant first. -/
def le16 (n : Nat) : List Byte := [BitVec.ofNat 8 n, BitVec.ofNat 8 (n / 256)]

/-- The four bytes of a 32-bit number, least significant first. -/
def le32 (n : Nat) : List Byte :=
  [BitVec.ofNat 8 n, BitVec.ofNat 8 (n / 256), BitVec.ofNat 8 (n / 65536), BitVec.ofNat 8 (n / 16777216)]

/-- The four bytes of a signed 32-bit number, two's complement. -/
def leInt32 (n : Int) : List Byte := le32 (BitVec.ofInt 32 n).toNat

/-- The two bytes of a turn. -/
def leTurn (t : Turn) : List Byte := le16 t.toNat

end Sys2Proof.Machine
end

