-- ==== Sys2Proof/Machine/State.lean ====
section
/-! DEFINITION. The state of the Mandova 408 as plain data, and its value after reset. -/

namespace Sys2Proof.Machine

/-! ### Record Store (chapter 1) -/

/-- The five record states (R1, R8). -/
inductive RecordState where
  | free
  | staged
  | armed
  | moving
  | spent
  deriving DecidableEq, Repr

/-- The direction field of a record. `unset` is the code 0 that a FREE record holds (R8, R149); STAGE refuses it (R4). -/
inductive Direction where
  | unset
  | up
  | down
  | both
  deriving DecidableEq, Repr

/-- The direction of a count, a step or a crossing. -/
inductive Dir where
  | up
  | down
  deriving DecidableEq, Repr

/-- The keep field. -/
inductive Keep where
  | auto
  | keep
  deriving DecidableEq, Repr

/-- The line action with its conditional fields: the line is present unless NONE, the pulse width for PULSE (R2). -/
inductive LineAction where
  | none
  | set (line : LineId)
  | clear (line : LineId)
  | toggle (line : LineId)
  | pulse (line : LineId) (width : Nat)
  deriving DecidableEq, Repr

/-- The follow-on; the link target is present for LINK only (R2). -/
inductive FollowOn where
  | none
  | switch
  | link (target : Handle)
  deriving DecidableEq, Repr

/-- A gate qualifier: an input and the level it must stand at (K-2). -/
structure Gate where
  input : QualId
  level : Level
  deriving DecidableEq, Repr

/-- The last fire of a record (R7). -/
structure LastFire where
  position : Int
  turn : Turn
  direction : Dir
  deriving DecidableEq, Repr

/-- A cam record: its state, its programmed fields (K-2) and its dynamic fields (K-3). -/
structure Record where
  state : RecordState
  axis : AxisId
  position : Int
  direction : Direction
  bank : Bank
  keep : Keep
  notify : Bool
  action : LineAction
  followOn : FollowOn
  budget : Nat
  turnQualifier : Option Turn
  gate : Option Gate
  unacked : Nat
  linkFault : Bool
  outstanding : Nat
  lastFire : Option LastFire
  deriving DecidableEq, Repr

/-- The FREE value of a record: every field 0, no presence flag, no last fire (R8, R20). -/
def Record.cleared : Record where
  state := .free
  axis := 0
  position := 0
  direction := .unset
  bank := 0
  keep := .auto
  notify := false
  action := .none
  followOn := .none
  budget := 0
  turnQualifier := none
  gate := none
  unacked := 0
  linkFault := false
  outstanding := 0
  lastFire := none

/-! ### Axis Front End (chapters 3 and 7) -/

/-- Kind of an axis (R40). -/
inductive Kind where
  | linear
  | rotary
  deriving DecidableEq, Repr

/-- Source of the counts of an axis (F-4). -/
inductive Source where
  | quad4
  | quad1
  | stepDir
  | upDown
  | rate
  deriving DecidableEq, Repr

/-- Filter width: 0, 0.25, 1 or 4 µs (R40). -/
inductive FilterWidth where
  | zero
  | quarter
  | one
  | four
  deriving DecidableEq, Repr

/-- Index edge setting (R114). -/
inductive IndexEdge where
  | rising
  | falling
  deriving DecidableEq, Repr

/-- Configured index mode (R114). -/
inductive IndexMode where
  | off
  | capture
  | track
  deriving DecidableEq, Repr

/-- The configuration of an axis, the fields of CONFIGURE AXIS (R40, R41). -/
structure AxisConfig where
  kind : Kind
  span : Nat
  source : Source
  strict : Bool
  filter : FilterWidth
  band : Nat
  ratePeriod : Nat
  rateDirection : Dir
  indexEdge : IndexEdge
  indexMode : IndexMode
  indexPreset : Int
  deriving DecidableEq, Repr

/-- The configuration after reset (R40). -/
def AxisConfig.initial : AxisConfig where
  kind := .linear
  span := 1024
  source := .quad4
  strict := false
  filter := .zero
  band := 0
  ratePeriod := 1000
  rateDirection := .up
  indexEdge := .rising
  indexMode := .off
  indexPreset := 0

/-- Front-end state (R40). -/
inductive FrontState where
  | halted
  | counting
  | faultedPhase
  | faultedRange
  deriving DecidableEq, Repr

/-- The filter of one input (R44): the level the pin stands at, the accepted level, and, while a new level is being timed,
the width at which its timing was last started (R43; Log 9). -/
structure InputFilter where
  pin : Level
  accepted : Level
  timing : Option FilterWidth
  deriving DecidableEq, Repr

/-- The capture slot (R114). -/
inductive CaptureSlot where
  | empty
  | position (count : Int) (turn : Turn)
  | slip (value : Int)
  deriving DecidableEq, Repr

/-- The front end of an axis beside its configuration (R40), with its index unit (R114). `rateTimer` is the rate generator:
`none` is IDLE, `some n` is RUNNING with n µs to the next count (R51). `rateAhead` is the model's own: the generator has
already taken the tick that TIME_BASE_TICK brings next, in a RATE_EXPIRY of its own (Log 6). -/
structure FrontEnd where
  state : FrontState
  c : Int
  liveTurn : Turn
  storedA : Level
  storedB : Level
  rateTimer : Option Nat
  rateAhead : Bool
  inputA : InputFilter
  inputB : InputFilter
  inputI : InputFilter
  homeRequest : Bool
  slot : CaptureSlot
  deriving DecidableEq, Repr

/-! ### Crossing Evaluator (chapter 4) -/

/-- Evaluator state (R61). -/
inductive EvalState where
  | tracking
  | stalled
  | seeking
  | faultedLag
  deriving DecidableEq, Repr

/-- A step in flight (R61): its direction, its crossing turn, and the records of its fixed run not yet examined, in the
order in which they will be. A record whose fire is held has left `run`; it is the evaluator's `held` record. -/
structure CrossingStep where
  dir : Dir
  turn : Turn
  run : List Handle
  deriving DecidableEq, Repr

/-- A fire held by a full link queue (R72): its record, and the link target fixed at the fire (R67). -/
structure HeldFire where
  source : Handle
  target : Handle
  deriving DecidableEq, Repr

/-- An entry of a guard set (R69). -/
structure GuardEntry where
  handle : Handle
  boundary : Int
  deriving DecidableEq, Repr

/-- A crossing evaluator (R61). -/
structure Evaluator where
  state : EvalState
  e : Int
  evalTurn : Turn
  bank : Bank
  step : Option CrossingStep
  held : Option HeldFire
  guard : List GuardEntry
  settle : Bool
  deriving DecidableEq, Repr

/-- Everything the part keeps per axis: configuration, front end, evaluator, cam list (R21), cursor (R27: the lower count,
or `none` while it is not valid), event flags and enable mask (R132, R135). -/
structure Axis where
  config : AxisConfig
  front : FrontEnd
  eval : Evaluator
  list : List Handle
  cursor : Option Nat
  flags : BitVec 8
  mask : BitVec 8
  deriving DecidableEq, Repr

/-- An input whose pin stands at `level`, as reset leaves it (R44, R60). -/
def InputFilter.atLevel (level : Level) : InputFilter where
  pin := level
  accepted := level
  timing := none

/-- An axis at its reset values, with its A, B and I pins at the given levels (R36, R40, R60, R61, R114, R138). -/
def Axis.initial (a b i : Level) : Axis where
  config := .initial
  front :=
    { state := .halted, c := 0, liveTurn := 0, storedA := a, storedB := b, rateTimer := none,
      rateAhead := false, inputA := .atLevel a, inputB := .atLevel b, inputI := .atLevel i, homeRequest := false,
      slot := .empty }
  eval :=
    { state := .tracking, e := 0, evalTurn := 0, bank := 0, step := none, held := none, guard := [], settle := false }
  list := []
  cursor := some 0
  flags := 0
  mask := 0

/-! ### Line Driver (chapter 5) -/

/-- Mode of a line; the forced level is LOW while RELEASED (R81). -/
inductive LineMode where
  | released
  | forced (level : Level)
  deriving DecidableEq, Repr

/-- An action line (R81). `timer` is the pulse timer: `none` is IDLE, `some n` is RUNNING with n µs remaining. `ahead` is the
model's own: the line has already taken the tick that TIME_BASE_TICK brings next, in a PULSE_EXPIRY of its own (Log 6). -/
structure Line where
  shadow : Level
  mode : LineMode
  timer : Option Nat
  ahead : Bool
  deriving DecidableEq, Repr

/-- A line at its reset values (R93). -/
def Line.initial : Line where
  shadow := .low
  mode := .released
  timer := none
  ahead := false

/-! ### Table Engine (chapter 6) -/

/-- A table command with its arguments as the port passes them on (T-5). A handle is the 16-bit value of the frame: the
engine checks it (R101). -/
inductive TableCommand where
  | allocate
  | stage (handle : Nat) (image : List Byte)
  | arm (handle : Nat)
  | disarm (handle : Nat)
  | move (handle : Nat) (position : Int)
  | release (handle : Nat)
  | retireBank (axis : AxisId) (bank : Bank)
  deriving DecidableEq, Repr

/-- Result codes (R153). -/
inductive ResultCode where
  | ok
  | partialRetire
  | noRecord
  | badHandle
  | wrongState
  | outOfRange
  | badField
  | bankActive
  | linkOutstanding
  deriving DecidableEq, Repr

/-- A mailbox command: the host tag and the command (R94). -/
structure TableRequest where
  tag : Byte
  command : TableCommand
  deriving DecidableEq, Repr

/-- A mailbox result (R96). -/
structure TableResult where
  code : ResultCode
  tag : Byte
  data : Nat
  deriving DecidableEq, Repr

/-- The mailbox with what it holds in each of its states (R94). -/
inductive Mailbox where
  | empty
  | waiting (request : TableRequest)
  | inProgress (request : TableRequest)
  | done (result : TableResult)
  deriving DecidableEq, Repr

/-- A link request (R94). -/
structure LinkRequest where
  source : Handle
  target : Handle
  deriving DecidableEq, Repr

/-- A mailbox operation in progress, with its arguments (R94). `checking` is the operation at its grant, before its checks have
been made (R101); ALLOCATE, STAGE and RELEASE end there. A walk keeps its place as the number of records of the list that it
has passed (R26, R109; Log 12). For RETIRE BANK, `count` is the count retired so far, and `sent` the record whose unlink has
been sent (R110). -/
inductive Operation where
  | checking (command : TableCommand)
  | arm (handle : Handle) (axis : AxisId) (place : Nat)
  | disarm (handle : Handle) (axis : AxisId)
  | moveUnlink (handle : Handle) (axis : AxisId) (position : Int)
  | moveRelink (handle : Handle) (axis : AxisId) (place : Nat)
  | retire (axis : AxisId) (bank : Bank) (place count : Nat) (sent : Option Handle)
  deriving DecidableEq, Repr

/-- The occupant of the engine with its operation in progress (R94). A link request in progress is the head entry of the
link queue: `linkChecks` at its grant, before its target has been examined (R111), and `link` while it walks, with the axis of
its target and the walk's place. -/
inductive Occupant where
  | none
  | mailbox (operation : Operation)
  | linkChecks (request : LinkRequest)
  | link (request : LinkRequest) (axis : AxisId) (place : Nat)
  deriving DecidableEq, Repr

/-- A claimant of the engine (R100): the oldest waiting link request, or the mailbox command in WAITING. -/
inductive Claim where
  | link
  | command
  deriving DecidableEq, Repr

/-- The Table Engine (R94). `claim` is what the arbiter has decided to hand the free engine to: R100 names the moments at which it
decides, and R95 takes the decision in an event of its own (Log 28). -/
structure Engine where
  occupant : Occupant
  mailbox : Mailbox
  queue : List LinkRequest
  stalled : List AxisId
  streak : Nat
  claim : Option Claim
  deriving DecidableEq, Repr

/-- The engine at its reset values (R113). -/
def Engine.initial : Engine where
  occupant := .none
  mailbox := .empty
  queue := []
  stalled := []
  streak := 0
  claim := none

/-! ### Host Port and supply (chapters 9 and 10) -/

/-- Phase of the Host Port (R139). -/
inductive PortPhase where
  | idle
  | receiving
  | awaiting
  | replying
  | draining
  deriving DecidableEq, Repr

/-- The SDO pin (R140): high impedance, or driven with a byte: from the fall of nCS the first byte that the part sends, and
from each complete byte on the byte that the part sent with it (Log 15). -/
inductive Sdo where
  | highZ
  | driven (byte : Byte)
  deriving DecidableEq, Repr

/-- The Host Port (R139, R154) with its SDO pin (R140).
`resetHeld` is an accepted RESET whose effect waits for the nCS rise, `resetting` the time until that reset completes, and
`ignoring` a transaction that is ignored whole (R154). -/
structure Port where
  phase : PortPhase
  received : List Byte
  crc : Byte
  filler : Nat
  toSend : List Byte
  sdo : Sdo
  resetHeld : Bool
  resetting : Bool
  ignoring : Bool
  deriving DecidableEq, Repr

/-- The port at its reset values (R139; Log 19). -/
def Port.initial : Port where
  phase := .idle
  received := []
  crc := 0xFF
  filler := 0
  toSend := []
  sdo := .highZ
  resetHeld := false
  resetting := false
  ignoring := false

/-- The supply as its monitor sees it (R156, R157): below 2.8 V, in the 200 µs hold after rising, or up. -/
inductive Supply where
  | below
  | hold
  | up
  deriving DecidableEq, Repr

/-! ### The whole part -/

/-- The state of the part. `pending` is the queue of commands that wait (the model's own, Log 18), and `draws` counts the
free values drawn (the model's own, Log 5). -/
structure State where
  records : Vector Record 1024
  freePool : List Handle
  axes : Vector Axis 4
  lines : Vector Line 8
  engine : Engine
  pendingSet : List Handle
  pendingEnable : Bool
  doneEnable : Bool
  port : Port
  qualifiers : Vector Level 4
  ncs : Level
  nreset : Level
  supply : Supply
  pending : List Instr
  draws : Nat
  deriving DecidableEq, Repr

/-- Why a step would stop with a fault. The spec names no event that stops the part (its faults are states of a front end
or an evaluator), so there is no such reason: no meaning raises a fault (Log 16). -/
inductive Fault where
  deriving DecidableEq, Repr

/-- Why a step would be refused. -/
inductive Refusal where
  /-- Raised by `exec`'s arm of a command that has no meaning yet (no arm does so now). Safe: nothing is then claimed. -/
  | notModelled (mnemonic : String)
  deriving DecidableEq, Repr

/-- The part right after reset: every block at the reset value its chapter states, with nCS and nRESET high, VDD up and
the A, B, I and Q pins low (Log 4), and no command waiting. -/
def State.reset : State where
  records := Vector.replicate 1024 Record.cleared
  freePool := List.finRange 1024
  axes := Vector.replicate 4 (Axis.initial .low .low .low)
  lines := Vector.replicate 8 Line.initial
  engine := .initial
  pendingSet := []
  pendingEnable := false
  doneEnable := false
  port := .initial
  qualifiers := Vector.replicate 4 .low
  ncs := .high
  nreset := .high
  supply := .up
  pending := []
  draws := 0

end Sys2Proof.Machine
end

