-- ==== Sys2Proof/Machine/Operands.lean ====
section
/-! DEFINITION. The operand forms of frames: handles, axes, banks, the code table of H-4, the record image of H-3, and the
decoding of a STAGE image (R4, R151). -/

namespace Sys2Proof.Machine

/-! ### Handles, axes, banks -/

/-- The handle as frames carry it, 1..1024 (R1). -/
def handleNumber (h : Handle) : Nat := h.val + 1

/-- The record that a 16-bit handle value names: none for 0 and above 1024 (R1). -/
def handleOf (n : Nat) : Option Handle :=
  if h : 1 ≤ n ∧ n ≤ 1024 then some ⟨n - 1, by omega⟩ else none

/-- The axis that a byte names: none above 3. -/
def axisOf (b : Byte) : Option AxisId :=
  if h : b.toNat < 4 then some ⟨b.toNat, h⟩ else none

/-- The bank that a byte names: none above 1. -/
def bankOf (b : Byte) : Option Bank :=
  if h : b.toNat < 2 then some ⟨b.toNat, h⟩ else none

/-! ### The code table of H-4, from codes -/

/-- Kind of an axis. -/
def kindOf (b : Byte) : Option Kind :=
  match b.toNat with
  | 0 => some .linear
  | 1 => some .rotary
  | _ => none

/-- Source. -/
def sourceOf (b : Byte) : Option Source :=
  match b.toNat with
  | 0 => some .quad4
  | 1 => some .quad1
  | 2 => some .stepDir
  | 3 => some .upDown
  | 4 => some .rate
  | _ => none

/-- Strict: off 0, on 1. -/
def strictOf (b : Byte) : Option Bool :=
  match b.toNat with
  | 0 => some false
  | 1 => some true
  | _ => none

/-- Filter width. -/
def filterOf (b : Byte) : Option FilterWidth :=
  match b.toNat with
  | 0 => some .zero
  | 1 => some .quarter
  | 2 => some .one
  | 3 => some .four
  | _ => none

/-- Rate direction. -/
def dirOf (b : Byte) : Option Dir :=
  match b.toNat with
  | 0 => some .up
  | 1 => some .down
  | _ => none

/-- Index edge. -/
def edgeOf (b : Byte) : Option IndexEdge :=
  match b.toNat with
  | 0 => some .rising
  | 1 => some .falling
  | _ => none

/-- Index mode. -/
def modeOf (b : Byte) : Option IndexMode :=
  match b.toNat with
  | 0 => some .off
  | 1 => some .capture
  | 2 => some .track
  | _ => none

/-! ### The code table of H-4, to codes -/

/-- A flag: 0 or 1. -/
def boolCode (b : Bool) : Nat := if b then 1 else 0

/-- Levels: LOW 0, HIGH 1. -/
def levelCode : Level → Nat
  | .low => 0
  | .high => 1

/-- The level that a bit stands for. -/
def levelOf (b : Bool) : Level := if b then .high else .low

/-- Kind. -/
def kindCode : Kind → Nat
  | .linear => 0
  | .rotary => 1

/-- Source. -/
def sourceCode : Source → Nat
  | .quad4 => 0
  | .quad1 => 1
  | .stepDir => 2
  | .upDown => 3
  | .rate => 4

/-- Filter width. -/
def filterCode : FilterWidth → Nat
  | .zero => 0
  | .quarter => 1
  | .one => 2
  | .four => 3

/-- Directions of counts, crossings and the rate generator: UP 0, DOWN 1. -/
def dirCode : Dir → Nat
  | .up => 0
  | .down => 1

/-- Index edge. -/
def edgeCode : IndexEdge → Nat
  | .rising => 0
  | .falling => 1

/-- Index mode. -/
def modeCode : IndexMode → Nat
  | .off => 0
  | .capture => 1
  | .track => 2

/-- Front-end state. -/
def frontCode : FrontState → Nat
  | .halted => 0
  | .counting => 1
  | .faultedPhase => 2
  | .faultedRange => 3

/-- Evaluator state. -/
def evalCode : EvalState → Nat
  | .tracking => 0
  | .stalled => 1
  | .seeking => 2
  | .faultedLag => 3

/-- Mailbox state. -/
def mailboxCode : Mailbox → Nat
  | .empty => 0
  | .waiting _ => 1
  | .inProgress _ => 2
  | .done _ => 3

/-- Occupant kind. -/
def occupantCode : Occupant → Nat
  | .none => 0
  | .mailbox _ => 1
  | .linkChecks _ => 2
  | .link _ _ _ => 2

/-- Result codes (R153). -/
def resultCode : ResultCode → Nat
  | .ok => 0
  | .partialRetire => 1
  | .noRecord => 2
  | .badHandle => 3
  | .wrongState => 4
  | .outOfRange => 5
  | .badField => 6
  | .bankActive => 7
  | .linkOutstanding => 8

/-- Record state (H-3, byte 0). -/
def recordStateCode : RecordState → Nat
  | .free => 0
  | .staged => 1
  | .armed => 2
  | .moving => 3
  | .spent => 4

/-! ### The record image (H-3, R149) -/

/-- Direction: UP 1, DOWN 2, BOTH 3; a FREE record holds 0. -/
def directionCode : Direction → Nat
  | .unset => 0
  | .up => 1
  | .down => 2
  | .both => 3

/-- Keep: AUTO 0, KEEP 1. -/
def keepCode : Keep → Nat
  | .auto => 0
  | .keep => 1

/-- Byte 6: line action in bits 2:0, line in bits 5:3; an absent line is 0 (R2). -/
def actionByte : LineAction → Nat
  | .none => 0
  | .set l => 1 + 8 * l.val
  | .clear l => 2 + 8 * l.val
  | .toggle l => 3 + 8 * l.val
  | .pulse l _ => 4 + 8 * l.val

/-- Bytes 7-8: the pulse width, 0 when absent (R2). -/
def actionWidth : LineAction → Nat
  | .pulse _ w => w
  | _ => 0

/-- Byte 11, bits 1:0. -/
def followCode : FollowOn → Nat
  | .none => 0
  | .switch => 1
  | .link _ => 2

/-- Bytes 12-13: the link target's handle, 0 when absent (R2). -/
def followTarget : FollowOn → Nat
  | .link t => handleNumber t
  | _ => 0

/-- Byte 11: follow-on, presence bits, gate input and gate level. -/
def qualifierByte (r : Record) : Nat :=
  followCode r.followOn + 4 * boolCode r.turnQualifier.isSome +
    match r.gate with
    | some g => 8 + 16 * g.input.val + 64 * levelCode g.level
    | none => 0

/-- Byte 16: unacknowledged fires, link fault, last fire present, last fire direction. -/
def dynamicByte (r : Record) : Nat :=
  r.unacked + 16 * boolCode r.linkFault +
    match r.lastFire with
    | some f => 32 + 64 * dirCode f.direction
    | none => 0

/-- The 24-byte record image of H-3; an absent field is 0 (R149). -/
def recordImage (r : Record) : List Byte :=
  byte1 (recordStateCode r.state) ++
  byte1 (r.axis.val + 4 * r.bank.val + 8 * directionCode r.direction + 32 * keepCode r.keep + 64 * boolCode r.notify) ++
  leInt32 r.position ++
  byte1 (actionByte r.action) ++
  le16 (actionWidth r.action) ++
  le16 r.budget ++
  byte1 (qualifierByte r) ++
  le16 (followTarget r.followOn) ++
  leTurn (r.turnQualifier.getD 0) ++
  byte1 (dynamicByte r) ++
  byte1 r.outstanding ++
  match r.lastFire with
  | some f => leInt32 f.position ++ leTurn f.turn
  | none => [0, 0, 0, 0, 0, 0]

/-! ### STAGE (R2, R4, R151) -/

/-- The bit field of width `n` of a byte whose lowest bit is `lo`. -/
def bits (b : Byte) (lo n : Nat) : Nat := b.toNat / 2 ^ lo % 2 ^ n

/-- The direction code of byte 1; 0 is reserved. -/
def stageDirection (b1 : Byte) : Option Direction :=
  match bits b1 3 2 with
  | 1 => some .up
  | 2 => some .down
  | 3 => some .both
  | _ => none

/-- The line of byte 6, bits 5:3. -/
def stageLine (b6 : Byte) : LineId := Fin.ofNat 8 (bits b6 3 3)

/-- The line action of byte 6 with its conditional fields: NONE with a line other than 0, PULSE with width 0 and the
reserved codes are refused (R4); a width given with another action is discarded. -/
def stageAction (b6 : Byte) (width : Nat) : Option LineAction :=
  match bits b6 0 3 with
  | 0 => if bits b6 3 3 = 0 then some .none else none
  | 1 => some (.set (stageLine b6))
  | 2 => some (.clear (stageLine b6))
  | 3 => some (.toggle (stageLine b6))
  | 4 => if width = 0 then none else some (.pulse (stageLine b6) width)
  | _ => none

/-- The follow-on of byte 11: the reserved code, a target outside 1..1024 and the record's own handle are refused (R4). -/
def stageFollowOn (self : Handle) (b11 : Byte) (target : Nat) : Option FollowOn :=
  match bits b11 0 2 with
  | 0 => some .none
  | 1 => some .switch
  | 2 =>
    match handleOf target with
    | some t => if t = self then none else some (.link t)
    | none => none
  | _ => none

/-- The gate qualifier of byte 11, taken only when its presence bit is set (R151). -/
def stageGate (b11 : Byte) : Option Gate :=
  if bits b11 3 1 = 1 then
    some { input := Fin.ofNat 4 (bits b11 4 2), level := levelOf (bits b11 6 1 = 1) }
  else none

/-- The record that an accepted STAGE of image bytes 0..16 leaves where `r` stood (R10, R151), or none for BAD_FIELD (R4).
State and dynamic fields other than the last fire are `r`'s own. -/
def stageRecord (self : Handle) (r : Record) (image : List Byte) : Option Record :=
  match image with
  | [_, b1, p0, p1, p2, p3, b6, w0, w1, n0, n1, b11, t0, t1, q0, q1, _] =>
    match stageDirection b1, stageAction b6 (u16 w0 w1), stageFollowOn self b11 (u16 t0 t1) with
    | some direction, some action, some followOn =>
      some
        { r with
          axis := Fin.ofNat 4 (bits b1 0 2)
          bank := Fin.ofNat 2 (bits b1 2 1)
          direction := direction
          keep := if bits b1 5 1 = 1 then .keep else .auto
          notify := decide (bits b1 6 1 = 1)
          position := i32 p0 p1 p2 p3
          action := action
          budget := u16 n0 n1
          followOn := followOn
          turnQualifier := if bits b11 2 1 = 1 then some (BitVec.ofNat 16 (u16 q0 q1)) else none
          gate := stageGate b11
          lastFire := none }
    | _, _, _ => none
  | _ => none

end Sys2Proof.Machine
end

