-- ==== Sys2Proof/Machine/Flags.lean ====
section
/-! DEFINITION. The sticky axis event flags (R132, R146), the sources of nATTN (R137) and the attention summary (R129). -/

namespace Sys2Proof.Machine

/-- The eight axis event flags (R132). -/
inductive AxisFlag where
  | homed
  | captured
  | captureMissed
  | phase
  | lag
  | range
  | guardEvict
  | settled
  deriving DecidableEq, Repr

/-- The place of a flag in masks (R146). -/
def flagBit : AxisFlag → BitVec 8
  | .homed => 0x01
  | .captured => 0x02
  | .captureMissed => 0x04
  | .phase => 0x08
  | .lag => 0x10
  | .range => 0x20
  | .guardEvict => 0x40
  | .settled => 0x80

/-- Set a flag; one that is set stays set (R132). -/
def Axis.setFlag (a : Axis) (f : AxisFlag) : Axis := { a with flags := a.flags ||| flagBit f }

/-- Whether a flag is set. -/
def Axis.hasFlag (a : Axis) (f : AxisFlag) : Bool := a.flags &&& flagBit f != 0

/-- Whether some flag of the axis is set with its enable place set (R129, R137). -/
def Axis.attention (a : Axis) : Bool := a.flags &&& a.mask != 0

/-- The mailbox-done state (R136). -/
def mailboxDone : Mailbox → Bool
  | .done _ => true
  | _ => false

/-- The pending source of nATTN (R137). -/
def State.pendingSource (s : State) : Bool := !s.pendingSet.isEmpty && s.pendingEnable

/-- The axis source of nATTN (R137). -/
def State.axisSource (s : State) : Bool := s.axes.toList.any Axis.attention

/-- The done source of nATTN (R136, R137). -/
def State.doneSource (s : State) : Bool := mailboxDone s.engine.mailbox && s.doneEnable

/-- The level of nATTN: LOW while at least one source holds (R137). -/
def State.nattn (s : State) : Level :=
  if s.pendingSource || s.axisSource || s.doneSource then .low else .high

/-- Bit k for axis k, set where an enabled flag is set (R146, R152). -/
def State.attentionAxes (s : State) : Nat :=
  boolCode (s.axes.get 0).attention + 2 * boolCode (s.axes.get 1).attention +
    4 * boolCode (s.axes.get 2).attention + 8 * boolCode (s.axes.get 3).attention

/-- The attention summary, 6 bytes (R152). -/
def State.attentionSummary (s : State) : List Byte :=
  le16 s.pendingSet.length ++ byte1 (boolCode s.pendingEnable) ++ byte1 (boolCode s.doneEnable) ++
    byte1 (boolCode (mailboxDone s.engine.mailbox)) ++ byte1 s.attentionAxes

end Sys2Proof.Machine
end

