-- ==== Sys2Proof/Machine/Ops.lean ====
section
/-! DEFINITION. The named operations that the blocks share: reading and writing the parts of State, the Record Store
(records, pending set, free pool, cam lists, cursors), the lag, the range of an axis, line requests, and reset. -/

namespace Sys2Proof.Machine

/-! ### Reading and writing the parts of State -/

/-- Axis `k`. -/
def State.ax (s : State) (k : AxisId) : Axis := s.axes.get k

/-- Replace axis `k`. -/
def State.setAx (s : State) (k : AxisId) (a : Axis) : State := { s with axes := s.axes.set k.val a k.isLt }

/-- Change axis `k` by `f`. -/
def State.updAx (s : State) (k : AxisId) (f : Axis → Axis) : State := s.setAx k (f (s.ax k))

/-- Line `l`. -/
def State.line (s : State) (l : LineId) : Line := s.lines.get l

/-- Replace line `l`. -/
def State.setLine (s : State) (l : LineId) (x : Line) : State := { s with lines := s.lines.set l.val x l.isLt }

/-- The record under handle `h`. -/
def State.recordAt (s : State) (h : Handle) : Record := s.records.get h

/-- Change the engine by `f`. -/
def State.updEngine (s : State) (f : Engine → Engine) : State := { s with engine := f s.engine }

/-! ### Records and the pending set (R5, R127) -/

/-- A record stands in the pending set when its count is 1 or more or its link fault is set (R5). -/
def Record.isPending (r : Record) : Bool := decide (0 < r.unacked) || r.linkFault

/-- A set of handles is held in ascending order; a handle that is a member stays one. -/
def joinSet (h : Handle) : List Handle → List Handle
  | [] => [h]
  | x :: xs => if h < x then h :: x :: xs else if h = x then x :: xs else x :: joinSet h xs

/-- The set without `h`. -/
def leaveSet (h : Handle) (set : List Handle) : List Handle := set.filter (fun x => decide (x ≠ h))

/-- Store a record. In the same event its handle joins or leaves the pending set as its count and link fault say (R5,
R127): every change of a record passes here. -/
def State.putRecord (s : State) (h : Handle) (r : Record) : State :=
  { s with
    records := s.records.set h.val r h.isLt
    pendingSet := if r.isPending then joinSet h s.pendingSet else leaveSet h s.pendingSet }

/-! ### Release (R17, R18) -/

/-- Free a record: its fields are cleared, it leaves the pending set, and its handle joins the tail of the free pool (R17). -/
def State.freeRecord (s : State) (h : Handle) : State :=
  let t := s.putRecord h .cleared
  { t with freePool := t.freePool ++ [h] }

/-- The conditions of auto-release (R18). -/
def Record.autoReleases (r : Record) : Bool :=
  decide (r.state = .spent) && decide (r.keep = .auto) && !r.isPending && decide (r.outstanding = 0)

/-- Auto-release, evaluated for a record at an exhaustion, an ACK or the end of one of its link requests (R18). -/
def State.autoRelease (s : State) (h : Handle) : State :=
  if (s.recordAt h).autoReleases then s.freeRecord h else s

/-! ### Positions, turns, lag -/

/-- A difference taken modulo span into −span/2..span/2, span/2 itself as +span/2 (O-6, R54). -/
def centre (span : Nat) (d : Int) : Int :=
  let m := d % span
  if (span : Int) < 2 * m then m - span else m

/-- The lag C − E (R54). -/
def lagOf (cfg : AxisConfig) (c e : Int) : Int :=
  match cfg.kind with
  | .linear => c - e
  | .rotary => centre cfg.span (c - e)

/-- The lag of an axis. -/
def Axis.lag (a : Axis) : Int := lagOf a.config a.front.c a.eval.e

/-- The place one unit from position `p` in turn `t` (R28, R29, R30, R52, R53): on a ROTARY axis round the span, the turn
wrapping silently; on a LINEAR axis the turn stays. -/
def advance (cfg : AxisConfig) (d : Dir) (p : Int) (t : Turn) : Int × Turn :=
  match cfg.kind, d with
  | .linear, .up => (p + 1, t)
  | .linear, .down => (p - 1, t)
  | .rotary, .up => if p = (cfg.span : Int) - 1 then (0, t + 1) else (p + 1, t)
  | .rotary, .down => if p = 0 then ((cfg.span : Int) - 1, t - 1) else (p - 1, t)

/-- A position lies within the range of the axis in force (R104, R107). -/
def inRange (cfg : AxisConfig) (p : Int) : Bool :=
  match cfg.kind with
  | .linear => true
  | .rotary => decide (0 ≤ p) && decide (p < cfg.span)

/-- A turn qualifier is present only on a ROTARY axis (R104). -/
def turnAllowed (cfg : AxisConfig) (q : Option Turn) : Bool :=
  match cfg.kind with
  | .linear => q.isNone
  | .rotary => true

/-! ### Cam lists and cursors (R22, R23, R24) -/

/-- Insert `h` immediately after the last record whose position is at most `p`, at the head if there is none (R23). -/
def insertAfter (pos : Handle → Int) (p : Int) (h : Handle) : List Handle → List Handle
  | [] => [h]
  | x :: xs => if xs.any (fun y => decide (pos y ≤ p)) || decide (pos x ≤ p) then x :: insertAfter pos p h xs
      else h :: x :: xs

/-- The link event on the list and the cursor (R23). -/
def Axis.linkIn (pos : Handle → Int) (p : Int) (h : Handle) (a : Axis) : Axis :=
  { a with
    list := insertAfter pos p h a.list
    cursor := a.cursor.map (fun n => if p ≤ a.eval.e then n + 1 else n) }

/-- The unlink event on the list, the cursor and the guard set: the part the record stood in shrinks by 1 (R24, R70). -/
def Axis.unlinkOut (h : Handle) (a : Axis) : Axis :=
  { a with
    list := a.list.erase h
    cursor := a.cursor.map (fun n => if a.list.idxOf h < n then n - 1 else n)
    eval := { a.eval with guard := a.eval.guard.filter (fun g => decide (g.handle ≠ h)) } }

/-- Change the place of a walk of list `k`; another operation is left as it is. -/
def Occupant.movePlace (o : Occupant) (k : AxisId) (retire link : Nat → Nat) : Occupant :=
  match o with
  | .mailbox (.arm h axis place) => if axis = k then .mailbox (.arm h axis (link place)) else o
  | .mailbox (.moveRelink h axis place) => if axis = k then .mailbox (.moveRelink h axis (link place)) else o
  | .mailbox (.retire axis bank place count sent) =>
    if axis = k then .mailbox (.retire axis bank (retire place) count sent) else o
  | .link r axis place => if axis = k then .link r axis (link place) else o
  | _ => o

/-- The place of a walk stays between the records on either side when one before it leaves the list (R26, R109). -/
def Occupant.unlinked (o : Occupant) (k : AxisId) (index : Nat) : Occupant :=
  let moved (place : Nat) : Nat := if index < place then place - 1 else place
  o.movePlace k moved moved

/-- A seek of axis `k` sends a walk before a link back to the head (R26), and holds a RETIRE BANK walk at its place (R109). -/
def Occupant.soughtList (o : Occupant) (k : AxisId) : Occupant := o.movePlace k id (fun _ => 0)

/-- The positions of the records, as a list compares them. -/
def State.posOf (s : State) (h : Handle) : Int := (s.recordAt h).position

/-- Link a record into the list of axis `k`: it becomes ARMED, and no field of it changes (R11, R23). -/
def State.linkRecord (s : State) (k : AxisId) (h : Handle) : State :=
  let r := s.recordAt h
  (s.updAx k (Axis.linkIn s.posOf r.position h)).putRecord h { r with state := .armed }

/-- Take a record out of the list and the guard set of axis `k`, and store it as `r` (R24). -/
def State.unlinkRecord (s : State) (k : AxisId) (h : Handle) (r : Record) : State :=
  let index := (s.ax k).list.idxOf h
  ((s.updAx k (Axis.unlinkOut h)).updEngine
    (fun g => { g with occupant := g.occupant.unlinked k index })).putRecord h r

/-! ### Action lines (chapter 5) -/

/-- The pin: the shadow when RELEASED, the forced level when FORCED (R81). -/
def Line.pin (l : Line) : Level :=
  match l.mode with
  | .released => l.shadow
  | .forced level => level

/-- The level that TOGGLE gives. -/
def flipLevel : Level → Level
  | .low => .high
  | .high => .low

/-- The next tick brings a running timer to 0 (R51, R85). -/
def reachesZero (timer : Option Nat) : Bool :=
  match timer with
  | none => false
  | some n => decide (n ≤ 1)

/-- A remaining time lowered by one tick. -/
def lowered (timer : Option Nat) : Option Nat := timer.map (fun n => n - 1)

/-- A line request on the line it names (R83, R84): mode and forced level are left (R82). -/
def State.lineRequest (s : State) (act : LineAction) : State :=
  match act with
  | .none => s
  | .set l => s.setLine l { s.line l with shadow := .high, timer := none }
  | .clear l => s.setLine l { s.line l with shadow := .low, timer := none }
  | .toggle l => s.setLine l { s.line l with shadow := flipLevel (s.line l).shadow, timer := none }
  | .pulse l width => s.setLine l { s.line l with shadow := .high, timer := some width }

/-- A pulse expiry: the shadow goes LOW and the timer IDLE, whatever the mode (R85). -/
def Line.expire (l : Line) : Line := { l with shadow := .low, timer := none }

/-! ### Seek start (R34, R76) -/

/-- The seek start on the axis: a step in flight ends, a held fire is dropped, the guard set is emptied, E and the evaluated
turn take the target (turn 0 on a LINEAR axis), and the cursor is not valid (R34, R76). -/
def Axis.seekTo (target : Int) (turn : Turn) (a : Axis) : Axis :=
  { a with
    cursor := none
    eval :=
      { a.eval with
        state := .seeking
        e := target
        evalTurn := if a.config.kind = .linear then 0 else turn
        step := none
        held := none
        guard := [] } }

/-- A seek of axis `k` is ordered: its evaluator also leaves the stalled adders (R76, R99), and a walk of the list before a link
starts again from the head (R26, R34). -/
def State.seekStart (s : State) (k : AxisId) (target : Int) (turn : Turn) : State :=
  (s.updAx k (Axis.seekTo target turn)).updEngine
    (fun g =>
      { g with stalled := g.stalled.filter (fun j => decide (j ≠ k)), occupant := g.occupant.soughtList k })

/-! ### The arbiter's decision (R100) -/

/-- The claimant that the arbiter chooses: the only one that waits, or, of both, the link request while the streak count is
below 4 and the command at 4 (R100). -/
def Engine.choice (g : Engine) : Option Claim :=
  match g.queue, g.mailbox with
  | _ :: _, .waiting _ => if g.streak < Config.streakLimit then some .link else some .command
  | _ :: _, _ => some .link
  | [], .waiting _ => some .command
  | [], _ => none

/-- The arbiter decides as the occupant goes NONE (R100). -/
def Engine.freed (g : Engine) : Engine :=
  let free : Engine := { g with occupant := .none }
  { free with claim := free.choice }

/-- A request placed or a command accepted: with the engine idle the arbiter decides at this arrival, and a claimant that came
first keeps the engine (R100). -/
def Engine.arrived (g : Engine) : Engine :=
  match g.occupant, g.claim with
  | .none, none => { g with claim := g.choice }
  | _, _ => g

/-! ### Reset (R20, R36, R60, R61, R93, R113, R114, R138, R139) -/

/-- The part is held in reset: nRESET is low, or the supply monitor holds it (R155, R156). -/
def State.inReset (s : State) : Bool := decide (s.nreset = .low) || decide (s.supply ≠ .up)

/-- An axis at its reset values, its filters at the levels its pins have (R40, R44, R60). -/
def Axis.resetValues (a : Axis) : Axis :=
  Axis.initial a.front.inputA.pin a.front.inputB.pin a.front.inputI.pin

/-- Every block takes its reset values. The levels of the pins and of the supply are the world's and stay; so do the
model's queue and draw counter. -/
def State.resetBlocks (s : State) : State :=
  { State.reset with
    axes := s.axes.map Axis.resetValues
    qualifiers := s.qualifiers
    ncs := s.ncs
    nreset := s.nreset
    supply := s.supply
    pending := s.pending
    draws := s.draws }

end Sys2Proof.Machine
end

