-- ==== Sys2Proof/Machine/Power.lean ====
section
/-! DEFINITION. The nRESET pin and the supply monitor (R155, R156, R157). -/

namespace Sys2Proof.Machine

/-- NRESET_ASSERT: nRESET falls; every block takes its reset values, and any transaction ends (R155). -/
def execNresetAssert (s : State) : Host.Outcome State Fault Refusal := .next { s with nreset := .low }.resetBlocks

/-- NRESET_RELEASE: nRESET rises, with every block at its reset values; a pin already high makes no edge (R155). -/
def execNresetRelease (s : State) : Host.Outcome State Fault Refusal :=
  .next (if s.nreset = .low then { s with nreset := .high }.resetBlocks else s)

/-- SUPPLY_DROP: VDD falls below 2.8 V, and the supply monitor holds the part in reset (R157). -/
def execSupplyDrop (s : State) : Host.Outcome State Fault Refusal := .next { s with supply := .below }.resetBlocks

/-- SUPPLY_RISE: VDD rises above 2.8 V, and the 200 µs hold starts (R157). -/
def execSupplyRise (s : State) : Host.Outcome State Fault Refusal :=
  .next (if s.supply = .below then { s with supply := .hold } else s)

/-- SUPPLY_HOLD_END: the hold ends, and every block takes its reset values (R156). -/
def execSupplyHoldEnd (s : State) : Host.Outcome State Fault Refusal :=
  .next (if s.supply = .hold then { s with supply := .up }.resetBlocks else s)

end Sys2Proof.Machine
end

