-- ==== Sys2Proof/Machine/Evaluation.lean ====
section
/-! DEFINITION. The Crossing Evaluator (chapter 4): counts as the lag sees them, unit steps, examinations, fires, the guard
set, stalls, lag faults, seek completion and SETTLED. -/

namespace Sys2Proof.Machine

/-! ### The guard set (V-5) -/

/-- A release check: E lies far enough from the boundary between P−1 and P (R71). -/
def guardReleased (cfg : AxisConfig) (e p : Int) : Bool :=
  match cfg.kind with
  | .linear => decide (p + cfg.band ≤ e) || decide (e ≤ p - 1 - cfg.band)
  | .rotary =>
    let m := (e - p) % cfg.span
    decide ((cfg.band : Int) ≤ m) && decide (m ≤ (cfg.span : Int) - 1 - cfg.band)

/-- The release checks of every guard entry, with E as it stands (R71). -/
def Axis.releaseChecks (a : Axis) : Axis :=
  { a with eval := { a.eval with guard := a.eval.guard.filter (fun g => !guardReleased a.config a.eval.e g.boundary) } }

/-- The step in flight ends, with its release checks (R63, R71). -/
def Axis.endStep (a : Axis) : Axis :=
  let b := a.releaseChecks
  { b with eval := { b.eval with step := none } }

/-- A record enters the guard set at the tail; a full set first loses its oldest entry, and GUARD_EVICT is set (R69). -/
def Axis.guardEnter (h : Handle) (p : Int) (a : Axis) : Axis :=
  let entry : GuardEntry := { handle := h, boundary := p }
  if a.eval.guard.length < Config.guardCapacity then
    { a with eval := { a.eval with guard := a.eval.guard ++ [entry] } }
  else
    Axis.setFlag { a with eval := { a.eval with guard := a.eval.guard.tail ++ [entry] } } .guardEvict

/-! ### Lag faults (R54, R74, R75) -/

/-- The lag fault of a TRACKING evaluator: a step in flight ends between records with its release checks (R74). -/
def Axis.lagFaultTracking (a : Axis) : Axis :=
  let b := if a.eval.step.isSome then a.endStep else a
  Axis.setFlag { b with eval := { b.eval with state := .faultedLag } } .lag

/-- The lag fault of a STALLED evaluator: the records after the held one leave the run, and the fire stays held (R75). -/
def Axis.lagFaultStalled (a : Axis) : Axis :=
  Axis.setFlag
    { a with
      eval :=
        { a.eval with
          state := .faultedLag
          step := a.eval.step.map (fun st => { st with run := [] }) } } .lag

/-- |lag| is at most 255 (R54, R62). -/
def Axis.lagWithin (a : Axis) : Bool := decide (a.lag.natAbs ≤ Config.lagLimit)

/-- The lag check at a count that changed C (R54). -/
def Axis.lagCheck (a : Axis) : Axis :=
  if a.lagWithin then a
  else
    match a.eval.state with
    | .tracking => a.lagFaultTracking
    | .stalled => a.lagFaultStalled
    | .seeking => a
    | .faultedLag => a

/-! ### SETTLED (R79) -/

/-- With a settle notice outstanding and E equal to C, SETTLED is set and the notice withdrawn (R79). -/
def Axis.settleCheck (a : Axis) : Axis :=
  if a.eval.settle && decide (a.eval.e = a.front.c) then
    Axis.setFlag { a with eval := { a.eval with settle := false } } .settled
  else a

/-! ### Unit steps (V-2) -/

/-- The direction of the next step, from the lag as it stands (R62). -/
def Axis.stepDir (a : Axis) : Option Dir :=
  if 0 < a.lag then some .up else if a.lag < 0 then some .down else none

/-- The position whose run a step crosses: the one it goes onto going up, the one it leaves going down (R63, R64). -/
def crossedPosition (cfg : AxisConfig) (d : Dir) (e : Int) (t : Turn) : Int :=
  match d with
  | .up => (advance cfg .up e t).1
  | .down => e

/-- The crossing turn: the turn after an up step, the turn before a down step (R30, R63, R64). -/
def crossingTurn (cfg : AxisConfig) (d : Dir) (e : Int) (t : Turn) : Turn :=
  match d with
  | .up => (advance cfg .up e t).2
  | .down => t

/-- The run in examination order: list order going up, reverse list order going down (R28, R29). -/
def runOrder (d : Dir) (run : List Handle) : List Handle :=
  match d with
  | .up => run
  | .down => run.reverse

/-- The lower count after a step start that crosses a run of `len` records (R28, R29, R30). -/
def stepCursor (cfg : AxisConfig) (d : Dir) (e : Int) (listLen len lower : Nat) : Nat :=
  match cfg.kind, d with
  | .linear, .up => lower + len
  | .linear, .down => lower - len
  | .rotary, .up => if e = (cfg.span : Int) - 1 then len else lower + len
  | .rotary, .down => if e = 0 then listLen else lower - len

/-- The step start in direction `d`: E and the evaluated turn move, the run is fixed, the cursor moves past it. A step with
an empty run ends at its start (R28, R29, R30, R63, R64, R71). -/
def Axis.beginStep (pos : Handle → Int) (d : Dir) (a : Axis) : Axis :=
  let place := advance a.config d a.eval.e a.eval.evalTurn
  let crossed := crossedPosition a.config d a.eval.e a.eval.evalTurn
  let run := runOrder d (a.list.filter (fun h => decide (pos h = crossed)))
  let started : Axis :=
    { a with
      cursor := a.cursor.map (stepCursor a.config d a.eval.e a.list.length run.length)
      eval :=
        { a.eval with
          e := place.1
          evalTurn := place.2
          step := some { dir := d, turn := crossingTurn a.config d a.eval.e a.eval.evalTurn, run := run } } }
  if run.isEmpty then started.endStep else started

/-- STEP_START: a TRACKING evaluator with no step in flight and E ≠ C starts its next step (R62), and a settle notice is
settled if it reaches C (R79). -/
def Axis.stepStart (pos : Handle → Int) (a : Axis) : Axis :=
  match a.eval.state, a.eval.step, a.stepDir with
  | .tracking, none, some d => (a.beginStep pos d).settleCheck
  | _, _, _ => a

/-! ### Eligibility (R65) -/

/-- The direction check. -/
def directionAllows (r : Direction) (d : Dir) : Bool :=
  match r, d with
  | .both, _ => true
  | .up, .up => true
  | .down, .down => true
  | _, _ => false

/-- The turn check. -/
def turnMatches (q : Option Turn) (t : Turn) : Bool :=
  match q with
  | none => true
  | some x => decide (x = t)

/-- The gate check reads the level of the Q pin at the examination. -/
def gateMatches (g : Option Gate) (q : Vector Level 4) : Bool :=
  match g with
  | none => true
  | some x => decide (q.get x.input = x.level)

/-- The record is in the guard set. -/
def Evaluator.guarded (v : Evaluator) (h : Handle) : Bool := v.guard.any (fun g => decide (g.handle = h))

/-- The five checks of R65. -/
def eligible (r : Record) (h : Handle) (v : Evaluator) (st : CrossingStep) (q : Vector Level 4) : Bool :=
  decide (r.bank = v.bank) && directionAllows r.direction st.dir && !v.guarded h && turnMatches r.turnQualifier st.turn &&
    gateMatches r.gate q

/-! ### Fire (V-4) -/

/-- Part 6 of a fire: a record still ARMED enters the guard set when the band is above 0 (R68, R69). -/
def State.guardFired (s : State) (k : AxisId) (h : Handle) : State :=
  if (s.recordAt h).state = .armed ∧ 0 < (s.ax k).config.band then
    s.updAx k (Axis.guardEnter h (s.recordAt h).position)
  else s

/-- Exhaustion: the record leaves its list and the guard set, goes SPENT with budget 0, and auto-release is evaluated (R15). -/
def State.exhaust (s : State) (k : AxisId) (h : Handle) : State :=
  (s.unlinkRecord k h { s.recordAt h with budget := 0, state := .spent }).autoRelease h

/-- Parts 5 and 6 of a fire: budget, exhaustion, guard entry (R68). -/
def State.finishFire (s : State) (k : AxisId) (h : Handle) : State :=
  let r := s.recordAt h
  match r.budget with
  | 0 => s.guardFired k h
  | 1 => s.exhaust k h
  | n + 2 => (s.putRecord h { r with budget := n + 1 }).guardFired k h

/-- A request joins the tail of the link queue, and the source's outstanding links rise by 1 (R67, R98); it may be the first to
claim an idle engine (R100). -/
def State.placeLink (s : State) (source target : Handle) : State :=
  let r := s.recordAt source
  (s.updEngine (fun g => Engine.arrived { g with queue := g.queue ++ [{ source := source, target := target }] })).putRecord
    source { r with outstanding := r.outstanding + 1 }

/-- A fire that finds the link queue full is held: the evaluator goes STALLED and joins the tail of the stalled adders (R72,
R99). -/
def State.holdFire (s : State) (k : AxisId) (source target : Handle) : State :=
  (s.updAx k (fun a =>
    { a with eval := { a.eval with state := .stalled, held := some { source := source, target := target } } })).updEngine
    (fun g => { g with stalled := g.stalled ++ [k] })

/-- The other bank. -/
def otherBank (b : Bank) : Bank := if b = 0 then 1 else 0

/-- A SWITCH follow-on toggles the active bank of the axis (R37, R67). -/
def Axis.toggleBank (a : Axis) : Axis := { a with eval := { a.eval with bank := otherBank a.eval.bank } }

/-- The count after one more notify fire, saturating at 15 (R5). -/
def raiseUnacked (n : Nat) : Nat := if n < Config.unackedLimit then n + 1 else n

/-- The record after parts 2 and 3 of a fire: last fire, notification (R66). -/
def Record.fired (r : Record) (d : Dir) (t : Turn) : Record :=
  { r with
    lastFire := some { position := r.position, turn := t, direction := d }
    unacked := if r.notify then raiseUnacked r.unacked else r.unacked }

/-- The fire of an eligible record, whole, or up to its LINK part when the link queue is full (R66, R67, R68, R72). -/
def State.fire (s : State) (k : AxisId) (h : Handle) (d : Dir) (t : Turn) : State :=
  let r := s.recordAt h
  let s1 := (s.lineRequest r.action).putRecord h (r.fired d t)
  match r.followOn with
  | .none => s1.finishFire k h
  | .switch => (s1.updAx k Axis.toggleBank).finishFire k h
  | .link target =>
    if s1.engine.queue.length < Config.linkQueueDepth then (s1.placeLink h target).finishFire k h
    else s1.holdFire k h target

/-! ### Examination -/

/-- The records of the run not yet examined. -/
def Axis.setRun (st : CrossingStep) (run : List Handle) (a : Axis) : Axis :=
  { a with eval := { a.eval with step := some { st with run := run } } }

/-- After an examination or a completed held fire: the step ends when its run is done, unless a fire is held (R63, R72,
R75). -/
def Axis.stepGoesOn (a : Axis) : Axis :=
  match a.eval.held, a.eval.step with
  | none, some st => if st.run.isEmpty then a.endStep else a
  | _, _ => a

/-- EXAMINE_RECORD: a TRACKING evaluator examines the next record of the fixed run, and fires it if it is eligible (R63, R65). -/
def State.examine (s : State) (k : AxisId) : State :=
  let v := (s.ax k).eval
  match v.state, v.step with
  | .tracking, some st =>
    match st.run with
    | [] => s
    | h :: rest =>
      let s1 := s.updAx k (Axis.setRun st rest)
      let s2 := if eligible (s.recordAt h) h v st s.qualifiers then s1.fire k h st.dir st.turn else s1
      s2.updAx k Axis.stepGoesOn
  | _, _ => s

/-- A STALLED evaluator whose fire has completed goes back to TRACKING; one FAULTED(LAG) stays so (R72, R75). -/
def Axis.dropHeld (a : Axis) : Axis :=
  { a with
    eval := { a.eval with held := none, state := if a.eval.state = .stalled then .tracking else a.eval.state } }

/-- A settle notice is settled at the completion of a held fire only if the evaluator is then TRACKING (R79). -/
def Axis.settleIfTracking (a : Axis) : Axis := if a.eval.state = .tracking then a.settleCheck else a

/-- The completion of the held fire of axis `k`: the request is placed, the budget counted down, the guard entry made (R72,
R75). -/
def State.completeHeld (s : State) (k : AxisId) (held : HeldFire) : State :=
  let s1 := (s.placeLink held.source held.target).finishFire k held.source
  ((s1.updAx k Axis.dropHeld).updAx k Axis.stepGoesOn).updAx k Axis.settleIfTracking

/-- STALLED_ADDER_PLACE: a free place of the link queue goes to the evaluator at the head of the stalled adders (R99). -/
def State.placeStalled (s : State) : State :=
  match s.engine.stalled with
  | [] => s
  | k :: rest =>
    match (s.ax k).eval.held with
    | none => s
    | some held =>
      if s.engine.queue.length < Config.linkQueueDepth then
        (s.updEngine (fun g => { g with stalled := rest })).completeHeld k held
      else s

/-! ### Seek completion (R35, R77) -/

/-- The seek of a SEEKING axis completes: the cursor is set from the list, and the evaluator goes to TRACKING or to
FAULTED(LAG) by the lag as it stands (R35, R77); a settle notice is settled if E equals C (R79). -/
def Axis.seekComplete (pos : Handle → Int) (a : Axis) : Axis :=
  match a.eval.state with
  | .seeking =>
    let b : Axis := { a with cursor := some (a.list.filter (fun h => decide (pos h ≤ a.eval.e))).length }
    if b.lagWithin then Axis.settleCheck { b with eval := { b.eval with state := .tracking } }
    else Axis.setFlag { b with eval := { b.eval with state := .faultedLag } } .lag
  | _ => a

/-! ### The evaluator's rows -/

/-- STEP_START (R63, R64). -/
def execStepStart (k : AxisId) (s : State) : Host.Outcome State Fault Refusal :=
  .next (s.updAx k (Axis.stepStart s.posOf))

/-- EXAMINE_RECORD (R65, R66). -/
def execExamineRecord (k : AxisId) (s : State) : Host.Outcome State Fault Refusal := .next (s.examine k)

/-- STALLED_ADDER_PLACE (R99). -/
def execStalledAdderPlace (s : State) : Host.Outcome State Fault Refusal := .next s.placeStalled

/-- SEEK_COMPLETE (R77). -/
def execSeekComplete (k : AxisId) (s : State) : Host.Outcome State Fault Refusal :=
  .next (s.updAx k (Axis.seekComplete s.posOf))

end Sys2Proof.Machine
end

