-- ==== Sys2Proof/Machine/Engine.lean ====
section
/-! DEFINITION. The Table Engine (chapter 6): mailbox, arbiter, table operations, link requests, link and unlink events. -/

namespace Sys2Proof.Machine

/-! ### Waits (R25, R32, R34) -/

/-- The axis is SEEKING: its list is held (R34). -/
def State.seeking (s : State) (k : AxisId) : Bool := decide ((s.ax k).eval.state = .seeking)

/-- The record is part of a step in flight and not yet examined, or its fire is held (R32, R33, R72). -/
def Evaluator.inStep (v : Evaluator) (h : Handle) : Bool :=
  (match v.step with
    | some st => st.run.contains h
    | none => false) ||
  (match v.held with
    | some f => decide (f.source = h)
    | none => false)

/-- An unlink of the record that the engine has sent to list `k` still waits (R25). -/
def State.unlinkWaits (s : State) (k : AxisId) (h : Handle) : Bool := s.seeking k || (s.ax k).eval.inStep h

/-- The phases of an operation in progress (R94). -/
inductive OperationPhase where
  | checking
  | walking
  | waitingOnSeek
  | waitingOnStep
  | linking
  | unlinking
  deriving DecidableEq, Repr

/-- The next record of list `k` at a walk's place is one that the walk passes by `pass`; a seek holds the walk (R26, R34, R109). -/
def State.passesNext (s : State) (k : AxisId) (place : Nat) (pass : Handle → Bool) : Bool :=
  !s.seeking k &&
    match (s.ax k).list[place]? with
    | some h => pass h
    | none => false

/-- The walk before a link of record `h` passes the records at or below its position (R23, R26). -/
def State.passesLink (s : State) (k : AxisId) (place : Nat) (h : Handle) : Bool :=
  s.passesNext k place (fun g => decide (s.posOf g ≤ s.posOf h))

/-- The walk of RETIRE BANK passes the records of the other bank (R109). -/
def State.passesRetire (s : State) (k : AxisId) (place : Nat) (bank : Bank) : Bool :=
  s.passesNext k place (fun g => decide ((s.recordAt g).bank ≠ bank))

/-- The phase of the walk before a link of record `h` and of the link itself. -/
def State.linkPhase (s : State) (k : AxisId) (place : Nat) (h : Handle) : OperationPhase :=
  if s.seeking k then .waitingOnSeek else if s.passesLink k place h then .walking else .linking

/-- The phase of an unlink sent to list `k`. -/
def State.unlinkPhase (s : State) (k : AxisId) (h : Handle) : OperationPhase :=
  if s.seeking k then .waitingOnSeek else if (s.ax k).eval.inStep h then .waitingOnStep else .unlinking

/-- The phase of the operation in progress, a function of the rest of the state (R94; Log 13). -/
def State.operationPhase (s : State) : Option OperationPhase :=
  match s.engine.occupant with
  | .none => none
  | .mailbox (.checking _) => some .checking
  | .mailbox (.arm h k place) => some (s.linkPhase k place h)
  | .mailbox (.disarm h k) => some (s.unlinkPhase k h)
  | .mailbox (.moveUnlink h k _) => some (s.unlinkPhase k h)
  | .mailbox (.moveRelink h k place) => some (s.linkPhase k place h)
  | .mailbox (.retire k _ _ _ none) => some (if s.seeking k then .waitingOnSeek else .walking)
  | .mailbox (.retire k _ _ _ (some h)) => some (s.unlinkPhase k h)
  | .linkChecks _ => some .checking
  | .link request k place => some (s.linkPhase k place request.target)

/-! ### The mailbox (T-2) -/

/-- The mailbox takes a table command: ACCEPTED in EMPTY or DONE, discarding a held result, and BUSY otherwise (R95). An accepted
command may be the first to claim an idle engine (R100). The Bool says whether it was accepted. -/
def State.mailboxTake (s : State) (request : TableRequest) : State × Bool :=
  match s.engine.mailbox with
  | .empty => (s.updEngine (fun g => Engine.arrived { g with mailbox := .waiting request }), true)
  | .done _ => (s.updEngine (fun g => Engine.arrived { g with mailbox := .waiting request }), true)
  | .waiting _ => (s, false)
  | .inProgress _ => (s, false)

/-- The result that ends the command in progress, with the host tag echoed (R96). -/
def Mailbox.finish (m : Mailbox) (code : ResultCode) (data : Nat) : Mailbox :=
  match m with
  | .inProgress request => .done { code := code, tag := request.tag, data := data }
  | _ => m

/-- The event that ends a mailbox operation: the result is stored, the mailbox goes DONE, the occupant goes NONE (R96), and the
arbiter decides (R100). -/
def State.finishMailbox (s : State) (code : ResultCode) (data : Nat) : State :=
  s.updEngine (fun g => Engine.freed { g with mailbox := g.mailbox.finish code data })

/-- The engine goes on with an operation that takes further events. -/
def State.occupy (s : State) (operation : Operation) : State :=
  s.updEngine (fun g => { g with occupant := .mailbox operation })

/-! ### Operations at the grant (R101 to R110) -/

/-- The checks of ARM on position and turn qualifier, against the configuration of the record's axis in force (R104). -/
def State.armChecks (s : State) (r : Record) : Bool :=
  inRange (s.ax r.axis).config r.position && turnAllowed (s.ax r.axis).config r.turnQualifier

/-- The fields ALLOCATE gives a record (R9). -/
def allocatedRecord : Record :=
  { Record.cleared with state := .staged, direction := .both, keep := .auto, budget := 1 }

/-- ALLOCATE: the head of the free pool becomes STAGED with the default fields, or NO_RECORD (R9, R102). -/
def State.opAllocate (s : State) : State :=
  match s.freePool with
  | [] => s.finishMailbox .noRecord 0
  | h :: rest => ({ s with freePool := rest }.putRecord h allocatedRecord).finishMailbox .ok (handleNumber h)

/-- STAGE of a record in range: WRONG_STATE unless STAGED and not pending, BAD_FIELD for an invalid image (R10, R103). -/
def State.opStage (s : State) (h : Handle) (image : List Byte) : State :=
  let r := s.recordAt h
  if r.state = .staged ∧ r.isPending = false then
    match stageRecord h r image with
    | some r' => (s.putRecord h r').finishMailbox .ok 0
    | none => s.finishMailbox .badField 0
  else s.finishMailbox .wrongState 0

/-- ARM of a record in range, up to its walk (R104). -/
def State.opArm (s : State) (h : Handle) : State :=
  let r := s.recordAt h
  if r.state = .staged then
    if s.armChecks r then s.occupy (.arm h r.axis 0) else s.finishMailbox .outOfRange 0
  else s.finishMailbox .wrongState 0

/-- DISARM of a record in range, up to its unlink (R106). -/
def State.opDisarm (s : State) (h : Handle) : State :=
  let r := s.recordAt h
  if r.state = .armed then s.occupy (.disarm h r.axis) else s.finishMailbox .wrongState 0

/-- MOVE of a record in range, up to its unlink (R107). -/
def State.opMove (s : State) (h : Handle) (position : Int) : State :=
  let r := s.recordAt h
  if r.state = .armed then
    if inRange (s.ax r.axis).config position then s.occupy (.moveUnlink h r.axis position)
    else s.finishMailbox .outOfRange 0
  else s.finishMailbox .wrongState 0

/-- RELEASE of a record in range: the state first, then the outstanding links (R17, R108). -/
def State.opRelease (s : State) (h : Handle) : State :=
  let r := s.recordAt h
  if r.state = .staged ∨ r.state = .spent then
    if r.outstanding = 0 then (s.freeRecord h).finishMailbox .ok 0 else s.finishMailbox .linkOutstanding 0
  else s.finishMailbox .wrongState 0

/-- RETIRE BANK, up to its walk: BANK_ACTIVE when the named bank is active (R109). -/
def State.opRetire (s : State) (k : AxisId) (bank : Bank) : State :=
  if (s.ax k).eval.bank = bank then s.finishMailbox .bankActive 0 else s.occupy (.retire k bank 0 0 none)

/-- An operation that names a handle checks it first: BAD_HANDLE for 0 and above 1024 (R101). -/
def State.withHandle (s : State) (n : Nat) (op : Handle → State) : State :=
  match handleOf n with
  | some h => op h
  | none => s.finishMailbox .badHandle 0

/-- What a table command does when the arbiter takes it (R101). -/
def State.beginCommand (s : State) (command : TableCommand) : State :=
  match command with
  | .allocate => s.opAllocate
  | .stage n image => s.withHandle n (fun h => s.opStage h image)
  | .arm n => s.withHandle n s.opArm
  | .disarm n => s.withHandle n s.opDisarm
  | .move n position => s.withHandle n (fun h => s.opMove h position)
  | .release n => s.withHandle n s.opRelease
  | .retireBank k bank => s.opRetire k bank

/-! ### Link requests (T-7) -/

/-- The engine has finished with the request at the head of the queue: the source's outstanding links fall by 1, the entry
leaves the queue, the occupant goes NONE, the arbiter decides (R100), and auto-release is evaluated for the source (R111,
R112). `fault` sets the source's link fault in the same event (R112). -/
def State.finishLink (s : State) (source : Handle) (fault : Bool) : State :=
  let r := s.recordAt source
  let s1 := s.putRecord source
    { r with outstanding := r.outstanding - 1, linkFault := r.linkFault || fault }
  (s1.updEngine (fun g => Engine.freed { g with queue := g.queue.tail })).autoRelease source

/-- The streak count once a link request is taken: one more while the mailbox is WAITING, and 0 otherwise (R100). -/
def Engine.streakAtLink (g : Engine) : Nat :=
  match g.mailbox with
  | .waiting _ => g.streak + 1
  | _ => 0

/-- The checks of a link request at its grant: its target passes the checks of ARM and is walked to, or the request is refused
(R111, R112, R158). -/
def State.checkLink (s : State) (request : LinkRequest) : State :=
  let target := s.recordAt request.target
  if target.state = .staged ∧ s.armChecks target = true then
    s.updEngine (fun g => { g with occupant := .link request target.axis 0 })
  else s.finishLink request.source true

/-- The arbiter takes the oldest link request: it is in progress, its checks first (R98, R100, R111). -/
def State.takeLink (s : State) (request : LinkRequest) : State :=
  (s.updEngine (fun g => { g with occupant := .linkChecks request, streak := g.streakAtLink, claim := none })).checkLink request

/-- The arbiter takes the waiting mailbox command: it is IN_PROGRESS, the streak count is 0, and its checks come first (R96, R100,
R101). -/
def State.takeMailbox (s : State) (request : TableRequest) : State :=
  (s.updEngine (fun g =>
    { g with
      occupant := .mailbox (.checking request.command)
      mailbox := .inProgress request
      streak := 0
      claim := none })).beginCommand request.command

/-- ARBITER_GRANT: the claimant that the arbiter has decided on is taken (R100). -/
def State.grant (s : State) : State :=
  match s.engine.occupant, s.engine.claim with
  | .none, some .link =>
    match s.engine.queue with
    | request :: _ => s.takeLink request
    | [] => s
  | .none, some .command =>
    match s.engine.mailbox with
    | .waiting command => s.takeMailbox command
    | _ => s
  | _, _ => s

/-! ### Link and unlink events -/

/-- LINK_EVENT: the walk has ended and the list is not held; the record is linked and its operation ends (R23, R34, R105,
R107, R111). -/
def State.linkEvent (s : State) : State :=
  match s.engine.occupant with
  | .mailbox (.arm h k _) => if s.seeking k then s else (s.linkRecord k h).finishMailbox .ok 0
  | .mailbox (.moveRelink h k _) => if s.seeking k then s else (s.linkRecord k h).finishMailbox .ok 0
  | .link request k _ => if s.seeking k then s else (s.linkRecord k request.target).finishLink request.source false
  | _ => s

/-- The unlink of DISARM: a record still ARMED goes STAGED, and one that a fire has exhausted gives WRONG_STATE (R12, R106). -/
def State.unlinkDisarm (s : State) (h : Handle) (k : AxisId) : State :=
  let r := s.recordAt h
  if r.state = .armed then (s.unlinkRecord k h { r with state := .staged }).finishMailbox .ok 0
  else s.finishMailbox .wrongState 0

/-- The unlink of MOVE: a record still ARMED takes the new position and goes MOVING (R13, R107). -/
def State.unlinkMove (s : State) (h : Handle) (k : AxisId) (position : Int) : State :=
  let r := s.recordAt h
  if r.state = .armed then
    (s.unlinkRecord k h { r with state := .moving, position := position }).occupy (.moveRelink h k 0)
  else s.finishMailbox .wrongState 0

/-- The unlink of RETIRE BANK: a record still ARMED goes STAGED and is counted, one exhausted is passed (R14, R110). -/
def State.unlinkRetire (s : State) (k : AxisId) (bank : Bank) (place count : Nat) (h : Handle) : State :=
  let r := s.recordAt h
  if r.state = .armed then
    (s.unlinkRecord k h { r with state := .staged }).occupy (.retire k bank place (count + 1) none)
  else s.occupy (.retire k bank place count none)

/-- UNLINK_EVENT: the unlink the engine has sent is taken once its waits end (R24, R25). -/
def State.unlinkEvent (s : State) : State :=
  match s.engine.occupant with
  | .mailbox (.disarm h k) => if s.unlinkWaits k h then s else s.unlinkDisarm h k
  | .mailbox (.moveUnlink h k position) => if s.unlinkWaits k h then s else s.unlinkMove h k position
  | .mailbox (.retire k bank place count (some h)) =>
    if s.unlinkWaits k h then s else s.unlinkRetire k bank place count h
  | _ => s

/-! ### The RETIRE BANK walk (T-6) -/

/-- The next record of the bank at or after the walk's place: how many records the walk passes before it, and the record. -/
def State.nextOfBank (s : State) (bank : Bank) : List Handle → Option (Nat × Handle)
  | [] => none
  | h :: rest =>
    if (s.recordAt h).bank = bank then some (0, h)
    else (s.nextOfBank bank rest).map (fun x => (x.1 + 1, x.2))

/-- RETIRE_BANK_CHECK: at the next record of the named bank, the walk stops with PARTIAL if that bank is active, and sends the
record's unlink otherwise (R109, R110). -/
def State.retireCheck (s : State) : State :=
  match s.engine.occupant with
  | .mailbox (.retire k bank place count none) =>
    if s.seeking k then s
    else
      match s.nextOfBank bank ((s.ax k).list.drop place) with
      | none => s
      | some (passed, h) =>
        if (s.ax k).eval.bank = bank then s.finishMailbox .partialRetire count
        else s.occupy (.retire k bank (place + passed) count (some h))
  | _ => s

/-- RETIRE_BANK_WALK_END: no record of the named bank is left before the end of the list; the result is OK with the count
(R109). -/
def State.retireEnd (s : State) : State :=
  match s.engine.occupant with
  | .mailbox (.retire k bank place count none) =>
    if s.seeking k then s
    else
      match s.nextOfBank bank ((s.ax k).list.drop place) with
      | none => s.finishMailbox .ok count
      | some _ => s
  | _ => s

/-! ### Walks while no command waits (R26, R109) -/

/-- While no command waits, a walk in progress passes its next record; nothing else goes on (Log 3, Log 12). -/
def State.walkOn (s : State) : State :=
  match s.engine.occupant with
  | .mailbox (.arm h k place) => if s.passesLink k place h then s.occupy (.arm h k (place + 1)) else s
  | .mailbox (.moveRelink h k place) => if s.passesLink k place h then s.occupy (.moveRelink h k (place + 1)) else s
  | .mailbox (.retire k bank place count none) =>
    if s.passesRetire k place bank then s.occupy (.retire k bank (place + 1) count none) else s
  | .link request k place =>
    if s.passesLink k place request.target then
      s.updEngine (fun g => { g with occupant := .link request k (place + 1) })
    else s
  | _ => s

/-! ### The engine's rows -/

/-- ARBITER_GRANT (R100). -/
def execArbiterGrant (s : State) : Host.Outcome State Fault Refusal := .next s.grant

/-- LINK_EVENT (R23). -/
def execLinkEvent (s : State) : Host.Outcome State Fault Refusal := .next s.linkEvent

/-- UNLINK_EVENT (R24). -/
def execUnlinkEvent (s : State) : Host.Outcome State Fault Refusal := .next s.unlinkEvent

/-- RETIRE_BANK_CHECK (R110). -/
def execRetireBankCheck (s : State) : Host.Outcome State Fault Refusal := .next s.retireCheck

/-- RETIRE_BANK_WALK_END (R109). -/
def execRetireBankWalkEnd (s : State) : Host.Outcome State Fault Refusal := .next s.retireEnd

end Sys2Proof.Machine
end

