-- ==== Sys2Proof/Machine/FrontEnd.lean ====
section
/-! DEFINITION. The Axis Front End: count events (F-5), input filters and decoder (F-3, F-4), rate generator (R51), and the
index unit with its capture slot and rebases (chapter 7). -/

namespace Sys2Proof.Machine

/-! ### Count events (F-5) -/

/-- The end of the range of a LINEAR axis in a direction (R52). -/
def linearEnd (d : Dir) : Int :=
  match d with
  | .up => Config.positionMax
  | .down => Config.positionMin

/-- The range fault: C holds, the front end goes FAULTED(RANGE), a RATE generator goes IDLE, and RANGE is set (R52). -/
def Axis.rangeFault (a : Axis) : Axis :=
  Axis.setFlag { a with front := { a.front with state := .faultedRange, rateTimer := none } } .range

/-- C and the live turn move by one count, and the lag is checked (R52, R53, R54). -/
def Axis.moveCount (d : Dir) (a : Axis) : Axis :=
  let place := advance a.config d a.front.c a.front.liveTurn
  Axis.lagCheck { a with front := { a.front with c := place.1, liveTurn := place.2 } }

/-- A count event: one past the end of a LINEAR axis is discarded with a range fault, every other moves C (R52, R53). -/
def Axis.count (d : Dir) (a : Axis) : Axis :=
  if a.config.kind = .linear ∧ a.front.c = linearEnd d then a.rangeFault else a.moveCount d

/-! ### Decoder (F-4) -/

/-- What a transition makes: nothing, a count, or a phase error (R45). -/
inductive Decoded where
  | nothing
  | count (d : Dir)
  | phaseError
  deriving DecidableEq, Repr

/-- The place of a pair (A, B) in the up sequence 00, 10, 11, 01 (R46). -/
def quadPlace : Level → Level → Nat
  | .low, .low => 0
  | .high, .low => 1
  | .high, .high => 2
  | .low, .high => 3

/-- QUAD4: one place forward counts up, one place back counts down, two places are a phase error (R46, R48). -/
def decodeQuad4 (a0 b0 a1 b1 : Level) : Decoded :=
  match (quadPlace a1 b1 + 4 - quadPlace a0 b0) % 4 with
  | 0 => .nothing
  | 1 => .count .up
  | 3 => .count .down
  | _ => .phaseError

/-- QUAD1: a count only between 01 and 00; a change of both is a phase error (R47, R48). -/
def decodeQuad1 (a0 b0 a1 b1 : Level) : Decoded :=
  match a0, b0, a1, b1 with
  | .low, .high, .low, .low => .count .up
  | .low, .low, .low, .high => .count .down
  | _, _, _, _ => if a0 ≠ a1 ∧ b0 ≠ b1 then .phaseError else .nothing

/-- A rising change. -/
def rises (l0 l1 : Level) : Bool := decide (l0 = .low) && decide (l1 = .high)

/-- STEP_DIR: a rising A counts up when the stored B stood HIGH, down when it stood LOW (R49). -/
def decodeStepDir (a0 b0 a1 : Level) : Decoded :=
  if rises a0 a1 then .count (if b0 = .high then .up else .down) else .nothing

/-- UP_DOWN: a rising A counts up, a rising B counts down, both together count nothing (R50). -/
def decodeUpDown (a0 b0 a1 b1 : Level) : Decoded :=
  match rises a0 a1, rises b0 b1 with
  | true, false => .count .up
  | false, true => .count .down
  | _, _ => .nothing

/-- What the source makes of a transition from the stored pair to a new pair; RATE ignores the decoder (R46 to R51). -/
def decodePair (src : Source) (a0 b0 a1 b1 : Level) : Decoded :=
  match src with
  | .quad4 => decodeQuad4 a0 b0 a1 b1
  | .quad1 => decodeQuad1 a0 b0 a1 b1
  | .stepDir => decodeStepDir a0 b0 a1
  | .upDown => decodeUpDown a0 b0 a1 b1
  | .rate => .nothing

/-- A phase error: PHASE is set, and with strict on the front end goes FAULTED(PHASE) (R48). -/
def Axis.phaseError (a : Axis) : Axis :=
  Axis.setFlag
    (if a.config.strict then { a with front := { a.front with state := .faultedPhase } } else a) .phase

/-- The decoder stores the pair of accepted levels. -/
def Axis.storePair (a : Axis) : Axis :=
  { a with front := { a.front with storedA := a.front.inputA.accepted, storedB := a.front.inputB.accepted } }

/-- A decoder event: the new pair of accepted levels is compared with the stored one, the count or phase error is made while
COUNTING, and the new pair is stored (R45, R48). -/
def Axis.decoderEvent (a : Axis) : Axis :=
  let f := a.front
  let made :=
    if f.state = .counting then
      decodePair a.config.source f.storedA f.storedB f.inputA.accepted f.inputB.accepted
    else .nothing
  match made with
  | .nothing => a.storePair
  | .count d => (a.count d).storePair
  | .phaseError => a.phaseError.storePair

/-! ### Index unit (chapter 7) -/

/-- An edge is qualified when its direction matches and the front end is COUNTING (R115). `level` is the new level. -/
def Axis.edgeQualified (a : Axis) (level : Level) : Bool :=
  decide (a.front.state = .counting) &&
    match a.config.indexEdge with
    | .rising => decide (level = .high)
    | .falling => decide (level = .low)

/-- The capture slot takes a value when it is empty, with CAPTURED; a full slot keeps its value, with CAPTURE_MISSED (R117). -/
def Axis.captureValue (value : CaptureSlot) (a : Axis) : Axis :=
  match a.front.slot with
  | .empty => Axis.setFlag { a with front := { a.front with slot := value } } .captured
  | _ => a.setFlag .captureMissed

/-- The home rebase at the front end (R122). -/
def Axis.homeRebase (a : Axis) : Axis :=
  Axis.setFlag
    { a with
      config := { a.config with indexMode := .off }
      front := { a.front with c := a.config.indexPreset, liveTurn := 0, homeRequest := false } } .homed

/-- The slip of a TRACK edge: the preset minus C, the shorter way round (R124). -/
def Axis.slip (a : Axis) : Int := centre a.config.span (a.config.indexPreset - a.front.c)

/-- The live turn after a track rebase (R124). -/
def Axis.trackTurn (a : Axis) : Turn :=
  if (a.config.span : Int) ≤ a.front.c + a.slip then a.front.liveTurn + 1
  else if a.front.c + a.slip < 0 then a.front.liveTurn - 1
  else a.front.liveTurn

/-- The track rebase at the front end: C and the live turn are corrected and the slip is stored or missed (R124). -/
def Axis.trackRebase (a : Axis) : Axis :=
  Axis.captureValue (.slip a.slip)
    { a with front := { a.front with c := a.config.indexPreset, liveTurn := a.trackTurn } }

/-- An index edge on axis `k`: a qualified one is acted on by the mode in force, HOME while the home request is armed (R114,
R115, R118, R122, R123, R125). -/
def State.indexEdge (s : State) (k : AxisId) (level : Level) : State :=
  let a := s.ax k
  if a.edgeQualified level then
    if a.front.homeRequest then
      (s.updAx k Axis.homeRebase).seekStart k a.config.indexPreset 0
    else
      match a.config.indexMode with
      | .off => s
      | .capture => s.updAx k (Axis.captureValue (.position a.front.c a.front.liveTurn))
      | .track =>
        if a.front.c = a.config.indexPreset then s
        else (s.updAx k Axis.trackRebase).seekStart k a.config.indexPreset a.trackTurn
  else s

/-! ### Input filters (R44) -/

/-- The new level is accepted. -/
def InputFilter.accept (f : InputFilter) : InputFilter := { f with accepted := f.pin, timing := none }

/-- The pin takes a level: a return to the accepted level drops the timing, a new level is accepted at once with width 0, and
is timed with any other width (R44). -/
def InputFilter.change (width : FilterWidth) (level : Level) (f : InputFilter) : InputFilter :=
  if level = f.pin then f
  else if level = f.accepted then { f with pin := level, timing := none }
  else if width = .zero then { pin := level, accepted := level, timing := none }
  else { f with pin := level, timing := some width }

/-- The filter width runs out on a level that is being timed: it becomes the accepted level (R44). -/
def InputFilter.timeout (f : InputFilter) : InputFilter := if f.timing.isSome then f.accept else f

/-- The filters of A and B become `fa` and `fb`; a change of accepted level is handed to the decoder, both in one event when
they change together (R44, R45). -/
def Axis.handOnPair (fa fb : InputFilter) (a : Axis) : Axis :=
  let b : Axis := { a with front := { a.front with inputA := fa, inputB := fb } }
  if fa.accepted = a.front.inputA.accepted ∧ fb.accepted = a.front.inputB.accepted then b else b.decoderEvent

/-- The filter of I becomes `fi`; a change of accepted level is handed to the index unit (R44, R115). -/
def State.handOnIndex (s : State) (k : AxisId) (fi : InputFilter) : State :=
  let a := s.ax k
  let t := s.setAx k { a with front := { a.front with inputI := fi } }
  if fi.accepted = a.front.inputI.accepted then t else t.indexEdge k fi.accepted

/-- A change of pins of axis `k` outside reset (R44). -/
def State.inputChange (s : State) (k : AxisId) (change : InputChange) : State :=
  let a := s.ax k
  let w := a.config.filter
  match change with
  | .a l => s.updAx k (Axis.handOnPair (a.front.inputA.change w l) a.front.inputB)
  | .b l => s.updAx k (Axis.handOnPair a.front.inputA (a.front.inputB.change w l))
  | .ab la lb => s.updAx k (Axis.handOnPair (a.front.inputA.change w la) (a.front.inputB.change w lb))
  | .index l => s.handOnIndex k (a.front.inputI.change w l)

/-- The pins follow the world while the part is held in reset, and nothing acts on them (R156). -/
def FrontEnd.pinChange (f : FrontEnd) (change : InputChange) : FrontEnd :=
  match change with
  | .a l => { f with inputA := { f.inputA with pin := l } }
  | .b l => { f with inputB := { f.inputB with pin := l } }
  | .ab la lb => { f with inputA := { f.inputA with pin := la }, inputB := { f.inputB with pin := lb } }
  | .index l => { f with inputI := { f.inputI with pin := l } }

/-- The filter width of inputs of axis `k` runs out (R44). -/
def State.filterExpires (s : State) (k : AxisId) (input : FilterInput) : State :=
  let f := (s.ax k).front
  match input with
  | .a => s.updAx k (Axis.handOnPair f.inputA.timeout f.inputB)
  | .b => s.updAx k (Axis.handOnPair f.inputA f.inputB.timeout)
  | .ab => s.updAx k (Axis.handOnPair f.inputA.timeout f.inputB.timeout)
  | .index => s.handOnIndex k f.inputI.timeout

/-! ### Rate generator (R51) -/

/-- The generator starts with the full period in force, if the source is RATE (R51). -/
def Axis.startRate (a : Axis) : Axis :=
  if a.config.source = .rate then { a with front := { a.front with rateTimer := some a.config.ratePeriod } } else a

/-- The period runs out: the generator starts again with the period in force and makes one count in the direction in force (R51). -/
def Axis.rateCount (a : Axis) : Axis :=
  Axis.count a.config.rateDirection { a with front := { a.front with rateTimer := some a.config.ratePeriod } }

/-- The generator's period runs out at a tick that it has not taken yet; it takes its part of that tick now, ahead of
TIME_BASE_TICK (R51; Log 6). -/
def Axis.rateExpire (a : Axis) : Axis :=
  if !a.front.rateAhead && reachesZero a.front.rateTimer then
    Axis.rateCount { a with front := { a.front with rateAhead := true } }
  else a

/-! ### The front end's rows -/

/-- AXIS_INPUT_CHANGE (R44). -/
def execAxisInputChange (k : AxisId) (change : InputChange) (s : State) : Host.Outcome State Fault Refusal :=
  .next
    (if s.inReset then s.updAx k (fun a => { a with front := a.front.pinChange change })
    else s.inputChange k change)

/-- FILTER_TIMEOUT (R44). -/
def execFilterTimeout (k : AxisId) (input : FilterInput) (s : State) : Host.Outcome State Fault Refusal :=
  .next (s.filterExpires k input)

/-- RATE_EXPIRY (R51). -/
def execRateExpiry (k : AxisId) (s : State) : Host.Outcome State Fault Refusal := .next (s.updAx k Axis.rateExpire)

end Sys2Proof.Machine
end

