-- ==== Sys2Proof/Machine/Port.lean ====
section
/-! DEFINITION. The Host Port (H-1, H-2): replies, the taking of a request at its CRC byte, and the shape that every host
command's row shares. -/

namespace Sys2Proof.Machine

/-- Reply codes (R144). -/
inductive ReplyCode where
  | ok
  | accepted
  | busy
  | frameError
  | unknown
  | badArg
  | axisState
  | empty
  | notPending
  | noResult
  deriving DecidableEq, Repr

/-- The values of R144. -/
def replyByte : ReplyCode → Byte
  | .ok => 0x00
  | .accepted => 0x01
  | .busy => 0x02
  | .frameError => 0x03
  | .unknown => 0x04
  | .badArg => 0x05
  | .axisState => 0x06
  | .empty => 0x07
  | .notPending => 0x08
  | .noResult => 0x09

/-- A reply: its code and its data (R144). -/
structure Reply where
  code : ReplyCode
  data : List Byte
  deriving DecidableEq, Repr

/-- A reply without data. -/
def bare (code : ReplyCode) : Reply := { code := code, data := [] }

/-- The reply BAD_ARG (R143). -/
def badArg : Reply := bare .badArg

/-- The bytes of a reply frame: code, tag, length, data, CRC (R142, R144). -/
def replyFrame (tag : Byte) (reply : Reply) : List Byte :=
  let body := replyByte reply.code :: tag :: BitVec.ofNat 8 reply.data.length :: reply.data
  body ++ [crc8 body]

/-- What an owner makes of a command: the state after its event, and the reply. -/
abbrev Served := State × Reply

/-- The marker byte (R144). -/
def marker : Byte := 0x5A

/-- The port goes to AWAITING with the reply ready to be sent after 1 to 8 filler bytes; how many is a free value (R144;
Log 5). -/
def State.answer (s : State) (tag : Byte) (reply : Reply) : State :=
  { s with
    port :=
      { s.port with
        phase := .awaiting
        filler := 1 + (Config.extraFiller s.draws).val
        toSend := replyFrame tag reply }
    draws := s.draws + 1 }

/-- A command's owner has served it: its event has its effect, and the reply is made ready (R143, R144). -/
def State.served (tag : Byte) (r : Served) : State := r.1.answer tag r.2

/-- The bytes received so far are the opening of a request in a transaction in hand: the request can complete as `bytes`. -/
def Port.canComplete (p : Port) (bytes : List Byte) : Bool :=
  decide (p.phase = .receiving) && p.received.isPrefixOf bytes

/-- The port has received all of `bytes`, with their running CRC; it sends 0x00 while RECEIVING (R139, R140, R142). -/
def State.receivedAll (s : State) (bytes : List Byte) : State :=
  { s with port := { s.port with received := bytes, crc := crc8 bytes, sdo := .driven 0 } }

/-- A length byte above 32 ends the request: FRAME_ERROR with the tag as received (R141). -/
def State.refuseLength (s : State) (code tag length : Byte) : State :=
  (s.receivedAll [code, tag, length]).answer tag (bare .frameError)

/-- The row of a host command: its request, with a good CRC, completes in the transaction in hand, and its owner serves it
(R143). It is no event of a port that is not RECEIVING or has received other bytes; nothing then changes (Log 1). More than
32 parameters make a bad length (R141; Log 21). -/
def hostCommand (code tag : Byte) (params : List Byte) (serve : State → Served) (s : State) : State :=
  if s.port.canComplete (requestBytes code tag params) then
    if params.length ≤ Config.paramLimit then
      State.served tag (serve (s.receivedAll (requestBytes code tag params)))
    else s.refuseLength code tag (BitVec.ofNat 8 params.length)
  else s

end Sys2Proof.Machine
end

