-- ==== Sys2Proof/Machine/Reads.lean ====
section
/-! DEFINITION. The reads and acknowledgements of the port: IDENT, READ RECORD, READ AXIS, READ CAPTURE, READ LINES, NEXT
PENDING, ACK, ACK AXIS, SET ENABLES, GET RESULT (H-5, chapter 8). -/

namespace Sys2Proof.Machine

/-- A reply OK with data. -/
def okWith (data : List Byte) : Reply := { code := .ok, data := data }

/-- A parameter that names an axis: one byte, 0..3, or BAD_ARG (R143, H-4). -/
def withAxis (b : Byte) (s : State) (serve : AxisId → Served) : Served :=
  match axisOf b with
  | some k => serve k
  | none => (s, badArg)

/-- A parameter that names a handle 1..1024 that the port checks, or BAD_ARG (R143, H-4). -/
def withHandleParam (lo hi : Byte) (s : State) (serve : Handle → Served) : Served :=
  match handleOf (u16 lo hi) with
  | some h => serve h
  | none => (s, badArg)

/-! ### IDENT, READ RECORD -/

/-- The fixed identification values (R148). -/
def identData : List Byte :=
  le16 0x0408 ++ byte1 1 ++ byte1 4 ++ byte1 8 ++ byte1 4 ++ le16 1024 ++ byte1 8 ++ byte1 8

/-- IDENT (R148). -/
def serveIdent (params : List Byte) (s : State) : Served :=
  match params with
  | [] => (s, okWith identData)
  | _ => (s, badArg)

/-- READ RECORD (R19, R149). -/
def serveReadRecord (params : List Byte) (s : State) : Served :=
  match params with
  | [lo, hi] => withHandleParam lo hi s (fun h => (s, okWith (recordImage (s.recordAt h))))
  | _ => (s, badArg)

/-! ### READ AXIS, READ CAPTURE -/

/-- Capture slot kind, value and turn (R150, R152). -/
def slotData (slot : CaptureSlot) : List Byte :=
  match slot with
  | .empty => byte1 0 ++ leInt32 0 ++ leTurn 0
  | .position c t => byte1 1 ++ leInt32 c ++ leTurn t
  | .slip v => byte1 2 ++ leInt32 v ++ leTurn 0

/-- A lag outside the signed 32-bit range is sent as the nearer end (R150). -/
def clipLag (n : Int) : Int := max Config.positionMin (min Config.positionMax n)

/-- The configuration as READ AXIS sends it between the front-end state and the index settings (R150). -/
def configData (c : AxisConfig) : List Byte :=
  byte1 (kindCode c.kind) ++ le32 c.span ++ byte1 (sourceCode c.source) ++ byte1 (boolCode c.strict) ++
    byte1 (filterCode c.filter) ++ le16 c.band ++ le16 c.ratePeriod ++ byte1 (dirCode c.rateDirection)

/-- The handle of the held record, 0 when no fire is held (R80, R150). -/
def heldNumber (v : Evaluator) : Nat :=
  match v.held with
  | some f => handleNumber f.source
  | none => 0

/-- The 56 bytes of READ AXIS (R59, R80, R150). -/
def axisData (a : Axis) : List Byte :=
  byte1 (frontCode a.front.state) ++ configData a.config ++
  byte1 (edgeCode a.config.indexEdge) ++ byte1 (modeCode a.config.indexMode) ++ byte1 (boolCode a.front.homeRequest) ++
    leInt32 a.config.indexPreset ++
  leInt32 a.front.c ++ leTurn a.front.liveTurn ++
  slotData a.front.slot ++
  byte1 (evalCode a.eval.state) ++ leInt32 a.eval.e ++ leTurn a.eval.evalTurn ++ leInt32 (clipLag a.lag) ++
  byte1 a.eval.bank.val ++ byte1 a.eval.guard.length ++ le16 (heldNumber a.eval) ++ byte1 (boolCode a.eval.settle) ++
  le16 a.list.length ++ le16 (a.cursor.getD 0xFFFF) ++
  [a.flags, a.mask]

/-- READ AXIS (R150). -/
def serveReadAxis (params : List Byte) (s : State) : Served :=
  match params with
  | [ax] => withAxis ax s (fun k => (s, okWith (axisData (s.ax k))))
  | _ => (s, badArg)

/-- READ CAPTURE: the slot is returned and emptied, or EMPTY (R119). -/
def serveReadCapture (params : List Byte) (s : State) : Served :=
  match params with
  | [ax] =>
    withAxis ax s (fun k =>
      match (s.ax k).front.slot with
      | .empty => (s, bare .empty)
      | slot => (s.updAx k (fun a => { a with front := { a.front with slot := .empty } }), okWith (slotData slot)))
  | _ => (s, badArg)

/-! ### READ LINES -/

/-- The status byte of a line (R152). -/
def lineStatus (l : Line) : Nat :=
  (match l.mode with
    | .released => 0
    | .forced level => 1 + 2 * levelCode level) +
  4 * levelCode l.shadow + 8 * levelCode l.pin + 16 * boolCode l.timer.isSome

/-- The three bytes of a line: status, remaining time (R152). -/
def lineData (l : Line) : List Byte := byte1 (lineStatus l) ++ le16 (l.timer.getD 0)

/-- The levels of Q0..Q3 in bits 3:0 (R152). -/
def qualifierBits (q : Vector Level 4) : Nat :=
  levelCode (q.get 0) + 2 * levelCode (q.get 1) + 4 * levelCode (q.get 2) + 8 * levelCode (q.get 3)

/-- READ LINES (R91, R152). -/
def serveReadLines (params : List Byte) (s : State) : Served :=
  match params with
  | [] => (s, okWith (s.lines.toList.flatMap lineData ++ byte1 (qualifierBits s.qualifiers)))
  | _ => (s, badArg)

/-! ### NEXT PENDING, ACK -/

/-- What NEXT PENDING tells of a record (R129, R152). -/
def pendingData (h : Handle) (r : Record) : List Byte :=
  le16 (handleNumber h) ++ byte1 (recordStateCode r.state) ++ byte1 r.axis.val ++ byte1 r.unacked ++
    byte1 (boolCode r.linkFault) ++ byte1 (boolCode r.lastFire.isSome) ++
    match r.lastFire with
    | some f => leInt32 f.position ++ leTurn f.turn ++ byte1 (dirCode f.direction)
    | none => [0, 0, 0, 0, 0, 0, 0]

/-- The lowest member of the pending set at or above a handle (R129). -/
def State.lowestPending (s : State) (start : Handle) : Option Handle :=
  s.pendingSet.find? (fun h => decide (start ≤ h))

/-- The reply of NEXT PENDING from a start handle, with the attention summary (R129). -/
def State.nextPendingReply (s : State) (start : Handle) : Reply :=
  match s.lowestPending start with
  | some h => okWith (pendingData h (s.recordAt h) ++ s.attentionSummary)
  | none => { code := .empty, data := s.attentionSummary }

/-- NEXT PENDING, with no argument or a start handle (R129). -/
def serveNextPending (params : List Byte) (s : State) : Served :=
  match params with
  | [] => (s, s.nextPendingReply 0)
  | [lo, hi] => withHandleParam lo hi s (fun h => (s, s.nextPendingReply h))
  | _ => (s, badArg)

/-- The acknowledgement of a pending record, with auto-release (R18, R130). -/
def State.acknowledge (s : State) (h : Handle) : State :=
  (s.putRecord h { s.recordAt h with unacked := 0, linkFault := false }).autoRelease h

/-- ACK (R130). -/
def serveAck (params : List Byte) (s : State) : Served :=
  match params with
  | [lo, hi] =>
    withHandleParam lo hi s (fun h =>
      let r := s.recordAt h
      if s.pendingSet.contains h then (s.acknowledge h, okWith (byte1 r.unacked ++ byte1 (boolCode r.linkFault)))
      else (s, bare .notPending))
  | _ => (s, badArg)

/-! ### ACK AXIS, SET ENABLES, GET RESULT -/

/-- ACK AXIS (R133). -/
def serveAckAxis (params : List Byte) (s : State) : Served :=
  match params with
  | [ax, clear] =>
    withAxis ax s (fun k =>
      (s.updAx k (fun a => { a with flags := a.flags &&& ~~~clear }), okWith [(s.ax k).flags]))
  | _ => (s, badArg)

/-- Give axis `k` an enable mask. -/
def State.setMask (s : State) (k : AxisId) (mask : Byte) : State := s.updAx k (fun a => { a with mask := mask })

/-- SET ENABLES: an enable byte of 0 clears, any other sets (R135, R146). -/
def serveSetEnables (params : List Byte) (s : State) : Served :=
  match params with
  | [p, d, m0, m1, m2, m3] =>
    let t := (((s.setMask 0 m0).setMask 1 m1).setMask 2 m2).setMask 3 m3
    ({ t with pendingEnable := decide (p ≠ 0), doneEnable := decide (d ≠ 0) }, bare .ok)
  | _ => (s, badArg)

/-- Queue entries in use, stalled adders and occupant kind, as GET RESULT shows them (R97, R153). -/
def engineData (g : Engine) : List Byte :=
  byte1 g.queue.length ++ byte1 g.stalled.length ++ byte1 (occupantCode g.occupant)

/-- The tag of the command the mailbox holds, 0 when it holds none (R153). -/
def heldTag : Mailbox → Byte
  | .waiting r => r.tag
  | .inProgress r => r.tag
  | _ => 0

/-- The reply of GET RESULT (R97, R153). -/
def resultReply (g : Engine) : Reply :=
  match g.mailbox with
  | .done r => okWith (byte1 (resultCode r.code) ++ [r.tag] ++ le16 r.data ++ engineData g)
  | m => { code := .noResult, data := byte1 (mailboxCode m) ++ [heldTag m] ++ engineData g }

/-- GET RESULT (R97). -/
def serveGetResult (params : List Byte) (s : State) : Served :=
  match params with
  | [] => (s, resultReply s.engine)
  | _ => (s, badArg)

/-! ### The rows -/

/-- IDENT (R148). -/
def execIdent (tag : Byte) (params : List Byte) (s : State) : Host.Outcome State Fault Refusal :=
  .next (hostCommand 0x01 tag params (serveIdent params) s)

/-- READ_RECORD (R149). -/
def execReadRecord (tag : Byte) (params : List Byte) (s : State) : Host.Outcome State Fault Refusal :=
  .next (hostCommand 0x02 tag params (serveReadRecord params) s)

/-- READ_AXIS (R150). -/
def execReadAxis (tag : Byte) (params : List Byte) (s : State) : Host.Outcome State Fault Refusal :=
  .next (hostCommand 0x03 tag params (serveReadAxis params) s)

/-- READ_CAPTURE (R119). -/
def execReadCapture (tag : Byte) (params : List Byte) (s : State) : Host.Outcome State Fault Refusal :=
  .next (hostCommand 0x04 tag params (serveReadCapture params) s)

/-- READ_LINES (R91). -/
def execReadLines (tag : Byte) (params : List Byte) (s : State) : Host.Outcome State Fault Refusal :=
  .next (hostCommand 0x05 tag params (serveReadLines params) s)

/-- NEXT_PENDING (R129). -/
def execNextPending (tag : Byte) (params : List Byte) (s : State) : Host.Outcome State Fault Refusal :=
  .next (hostCommand 0x06 tag params (serveNextPending params) s)

/-- ACK (R130). -/
def execAck (tag : Byte) (params : List Byte) (s : State) : Host.Outcome State Fault Refusal :=
  .next (hostCommand 0x07 tag params (serveAck params) s)

/-- ACK_AXIS (R133). -/
def execAckAxis (tag : Byte) (params : List Byte) (s : State) : Host.Outcome State Fault Refusal :=
  .next (hostCommand 0x08 tag params (serveAckAxis params) s)

/-- SET_ENABLES (R135). -/
def execSetEnables (tag : Byte) (params : List Byte) (s : State) : Host.Outcome State Fault Refusal :=
  .next (hostCommand 0x17 tag params (serveSetEnables params) s)

/-- GET_RESULT (R97). -/
def execGetResult (tag : Byte) (params : List Byte) (s : State) : Host.Outcome State Fault Refusal :=
  .next (hostCommand 0x18 tag params (serveGetResult params) s)

end Sys2Proof.Machine
end

