-- ==== Sys2Proof/Machine/AxisCommands.lean ====
section
/-! DEFINITION. The host commands to an axis: CONFIGURE AXIS, START, STOP, SET POSITION, HOME, RESYNC, SET BANK (F-2, F-6,
R38, R120). -/

namespace Sys2Proof.Machine

/-! ### CONFIGURE AXIS -/

/-- The configuration that the 19 parameter bytes after the axis spell, with the codes of H-4; none for a code outside the
values of its field (R41). -/
def configOf (params : List Byte) : Option AxisConfig :=
  match params with
  | [kind, s0, s1, s2, s3, src, strict, filter, b0, b1, p0, p1, dir, edge, mode, x0, x1, x2, x3] => do
    let kind ← kindOf kind
    let source ← sourceOf src
    let strict ← strictOf strict
    let filter ← filterOf filter
    let dir ← dirOf dir
    let edge ← edgeOf edge
    let mode ← modeOf mode
    return {
      kind := kind
      span := u32 s0 s1 s2 s3
      source := source
      strict := strict
      filter := filter
      band := u16 b0 b1
      ratePeriod := u16 p0 p1
      rateDirection := dir
      indexEdge := edge
      indexMode := mode
      indexPreset := i32 x0 x1 x2 x3 }
  | _ => none

/-- The span lies in 1,024..1,073,741,824. -/
def spanValid (span : Nat) : Bool := decide (Config.spanMin ≤ span) && decide (span ≤ Config.spanMax)

/-- The argument checks of CONFIGURE AXIS beside the codes (R41). -/
def configValid (c : AxisConfig) : Bool :=
  decide (c.band ≤ Config.bandMax) && decide (c.ratePeriod ≠ 0) &&
    match c.kind with
    | .linear => decide (c.indexMode ≠ .track)
    | .rotary =>
      spanValid c.span && decide (c.band ≤ c.span / 4) && decide (0 ≤ c.indexPreset) && decide (c.indexPreset < c.span)

/-- With kind LINEAR a span outside its range is not stored: the span in force is kept (R41). -/
def configStored (old new : AxisConfig) : AxisConfig :=
  if new.kind = .linear ∧ spanValid new.span = false then { new with span := old.span } else new

/-- The kind or the span changes; on a LINEAR axis a span alone does not count (R42). -/
def kindOrSpanChanges (old new : AxisConfig) : Bool :=
  decide (old.kind ≠ new.kind) || (decide (old.kind = .rotary) && decide (old.span ≠ new.span))

/-- The engine holds an operation that has still to link a record into list `k`: an ARM, the relink part of a MOVE, or a link
request (R42; Log 24). -/
def Engine.linksInto (g : Engine) (k : AxisId) : Bool :=
  match g.occupant with
  | .mailbox (.arm _ j _) => decide (j = k)
  | .mailbox (.moveRelink _ j _) => decide (j = k)
  | .link _ j _ => decide (j = k)
  | _ => false

/-- The state checks of CONFIGURE AXIS: true when the command is refused with AXIS_STATE (R42). -/
def State.configRefused (s : State) (k : AxisId) (new : AxisConfig) : Bool :=
  let a := s.ax k
  let place := kindOrSpanChanges a.config new
  ((place || decide (a.config.source ≠ new.source)) && decide (a.front.state ≠ .halted)) ||
    (place && !a.list.isEmpty) || (place && s.engine.linksInto k)

/-- A timing in progress starts again at the new width (R43). -/
def InputFilter.restart (width : FilterWidth) (f : InputFilter) : InputFilter :=
  { f with timing := f.timing.map (fun _ => width) }

/-- A change of source: the stored pair is taken afresh, the rate generator is IDLE (R43). -/
def FrontEnd.newSource (f : FrontEnd) : FrontEnd :=
  { f with storedA := f.inputA.accepted, storedB := f.inputB.accepted, rateTimer := none }

/-- A change of filter width (R43). -/
def FrontEnd.newFilter (width : FilterWidth) (f : FrontEnd) : FrontEnd :=
  { f with
    inputA := f.inputA.restart width
    inputB := f.inputB.restart width
    inputI := f.inputI.restart width }

/-- A change of kind or span: C and the live turn go to 0, the slot is emptied, the home request withdrawn (R43, R116). -/
def FrontEnd.newPlace (f : FrontEnd) : FrontEnd :=
  { f with c := 0, liveTurn := 0, slot := .empty, homeRequest := false }

/-- Apply `f` where a field changes. -/
def onChange (changed : Bool) (f : FrontEnd → FrontEnd) (x : FrontEnd) : FrontEnd := if changed then f x else x

/-- The changes an accepted CONFIGURE AXIS makes at the axis, each for a field that differs (R43, R116). -/
def Axis.configured (new : AxisConfig) (a : Axis) : Axis :=
  let old := a.config
  { a with
    config := new
    front :=
      onChange (kindOrSpanChanges old new) FrontEnd.newPlace
        (onChange (decide (old.indexMode ≠ new.indexMode)) (fun f => { f with homeRequest := false })
          (onChange (decide (old.filter ≠ new.filter)) (FrontEnd.newFilter new.filter)
            (onChange (decide (old.source ≠ new.source)) FrontEnd.newSource a.front)))
    eval := if old.band ≠ new.band then { a.eval with guard := [] } else a.eval }

/-- An accepted CONFIGURE AXIS; a change of kind or span orders a seek to position 0, turn 0 (R43, R76). -/
def State.configure (s : State) (k : AxisId) (new : AxisConfig) : State :=
  let t := s.updAx k (Axis.configured new)
  if kindOrSpanChanges (s.ax k).config new then t.seekStart k 0 0 else t

/-- CONFIGURE AXIS (R41, R42, R43). -/
def serveConfigureAxis (params : List Byte) (s : State) : Served :=
  match params with
  | ax :: rest =>
    if rest.length = 19 then
      withAxis ax s (fun k =>
        match configOf rest with
        | none => (s, badArg)
        | some given =>
          if configValid given then
            let new := configStored (s.ax k).config given
            if s.configRefused k new then (s, bare .axisState) else (s.configure k new, bare .ok)
          else (s, badArg))
    else (s, badArg)
  | _ => (s, badArg)

/-! ### START, STOP, SET POSITION, HOME, RESYNC, SET BANK -/

/-- START of a HALTED front end: it is COUNTING, its rate generator starts, an outstanding settle notice is withdrawn (R55,
R79). -/
def Axis.started (a : Axis) : Axis :=
  Axis.startRate
    { a with front := { a.front with state := .counting }, eval := { a.eval with settle := false } }

/-- START (R55). -/
def serveStart (params : List Byte) (s : State) : Served :=
  match params with
  | [ax] =>
    withAxis ax s (fun k =>
      match (s.ax k).front.state with
      | .halted => (s.updAx k Axis.started, bare .ok)
      | .counting => (s, bare .ok)
      | .faultedPhase => (s, bare .axisState)
      | .faultedRange => (s, bare .axisState))
  | _ => (s, badArg)

/-- STOP from any state: the front end is HALTED, its rate generator IDLE, and the evaluator has a settle notice, which a
TRACKING evaluator with E equal to C settles at once (R56, R79). -/
def Axis.stopped (a : Axis) : Axis :=
  Axis.settleIfTracking
    { a with
      front := { a.front with state := .halted, rateTimer := none }
      eval := { a.eval with settle := true } }

/-- STOP (R56). -/
def serveStop (params : List Byte) (s : State) : Served :=
  match params with
  | [ax] => withAxis ax s (fun k => (s.updAx k Axis.stopped, bare .ok))
  | _ => (s, badArg)

/-- SET POSITION: the position is checked first (R57; Log 11), then the state. -/
def serveSetPosition (params : List Byte) (s : State) : Served :=
  match params with
  | [ax, p0, p1, p2, p3] =>
    withAxis ax s (fun k =>
      let p := i32 p0 p1 p2 p3
      if inRange (s.ax k).config p then
        if (s.ax k).front.state = .halted then
          ((s.updAx k (fun a => { a with front := { a.front with c := p, liveTurn := 0 } })).seekStart k p 0, bare .ok)
        else (s, bare .axisState)
      else (s, badArg))
  | _ => (s, badArg)

/-- HOME (R120). -/
def serveHome (params : List Byte) (s : State) : Served :=
  match params with
  | [ax] =>
    withAxis ax s (fun k =>
      if (s.ax k).front.state = .counting then
        (s.updAx k (fun a => { a with front := { a.front with homeRequest := true } }), bare .ok)
      else (s, bare .axisState))
  | _ => (s, badArg)

/-- A front-end fault is cleared: the front end goes to COUNTING and its rate generator starts (R58). -/
def Axis.resynced (a : Axis) : Axis :=
  if a.front.state = .counting then a else Axis.startRate { a with front := { a.front with state := .counting } }

/-- RESYNC: a seek to C and the live turn as they stand (R58, R78). -/
def serveResync (params : List Byte) (s : State) : Served :=
  match params with
  | [ax] =>
    withAxis ax s (fun k =>
      let a := s.ax k
      if a.front.state = .halted then (s, bare .axisState)
      else ((s.updAx k Axis.resynced).seekStart k a.front.c a.front.liveTurn, bare .ok))
  | _ => (s, badArg)

/-- SET BANK (R38). -/
def serveSetBank (params : List Byte) (s : State) : Served :=
  match params with
  | [ax, b] =>
    withAxis ax s (fun k =>
      match bankOf b with
      | some bank => (s.updAx k (fun a => { a with eval := { a.eval with bank := bank } }), bare .ok)
      | none => (s, badArg))
  | _ => (s, badArg)

/-! ### The rows -/

/-- CONFIGURE_AXIS (R41). -/
def execConfigureAxis (tag : Byte) (params : List Byte) (s : State) : Host.Outcome State Fault Refusal :=
  .next (hostCommand 0x10 tag params (serveConfigureAxis params) s)

/-- START (R55). -/
def execStart (tag : Byte) (params : List Byte) (s : State) : Host.Outcome State Fault Refusal :=
  .next (hostCommand 0x11 tag params (serveStart params) s)

/-- STOP (R56). -/
def execStop (tag : Byte) (params : List Byte) (s : State) : Host.Outcome State Fault Refusal :=
  .next (hostCommand 0x12 tag params (serveStop params) s)

/-- SET_POSITION (R57). -/
def execSetPosition (tag : Byte) (params : List Byte) (s : State) : Host.Outcome State Fault Refusal :=
  .next (hostCommand 0x13 tag params (serveSetPosition params) s)

/-- HOME (R120). -/
def execHome (tag : Byte) (params : List Byte) (s : State) : Host.Outcome State Fault Refusal :=
  .next (hostCommand 0x14 tag params (serveHome params) s)

/-- RESYNC (R58). -/
def execResync (tag : Byte) (params : List Byte) (s : State) : Host.Outcome State Fault Refusal :=
  .next (hostCommand 0x15 tag params (serveResync params) s)

/-- SET_BANK (R38). -/
def execSetBank (tag : Byte) (params : List Byte) (s : State) : Host.Outcome State Fault Refusal :=
  .next (hostCommand 0x16 tag params (serveSetBank params) s)

end Sys2Proof.Machine
end

