-- ==== Sys2Proof/Machine/LineCommands.lean ====
section
/-! DEFINITION. The Line Driver's rows: FORCE LINE, RELEASE LINE, pulse expiry, the time base, and the Q inputs (chapter 5). -/

namespace Sys2Proof.Machine

/-- Place `k` of a mask (R146). -/
def maskBit (mask : Byte) (k : Nat) : Bool := mask.getLsbD k

/-- Set the mode of each line that the mask names, in one event (R88, R89). -/
def State.setModes (s : State) (mask : Byte) (mode : LineId → LineMode) : State :=
  { s with
    lines := Vector.ofFn (fun l : LineId => if maskBit mask l.val then { s.line l with mode := mode l } else s.line l) }

/-- FORCE LINE (R88). -/
def serveForceLine (params : List Byte) (s : State) : Served :=
  match params with
  | [mask, levels] =>
    if mask = 0 then (s, badArg)
    else (s.setModes mask (fun l => .forced (levelOf (maskBit levels l.val))), bare .ok)
  | _ => (s, badArg)

/-- RELEASE LINE (R89). -/
def serveReleaseLine (params : List Byte) (s : State) : Served :=
  match params with
  | [mask] => if mask = 0 then (s, badArg) else (s.setModes mask (fun _ => .released), bare .ok)
  | _ => (s, badArg)

/-! ### Expiry and the time base (R51, R85) -/

/-- The timer of a line runs out at a tick that the line has not taken yet; the line takes its part of that tick now, ahead of
TIME_BASE_TICK (R85; Log 6). -/
def Line.takeExpiry (l : Line) : Line :=
  if !l.ahead && reachesZero l.timer then { l.expire with ahead := true } else l

/-- One tick at a line: the remaining time is lowered by 1, and the timer expires when that brings it to 0 (R85, R86). A line
that has taken this tick ahead only falls in with the others (Log 6). -/
def Line.tick (l : Line) : Line :=
  if l.ahead then { l with ahead := false }
  else if reachesZero l.timer then l.expire
  else { l with timer := lowered l.timer }

/-- One tick at the rate generator of an axis: the remaining time is lowered by 1, and the period runs out when that brings it to
0 (R51). A generator that has taken this tick ahead only falls in with the others (Log 6). -/
def Axis.tick (a : Axis) : Axis :=
  if a.front.rateAhead then { a with front := { a.front with rateAhead := false } }
  else if reachesZero a.front.rateTimer then a.rateCount
  else { a with front := { a.front with rateTimer := lowered a.front.rateTimer } }

/-- One tick of the 1 µs time base at every line and every axis (R51, R85). -/
def State.tick (s : State) : State := { s with lines := s.lines.map Line.tick, axes := s.axes.map Axis.tick }

/-! ### The rows -/

/-- FORCE_LINE (R88). -/
def execForceLine (tag : Byte) (params : List Byte) (s : State) : Host.Outcome State Fault Refusal :=
  .next (hostCommand 0x09 tag params (serveForceLine params) s)

/-- RELEASE_LINE (R89). -/
def execReleaseLine (tag : Byte) (params : List Byte) (s : State) : Host.Outcome State Fault Refusal :=
  .next (hostCommand 0x0A tag params (serveReleaseLine params) s)

/-- PULSE_EXPIRY (R85). -/
def execPulseExpiry (l : LineId) (s : State) : Host.Outcome State Fault Refusal :=
  .next (s.setLine l (s.line l).takeExpiry)

/-- TIME_BASE_TICK (R85). -/
def execTimeBaseTick (s : State) : Host.Outcome State Fault Refusal := .next s.tick

/-- QUALIFIER_INPUT_CHANGE: the new level is what gate checks and READ LINES read from then on (R65). -/
def execQualifierInputChange (q : QualId) (level : Level) (s : State) : Host.Outcome State Fault Refusal :=
  .next { s with qualifiers := s.qualifiers.set q.val level q.isLt }

end Sys2Proof.Machine
end

