-- ==== Sys2Proof/Machine/TableCommands.lean ====
section
/-! DEFINITION. The table commands at the port: each is handed to the mailbox, which answers ACCEPTED or BUSY (R95, R147). -/

namespace Sys2Proof.Machine

/-- A table command that has passed the port's checks is handed to the mailbox with its tag (R95, R147). -/
def toMailbox (tag : Byte) (command : TableCommand) (s : State) : Served :=
  let taken := s.mailboxTake { tag := tag, command := command }
  (taken.1, bare (if taken.2 then .accepted else .busy))

/-- ALLOCATE has no parameters (R102, H-4). -/
def serveAllocate (tag : Byte) (params : List Byte) (s : State) : Served :=
  match params with
  | [] => toMailbox tag .allocate s
  | _ => (s, badArg)

/-- STAGE carries a handle and image bytes 0..16 (R103, R151, H-4). -/
def serveStage (tag : Byte) (params : List Byte) (s : State) : Served :=
  match params with
  | lo :: hi :: image => if image.length = 17 then toMailbox tag (.stage (u16 lo hi) image) s else (s, badArg)
  | _ => (s, badArg)

/-- ARM names a handle (R104, H-4). -/
def serveArm (tag : Byte) (params : List Byte) (s : State) : Served :=
  match params with
  | [lo, hi] => toMailbox tag (.arm (u16 lo hi)) s
  | _ => (s, badArg)

/-- DISARM names a handle (R106, H-4). -/
def serveDisarm (tag : Byte) (params : List Byte) (s : State) : Served :=
  match params with
  | [lo, hi] => toMailbox tag (.disarm (u16 lo hi)) s
  | _ => (s, badArg)

/-- MOVE names a handle and a new position (R107, H-4). -/
def serveMove (tag : Byte) (params : List Byte) (s : State) : Served :=
  match params with
  | [lo, hi, p0, p1, p2, p3] => toMailbox tag (.move (u16 lo hi) (i32 p0 p1 p2 p3)) s
  | _ => (s, badArg)

/-- RELEASE names a handle (R108, H-4). -/
def serveRelease (tag : Byte) (params : List Byte) (s : State) : Served :=
  match params with
  | [lo, hi] => toMailbox tag (.release (u16 lo hi)) s
  | _ => (s, badArg)

/-- RETIRE BANK names an axis and a bank, which the port checks (R109, H-4). -/
def serveRetireBank (tag : Byte) (params : List Byte) (s : State) : Served :=
  match params with
  | [ax, b] =>
    withAxis ax s (fun k =>
      match bankOf b with
      | some bank => toMailbox tag (.retireBank k bank) s
      | none => (s, badArg))
  | _ => (s, badArg)

/-! ### The rows -/

/-- ALLOCATE (R102). -/
def execAllocate (tag : Byte) (params : List Byte) (s : State) : Host.Outcome State Fault Refusal :=
  .next (hostCommand 0x20 tag params (serveAllocate tag params) s)

/-- STAGE (R103). -/
def execStage (tag : Byte) (params : List Byte) (s : State) : Host.Outcome State Fault Refusal :=
  .next (hostCommand 0x21 tag params (serveStage tag params) s)

/-- ARM (R104). -/
def execArm (tag : Byte) (params : List Byte) (s : State) : Host.Outcome State Fault Refusal :=
  .next (hostCommand 0x22 tag params (serveArm tag params) s)

/-- DISARM (R106). -/
def execDisarm (tag : Byte) (params : List Byte) (s : State) : Host.Outcome State Fault Refusal :=
  .next (hostCommand 0x23 tag params (serveDisarm tag params) s)

/-- MOVE (R107). -/
def execMove (tag : Byte) (params : List Byte) (s : State) : Host.Outcome State Fault Refusal :=
  .next (hostCommand 0x24 tag params (serveMove tag params) s)

/-- RELEASE (R108). -/
def execRelease (tag : Byte) (params : List Byte) (s : State) : Host.Outcome State Fault Refusal :=
  .next (hostCommand 0x25 tag params (serveRelease tag params) s)

/-- RETIRE_BANK (R109). -/
def execRetireBank (tag : Byte) (params : List Byte) (s : State) : Host.Outcome State Fault Refusal :=
  .next (hostCommand 0x26 tag params (serveRetireBank tag params) s)

end Sys2Proof.Machine
end

