-- ==== Sys2Proof/Machine/Spi.lean ====
section
/-! DEFINITION. The SPI transaction byte by byte (H-1, H-2): the dispatch of H-4, RESET, FRAME_ERROR, UNKNOWN, and the rows of
nCS and SCK. -/

namespace Sys2Proof.Machine

/-- RESET is answered OK; its effect is held until the nCS rise that ends the transaction (R154). -/
def serveReset (params : List Byte) (s : State) : Served :=
  match params with
  | [] => ({ s with port := { s.port with resetHeld := true } }, bare .ok)
  | _ => (s, badArg)

/-- The dispatch table of H-4: the owner of each command code, none for a code it does not list (R143). -/
def ownerOf (code tag : Byte) (params : List Byte) : Option (State → Served) :=
  match code.toNat with
  | 0x01 => some (serveIdent params)
  | 0x02 => some (serveReadRecord params)
  | 0x03 => some (serveReadAxis params)
  | 0x04 => some (serveReadCapture params)
  | 0x05 => some (serveReadLines params)
  | 0x06 => some (serveNextPending params)
  | 0x07 => some (serveAck params)
  | 0x08 => some (serveAckAxis params)
  | 0x09 => some (serveForceLine params)
  | 0x0A => some (serveReleaseLine params)
  | 0x10 => some (serveConfigureAxis params)
  | 0x11 => some (serveStart params)
  | 0x12 => some (serveStop params)
  | 0x13 => some (serveSetPosition params)
  | 0x14 => some (serveHome params)
  | 0x15 => some (serveResync params)
  | 0x16 => some (serveSetBank params)
  | 0x17 => some (serveSetEnables params)
  | 0x18 => some (serveGetResult params)
  | 0x1F => some (serveReset params)
  | 0x20 => some (serveAllocate tag params)
  | 0x21 => some (serveStage tag params)
  | 0x22 => some (serveArm tag params)
  | 0x23 => some (serveDisarm tag params)
  | 0x24 => some (serveMove tag params)
  | 0x25 => some (serveRelease tag params)
  | 0x26 => some (serveRetireBank tag params)
  | _ => none

/-- A request with a good CRC is taken: UNKNOWN for a code outside H-4, and otherwise its owner serves it (R143). -/
def takeRequest (code tag : Byte) (params : List Byte) (s : State) : State :=
  match ownerOf code tag params with
  | some serve => State.served tag (serve s)
  | none => s.answer tag (bare .unknown)

/-- The CRC byte of a request is complete: a mismatch takes no command and is answered FRAME_ERROR (R142). -/
def closeRequest (code tag : Byte) (params : List Byte) (crc : Byte) (s : State) : State :=
  if crc = crc8 (requestBytes code tag params) then takeRequest code tag params s
  else s.answer tag (bare .frameError)

/-- A request with any code and any CRC byte completes in the transaction in hand (Log 1, Log 21). -/
def hostRequest (code tag : Byte) (params : List Byte) (crc : Byte) (s : State) : State :=
  if s.port.canComplete (requestBytes code tag params) then
    if params.length ≤ Config.paramLimit then
      closeRequest code tag params crc (s.receivedAll (requestBytes code tag params))
    else s.refuseLength code tag (BitVec.ofNat 8 params.length)
  else s

/-! ### Bytes (R139, R140, R141, R144) -/

/-- A request byte is taken into the request and the running CRC; the part sends 0x00 (R139, R140). -/
def Port.take (p : Port) (byte : Byte) : Port :=
  { p with received := p.received ++ [byte], crc := crcByte p.crc byte, sdo := .driven 0 }

/-- A byte completes while RECEIVING: it is the length byte, the CRC byte, or another byte of the request (R141, R142). -/
def State.receiveByte (s : State) (byte : Byte) : State :=
  match s.port.received with
  | [_, tag] =>
    let t := { s with port := s.port.take byte }
    if Config.paramLimit < byte.toNat then t.answer tag (bare .frameError) else t
  | code :: tag :: length :: params =>
    if params.length = length.toNat then
      let t := { s with port := { s.port with sdo := .driven 0 } }
      if byte = s.port.crc then takeRequest code tag params t else t.answer tag (bare .frameError)
    else { s with port := s.port.take byte }
  | _ => { s with port := s.port.take byte }

/-- A byte completes while AWAITING: filler while any is left, then the marker (R144). -/
def Port.sendFiller (p : Port) : Port :=
  match p.filler with
  | n + 1 => { p with filler := n, sdo := .driven 0 }
  | 0 => { p with phase := .replying, sdo := .driven marker }

/-- A byte completes while REPLYING: the next byte of the reply; after its CRC byte the port is DRAINING (R139, R144). -/
def Port.sendReply (p : Port) : Port :=
  match p.toSend with
  | [] => { p with phase := .draining, sdo := .driven 0 }
  | [last] => { p with phase := .draining, toSend := [], sdo := .driven last }
  | b :: rest => { p with toSend := rest, sdo := .driven b }

/-- A byte completes at the eighth rising SCK edge (R140). IDLE, SCK and SDI are not acted on, but for the 0x00 of a transaction
that is ignored whole (R154). -/
def State.byteComplete (s : State) (byte : Byte) : State :=
  match s.port.phase with
  | .idle => if s.port.ignoring then { s with port := { s.port with sdo := .driven 0 } } else s
  | .receiving => s.receiveByte byte
  | .awaiting => { s with port := s.port.sendFiller }
  | .replying => { s with port := s.port.sendReply }
  | .draining => { s with port := { s.port with sdo := .driven 0 } }

/-! ### nCS (R139, R145, R154, R155) -/

/-- nCS falls: a transaction starts, unless the part is held in reset; while a reset completes, it is ignored whole (R139, R154,
R155). SDO drives from this edge, with the first byte that the part sends, 0x00 (R140, R154). An edge needs nCS to have been
high. -/
def State.selectPort (s : State) : State :=
  if s.ncs = .low then s
  else if s.inReset then { s with ncs := .low }
  else if s.port.resetting then { s with ncs := .low, port := { s.port with ignoring := true, sdo := .driven 0 } }
  else
    { s with
      ncs := .low
      port := { Port.initial with phase := .receiving, crc := crcInit, sdo := .driven 0 } }

/-- nCS rises: the transaction ends in the phase it finds, the port goes IDLE (R145) and SDO goes high impedance
(R140). An accepted RESET now has its effect (R154). -/
def State.deselectPort (s : State) : State :=
  if s.ncs = .high then s
  else if s.port.resetHeld then
    let t := { s with ncs := .high }.resetBlocks
    { t with port := { Port.initial with resetting := true } }
  else { s with ncs := .high, port := { Port.initial with resetting := s.port.resetting } }

/-! ### The rows -/

/-- TRANSACTION_START (R139). -/
def execTransactionStart (s : State) : Host.Outcome State Fault Refusal := .next s.selectPort

/-- DESELECT (R145). -/
def execDeselect (s : State) : Host.Outcome State Fault Refusal := .next s.deselectPort

/-- SPI_BYTE_COMPLETE (R140). -/
def execSpiByteComplete (byte : Byte) (s : State) : Host.Outcome State Fault Refusal := .next (s.byteComplete byte)

/-- BAD_LENGTH: the length byte completes; above 32 it ends the request (R141), else it is a request byte like any other (Log
21). -/
def execBadLength (code tag length : Byte) (s : State) : Host.Outcome State Fault Refusal :=
  .next
    (if s.port.canComplete [code, tag, length] then
      if Config.paramLimit < length.toNat then s.refuseLength code tag length
      else s.receivedAll [code, tag, length]
    else s)

/-- FRAME_ERROR: a request completes with a CRC byte that does not match (R142). -/
def execFrameError (code tag : Byte) (params : List Byte) (crc : Byte) (s : State) : Host.Outcome State Fault Refusal :=
  .next (hostRequest code tag params crc s)

/-- UNKNOWN: a request completes with a good CRC and a code outside H-4 (R143). -/
def execUnknown (code tag : Byte) (params : List Byte) (s : State) : Host.Outcome State Fault Refusal :=
  .next (hostRequest code tag params (crc8 (requestBytes code tag params)) s)

/-- RESET (R154). -/
def execReset (tag : Byte) (params : List Byte) (s : State) : Host.Outcome State Fault Refusal :=
  .next (hostCommand 0x1F tag params (serveReset params) s)

/-- RESET_COMPLETE: the reset of a RESET command completes, and the port takes transactions again (R154). -/
def execResetComplete (s : State) : Host.Outcome State Fault Refusal :=
  .next { s with port := { s.port with resetting := false } }

end Sys2Proof.Machine
end

