-- ==== Sys2Proof/Machine/Dispatch.lean ====
section
/-! DEFINITION. exec: one arm per command, each one direct call of its meaning. -/

namespace Sys2Proof.Machine

/-- The effect of a command on everything but the queue. -/
def exec (i : Instr) (s : State) : Host.Outcome State Fault Refusal :=
  match i with
  | .transactionStart => Sys2Proof.Machine.execTransactionStart s
  | .deselect => Sys2Proof.Machine.execDeselect s
  | .badLength code tag length => Sys2Proof.Machine.execBadLength code tag length s
  | .frameError code tag params crc => Sys2Proof.Machine.execFrameError code tag params crc s
  | .unknown code tag params => Sys2Proof.Machine.execUnknown code tag params s
  | .ident tag params => Sys2Proof.Machine.execIdent tag params s
  | .readRecord tag params => Sys2Proof.Machine.execReadRecord tag params s
  | .readAxis tag params => Sys2Proof.Machine.execReadAxis tag params s
  | .readCapture tag params => Sys2Proof.Machine.execReadCapture tag params s
  | .readLines tag params => Sys2Proof.Machine.execReadLines tag params s
  | .nextPending tag params => Sys2Proof.Machine.execNextPending tag params s
  | .ack tag params => Sys2Proof.Machine.execAck tag params s
  | .ackAxis tag params => Sys2Proof.Machine.execAckAxis tag params s
  | .forceLine tag params => Sys2Proof.Machine.execForceLine tag params s
  | .releaseLine tag params => Sys2Proof.Machine.execReleaseLine tag params s
  | .configureAxis tag params => Sys2Proof.Machine.execConfigureAxis tag params s
  | .start tag params => Sys2Proof.Machine.execStart tag params s
  | .stop tag params => Sys2Proof.Machine.execStop tag params s
  | .setPosition tag params => Sys2Proof.Machine.execSetPosition tag params s
  | .home tag params => Sys2Proof.Machine.execHome tag params s
  | .resync tag params => Sys2Proof.Machine.execResync tag params s
  | .setBank tag params => Sys2Proof.Machine.execSetBank tag params s
  | .setEnables tag params => Sys2Proof.Machine.execSetEnables tag params s
  | .getResult tag params => Sys2Proof.Machine.execGetResult tag params s
  | .reset tag params => Sys2Proof.Machine.execReset tag params s
  | .allocate tag params => Sys2Proof.Machine.execAllocate tag params s
  | .stage tag params => Sys2Proof.Machine.execStage tag params s
  | .arm tag params => Sys2Proof.Machine.execArm tag params s
  | .disarm tag params => Sys2Proof.Machine.execDisarm tag params s
  | .move tag params => Sys2Proof.Machine.execMove tag params s
  | .release tag params => Sys2Proof.Machine.execRelease tag params s
  | .retireBank tag params => Sys2Proof.Machine.execRetireBank tag params s
  | .arbiterGrant => Sys2Proof.Machine.execArbiterGrant s
  | .linkEvent => Sys2Proof.Machine.execLinkEvent s
  | .unlinkEvent => Sys2Proof.Machine.execUnlinkEvent s
  | .retireBankCheck => Sys2Proof.Machine.execRetireBankCheck s
  | .stalledAdderPlace => Sys2Proof.Machine.execStalledAdderPlace s
  | .stepStart axis => Sys2Proof.Machine.execStepStart axis s
  | .examineRecord axis => Sys2Proof.Machine.execExamineRecord axis s
  | .axisInputChange axis change => Sys2Proof.Machine.execAxisInputChange axis change s
  | .filterTimeout axis input => Sys2Proof.Machine.execFilterTimeout axis input s
  | .rateExpiry axis => Sys2Proof.Machine.execRateExpiry axis s
  | .seekComplete axis => Sys2Proof.Machine.execSeekComplete axis s
  | .pulseExpiry line => Sys2Proof.Machine.execPulseExpiry line s
  | .nresetAssert => Sys2Proof.Machine.execNresetAssert s
  | .nresetRelease => Sys2Proof.Machine.execNresetRelease s
  | .supplyDrop => Sys2Proof.Machine.execSupplyDrop s
  | .supplyRise => Sys2Proof.Machine.execSupplyRise s
  | .supplyHoldEnd => Sys2Proof.Machine.execSupplyHoldEnd s
  | .qualifierInputChange input level => Sys2Proof.Machine.execQualifierInputChange input level s
  | .spiByteComplete byte => Sys2Proof.Machine.execSpiByteComplete byte s
  | .timeBaseTick => Sys2Proof.Machine.execTimeBaseTick s
  | .resetComplete => Sys2Proof.Machine.execResetComplete s
  | .retireBankWalkEnd => Sys2Proof.Machine.execRetireBankWalkEnd s

end Sys2Proof.Machine
end

