-- ==== Sys2Proof/Safety.lean ====
section
/-! DEFINITION. What counts as a safe state of the part: the laws of the device that the spec states, as predicates on State;
and the few predicates that the statements of Certificates/ share. -/

namespace Sys2Proof.Machine

/-! ### Laws of the device -/

/-- The law of the pending set (R5, R127): it holds exactly the records whose count is 1 or more or whose link fault is set,
each once (in ascending order). -/
structure PendingLaw (s : State) : Prop where
  member : ∀ h : Handle, h ∈ s.pendingSet ↔ (s.recordAt h).isPending = true
  ordered : s.pendingSet.Pairwise (fun a b => a < b)

/-- The law of timers: a line whose pulse timer is RUNNING has a HIGH shadow and 1 to 65,535 µs remaining (R81); pulse widths and
rate periods lie in that range (R2, R40); a rate generator is RUNNING, with 1 to 65,535 µs to go, exactly while its front end is
COUNTING with source RATE (R51). -/
structure TimerLaw (s : State) : Prop where
  line : ∀ (l : LineId) (n : Nat), (s.line l).timer = some n → (s.line l).shadow = .high ∧ 1 ≤ n ∧ n ≤ 65535
  width : ∀ (h : Handle) (l : LineId) (w : Nat), (s.recordAt h).action = .pulse l w → 1 ≤ w ∧ w ≤ 65535
  period : ∀ k : AxisId, 1 ≤ (s.ax k).config.ratePeriod ∧ (s.ax k).config.ratePeriod ≤ 65535
  rate : ∀ (k : AxisId) (n : Nat), (s.ax k).front.rateTimer = some n → 1 ≤ n ∧ n ≤ 65535
  running : ∀ k : AxisId, (s.ax k).front.rateTimer ≠ none ↔
    (s.ax k).front.state = .counting ∧ (s.ax k).config.source = .rate

/-- The capacities: 8 link-queue entries (R98) and 8 guard entries an axis (R69). -/
structure CapacityLaw (s : State) : Prop where
  queue : s.engine.queue.length ≤ Config.linkQueueDepth
  guard : ∀ k : AxisId, (s.ax k).eval.guard.length ≤ Config.guardCapacity

/-- The law of the arbiter (R94, R100): the streak count is at most 4, and 0 unless a command waits; the engine at work has no
claim decided; the idle engine has one decided exactly while a claimant waits, and it is a claimant that waits, a link request
only with the streak below 4. -/
structure ArbiterLaw (s : State) : Prop where
  streak : s.engine.streak ≤ Config.streakLimit
  rests : (∀ c, s.engine.mailbox ≠ .waiting c) → s.engine.streak = 0
  busy : s.engine.occupant ≠ .none → s.engine.claim = none
  idle : s.engine.occupant = .none →
    (s.engine.claim = none ↔ s.engine.queue = [] ∧ ∀ c, s.engine.mailbox ≠ .waiting c)
  link : s.engine.claim = some .link → s.engine.queue ≠ [] ∧ s.engine.streak < Config.streakLimit
  command : s.engine.claim = some .command → ∃ c, s.engine.mailbox = .waiting c

/-- The law of the port (R139, R140, R142, R144, R154, R155): with nCS high or the part held in reset the port is IDLE and ignores
nothing; SDO drives exactly during a transaction (Log 15); the running CRC is that of the bytes received; a reply waits while the port
is AWAITING or REPLYING, with at most 8 filler bytes to go. -/
structure PortLaw (s : State) : Prop where
  idle : s.ncs = .high ∨ s.inReset = true → s.port.phase = .idle ∧ s.port.ignoring = false
  driven : s.port.sdo = .highZ ↔ s.port.phase = .idle ∧ s.port.ignoring = false
  crc : s.port.phase = .receiving → s.port.crc = crc8 s.port.received
  reply : s.port.phase = .awaiting ∨ s.port.phase = .replying → s.port.toSend ≠ []
  filler : s.port.filler ≤ 8
  held : s.port.resetHeld = true → s.port.phase ≠ .idle ∧ s.port.phase ≠ .receiving

/-- The law of stalls (R72, R75, R99): the stalled adders are the axes with a held fire, each once; such an axis is STALLED or
FAULTED(LAG), and a STALLED one has a held fire. -/
structure StallLaw (s : State) : Prop where
  once : s.engine.stalled.Nodup
  member : ∀ k : AxisId, k ∈ s.engine.stalled ↔ (s.ax k).eval.held ≠ none
  heldState : ∀ k : AxisId,
    (s.ax k).eval.held ≠ none → (s.ax k).eval.state = .stalled ∨ (s.ax k).eval.state = .faultedLag
  stalledHolds : ∀ k : AxisId, (s.ax k).eval.state = .stalled → (s.ax k).eval.held ≠ none

/-- The ranges of an axis (O-6, R40, R41, R61, R114): positions lie in the signed 32-bit range, those of a ROTARY axis in
0..span−1, the span of a ROTARY axis in 1,024..1,073,741,824; turns of a LINEAR axis are 0, and it is never in TRACK. -/
structure AxisRange (a : Axis) : Prop where
  c : Config.positionMin ≤ a.front.c ∧ a.front.c ≤ Config.positionMax
  e : Config.positionMin ≤ a.eval.e ∧ a.eval.e ≤ Config.positionMax
  preset : Config.positionMin ≤ a.config.indexPreset ∧ a.config.indexPreset ≤ Config.positionMax
  linear : a.config.kind = .linear → a.front.liveTurn = 0 ∧ a.eval.evalTurn = 0 ∧ a.config.indexMode ≠ .track
  rotary : a.config.kind = .rotary →
    Config.spanMin ≤ a.config.span ∧ a.config.span ≤ Config.spanMax ∧
    (0 ≤ a.front.c ∧ a.front.c < a.config.span) ∧ (0 ≤ a.eval.e ∧ a.eval.e < a.config.span) ∧
    (0 ≤ a.config.indexPreset ∧ a.config.indexPreset < a.config.span)

/-- The law of the lag (R62): with every axis in its ranges, |C − E| is at most 255 on each axis whose evaluator is neither
SEEKING nor FAULTED(LAG). -/
structure LagLaw (s : State) : Prop where
  range : ∀ k : AxisId, AxisRange (s.ax k)
  lag : ∀ k : AxisId, (s.ax k).eval.state = .tracking ∨ (s.ax k).eval.state = .stalled →
    (s.ax k).lag.natAbs ≤ Config.lagLimit

/-- How many requests of the link queue name the record as their source (R98). -/
def State.requestsOf (s : State) (h : Handle) : Nat := (s.engine.queue.filter (fun r => decide (r.source = h))).length

/-- How many records of a cam list stand at or below a position (R27). -/
def State.countBelow (s : State) (list : List Handle) (e : Int) : Nat :=
  (list.filter (fun h => decide (s.posOf h ≤ e))).length

/-- What the operation in progress knows of the record it works on: it has the state the operation has found it in, and it
still fits the axis it is to be linked into (R42, R101, R105, R107, R111). -/
def OperationFits (s : State) : Prop :=
  match s.engine.occupant with
  | .none => True
  | .linkChecks _ => True
  | .mailbox (.checking _) => True
  | .mailbox (.arm h k _) =>
    (s.recordAt h).state = .staged ∧ (s.recordAt h).axis = k ∧ inRange (s.ax k).config (s.recordAt h).position = true
  | .mailbox (.moveRelink h k _) =>
    (s.recordAt h).state = .moving ∧ (s.recordAt h).axis = k ∧ inRange (s.ax k).config (s.recordAt h).position = true
  | .mailbox (.disarm h k) => (s.recordAt h).state = .armed → (s.recordAt h).axis = k
  | .mailbox (.moveUnlink h k p) =>
    (s.recordAt h).state = .armed → (s.recordAt h).axis = k ∧ inRange (s.ax k).config p = true
  | .mailbox (.retire _ _ _ _ none) => True
  | .mailbox (.retire k _ _ _ (some h)) => (s.recordAt h).state = .armed → (s.recordAt h).axis = k
  | .link r k _ =>
    s.engine.queue.head? = some r ∧ (s.recordAt r.target).state = .staged ∧ (s.recordAt r.target).axis = k ∧
      inRange (s.ax k).config (s.recordAt r.target).position = true

/-- The Record Store law: the free pool holds exactly the FREE records, each once and cleared (R8, R16); each cam list holds
exactly the ARMED records of its axis, each once, in ascending order of position (R21, R22), and the cursor counts those at
or below E except while SEEKING (R27); a run in flight, a held fire and a guard set name records of their own list (R32,
R69); outstanding links are the queued requests of the source (R98). -/
structure StoreLaw (s : State) : Prop where
  poolOnce : s.freePool.Nodup
  pool : ∀ h : Handle, h ∈ s.freePool ↔ (s.recordAt h).state = .free
  freeCleared : ∀ h : Handle, (s.recordAt h).state = .free → s.recordAt h = Record.cleared
  listOnce : ∀ k : AxisId, (s.ax k).list.Nodup
  list : ∀ (k : AxisId) (h : Handle), h ∈ (s.ax k).list ↔ (s.recordAt h).state = .armed ∧ (s.recordAt h).axis = k
  sorted : ∀ k : AxisId, (s.ax k).list.Pairwise (fun a b => s.posOf a ≤ s.posOf b)
  inAxis : ∀ (k : AxisId) (h : Handle), h ∈ (s.ax k).list → inRange (s.ax k).config (s.posOf h) = true
  cursor : ∀ k : AxisId, (s.ax k).cursor =
    if (s.ax k).eval.state = .seeking then none else some (s.countBelow (s.ax k).list (s.ax k).eval.e)
  run : ∀ (k : AxisId) (st : CrossingStep), (s.ax k).eval.step = some st →
    st.run.Nodup ∧ ∀ h ∈ st.run, h ∈ (s.ax k).list
  held : ∀ (k : AxisId) (f : HeldFire), (s.ax k).eval.held = some f →
    f.source ∈ (s.ax k).list ∧ (∀ g ∈ (s.ax k).eval.guard, g.handle ≠ f.source) ∧
    ∀ st : CrossingStep, (s.ax k).eval.step = some st → f.source ∉ st.run
  guardOnce : ∀ k : AxisId, ((s.ax k).eval.guard.map GuardEntry.handle).Nodup
  guard : ∀ (k : AxisId) (g : GuardEntry), g ∈ (s.ax k).eval.guard → g.handle ∈ (s.ax k).list
  outstanding : ∀ h : Handle, (s.recordAt h).outstanding = s.requestsOf h
  operation : OperationFits s

/-! ### Predicates that statements share -/

/-- The state `e` with the port AWAITING and the reply ready behind 1 to 8 filler bytes (R144); all else is as in `e`. -/
def Replies (e t : State) (tag : Byte) (reply : Reply) : Prop :=
  ∃ filler, 1 ≤ filler ∧ filler ≤ 8 ∧
    t = { e with
      port := { e.port with phase := .awaiting, filler := filler, toSend := replyFrame tag reply }
      draws := e.draws + 1 }

/-- The command row answers the reply, and its effect turns `s`, its request received, into `e`. -/
def Answers (i : Instr) (s e : State) (tag : Byte) (reply : Reply) : Prop :=
  ∃ t, exec i s = .next t ∧ Replies e t tag reply

/-- The request of a host command's row: its code (H-4), tag, parameters and CRC byte. -/
def requestOf : Instr → Option (Byte × Byte × List Byte × Byte)
  | .frameError code tag params crc => some (code, tag, params, crc)
  | .unknown code tag params => some (code, tag, params, crc8 (requestBytes code tag params))
  | .ident tag params => some (0x01, tag, params, crc8 (requestBytes 0x01 tag params))
  | .readRecord tag params => some (0x02, tag, params, crc8 (requestBytes 0x02 tag params))
  | .readAxis tag params => some (0x03, tag, params, crc8 (requestBytes 0x03 tag params))
  | .readCapture tag params => some (0x04, tag, params, crc8 (requestBytes 0x04 tag params))
  | .readLines tag params => some (0x05, tag, params, crc8 (requestBytes 0x05 tag params))
  | .nextPending tag params => some (0x06, tag, params, crc8 (requestBytes 0x06 tag params))
  | .ack tag params => some (0x07, tag, params, crc8 (requestBytes 0x07 tag params))
  | .ackAxis tag params => some (0x08, tag, params, crc8 (requestBytes 0x08 tag params))
  | .forceLine tag params => some (0x09, tag, params, crc8 (requestBytes 0x09 tag params))
  | .releaseLine tag params => some (0x0A, tag, params, crc8 (requestBytes 0x0A tag params))
  | .configureAxis tag params => some (0x10, tag, params, crc8 (requestBytes 0x10 tag params))
  | .start tag params => some (0x11, tag, params, crc8 (requestBytes 0x11 tag params))
  | .stop tag params => some (0x12, tag, params, crc8 (requestBytes 0x12 tag params))
  | .setPosition tag params => some (0x13, tag, params, crc8 (requestBytes 0x13 tag params))
  | .home tag params => some (0x14, tag, params, crc8 (requestBytes 0x14 tag params))
  | .resync tag params => some (0x15, tag, params, crc8 (requestBytes 0x15 tag params))
  | .setBank tag params => some (0x16, tag, params, crc8 (requestBytes 0x16 tag params))
  | .setEnables tag params => some (0x17, tag, params, crc8 (requestBytes 0x17 tag params))
  | .getResult tag params => some (0x18, tag, params, crc8 (requestBytes 0x18 tag params))
  | .reset tag params => some (0x1F, tag, params, crc8 (requestBytes 0x1F tag params))
  | .allocate tag params => some (0x20, tag, params, crc8 (requestBytes 0x20 tag params))
  | .stage tag params => some (0x21, tag, params, crc8 (requestBytes 0x21 tag params))
  | .arm tag params => some (0x22, tag, params, crc8 (requestBytes 0x22 tag params))
  | .disarm tag params => some (0x23, tag, params, crc8 (requestBytes 0x23 tag params))
  | .move tag params => some (0x24, tag, params, crc8 (requestBytes 0x24 tag params))
  | .release tag params => some (0x25, tag, params, crc8 (requestBytes 0x25 tag params))
  | .retireBank tag params => some (0x26, tag, params, crc8 (requestBytes 0x26 tag params))
  | .transactionStart => none
  | .deselect => none
  | .badLength _ _ _ => none
  | .arbiterGrant => none
  | .linkEvent => none
  | .unlinkEvent => none
  | .retireBankCheck => none
  | .stalledAdderPlace => none
  | .stepStart _ => none
  | .examineRecord _ => none
  | .axisInputChange _ _ => none
  | .filterTimeout _ _ => none
  | .rateExpiry _ => none
  | .seekComplete _ => none
  | .pulseExpiry _ => none
  | .nresetAssert => none
  | .nresetRelease => none
  | .supplyDrop => none
  | .supplyRise => none
  | .supplyHoldEnd => none
  | .qualifierInputChange _ _ => none
  | .spiByteComplete _ => none
  | .timeBaseTick => none
  | .resetComplete => none
  | .retireBankWalkEnd => none

/-- Run SPI_BYTE_COMPLETE for each byte in turn (R140). -/
def clockBytes : List Byte → State → Host.Outcome State Fault Refusal
  | [], s => .next s
  | b :: rest, s =>
    match exec (.spiByteComplete b) s with
    | .next t => clockBytes rest t
    | .fault r => .fault r
    | .refused r => .refused r

/-- A port in hand that has received exactly `bytes` of a request. -/
def ReceivingPort (p : Port) (bytes : List Byte) : Prop :=
  p.phase = .receiving ∧ p.received = bytes ∧ p.crc = crc8 bytes

/-- Run SPI_BYTE_COMPLETE for each byte in turn, and keep what SDO carried with each (R140). -/
def sentFor : List Byte → State → List Sdo × State
  | [], s => ([], s)
  | b :: rest, s =>
    let t := s.byteComplete b
    let r := sentFor rest t
    (t.port.sdo :: r.1, r.2)

/-- The port is RECEIVING, and what it has received is an initial part of the request (R139, R141; Log 1). -/
def Ready (s : State) (code tag : Byte) (params : List Byte) : Prop :=
  s.port.phase = .receiving ∧ s.port.received <+: requestBytes code tag params

/-- `s` with the whole of the request received, its CRC byte apart. -/
abbrev State.heard (s : State) (code tag : Byte) (params : List Byte) : State :=
  s.receivedAll (requestBytes code tag params)

/-- A line of the dispatch table of H-4: the command code, the row of Instr, the parameter lengths, and which parameters the
port checks: an axis in the first byte, a bank in the second, a handle 1..1024 in the first two. -/
structure HostRow where
  code : Byte
  row : Byte → List Byte → Instr
  lengths : List Nat
  axisFirst : Bool
  bankSecond : Bool
  handleFirst : Bool

/-- The dispatch table of H-4. -/
def hostRows : List HostRow :=
  [⟨0x01, .ident, [0], false, false, false⟩,
    ⟨0x02, .readRecord, [2], false, false, true⟩,
    ⟨0x03, .readAxis, [1], true, false, false⟩,
    ⟨0x04, .readCapture, [1], true, false, false⟩,
    ⟨0x05, .readLines, [0], false, false, false⟩,
    ⟨0x06, .nextPending, [0, 2], false, false, true⟩,
    ⟨0x07, .ack, [2], false, false, true⟩,
    ⟨0x08, .ackAxis, [2], true, false, false⟩,
    ⟨0x09, .forceLine, [2], false, false, false⟩,
    ⟨0x0A, .releaseLine, [1], false, false, false⟩,
    ⟨0x10, .configureAxis, [20], true, false, false⟩,
    ⟨0x11, .start, [1], true, false, false⟩,
    ⟨0x12, .stop, [1], true, false, false⟩,
    ⟨0x13, .setPosition, [5], true, false, false⟩] ++
  [⟨0x14, .home, [1], true, false, false⟩,
    ⟨0x15, .resync, [1], true, false, false⟩,
    ⟨0x16, .setBank, [2], true, true, false⟩,
    ⟨0x17, .setEnables, [6], false, false, false⟩,
    ⟨0x18, .getResult, [0], false, false, false⟩,
    ⟨0x1F, .reset, [0], false, false, false⟩,
    ⟨0x20, .allocate, [0], false, false, false⟩,
    ⟨0x21, .stage, [19], false, false, false⟩,
    ⟨0x22, .arm, [2], false, false, false⟩,
    ⟨0x23, .disarm, [2], false, false, false⟩,
    ⟨0x24, .move, [6], false, false, false⟩,
    ⟨0x25, .release, [2], false, false, false⟩,
    ⟨0x26, .retireBank, [2], true, true, false⟩]

/-- A well-formed table command row, with its code, tag, parameters, and the command they spell (H-4, R147). -/
inductive TableRow : Instr → Byte → Byte → List Byte → TableCommand → Prop where
  | allocate (tag : Byte) : TableRow (.allocate tag []) 0x20 tag [] .allocate
  | stage (tag lo hi : Byte) (image : List Byte) (size : image.length = 17) :
      TableRow (.stage tag (lo :: hi :: image)) 0x21 tag (lo :: hi :: image) (.stage (u16 lo hi) image)
  | arm (tag lo hi : Byte) : TableRow (.arm tag [lo, hi]) 0x22 tag [lo, hi] (.arm (u16 lo hi))
  | disarm (tag lo hi : Byte) : TableRow (.disarm tag [lo, hi]) 0x23 tag [lo, hi] (.disarm (u16 lo hi))
  | move (tag lo hi p0 p1 p2 p3 : Byte) :
      TableRow (.move tag [lo, hi, p0, p1, p2, p3]) 0x24 tag [lo, hi, p0, p1, p2, p3]
        (.move (u16 lo hi) (i32 p0 p1 p2 p3))
  | release (tag lo hi : Byte) : TableRow (.release tag [lo, hi]) 0x25 tag [lo, hi] (.release (u16 lo hi))
  | retireBank (tag ax b : Byte) (k : AxisId) (bank : Bank) (axis : ax.toNat = k.val) (number : b.toNat = bank.val) :
      TableRow (.retireBank tag [ax, b]) 0x26 tag [ax, b] (.retireBank k bank)

/-- A command waits in the mailbox (R96). -/
def Engine.commandWaits (g : Engine) : Bool :=
  match g.mailbox with
  | .waiting _ => true
  | _ => false

/-- The claimant that R100 gives the engine to: the link request when it is alone or the streak count is below 4, and else the
command, if it waits. -/
def Engine.nextClaim (g : Engine) : Option Claim :=
  if !g.queue.isEmpty && (!g.commandWaits || decide (g.streak < 4)) then some .link
  else if g.commandWaits then some .command
  else none

/-- The arbiter has given the free engine to the waiting mailbox command (R100). -/
structure MailboxTurn (s : State) (tag : Byte) (command : TableCommand) : Prop where
  free : s.engine.occupant = .none
  waiting : s.engine.mailbox = .waiting { tag := tag, command := command }
  turn : s.engine.claim = some .command

/-- The arbiter has given the free engine to the oldest link request (R100). -/
structure LinkTurn (s : State) (request : LinkRequest) (rest : List LinkRequest) : Prop where
  free : s.engine.occupant = .none
  oldest : s.engine.queue = request :: rest
  turn : s.engine.claim = some .link

/-- The engine with the occupant NONE and the decision that the arbiter then makes (R100). -/
def Engine.idleAgain (g : Engine) : Engine := { g with occupant := .none, claim := g.nextClaim }

/-- The engine after a claimant has arrived: the arbiter of an idle engine that has decided nothing yet decides at this arrival, and
an earlier decision stands (R100). -/
def Engine.withArrival (g : Engine) : Engine :=
  if g.occupant = .none ∧ g.claim = none then { g with claim := g.nextClaim } else g

/-- The engine after a mailbox command that has ended at its grant: the result is stored, the mailbox is DONE, the occupant NONE and
the streak 0, and the arbiter decides (R96, R100). -/
def Engine.endedWith (g : Engine) (tag : Byte) (code : ResultCode) (data : Nat) : Engine :=
  Engine.idleAgain { g with mailbox := .done { code := code, tag := tag, data := data }, streak := 0 }

/-- The engine after a mailbox command that goes on past its grant: it is IN_PROGRESS, and the streak is 0 (R96, R100). -/
def Engine.goesOnWith (g : Engine) (tag : Byte) (command : TableCommand) (operation : Operation) : Engine :=
  { g with
    occupant := .mailbox operation, mailbox := .inProgress { tag := tag, command := command }, streak := 0
    claim := none }

/-- The streak count after a link request is taken: it rises while the mailbox is WAITING, and is 0 otherwise (R100). -/
def Engine.streakAfterLink (g : Engine) : Nat := if g.commandWaits then g.streak + 1 else 0

/-- The levels of the world's pins and the model's own fields are as they were; nCS, nRESET and the supply apart. -/
structure WorldKept (s t : State) : Prop where
  pinA : ∀ k : AxisId, (t.ax k).front.inputA.pin = (s.ax k).front.inputA.pin
  pinB : ∀ k : AxisId, (t.ax k).front.inputB.pin = (s.ax k).front.inputB.pin
  pinI : ∀ k : AxisId, (t.ax k).front.inputI.pin = (s.ax k).front.inputI.pin
  qualifiers : t.qualifiers = s.qualifiers
  pending : t.pending = s.pending
  draws : t.draws = s.draws

/-- Every block but the Host Port holds its reset values (R20, R36, R40, R44, R60, R61, R93, R113, R114, R138); `own` are values of
the model's own fields (Log 6, Log 28). -/
structure ResetValues (t : State) : Prop where
  records : ∀ h : Handle, t.recordAt h =
    { state := .free, axis := 0, position := 0, direction := .unset, bank := 0, keep := .auto, notify := false,
      action := .none, followOn := .none, budget := 0, turnQualifier := none, gate := none, unacked := 0,
      linkFault := false, outstanding := 0, lastFire := none }
  pool : t.freePool.map handleNumber = (List.range 1024).map (fun n => n + 1)
  config : ∀ k : AxisId, (t.ax k).config =
    { kind := .linear, span := 1024, source := .quad4, strict := false, filter := .zero, band := 0, ratePeriod := 1000,
      rateDirection := .up, indexEdge := .rising, indexMode := .off, indexPreset := 0 }
  counts : ∀ k : AxisId, (t.ax k).front.state = .halted ∧ (t.ax k).front.c = 0 ∧ (t.ax k).front.liveTurn = 0 ∧
    (t.ax k).front.rateTimer = none ∧ (t.ax k).front.homeRequest = false ∧ (t.ax k).front.slot = .empty
  inputs : ∀ k : AxisId,
    (t.ax k).front.inputA.accepted = (t.ax k).front.inputA.pin ∧ (t.ax k).front.inputA.timing = none ∧
    (t.ax k).front.inputB.accepted = (t.ax k).front.inputB.pin ∧ (t.ax k).front.inputB.timing = none ∧
    (t.ax k).front.inputI.accepted = (t.ax k).front.inputI.pin ∧ (t.ax k).front.inputI.timing = none ∧
    (t.ax k).front.storedA = (t.ax k).front.inputA.pin ∧ (t.ax k).front.storedB = (t.ax k).front.inputB.pin
  eval : ∀ k : AxisId, (t.ax k).eval =
    { state := .tracking, e := 0, evalTurn := 0, bank := 0, step := none, held := none, guard := [], settle := false }
  lists : ∀ k : AxisId, (t.ax k).list = [] ∧ (t.ax k).cursor = some 0
  flags : ∀ k : AxisId, (t.ax k).flags = 0 ∧ (t.ax k).mask = 0
  lines : ∀ l : LineId, (t.line l).shadow = .low ∧ (t.line l).mode = .released ∧ (t.line l).timer = none
  engine : t.engine.occupant = .none ∧ t.engine.mailbox = .empty ∧ t.engine.queue = [] ∧ t.engine.stalled = [] ∧
    t.engine.streak = 0
  own : t.engine.claim = none ∧ (∀ l : LineId, (t.line l).ahead = false) ∧
    ∀ k : AxisId, (t.ax k).front.rateAhead = false
  pendingSet : t.pendingSet = []
  enables : t.pendingEnable = false ∧ t.doneEnable = false

/-- The port outside any transaction: IDLE, SDO high impedance (R139, R140; Log 15); its buffers are the model's choice (Log 19). -/
def idlePort : Port :=
  { phase := .idle, received := [], crc := 0xFF, filler := 0, toSend := [], sdo := .highZ, resetHeld := false,
    resetting := false, ignoring := false }

/-- The next examination of axis `k` is of record `h`, the head of what is left of the fixed run, with `rest` after it
(R63, R64). -/
structure Examines (s : State) (k : AxisId) (st : CrossingStep) (h : Handle) (rest : List Handle) : Prop where
  state : (s.ax k).eval.state = .tracking
  step : (s.ax k).eval.step = some st
  run : st.run = h :: rest

/-- The five conditions of R65, for record `r` under handle `h` on axis `a`, with the Q inputs at `q`. -/
structure Eligible (a : Axis) (st : CrossingStep) (h : Handle) (r : Record) (q : Vector Level 4) : Prop where
  bank : r.bank = a.eval.bank
  direction : r.direction = .both ∨ (r.direction = .up ∧ st.dir = .up) ∨ (r.direction = .down ∧ st.dir = .down)
  guard : ∀ g ∈ a.eval.guard, g.handle ≠ h
  turn : ∀ x, r.turnQualifier = some x → x = st.turn
  gate : ∀ g, r.gate = some g → q.get g.input = g.level

/-- What a record's fire has made of it before its budget is counted: last fire, notification, and an outstanding link for LINK
(R5, R7, R66, R67). -/
def Record.afterFire (r : Record) (st : CrossingStep) : Record :=
  { r with
    lastFire := some { position := r.position, turn := st.turn, direction := st.dir }
    unacked := if r.notify ∧ r.unacked < 15 then r.unacked + 1 else r.unacked }

/-- One more outstanding link for a LINK record (R67). -/
def Record.afterLink (r : Record) : Record :=
  match r.followOn with
  | .link _ => { r with outstanding := r.outstanding + 1 }
  | _ => r

/-- The engine after the fire of record `r`: a LINK fire places its request at the tail of the queue (R67, R98, R100). -/
def Engine.afterFire (g : Engine) (h : Handle) (r : Record) : Engine :=
  match r.followOn with
  | .link target => Engine.withArrival { g with queue := g.queue ++ [{ source := h, target := target }] }
  | _ => g

/-- The active bank after the fire of record `r` (R37, R67). -/
def bankAfter (b : Bank) (r : Record) : Bank :=
  match r.followOn with
  | .switch => if b = 0 then 1 else 0
  | _ => b

/-- The guard set after record `h` at `p` enters it: a full set first loses its oldest entry (R69). -/
def guardAfter (set : List GuardEntry) (h : Handle) (p : Int) : List GuardEntry :=
  (if set.length < 8 then set else set.tail) ++ [{ handle := h, boundary := p }]

/-- A guard entry that a release check with the axis at `e` leaves in the set (R71). -/
def staysGuarded (cfg : AxisConfig) (e : Int) (g : GuardEntry) : Bool :=
  match cfg.kind with
  | .linear => decide (g.boundary - 1 - cfg.band < e) && decide (e < g.boundary + cfg.band)
  | .rotary =>
    decide ((e - g.boundary) % cfg.span < cfg.band) || decide ((cfg.span : Int) - 1 - cfg.band < (e - g.boundary) % cfg.span)

/-- What a fire, a link or an unlink never reaches: the host port, the enables, the world and the model's own fields. -/
structure RestKept (s t : State) : Prop where
  port : t.port = s.port
  enables : t.pendingEnable = s.pendingEnable ∧ t.doneEnable = s.doneEnable
  world : t.qualifiers = s.qualifiers ∧ t.ncs = s.ncs ∧ t.nreset = s.nreset ∧ t.supply = s.supply
  own : t.pending = s.pending ∧ t.draws = s.draws

/-- Only record `h` differs, and it alone may have joined or left the pending set. -/
structure OnlyRecord (s t : State) (h : Handle) : Prop where
  records : ∀ g : Handle, g ≠ h → t.recordAt g = s.recordAt g
  members : ∀ g : Handle, g ≠ h → (g ∈ t.pendingSet ↔ g ∈ s.pendingSet)
  own : h ∈ t.pendingSet ↔ (t.recordAt h).isPending = true

/-- The checks of ARM on a record against the configuration of its axis (R104). -/
def FitsAxis (cfg : AxisConfig) (p : Int) (q : Option Turn) : Prop :=
  match cfg.kind with
  | .linear => q = none
  | .rotary => 0 ≤ p ∧ p < cfg.span

/-- `list` with `h` at position `p` linked into it: immediately after the last record at or below `p` (R23). -/
def LinkedInto (pos : Handle → Int) (p : Int) (h : Handle) (old new : List Handle) : Prop :=
  ∃ before after, old = before ++ after ∧ new = before ++ h :: after ∧
    (∀ g, before.getLast? = some g → pos g ≤ p) ∧ ∀ g ∈ after, p < pos g

/-- The axis with its evaluator sought to a target, in the event that orders the seek (R34, R76). -/
def Axis.sought (a : Axis) (target : Int) (turn : Turn) : Axis :=
  { a with
    cursor := none
    eval :=
      { state := .seeking, e := target, evalTurn := turn, bank := a.eval.bank, step := none, held := none, guard := [],
        settle := a.eval.settle } }

/-- The engine after a seek of axis `k` is ordered: the axis leaves the stalled adders (R99), and a walk of its list before a link
goes back to the head (R26, R34). -/
def Engine.atSeek (g : Engine) (k : AxisId) : Engine :=
  { g with
    stalled := g.stalled.filter (fun j => decide (j ≠ k))
    occupant :=
      match g.occupant with
      | .mailbox (.arm h j place) => .mailbox (.arm h j (if j = k then 0 else place))
      | .mailbox (.moveRelink h j place) => .mailbox (.moveRelink h j (if j = k then 0 else place))
      | .link request j place => .link request j (if j = k then 0 else place)
      | o => o }

/-- The occupant after the record at `index` of list `k` has left the list: the place of a walk of that list stays between the records
on either side (R26, R109); every other operation, and a walk of another list, stays as it is. -/
def Occupant.afterRemoval (o : Occupant) (k : AxisId) (index : Nat) : Occupant :=
  let stays (j : AxisId) (place : Nat) : Nat := if j = k ∧ index < place then place - 1 else place
  match o with
  | .mailbox (.arm h j place) => .mailbox (.arm h j (stays j place))
  | .mailbox (.moveRelink h j place) => .mailbox (.moveRelink h j (stays j place))
  | .mailbox (.retire j bank place count sent) => .mailbox (.retire j bank (stays j place) count sent)
  | .link request j place => .link request j (stays j place)
  | o => o

/-- An input filter after its pin takes a level (R44): nothing at the level it has, the timing dropped on a return to the accepted
level, a new level accepted at once with width 0, and timed with any other width. -/
def InputFilter.moved (f : InputFilter) (width : FilterWidth) (level : Level) : InputFilter :=
  if level = f.pin then f
  else if level = f.accepted then { pin := level, accepted := f.accepted, timing := none }
  else if width = .zero then { pin := level, accepted := level, timing := none }
  else { pin := level, accepted := f.accepted, timing := some width }

/-- An input filter after its width runs out: a level that is being timed is accepted (R44). -/
def InputFilter.ranOut (f : InputFilter) : InputFilter :=
  if f.timing = none then f else { pin := f.pin, accepted := f.pin, timing := none }

/-- A row that gives A and B of axis `k` new filter states, outside reset (R44, R45). -/
inductive PairRow (s : State) (k : AxisId) : Instr → InputFilter → InputFilter → Prop where
  | a (l : Level) (out : s.inReset = false) :
      PairRow s k (.axisInputChange k (.a l)) ((s.ax k).front.inputA.moved (s.ax k).config.filter l) (s.ax k).front.inputB
  | b (l : Level) (out : s.inReset = false) :
      PairRow s k (.axisInputChange k (.b l)) (s.ax k).front.inputA ((s.ax k).front.inputB.moved (s.ax k).config.filter l)
  | ab (la lb : Level) (out : s.inReset = false) :
      PairRow s k (.axisInputChange k (.ab la lb)) ((s.ax k).front.inputA.moved (s.ax k).config.filter la)
        ((s.ax k).front.inputB.moved (s.ax k).config.filter lb)
  | timeoutA : PairRow s k (.filterTimeout k .a) (s.ax k).front.inputA.ranOut (s.ax k).front.inputB
  | timeoutB : PairRow s k (.filterTimeout k .b) (s.ax k).front.inputA (s.ax k).front.inputB.ranOut
  | timeoutAB : PairRow s k (.filterTimeout k .ab) (s.ax k).front.inputA.ranOut (s.ax k).front.inputB.ranOut

/-- A row that gives I of axis `k` a new filter state, outside reset (R44). -/
inductive IndexFilterRow (s : State) (k : AxisId) : Instr → InputFilter → Prop where
  | change (l : Level) (out : s.inReset = false) :
      IndexFilterRow s k (.axisInputChange k (.index l)) ((s.ax k).front.inputI.moved (s.ax k).config.filter l)
  | timeout : IndexFilterRow s k (.filterTimeout k .index) (s.ax k).front.inputI.ranOut

/-- The axis with the filters of A and B at `fa` and `fb`, their accepted levels stored by the decoder (R45). -/
def Axis.withPair (a : Axis) (fa fb : InputFilter) : Axis :=
  { a with
    front := { a.front with inputA := fa, inputB := fb, storedA := fa.accepted, storedB := fb.accepted } }

/-- A row that hands the index unit of axis `k` a new accepted level `l` (R44, R115). -/
def IndexRow (s : State) (k : AxisId) (l : Level) (i : Instr) : Prop :=
  l ≠ (s.ax k).front.inputI.accepted ∧ ∃ f, IndexFilterRow s k i f ∧ f.accepted = l

/-- The axis with level `l` of I accepted. -/
def Axis.withIndex (a : Axis) (l : Level) : Axis := { a with front := { a.front with inputI := .atLevel l } }

/-- The level that the configured edge ends at (R115). -/
def edgeLevel : IndexEdge → Level
  | .rising => .high
  | .falling => .low

/-- The axis that the event of a row acts at, for the rows that name one (R59, R80). -/
def axisOfRow : Instr → Option AxisId
  | .stepStart k => some k
  | .examineRecord k => some k
  | .seekComplete k => some k
  | .axisInputChange k _ => some k
  | .filterTimeout k _ => some k
  | .rateExpiry k => some k
  | _ => none

end Sys2Proof.Machine
end

