-- ==== Sys2Proof/WellFormed.lean ====
section
/-! DEFINITION. Which operands a row may carry. The rows of the port name what its bytes spell (H-2, H-4): an ill-formed
one names a request that its own row does not describe. `exec` is total all the same (Log 21). -/

namespace Sys2Proof

/-- The command codes of H-4. -/
def commandCodes : List Byte :=
  [0x01, 0x02, 0x03, 0x04, 0x05, 0x06, 0x07, 0x08, 0x09, 0x0A,
    0x10, 0x11, 0x12, 0x13, 0x14, 0x15, 0x16, 0x17, 0x18, 0x1F,
    0x20, 0x21, 0x22, 0x23, 0x24, 0x25, 0x26]

/-- A request carries at most 32 parameter bytes (R141). -/
def paramsFit (params : List Byte) : Bool := params.length ≤ Config.paramLimit

/-- The operands fit the row: a BAD_LENGTH has a length byte above 32 (R141), a FRAME_ERROR a CRC byte that does not match
(R142), an UNKNOWN a code outside H-4 (R143), and every request at most 32 parameter bytes. -/
def Instr.wellFormed : Instr → Bool
  | .transactionStart => true
  | .deselect => true
  | .badLength _ _ length => Config.paramLimit < length.toNat
  | .frameError code tag params crc =>
      paramsFit params && crc != Machine.crc8 (Machine.requestBytes code tag params)
  | .unknown code _ params => paramsFit params && !commandCodes.contains code
  | .ident _ params => paramsFit params
  | .readRecord _ params => paramsFit params
  | .readAxis _ params => paramsFit params
  | .readCapture _ params => paramsFit params
  | .readLines _ params => paramsFit params
  | .nextPending _ params => paramsFit params
  | .ack _ params => paramsFit params
  | .ackAxis _ params => paramsFit params
  | .forceLine _ params => paramsFit params
  | .releaseLine _ params => paramsFit params
  | .configureAxis _ params => paramsFit params
  | .start _ params => paramsFit params
  | .stop _ params => paramsFit params
  | .setPosition _ params => paramsFit params
  | .home _ params => paramsFit params
  | .resync _ params => paramsFit params
  | .setBank _ params => paramsFit params
  | .setEnables _ params => paramsFit params
  | .getResult _ params => paramsFit params
  | .reset _ params => paramsFit params
  | .allocate _ params => paramsFit params
  | .stage _ params => paramsFit params
  | .arm _ params => paramsFit params
  | .disarm _ params => paramsFit params
  | .move _ params => paramsFit params
  | .release _ params => paramsFit params
  | .retireBank _ params => paramsFit params
  | .arbiterGrant => true
  | .linkEvent => true
  | .unlinkEvent => true
  | .retireBankCheck => true
  | .stalledAdderPlace => true
  | .stepStart _ => true
  | .examineRecord _ => true
  | .axisInputChange _ _ => true
  | .filterTimeout _ _ => true
  | .rateExpiry _ => true
  | .seekComplete _ => true
  | .pulseExpiry _ => true
  | .nresetAssert => true
  | .nresetRelease => true
  | .supplyDrop => true
  | .supplyRise => true
  | .supplyHoldEnd => true
  | .qualifierInputChange _ _ => true
  | .spiByteComplete _ => true
  | .timeBaseTick => true
  | .resetComplete => true
  | .retireBankWalkEnd => true

end Sys2Proof
end

