-- ==== Sys2Proof/Certificates/Slice0/Obligations.lean ====
section
/-! DEFINITION. The statements for the provers, from the numbered rules of spec/. A statement of what a command does gives the
whole next state, or each part of it, so that its frame is part of it. -/

open Sys2Proof Sys2Proof.Machine

/-! ### The queue and the step -/

/-- The model's own queue (Log 18): step runs the command at the front on the state with the queue's rest; no command stops the part
(Log 16) or touches the queue. With no command waiting, a walk of the engine that no seek holds passes one record, and nothing
else goes on (Log 3, Log 12): the walk before a link passes the records at or below its record's position (R26), and the walk of
RETIRE BANK those of the other bank (R109). -/
def Obligations.StepRunsTheFrontCommand : Prop :=
  (∀ (c : Instr) (rest : List Instr) (s : State), s.pending = c :: rest →
     step s = exec c { s with pending := rest }) ∧
  (∀ (c : Instr) (s : State), ∃ t, exec c s = .next t ∧ t.pending = s.pending) ∧
  (∀ s : State, s.pending = [] →
     let passesAt (k : AxisId) (place : Nat) (pass : Handle → Prop) : Prop :=
       (s.ax k).eval.state ≠ .seeking ∧ ∃ g, (s.ax k).list[place]? = some g ∧ pass g
     (∀ (h : Handle) (k : AxisId) (place : Nat) (next : Occupant),
       (s.engine.occupant = .mailbox (.arm h k place) ∧ next = .mailbox (.arm h k (place + 1))) ∨
         (s.engine.occupant = .mailbox (.moveRelink h k place) ∧ next = .mailbox (.moveRelink h k (place + 1))) ∨
         (∃ r, s.engine.occupant = .link r k place ∧ h = r.target ∧ next = .link r k (place + 1)) →
       (passesAt k place (fun g => s.posOf g ≤ s.posOf h) →
         step s = .next { s with engine := { s.engine with occupant := next } }) ∧
       (¬ passesAt k place (fun g => s.posOf g ≤ s.posOf h) → step s = .next s)) ∧
     (∀ (k : AxisId) (bank : Bank) (place count : Nat),
       s.engine.occupant = .mailbox (.retire k bank place count none) →
       (passesAt k place (fun g => (s.recordAt g).bank ≠ bank) → step s = .next { s with
         engine := { s.engine with occupant := .mailbox (.retire k bank (place + 1) count none) } }) ∧
       (¬ passesAt k place (fun g => (s.recordAt g).bank ≠ bank) → step s = .next s)) ∧
     ((∀ h k place, s.engine.occupant ≠ .mailbox (.arm h k place)) →
       (∀ h k place, s.engine.occupant ≠ .mailbox (.moveRelink h k place)) →
       (∀ k bank place count, s.engine.occupant ≠ .mailbox (.retire k bank place count none)) →
       (∀ r k place, s.engine.occupant ≠ .link r k place) → step s = .next s))

/-- The model's choice (Log 1, Log 2): a row whose event cannot happen in the state it meets changes nothing. The rows of
RESET_COMPLETE and of a Q pin change nothing where they find what they would leave. -/
def Obligations.RowsWithoutTheirEventChangeNothing : Prop :=
  ∀ s : State,
    (∀ i code tag params crc, requestOf i = some (code, tag, params, crc) → ¬ Ready s code tag params →
      exec i s = .next s) ∧
    (∀ code tag length, ¬ (s.port.phase = .receiving ∧ s.port.received <+: [code, tag, length]) →
      exec (.badLength code tag length) s = .next s) ∧
    (s.ncs = .low → exec .transactionStart s = .next s) ∧
    (s.ncs = .high → exec .deselect s = .next s) ∧
    (s.engine.occupant ≠ .none ∨ s.engine.claim = none → exec .arbiterGrant s = .next s) ∧
    ((∀ h k place, s.engine.occupant ≠ .mailbox (.arm h k place)) →
      (∀ h k place, s.engine.occupant ≠ .mailbox (.moveRelink h k place)) →
      (∀ r k place, s.engine.occupant ≠ .link r k place) → exec .linkEvent s = .next s) ∧
    ((∀ h k, s.engine.occupant ≠ .mailbox (.disarm h k)) →
      (∀ h k p, s.engine.occupant ≠ .mailbox (.moveUnlink h k p)) →
      (∀ k bank place count h, s.engine.occupant ≠ .mailbox (.retire k bank place count (some h))) →
      exec .unlinkEvent s = .next s) ∧
    ((∀ k bank place count, s.engine.occupant ≠ .mailbox (.retire k bank place count none)) →
      exec .retireBankCheck s = .next s ∧ exec .retireBankWalkEnd s = .next s) ∧
    (s.engine.stalled = [] ∨ 8 ≤ s.engine.queue.length → exec .stalledAdderPlace s = .next s) ∧
    (∀ k rest, s.engine.stalled = k :: rest → (s.ax k).eval.held = none → exec .stalledAdderPlace s = .next s) ∧
    (∀ k, (s.ax k).eval.state ≠ .tracking ∨ (s.ax k).eval.step ≠ none ∨ (s.ax k).lag = 0 →
      exec (.stepStart k) s = .next s) ∧
    (∀ k, (s.ax k).eval.state ≠ .tracking ∨ (s.ax k).eval.step = none ∨
        (∃ st, (s.ax k).eval.step = some st ∧ st.run = []) → exec (.examineRecord k) s = .next s) ∧
    (∀ k, (s.ax k).eval.state ≠ .seeking → exec (.seekComplete k) s = .next s) ∧
    (∀ k, (s.ax k).front.rateTimer = none ∨ (∃ n, (s.ax k).front.rateTimer = some (n + 2)) ∨
        (s.ax k).front.rateAhead = true → exec (.rateExpiry k) s = .next s) ∧
    (∀ l, (s.line l).timer = none ∨ (∃ n, (s.line l).timer = some (n + 2)) ∨ (s.line l).ahead = true →
      exec (.pulseExpiry l) s = .next s) ∧
    (∀ k, ((s.ax k).front.inputA.timing = none → exec (.filterTimeout k .a) s = .next s) ∧
      ((s.ax k).front.inputB.timing = none → exec (.filterTimeout k .b) s = .next s) ∧
      ((s.ax k).front.inputA.timing = none → (s.ax k).front.inputB.timing = none →
        exec (.filterTimeout k .ab) s = .next s) ∧
      ((s.ax k).front.inputI.timing = none → exec (.filterTimeout k .index) s = .next s)) ∧
    (∀ k, exec (.axisInputChange k (.a (s.ax k).front.inputA.pin)) s = .next s ∧
      exec (.axisInputChange k (.b (s.ax k).front.inputB.pin)) s = .next s ∧
      exec (.axisInputChange k (.ab (s.ax k).front.inputA.pin (s.ax k).front.inputB.pin)) s = .next s ∧
      exec (.axisInputChange k (.index (s.ax k).front.inputI.pin)) s = .next s) ∧
    (∀ q : QualId, exec (.qualifierInputChange q (s.qualifiers.get q)) s = .next s) ∧
    (s.port.resetting = false → exec .resetComplete s = .next s) ∧
    (s.nreset = .high → exec .nresetRelease s = .next s) ∧
    (s.supply ≠ .below → exec .supplyRise s = .next s) ∧
    (s.supply ≠ .hold → exec .supplyHoldEnd s = .next s)

/-! ### The transaction (chapter 9) -/

/-- A fall of nCS starts a transaction (R139), is ignored whole while a reset completes (R154), and starts nothing while the part is
held in reset (R155); SDO drives from the fall, with the first byte that the part sends, and is high impedance from the rise on
(R140). A rise of nCS returns the port to IDLE in whatever phase it finds and changes nothing else (R145); with an accepted RESET
in hand, every block takes its reset values at that edge, and the reset is completing (R154). The buffers of an IDLE port, and
the filler, bytes to send and held RESET at the fall, are the model's choice (Log 19). -/
def Obligations.TransactionStartAndDeselect : Prop :=
  (∀ s : State, s.ncs = .high →
     (s.inReset = false → s.port.resetting = false →
       exec .transactionStart s = .next { s with
         ncs := .low
         port := { phase := .receiving, received := [], crc := 0xFF, filler := 0, toSend := [], sdo := .driven 0x00,
                   resetHeld := false, resetting := false, ignoring := false } }) ∧
     (s.inReset = false → s.port.resetting = true →
       exec .transactionStart s = .next { s with
         ncs := .low, port := { s.port with ignoring := true, sdo := .driven 0x00 } }) ∧
     (s.inReset = true → exec .transactionStart s = .next { s with ncs := .low })) ∧
  (∀ s : State, s.ncs = .low →
     (s.port.resetHeld = false →
       exec .deselect s = .next { s with ncs := .high, port := { idlePort with resetting := s.port.resetting } }) ∧
     (s.port.resetHeld = true → ∃ t, exec .deselect s = .next t ∧ ResetValues t ∧ WorldKept s t ∧
       t.ncs = .high ∧ t.nreset = s.nreset ∧ t.supply = s.supply ∧ t.port = { idlePort with resetting := true }))

/-- A length byte above 32 (R141), a CRC byte that does not match (R142) and a code outside H-4 (R143) are answered
FRAME_ERROR, FRAME_ERROR and UNKNOWN with the tag as received, and change no block. The frames byte by byte (H-3): a request is
code, tag, length and parameters; a reply is its code by the table of R144, tag, length and data; each is closed by the CRC-8 of
R142, and fields of more than one byte are little-endian, signed ones in two's complement (R141). -/
def Obligations.RefusedFrames : Prop :=
  ∀ s : State,
    (∀ code tag length, s.port.phase = .receiving → s.port.received <+: [code, tag, length] → 32 < length.toNat →
      Answers (.badLength code tag length) s (s.receivedAll [code, tag, length]) tag (bare .frameError)) ∧
    (∀ code tag params crc, Ready s code tag params → params.length ≤ 32 →
      crc ≠ crc8 (requestBytes code tag params) →
      Answers (.frameError code tag params crc) s (s.heard code tag params) tag (bare .frameError)) ∧
    (∀ code tag params, Ready s code tag params → params.length ≤ 32 → code ∉ commandCodes →
      Answers (.unknown code tag params) s (s.heard code tag params) tag (bare .unknown)) ∧
    (let shift (c : Byte) : Byte := BitVec.ofNat 8 (2 * c.toNat) ^^^ (if 128 ≤ c.toNat then 0x07 else 0x00)
     let crc (bytes : List Byte) : Byte := bytes.foldl (fun c b => Nat.repeat shift 8 (c ^^^ b)) 0xFF
     (∀ code tag params, requestBytes code tag params = [code, tag, BitVec.ofNat 8 params.length] ++ params) ∧
     (∀ bytes, crc8 bytes = crc bytes) ∧
     (∀ (tag : Byte) (reply : Reply),
       let code : Byte :=
         match reply.code with
         | .ok => 0x00
         | .accepted => 0x01
         | .busy => 0x02
         | .frameError => 0x03
         | .unknown => 0x04
         | .badArg => 0x05
         | .axisState => 0x06
         | .empty => 0x07
         | .notPending => 0x08
         | .noResult => 0x09
       let body := [code, tag, BitVec.ofNat 8 reply.data.length] ++ reply.data
       replyFrame tag reply = body ++ [crc body])) ∧
    (∀ n, n < 65536 → ∃ lo hi : Byte, le16 n = [lo, hi] ∧ lo.toNat + 256 * hi.toNat = n ∧ u16 lo hi = n) ∧
    (∀ n, n < 4294967296 → ∃ b0 b1 b2 b3 : Byte, le32 n = [b0, b1, b2, b3] ∧
      b0.toNat + 256 * b1.toNat + 65536 * b2.toNat + 16777216 * b3.toNat = n ∧ u32 b0 b1 b2 b3 = n) ∧
    (∀ n : Int, -2147483648 ≤ n → n ≤ 2147483647 → ∃ b0 b1 b2 b3 : Byte, leInt32 n = [b0, b1, b2, b3] ∧
      (b0.toNat + 256 * b1.toNat + 65536 * b2.toNat + 16777216 * b3.toNat : Int) = (if n < 0 then n + 4294967296 else n) ∧
      i32 b0 b1 b2 b3 = n)

/-- The port's checks in the order of R143, for every row of H-4: a parameter length outside the table, an axis above 3, a bank
above 1, and a handle outside 1..1024 where the port checks it, are answered BAD_ARG and change no block. -/
def Obligations.PortRefusesBadArguments : Prop :=
  ∀ (s : State) (r : HostRow), r ∈ hostRows → ∀ (tag : Byte) (params : List Byte), Ready s r.code tag params →
    params.length ≤ 32 →
    (params.length ∉ r.lengths ∨
      (r.axisFirst = true ∧ ∃ ax rest, params = ax :: rest ∧ 3 < ax.toNat) ∨
      (r.bankSecond = true ∧ ∃ ax b, params = [ax, b] ∧ 1 < b.toNat) ∨
      (r.handleFirst = true ∧ ∃ lo hi, params = [lo, hi] ∧ (u16 lo hi = 0 ∨ 1024 < u16 lo hi))) →
    Answers (r.row tag params) s (s.heard r.code tag params) tag (bare .badArg)

/-- SPI_BYTE_COMPLETE in each phase that takes no request byte, and the first two bytes of a request (R139, R140, R144). The
0x00 of a transaction that is ignored whole is R154's; a byte that an IDLE port ignoring none is clocked changes nothing. -/
def Obligations.ByteInEachPhase : Prop :=
  ∀ (s : State) (b : Byte),
    (s.port.phase = .idle → s.port.ignoring = false → exec (.spiByteComplete b) s = .next s) ∧
    (s.port.phase = .idle → s.port.ignoring = true →
      exec (.spiByteComplete b) s = .next { s with port := { s.port with sdo := .driven 0x00 } }) ∧
    (s.port.phase = .receiving → s.port.received.length < 2 →
      exec (.spiByteComplete b) s = .next { s with
        port := { s.port with received := s.port.received ++ [b], crc := crcByte s.port.crc b, sdo := .driven 0x00 } }) ∧
    (∀ n, s.port.phase = .awaiting → s.port.filler = n + 1 →
      exec (.spiByteComplete b) s = .next { s with port := { s.port with filler := n, sdo := .driven 0x00 } }) ∧
    (s.port.phase = .awaiting → s.port.filler = 0 →
      exec (.spiByteComplete b) s = .next { s with port := { s.port with phase := .replying, sdo := .driven 0x5A } }) ∧
    (∀ x y rest, s.port.phase = .replying → s.port.toSend = x :: y :: rest →
      exec (.spiByteComplete b) s = .next { s with port := { s.port with toSend := y :: rest, sdo := .driven x } }) ∧
    (∀ x, s.port.phase = .replying → s.port.toSend = [x] →
      exec (.spiByteComplete b) s = .next { s with
        port := { s.port with phase := .draining, toSend := [], sdo := .driven x } }) ∧
    (s.port.phase = .draining →
      exec (.spiByteComplete b) s = .next { s with port := { s.port with sdo := .driven 0x00 } })

/-- From AWAITING, clocking any bytes sends the filler, the marker 0x5A and the reply frame in order, and then 0x00 for every
further byte, and changes nothing but the port, which is then DRAINING (R139, R144). -/
def Obligations.ReplyIsSentInOrder : Prop :=
  ∀ (s : State) (given : List Byte) (extra : Nat), s.port.phase = .awaiting → s.port.toSend ≠ [] →
    given.length = s.port.filler + 1 + s.port.toSend.length + extra →
    (sentFor given s).1 =
      List.replicate s.port.filler (.driven 0x00) ++ .driven 0x5A :: s.port.toSend.map .driven ++
        List.replicate extra (.driven 0x00) ∧
    (sentFor given s).2.port.phase = .draining ∧
    { (sentFor given s).2 with port := s.port } = s

/-- Clocking what is left of a request, byte by byte, ends in the state that the request's own row answers, for every
well-formed host row and for BAD_LENGTH (R139, R140, R141, R142, R143). -/
def Obligations.RequestBytesAreTheRow : Prop :=
  (∀ (i : Instr) (s : State) (code tag crc : Byte) (params got rest : List Byte), i.wellFormed = true →
    requestOf i = some (code, tag, params, crc) → ReceivingPort s.port got →
    requestBytes code tag params ++ [crc] = got ++ rest → rest ≠ [] →
    clockBytes rest s = exec i s) ∧
  (∀ (s : State) (code tag length : Byte) (got rest : List Byte), 32 < length.toNat → ReceivingPort s.port got →
    [code, tag, length] = got ++ rest → rest ≠ [] →
    clockBytes rest s = exec (.badLength code tag length) s)

/-! ### Reads and acknowledgements -/

/-- IDENT replies OK with ten fixed bytes and changes nothing, in every state of every block (R148). -/
def Obligations.Ident : Prop :=
  ∀ (s : State) (tag : Byte), Ready s 0x01 tag [] →
    Answers (.ident tag []) s (s.heard 0x01 tag []) tag
      { code := .ok, data := [0x08, 0x04, 1, 4, 8, 4, 0x00, 0x04, 8, 8] }

/-- READ RECORD replies OK with the 24 bytes of the record's image, laid out as H-3 has them, all 0 for a FREE record (R19,
R149), and READ AXIS with the 56 bytes of the axis as it stands, in the order of R150 (R59, R80). Neither changes anything. -/
def Obligations.ReadRecordAndReadAxis : Prop :=
  (∀ (s : State) (tag lo hi : Byte) (h : Handle), u16 lo hi = h.val + 1 → Ready s 0x02 tag [lo, hi] →
     let r := s.recordAt h
     let flag (b : Bool) : Nat := if b then 1 else 0
     let image : List Byte :=
       (match r.state with
         | .free => 0
         | .staged => 1
         | .armed => 2
         | .moving => 3
         | .spent => 4) ::
       BitVec.ofNat 8 (r.axis.val + 4 * r.bank.val +
         8 * (match r.direction with
           | .unset => 0
           | .up => 1
           | .down => 2
           | .both => 3) +
         32 * flag (r.keep = .keep) + 64 * flag r.notify) ::
       leInt32 r.position ++
       (match r.action with
         | .none => [0, 0, 0]
         | .set l => [BitVec.ofNat 8 (1 + 8 * l.val), 0, 0]
         | .clear l => [BitVec.ofNat 8 (2 + 8 * l.val), 0, 0]
         | .toggle l => [BitVec.ofNat 8 (3 + 8 * l.val), 0, 0]
         | .pulse l w => BitVec.ofNat 8 (4 + 8 * l.val) :: le16 w) ++
       le16 r.budget ++
       BitVec.ofNat 8 (
         (match r.followOn with
           | .none => 0
           | .switch => 1
           | .link _ => 2) +
         4 * flag r.turnQualifier.isSome +
         (match r.gate with
           | none => 0
           | some g => 8 + 16 * g.input.val + 64 * flag (g.level = .high))) ::
       (match r.followOn with
         | .link target => le16 (target.val + 1)
         | _ => [0, 0]) ++
       (match r.turnQualifier with
         | some turn => le16 turn.toNat
         | none => [0, 0]) ++
       [BitVec.ofNat 8 (r.unacked + 16 * flag r.linkFault +
           (match r.lastFire with
             | none => 0
             | some f => 32 + 64 * flag (f.direction = .down))),
         BitVec.ofNat 8 r.outstanding] ++
       (match r.lastFire with
         | some f => leInt32 f.position ++ le16 f.turn.toNat
         | none => [0, 0, 0, 0, 0, 0])
     Answers (.readRecord tag [lo, hi]) s (s.heard 0x02 tag [lo, hi]) tag { code := .ok, data := image } ∧
     image.length = 24 ∧ (r = Record.cleared → image = List.replicate 24 0)) ∧
  (∀ (s : State) (tag ax : Byte) (k : AxisId), ax.toNat = k.val → Ready s 0x03 tag [ax] →
     let a := s.ax k
     let flag (b : Bool) : Byte := if b then 1 else 0
     let bytes : List Byte :=
       ([match a.front.state with
           | .halted => 0
           | .counting => 1
           | .faultedPhase => 2
           | .faultedRange => 3,
         match a.config.kind with
           | .linear => 0
           | .rotary => 1] : List Byte) ++
       le32 a.config.span ++
       [match a.config.source with
           | .quad4 => 0
           | .quad1 => 1
           | .stepDir => 2
           | .upDown => 3
           | .rate => 4,
         flag a.config.strict,
         match a.config.filter with
           | .zero => 0
           | .quarter => 1
           | .one => 2
           | .four => 3] ++
       le16 a.config.band ++ le16 a.config.ratePeriod ++
       [flag (a.config.rateDirection = .down), flag (a.config.indexEdge = .falling),
         match a.config.indexMode with
           | .off => 0
           | .capture => 1
           | .track => 2,
         flag a.front.homeRequest] ++
       leInt32 a.config.indexPreset ++
       leInt32 a.front.c ++ le16 a.front.liveTurn.toNat ++
       (match a.front.slot with
         | .empty => ([0, 0, 0, 0, 0, 0, 0] : List Byte)
         | .position count turn => 1 :: leInt32 count ++ le16 turn.toNat
         | .slip value => 2 :: leInt32 value ++ [0, 0]) ++
       (match a.eval.state with
         | .tracking => 0
         | .stalled => 1
         | .seeking => 2
         | .faultedLag => 3) ::
       leInt32 a.eval.e ++ le16 a.eval.evalTurn.toNat ++
       leInt32 (if a.lag < -2147483648 then -2147483648 else if 2147483647 < a.lag then 2147483647 else a.lag) ++
       [BitVec.ofNat 8 a.eval.bank.val, BitVec.ofNat 8 a.eval.guard.length] ++
       (match a.eval.held with
         | some f => le16 (f.source.val + 1)
         | none => [0, 0]) ++
       flag a.eval.settle ::
       le16 a.list.length ++
       (match a.cursor with
         | some lower => le16 lower
         | none => [0xFF, 0xFF]) ++
       [a.flags, a.mask]
     Answers (.readAxis tag [ax]) s (s.heard 0x03 tag [ax]) tag { code := .ok, data := bytes } ∧ bytes.length = 56)

/-- The layout of the record image: staging bytes 0 to 16 of what READ RECORD shows of a record gives back its programmed fields,
every one of them, in every record whose fields lie in the ranges of K-2 (R2, R4, R149, R151). -/
def Obligations.RecordImageRoundTrip : Prop :=
  ∀ (self : Handle) (r old : Record), r.direction ≠ .unset →
    -2147483648 ≤ r.position → r.position ≤ 2147483647 → r.budget ≤ 65535 →
    (∀ l w, r.action = .pulse l w → 1 ≤ w ∧ w ≤ 65535) → (∀ t, r.followOn = .link t → t ≠ self) →
    stageRecord self old ((recordImage r).take 17) = some { r with
      state := old.state, unacked := old.unacked, linkFault := old.linkFault, outstanding := old.outstanding,
      lastFire := none }

/-- STAGE refuses an image exactly on the conditions of R4; the reserved bits of R151 do not matter. -/
def Obligations.StageRefusesExactly : Prop :=
  ∀ (self : Handle) (r : Record) (b0 b1 p0 p1 p2 p3 b6 w0 w1 n0 n1 b11 t0 t1 q0 q1 b16 : Byte),
    stageRecord self r [b0, b1, p0, p1, p2, p3, b6, w0, w1, n0, n1, b11, t0, t1, q0, q1, b16] = none ↔
      b1.toNat / 8 % 4 = 0 ∨
      5 ≤ b6.toNat % 8 ∨
      b11.toNat % 4 = 3 ∨
      (b6.toNat % 8 = 0 ∧ b6.toNat / 8 % 8 ≠ 0) ∨
      (b6.toNat % 8 = 4 ∧ w0 = 0 ∧ w1 = 0) ∨
      (b11.toNat % 4 = 2 ∧ (t0.toNat + 256 * t1.toNat = 0 ∨ 1024 < t0.toNat + 256 * t1.toNat)) ∨
      (b11.toNat % 4 = 2 ∧ t0.toNat + 256 * t1.toNat = handleNumber self)

/-- The configuration bytes that READ AXIS shows, sent back with CONFIGURE AXIS, spell the same configuration, for every
configuration in the ranges of R40 (H-4, R41, R150). -/
def Obligations.ConfigurationRoundTrip : Prop :=
  ∀ c : AxisConfig, c.span < 4294967296 → c.band ≤ 65535 → c.ratePeriod ≤ 65535 →
    -2147483648 ≤ c.indexPreset → c.indexPreset ≤ 2147483647 →
    configOf (configData c ++ byte1 (edgeCode c.indexEdge) ++ byte1 (modeCode c.indexMode) ++ leInt32 c.indexPreset) =
      some c

/-- READ CAPTURE replies EMPTY for an empty slot and changes nothing; it returns the value of a full slot and empties the slot, the
flags apart (R119, R152). -/
def Obligations.ReadCapture : Prop :=
  ∀ (s : State) (tag ax : Byte) (k : AxisId), ax.toNat = k.val → Ready s 0x04 tag [ax] →
    let emptied := (s.heard 0x04 tag [ax]).setAx k
      { s.ax k with front := { (s.ax k).front with slot := .empty } }
    ((s.ax k).front.slot = .empty →
      Answers (.readCapture tag [ax]) s (s.heard 0x04 tag [ax]) tag (bare .empty)) ∧
    (∀ c t, (s.ax k).front.slot = .position c t →
      Answers (.readCapture tag [ax]) s emptied tag { code := .ok, data := 1 :: leInt32 c ++ leTurn t }) ∧
    (∀ v, (s.ax k).front.slot = .slip v →
      Answers (.readCapture tag [ax]) s emptied tag { code := .ok, data := 2 :: leInt32 v ++ [0, 0] })

/-- READ LINES replies OK with, for L0 to L7 in turn, a status byte (bit 0 FORCED, bit 1 forced level, bit 2 shadow, bit 3 pin,
bit 4 timer RUNNING) and the remaining time, 0 when IDLE, then the levels of Q0 to Q3: 25 bytes, and changes nothing. A Q pin
that changes is what the next read shows, and its change alters nothing else (R65, R91, R152). -/
def Obligations.ReadLinesAndQualifierInputs : Prop :=
  ∀ s : State,
    (∀ tag, Ready s 0x05 tag [] →
      let high (l : Level) : Nat := if l = .high then 1 else 0
      let line (l : Line) : List Byte :=
        BitVec.ofNat 8 (
          (match l.mode with
            | .released => 4 * high l.shadow + 8 * high l.shadow
            | .forced level => 1 + 2 * high level + 4 * high l.shadow + 8 * high level) +
          (match l.timer with
            | none => 0
            | some _ => 16)) ::
        (match l.timer with
          | none => [0, 0]
          | some n => le16 n)
      Answers (.readLines tag []) s (s.heard 0x05 tag []) tag
        { code := .ok
          data := line (s.line 0) ++ line (s.line 1) ++ line (s.line 2) ++ line (s.line 3) ++ line (s.line 4) ++
            line (s.line 5) ++ line (s.line 6) ++ line (s.line 7) ++
            [BitVec.ofNat 8 (high (s.qualifiers.get 0) + 2 * high (s.qualifiers.get 1) +
              4 * high (s.qualifiers.get 2) + 8 * high (s.qualifiers.get 3))] }) ∧
    (∀ (q : QualId) (level : Level), ∃ t, exec (.qualifierInputChange q level) s = .next t ∧
      t.qualifiers.get q = level ∧ (∀ p : QualId, p ≠ q → t.qualifiers.get p = s.qualifiers.get p) ∧
      t = { s with qualifiers := t.qualifiers })

/-- NEXT PENDING, from the start handle it names or from handle 1, replies OK with the 14 bytes of the lowest pending record at or
above the start and the 6 bytes of the attention summary, or EMPTY with the summary when there is none, and changes nothing
(R129, R152). -/
def Obligations.NextPending : Prop :=
  ∀ (s : State) (tag : Byte) (params : List Byte) (start : Nat), PendingLaw s → Ready s 0x06 tag params →
    ((params = [] ∧ start = 1) ∨ (∃ lo hi, params = [lo, hi] ∧ u16 lo hi = start ∧ 1 ≤ start ∧ start ≤ 1024)) →
    let attention (k : AxisId) : Nat := if (s.ax k).flags &&& (s.ax k).mask = 0 then 0 else 1
    let summary : List Byte :=
      le16 s.pendingSet.length ++
      [if s.pendingEnable then 1 else 0, if s.doneEnable then 1 else 0,
        match s.engine.mailbox with
          | .done _ => 1
          | _ => 0,
        BitVec.ofNat 8 (attention 0 + 2 * attention 1 + 4 * attention 2 + 8 * attention 3)]
    let shown (h : Handle) (r : Record) : List Byte :=
      le16 (h.val + 1) ++
      [match r.state with
          | .free => 0
          | .staged => 1
          | .armed => 2
          | .moving => 3
          | .spent => 4,
        BitVec.ofNat 8 r.axis.val, BitVec.ofNat 8 r.unacked, if r.linkFault then 1 else 0] ++
      (match r.lastFire with
        | some f => 1 :: leInt32 f.position ++ le16 f.turn.toNat ++ [if f.direction = .down then 1 else 0]
        | none => [0, 0, 0, 0, 0, 0, 0, 0])
    (∀ h : Handle, (s.recordAt h).isPending = true → start ≤ h.val + 1 →
      (∀ g : Handle, (s.recordAt g).isPending = true → start ≤ g.val + 1 → h ≤ g) →
      Answers (.nextPending tag params) s (s.heard 0x06 tag params) tag
        { code := .ok, data := shown h (s.recordAt h) ++ summary }) ∧
    ((∀ g : Handle, (s.recordAt g).isPending = true → g.val + 1 < start) →
      Answers (.nextPending tag params) s (s.heard 0x06 tag params) tag
        { code := .empty, data := summary })

/-- ACK of a pending record clears its count and its link fault, replies with both as they stood, and frees the record when it is
SPENT with keep AUTO and no outstanding links; ACK of any other record is answered NOT_PENDING and changes nothing (R5, R18,
R130). -/
def Obligations.AckOfARecord : Prop :=
  ∀ (s : State) (tag lo hi : Byte) (h : Handle), PendingLaw s → u16 lo hi = handleNumber h →
    Ready s 0x07 tag [lo, hi] →
    let r := s.recordAt h
    let acked := (s.heard 0x07 tag [lo, hi]).putRecord h { r with unacked := 0, linkFault := false }
    let reply : Reply := { code := .ok, data := [BitVec.ofNat 8 r.unacked, if r.linkFault then 1 else 0] }
    (r.isPending = false →
      Answers (.ack tag [lo, hi]) s (s.heard 0x07 tag [lo, hi]) tag (bare .notPending)) ∧
    (r.isPending = true → r.state = .spent → r.keep = .auto → r.outstanding = 0 →
      Answers (.ack tag [lo, hi]) s (acked.freeRecord h) tag reply) ∧
    (r.isPending = true → r.state ≠ .spent ∨ r.keep = .keep ∨ 0 < r.outstanding →
      Answers (.ack tag [lo, hi]) s acked tag reply)

/-- ACK AXIS clears the flags its mask names, replies with the flags as they stood before, and touches nothing else; a clear
that leaves no enabled flag set on any axis makes the axis source of nATTN false (R133). -/
def Obligations.AckAxis : Prop :=
  ∀ (s : State) (tag ax mask : Byte),
    (∀ k : AxisId, ax.toNat = k.val → Ready s 0x08 tag [ax, mask] → ∃ e,
      Answers (.ackAxis tag [ax, mask]) s e tag { code := .ok, data := [(s.ax k).flags] } ∧
      e = (s.heard 0x08 tag [ax, mask]).setAx k { s.ax k with flags := (e.ax k).flags } ∧
      (∀ i : Fin 8, (e.ax k).flags.getLsbD i = ((s.ax k).flags.getLsbD i && !mask.getLsbD i)) ∧
      ((∀ j, (e.ax j).flags &&& (e.ax j).mask = 0) → e.axisSource = false)) ∧
    (3 < ax.toNat → Ready s 0x08 tag [ax, mask] →
      Answers (.ackAxis tag [ax, mask]) s (s.heard 0x08 tag [ax, mask]) tag (bare .badArg))

/-- SET ENABLES gives every enable the value it carries (R135, R146), and nATTN is LOW exactly while the pending, axis or done
source holds (R137). -/
def Obligations.EnablesAndAttention : Prop :=
  ∀ s : State,
    (∀ tag p d m0 m1 m2 m3, Ready s 0x17 tag [p, d, m0, m1, m2, m3] → ∃ e,
      Answers (.setEnables tag [p, d, m0, m1, m2, m3]) s e tag (bare .ok) ∧
      e.ax 0 = { s.ax 0 with mask := m0 } ∧ e.ax 1 = { s.ax 1 with mask := m1 } ∧
      e.ax 2 = { s.ax 2 with mask := m2 } ∧ e.ax 3 = { s.ax 3 with mask := m3 } ∧
      (e.pendingEnable = true ↔ p ≠ 0) ∧ (e.doneEnable = true ↔ d ≠ 0) ∧
      e = { s.heard 0x17 tag [p, d, m0, m1, m2, m3] with
        axes := e.axes, pendingEnable := e.pendingEnable, doneEnable := e.doneEnable }) ∧
    (s.nattn = .low ↔
      (s.pendingSet ≠ [] ∧ s.pendingEnable = true) ∨
      (∃ (k : AxisId) (i : Fin 8), (s.ax k).flags.getLsbD i = true ∧ (s.ax k).mask.getLsbD i = true) ∨
      ((∃ r, s.engine.mailbox = .done r) ∧ s.doneEnable = true))

/-- GET RESULT reads the mailbox and the engine and changes nothing, with the bytes of R153 in every state of the mailbox (R97,
R153). -/
def Obligations.GetResult : Prop :=
  ∀ (s : State) (tag : Byte), Ready s 0x18 tag [] →
    let g := s.engine
    let engine : List Byte :=
      [BitVec.ofNat 8 g.queue.length, BitVec.ofNat 8 g.stalled.length,
        match g.occupant with
        | .none => 0
        | .mailbox _ => 1
        | .linkChecks _ => 2
        | .link _ _ _ => 2]
    (∀ r, g.mailbox = .done r →
      Answers (.getResult tag []) s (s.heard 0x18 tag []) tag
        { code := .ok
          data :=
            (match r.code with
              | .ok => 0x00
              | .partialRetire => 0x01
              | .noRecord => 0x02
              | .badHandle => 0x03
              | .wrongState => 0x04
              | .outOfRange => 0x05
              | .badField => 0x06
              | .bankActive => 0x07
              | .linkOutstanding => 0x08) :: r.tag :: le16 r.data ++ engine }) ∧
    (g.mailbox = .empty →
      Answers (.getResult tag []) s (s.heard 0x18 tag []) tag { code := .noResult, data := 0 :: 0 :: engine }) ∧
    (∀ c, g.mailbox = .waiting c →
      Answers (.getResult tag []) s (s.heard 0x18 tag []) tag { code := .noResult, data := 1 :: c.tag :: engine }) ∧
    (∀ c, g.mailbox = .inProgress c →
      Answers (.getResult tag []) s (s.heard 0x18 tag []) tag { code := .noResult, data := 2 :: c.tag :: engine })

/-- RESET is answered OK and held: no block changes before the rise of nCS. RESET_COMPLETE lets the port take transactions
again (R154). -/
def Obligations.ResetCommand : Prop :=
  ∀ s : State,
    (∀ tag, Ready s 0x1F tag [] →
      Answers (.reset tag []) s
        { s with port := { (s.heard 0x1F tag []).port with resetHeld := true } } tag (bare .ok)) ∧
    exec .resetComplete s = .next { s with port := { s.port with resetting := false } }

/-! ### Reset and supply (chapters 9 and 10) -/

/-- nRESET: at its fall and at its rise every block takes its reset values and the port is IDLE, while the levels of the pins stay
the world's (R20, R36, R60, R61, R93, R113, R138, R155). The supply monitor: a drop below 2.8 V resets every block and holds the
part, a rise starts the hold and changes nothing else, and the end of the hold leaves every block at its reset values (R156, R157).
The buffers of the IDLE port (Log 19), its SDO where nCS stands low as the reset ends (Log 15), the values of the model's own
fields (Log 6, Log 28), and a fall that finds nRESET low already, which resets again (Log 22), are the model's choice. -/
def Obligations.ResetPinAndSupply : Prop :=
  (∀ s : State,
     (∃ t, exec .nresetAssert s = .next t ∧ ResetValues t ∧ WorldKept s t ∧
       t.nreset = .low ∧ t.ncs = s.ncs ∧ t.supply = s.supply ∧ t.port = idlePort) ∧
     (s.nreset = .low → ∃ t, exec .nresetRelease s = .next t ∧ ResetValues t ∧ WorldKept s t ∧
       t.nreset = .high ∧ t.ncs = s.ncs ∧ t.supply = s.supply ∧ t.port = idlePort)) ∧
  (∀ s : State,
     (∃ t, exec .supplyDrop s = .next t ∧ ResetValues t ∧ WorldKept s t ∧
       t.supply = .below ∧ t.ncs = s.ncs ∧ t.nreset = s.nreset ∧ t.port = idlePort ∧ t.inReset = true) ∧
     (s.supply = .below → exec .supplyRise s = .next { s with supply := .hold }) ∧
     (s.supply = .hold → ∃ t, exec .supplyHoldEnd s = .next t ∧ ResetValues t ∧ WorldKept s t ∧
       t.supply = .up ∧ t.ncs = s.ncs ∧ t.nreset = s.nreset ∧ t.port = idlePort ∧
       (t.inReset = true ↔ s.nreset = .low)))

/-! ### Action lines (chapter 5) -/

/-- FORCE LINE and RELEASE LINE set the mode of every line their mask names, in one event, leave shadow, timer and the other lines
alone, and refuse a mask that names no line (R88, R89, R146). -/
def Obligations.ForceAndReleaseLine : Prop :=
  ∀ (s : State) (tag mask : Byte),
    (∀ levels, Ready s 0x09 tag [mask, levels] → mask ≠ 0 → ∃ e,
      Answers (.forceLine tag [mask, levels]) s e tag (bare .ok) ∧
      e = { s.heard 0x09 tag [mask, levels] with lines := e.lines } ∧
      ∀ l : LineId, e.line l = if mask.getLsbD l.val then
        { s.line l with mode := .forced (if levels.getLsbD l.val then .high else .low) } else s.line l) ∧
    (∀ levels, Ready s 0x09 tag [mask, levels] → mask = 0 →
      Answers (.forceLine tag [mask, levels]) s (s.heard 0x09 tag [mask, levels]) tag (bare .badArg)) ∧
    (Ready s 0x0A tag [mask] → mask ≠ 0 → ∃ e,
      Answers (.releaseLine tag [mask]) s e tag (bare .ok) ∧
      e = { s.heard 0x0A tag [mask] with lines := e.lines } ∧
      ∀ l : LineId, e.line l = if mask.getLsbD l.val then { s.line l with mode := .released } else s.line l) ∧
    (Ready s 0x0A tag [mask] → mask = 0 →
      Answers (.releaseLine tag [mask]) s (s.heard 0x0A tag [mask]) tag (bare .badArg))

/-- The table of R83: what each line request makes of the shadow and the timer of its line, from every state of them; the mode,
the forced level, the other lines and the rest of the part stay (R82, R83). -/
def Obligations.LineRequest : Prop :=
  ∀ (s : State) (l : LineId),
    s.lineRequest (.set l) = s.setLine l { s.line l with shadow := .high, timer := none } ∧
    s.lineRequest (.clear l) = s.setLine l { s.line l with shadow := .low, timer := none } ∧
    ((s.line l).shadow = .low →
      s.lineRequest (.toggle l) = s.setLine l { s.line l with shadow := .high, timer := none }) ∧
    ((s.line l).shadow = .high →
      s.lineRequest (.toggle l) = s.setLine l { s.line l with shadow := .low, timer := none }) ∧
    (∀ width, s.lineRequest (.pulse l width) =
      s.setLine l { s.line l with shadow := .high, timer := some width }) ∧
    (∀ x : Line, (s.setLine l x).line l = x ∧ (∀ m, m ≠ l → (s.setLine l x).line m = s.line m) ∧
      s.setLine l x = { s with lines := (s.setLine l x).lines })

/-- A tick of the time base lowers every running timer by 1. One that it brings to 0 expires at that tick: a line's shadow goes
LOW and its timer IDLE, whatever the mode (R85); a rate generator makes one count in the direction in force and starts again
with the period in force (R51). PULSE_EXPIRY and RATE_EXPIRY are that expiry in an event of its own, before the tick reaches the
others; that the tick then leaves this one timer as it stands is the model's (Log 6). An expiry and a line request that meet at
one tick give the table of R86 in each order. -/
def Obligations.ExpiriesAndTick : Prop :=
  (∀ s : State,
     (∀ l, (s.line l).timer = some 1 → (s.line l).ahead = false → exec (.pulseExpiry l) s =
       .next (s.setLine l { shadow := .low, mode := (s.line l).mode, timer := none, ahead := true })) ∧
     (∀ k, (s.ax k).front.rateTimer = some 1 → (s.ax k).front.rateAhead = false → exec (.rateExpiry k) s =
       .next (s.setAx k (Axis.count (s.ax k).config.rateDirection
         { s.ax k with
           front := { (s.ax k).front with rateTimer := some (s.ax k).config.ratePeriod, rateAhead := true } }))) ∧
     (∃ t, exec .timeBaseTick s = .next t ∧
       (∀ l, (s.line l).ahead = true → t.line l = { s.line l with ahead := false }) ∧
       (∀ l, (s.line l).ahead = false → (s.line l).timer = none → t.line l = s.line l) ∧
       (∀ l n, (s.line l).ahead = false → (s.line l).timer = some n → 2 ≤ n →
         t.line l = { s.line l with timer := some (n - 1) }) ∧
       (∀ l n, (s.line l).ahead = false → (s.line l).timer = some n → n ≤ 1 →
         t.line l = { s.line l with shadow := .low, timer := none }) ∧
       (∀ k, (s.ax k).front.rateAhead = true →
         t.ax k = { s.ax k with front := { (s.ax k).front with rateAhead := false } }) ∧
       (∀ k, (s.ax k).front.rateAhead = false → (s.ax k).front.rateTimer = none → t.ax k = s.ax k) ∧
       (∀ k n, (s.ax k).front.rateAhead = false → (s.ax k).front.rateTimer = some n → 2 ≤ n →
         t.ax k = { s.ax k with front := { (s.ax k).front with rateTimer := some (n - 1) } }) ∧
       (∀ k n, (s.ax k).front.rateAhead = false → (s.ax k).front.rateTimer = some n → n ≤ 1 →
         t.ax k = Axis.count (s.ax k).config.rateDirection
           { s.ax k with front := { (s.ax k).front with rateTimer := some (s.ax k).config.ratePeriod } }) ∧
       t = { s with lines := t.lines, axes := t.axes })) ∧
  (∀ (s : State) (l : LineId) (act : LineAction) (e q : State),
     (s.line l).timer = some 1 → (s.line l).ahead = false → (s.line l).shadow = .high →
     exec .timeBaseTick s = .next e → exec .timeBaseTick (s.lineRequest act) = .next q →
     let first := (e.lineRequest act).line l
     let last := q.line l
     let gives (x : Line) (shadow : Level) (timer : Option Nat) : Prop :=
       x = { s.line l with shadow := shadow, timer := timer }
     (act = .set l → gives first .high none ∧ gives last .high none) ∧
     (act = .clear l → gives first .low none ∧ gives last .low none) ∧
     (act = .toggle l → gives first .high none ∧ gives last .low none) ∧
     (∀ width, act = .pulse l width → gives first .high (some width) ∧
       (2 ≤ width → gives last .high (some (width - 1))) ∧ (width ≤ 1 → gives last .low none)))

/-! ### Host commands to an axis (chapters 2, 3 and 7) -/

/-- START (R55): HALTED goes to COUNTING, a RATE generator starts with the full period, a settle notice is withdrawn (R79);
COUNTING stays as it is; a fault is refused. STOP (R56): HALTED from any state, the generator IDLE, the settle notice
outstanding, or SETTLED at once when the evaluator is TRACKING with E equal to C (R79). HOME arms the home request of a COUNTING
front end and is refused with AXIS_STATE in every other state (R120). SET BANK sets the active bank in every state (R38). -/
def Obligations.StartStopHomeAndSetBank : Prop :=
  ∀ (s : State) (tag ax : Byte) (k : AxisId), ax.toNat = k.val →
    let a := s.ax k
    (Ready s 0x11 tag [ax] → a.front.state = .halted →
      Answers (.start tag [ax]) s
        ((s.heard 0x11 tag [ax]).setAx k { a with
          front := { a.front with
            state := .counting
            rateTimer := if a.config.source = .rate then some a.config.ratePeriod else a.front.rateTimer }
          eval := { a.eval with settle := false } }) tag (bare .ok)) ∧
    (Ready s 0x11 tag [ax] → a.front.state = .counting →
      Answers (.start tag [ax]) s (s.heard 0x11 tag [ax]) tag (bare .ok)) ∧
    (Ready s 0x11 tag [ax] → a.front.state = .faultedPhase ∨ a.front.state = .faultedRange →
      Answers (.start tag [ax]) s (s.heard 0x11 tag [ax]) tag (bare .axisState)) ∧
    (Ready s 0x12 tag [ax] → a.eval.state = .tracking → a.eval.e = a.front.c →
      Answers (.stop tag [ax]) s
        ((s.heard 0x12 tag [ax]).setAx k { a with
          front := { a.front with state := .halted, rateTimer := none }
          eval := { a.eval with settle := false }
          flags := a.flags ||| 0x80 }) tag (bare .ok)) ∧
    (Ready s 0x12 tag [ax] → a.eval.state ≠ .tracking ∨ a.eval.e ≠ a.front.c →
      Answers (.stop tag [ax]) s
        ((s.heard 0x12 tag [ax]).setAx k { a with
          front := { a.front with state := .halted, rateTimer := none }
          eval := { a.eval with settle := true } }) tag (bare .ok)) ∧
    (Ready s 0x14 tag [ax] → a.front.state = .counting →
      Answers (.home tag [ax]) s
        ((s.heard 0x14 tag [ax]).setAx k
          { a with front := { a.front with homeRequest := true } }) tag (bare .ok)) ∧
    (Ready s 0x14 tag [ax] → a.front.state ≠ .counting →
      Answers (.home tag [ax]) s (s.heard 0x14 tag [ax]) tag (bare .axisState)) ∧
    (∀ (b : Byte) (bank : Bank), b.toNat = bank.val → Ready s 0x16 tag [ax, b] →
      Answers (.setBank tag [ax, b]) s
        ((s.heard 0x16 tag [ax, b]).setAx k
          { a with eval := { a.eval with bank := bank } }) tag (bare .ok))

/-- SET POSITION: BAD_ARG for a position outside a ROTARY axis, AXIS_STATE unless HALTED, and otherwise C, turn 0 and a seek to the
position with turn 0 (R57, R76, R99); that BAD_ARG is checked before AXIS_STATE is the model's (Log 11). RESYNC: AXIS_STATE when
HALTED; otherwise a front-end fault is cleared, with a RATE generator started afresh, and a seek to C and the live turn is
ordered (R58, R76, R78, R99). -/
def Obligations.SetPositionAndResync : Prop :=
  (∀ (s : State) (tag ax p0 p1 p2 p3 : Byte) (k : AxisId), ax.toNat = k.val →
     Ready s 0x13 tag [ax, p0, p1, p2, p3] →
     let a := s.ax k
     let p := i32 p0 p1 p2 p3
     let fits := a.config.kind = .linear ∨ (0 ≤ p ∧ p < a.config.span)
     (¬ fits → Answers (.setPosition tag [ax, p0, p1, p2, p3]) s (s.heard 0x13 tag [ax, p0, p1, p2, p3]) tag
       (bare .badArg)) ∧
     (fits → a.front.state ≠ .halted →
       Answers (.setPosition tag [ax, p0, p1, p2, p3]) s (s.heard 0x13 tag [ax, p0, p1, p2, p3]) tag
         (bare .axisState)) ∧
     (fits → a.front.state = .halted →
       Answers (.setPosition tag [ax, p0, p1, p2, p3]) s
         (((s.heard 0x13 tag [ax, p0, p1, p2, p3]).setAx k
           (Axis.sought { a with front := { a.front with c := p, liveTurn := 0 } } p 0)).updEngine
           (fun g => g.atSeek k)) tag (bare .ok))) ∧
  (∀ (s : State) (tag ax : Byte) (k : AxisId), ax.toNat = k.val → Ready s 0x15 tag [ax] →
     let a := s.ax k
     (a.front.state = .halted → Answers (.resync tag [ax]) s (s.heard 0x15 tag [ax]) tag (bare .axisState)) ∧
     (a.front.state ≠ .halted →
       Answers (.resync tag [ax]) s
         (((s.heard 0x15 tag [ax]).setAx k
           (Axis.sought { a with
               front := { a.front with
                 state := .counting
                 rateTimer := if a.front.state ≠ .counting ∧ a.config.source = .rate then some a.config.ratePeriod
                   else a.front.rateTimer } }
             a.front.c (if a.config.kind = .linear then 0 else a.front.liveTurn))).updEngine
           (fun g => g.atSeek k)) tag (bare .ok)))

/-- CONFIGURE AXIS: the argument checks come first and give BAD_ARG (R41), then the state checks give AXIS_STATE (R42), and
either refusal changes nothing; an accepted command has the changes of ConfigureAxisChanges, with the span as R41 stores it. That
of a MOVE in progress only the relink part refuses a change of place by itself, and not one that still waits for its unlink, is
the model's reading (Log 24). -/
def Obligations.ConfigureAxisChecks : Prop :=
  ∀ (s : State) (tag ax : Byte) (rest : List Byte) (k : AxisId), ax.toNat = k.val → rest.length = 19 →
    Ready s 0x10 tag (ax :: rest) →
    (configOf rest = none →
      Answers (.configureAxis tag (ax :: rest)) s (s.heard 0x10 tag (ax :: rest)) tag (bare .badArg)) ∧
    (∀ c, configOf rest = some c →
      let old := (s.ax k).config
      let badArguments :=
        4095 < c.band ∨ c.ratePeriod = 0 ∨ (c.kind = .linear ∧ c.indexMode = .track) ∨
        (c.kind = .rotary ∧ (c.span < 1024 ∨ 1073741824 < c.span ∨ c.span / 4 < c.band ∨
          c.indexPreset < 0 ∨ (c.span : Int) ≤ c.indexPreset))
      let place := old.kind ≠ c.kind ∨ (old.kind = .rotary ∧ old.span ≠ c.span)
      let linksInto := (∃ h place, s.engine.occupant = .mailbox (.arm h k place)) ∨
        (∃ h place, s.engine.occupant = .mailbox (.moveRelink h k place)) ∨
        (∃ r place, s.engine.occupant = .link r k place)
      let badState :=
        ((place ∨ old.source ≠ c.source) ∧ (s.ax k).front.state ≠ .halted) ∨
        (place ∧ (s.ax k).list ≠ []) ∨ (place ∧ linksInto)
      (badArguments →
        Answers (.configureAxis tag (ax :: rest)) s (s.heard 0x10 tag (ax :: rest)) tag (bare .badArg)) ∧
      (¬ badArguments → badState →
        Answers (.configureAxis tag (ax :: rest)) s (s.heard 0x10 tag (ax :: rest)) tag (bare .axisState)) ∧
      (¬ badArguments → ¬ badState →
        Answers (.configureAxis tag (ax :: rest)) s
          ((s.heard 0x10 tag (ax :: rest)).configure k { c with
            span := if c.kind = .linear ∧ (c.span < 1024 ∨ 1073741824 < c.span) then old.span else c.span })
          tag (bare .ok)))

/-- What an accepted CONFIGURE AXIS changes, each only for a field that differs (R43, R76, R116): `new` is the configuration it
leaves in force. -/
def Obligations.ConfigureAxisChanges : Prop :=
  ∀ (s : State) (k : AxisId) (new : AxisConfig),
    let a := s.ax k
    let place := a.config.kind ≠ new.kind ∨ (a.config.kind = .rotary ∧ a.config.span ≠ new.span)
    let sourceMoved := a.config.source ≠ new.source
    let retime (f : InputFilter) : InputFilter :=
      { f with timing := if a.config.filter ≠ new.filter ∧ f.timing ≠ none then some new.filter else f.timing }
    let front : FrontEnd :=
      { state := a.front.state
        c := if place then 0 else a.front.c
        liveTurn := if place then 0 else a.front.liveTurn
        storedA := if sourceMoved then a.front.inputA.accepted else a.front.storedA
        storedB := if sourceMoved then a.front.inputB.accepted else a.front.storedB
        rateTimer := if sourceMoved then none else a.front.rateTimer
        rateAhead := a.front.rateAhead
        inputA := retime a.front.inputA
        inputB := retime a.front.inputB
        inputI := retime a.front.inputI
        homeRequest := if place ∨ a.config.indexMode ≠ new.indexMode then false else a.front.homeRequest
        slot := if place then .empty else a.front.slot }
    (¬ place → a.config.band = new.band → s.configure k new = s.setAx k { a with config := new, front := front }) ∧
    (¬ place → a.config.band ≠ new.band →
      s.configure k new = s.setAx k { a with config := new, front := front, eval := { a.eval with guard := [] } }) ∧
    (place → s.configure k new =
      (s.setAx k (Axis.sought { a with config := new, front := front } 0 0)).updEngine (fun g => g.atSeek k))

/-! ### Front end (chapters 3 and 7) -/

/-- The filters of A, B and I (R44): outside reset, a row that gives an input a new filter state without a change of its
accepted level changes the filters it names and nothing else, and nothing is handed on: a pin at the level it has, a return to
the accepted level, a new level that is timed, a width that runs out on no timing or at the accepted level. A and B may move
together, with one of them or neither accepted. While the part is held in reset, only the pins move (R156). -/
def Obligations.InputFilters : Prop :=
  ∀ (s : State) (k : AxisId),
    let a := s.ax k
    (∀ i fa fb, PairRow s k i fa fb → fa.accepted = a.front.inputA.accepted → fb.accepted = a.front.inputB.accepted →
      exec i s = .next (s.setAx k { a with front := { a.front with inputA := fa, inputB := fb } })) ∧
    (∀ i f, IndexFilterRow s k i f → f.accepted = a.front.inputI.accepted →
      exec i s = .next (s.setAx k { a with front := { a.front with inputI := f } })) ∧
    (s.inReset = true → ∀ l m : Level,
      exec (.axisInputChange k (.a l)) s =
        .next (s.setAx k { a with front := { a.front with inputA := { a.front.inputA with pin := l } } }) ∧
      exec (.axisInputChange k (.b l)) s =
        .next (s.setAx k { a with front := { a.front with inputB := { a.front.inputB with pin := l } } }) ∧
      exec (.axisInputChange k (.ab l m)) s =
        .next (s.setAx k { a with front := { a.front with
          inputA := { a.front.inputA with pin := l }, inputB := { a.front.inputB with pin := m } } }) ∧
      exec (.axisInputChange k (.index l)) s =
        .next (s.setAx k { a with front := { a.front with inputI := { a.front.inputI with pin := l } } }))

/-- QUAD4 and QUAD1 (R45, R46, R47, R48): one place forward or back in the sequence 00, 10, 11, 01 counts up or down with QUAD4,
and only between 01 and 00 with QUAD1; a change of both members is a phase error. Every event stores the new pair. -/
def Obligations.QuadratureSources : Prop :=
  ∀ (s : State) (k : AxisId) (i : Instr) (fa fb : InputFilter), PairRow s k i fa fb →
    (s.ax k).front.state = .counting →
    let a := s.ax k
    let step := ((a.front.storedA, a.front.storedB), (fa.accepted, fb.accepted))
    let forward : List ((Level × Level) × (Level × Level)) :=
      [((.low, .low), (.high, .low)), ((.high, .low), (.high, .high)), ((.high, .high), (.low, .high)),
        ((.low, .high), (.low, .low))]
    let both := a.front.storedA ≠ fa.accepted ∧ a.front.storedB ≠ fb.accepted
    (fa.accepted ≠ a.front.inputA.accepted ∨ fb.accepted ≠ a.front.inputB.accepted) →
    (a.config.source = .quad4 → step ∈ forward →
      exec i s = .next (s.setAx k ((a.withPair fa fb).count .up))) ∧
    (a.config.source = .quad4 → step.swap ∈ forward →
      exec i s = .next (s.setAx k ((a.withPair fa fb).count .down))) ∧
    (a.config.source = .quad1 → step = ((.low, .high), (.low, .low)) →
      exec i s = .next (s.setAx k ((a.withPair fa fb).count .up))) ∧
    (a.config.source = .quad1 → step = ((.low, .low), (.low, .high)) →
      exec i s = .next (s.setAx k ((a.withPair fa fb).count .down))) ∧
    (a.config.source = .quad1 → ¬ both → step ≠ ((.low, .high), (.low, .low)) →
      step ≠ ((.low, .low), (.low, .high)) → exec i s = .next (s.setAx k (a.withPair fa fb))) ∧
    (a.config.source = .quad4 ∨ a.config.source = .quad1 → both →
      exec i s = .next (s.setAx k { a.withPair fa fb with
        front := { (a.withPair fa fb).front with
          state := if a.config.strict = true then .faultedPhase else .counting }
        flags := a.flags ||| 0x08 }))

/-- STEP_DIR and UP_DOWN (R49, R50): which rising changes count, in which direction, for every transition and either strict
setting; with RATE, and in HALTED and FAULTED with any source, the pair is stored and nothing counts (R45, R51). -/
def Obligations.PulseSources : Prop :=
  ∀ (s : State) (k : AxisId) (i : Instr) (fa fb : InputFilter), PairRow s k i fa fb →
    let a := s.ax k
    let riseA := a.front.storedA = .low ∧ fa.accepted = .high
    let riseB := a.front.storedB = .low ∧ fb.accepted = .high
    (fa.accepted ≠ a.front.inputA.accepted ∨ fb.accepted ≠ a.front.inputB.accepted) →
    (a.front.state = .counting → a.config.source = .stepDir → riseA → a.front.storedB = .high →
      exec i s = .next (s.setAx k ((a.withPair fa fb).count .up))) ∧
    (a.front.state = .counting → a.config.source = .stepDir → riseA → a.front.storedB = .low →
      exec i s = .next (s.setAx k ((a.withPair fa fb).count .down))) ∧
    (a.front.state = .counting → a.config.source = .stepDir → ¬ riseA →
      exec i s = .next (s.setAx k (a.withPair fa fb))) ∧
    (a.front.state = .counting → a.config.source = .upDown → riseA → ¬ riseB →
      exec i s = .next (s.setAx k ((a.withPair fa fb).count .up))) ∧
    (a.front.state = .counting → a.config.source = .upDown → ¬ riseA → riseB →
      exec i s = .next (s.setAx k ((a.withPair fa fb).count .down))) ∧
    (a.front.state = .counting → a.config.source = .upDown → (riseA ↔ riseB) →
      exec i s = .next (s.setAx k (a.withPair fa fb))) ∧
    (a.front.state ≠ .counting ∨ a.config.source = .rate →
      exec i s = .next (s.setAx k (a.withPair fa fb)))

/-- One count event of an axis: the place it moves C and the live turn to (R52, R53), the range fault past an end of a LINEAR axis
(R52), and the outcome of the lag check for every evaluator state (R54, R74, R75). The lag: C − E on a LINEAR axis, and on a
ROTARY axis the one value congruent to it modulo span that lies in −span/2..span/2, span/2 itself as +span/2 (R54). -/
def Obligations.CountEventAndLag : Prop :=
  (∀ (a : Axis) (d : Dir),
     (a.config.kind = .linear → a.front.c = (if d = .up then 2147483647 else -2147483648) →
       a.count d = { a with
         front := { a.front with state := .faultedRange, rateTimer := none }, flags := a.flags ||| 0x20 }) ∧
     (a.config.kind = .rotary ∨ a.front.c ≠ (if d = .up then 2147483647 else -2147483648) →
       let wraps := a.config.kind = .rotary ∧ a.front.c = (if d = .up then (a.config.span : Int) - 1 else 0)
       let c : Int :=
         match d with
         | .up => if wraps then 0 else a.front.c + 1
         | .down => if wraps then (a.config.span : Int) - 1 else a.front.c - 1
       let turn : Turn :=
         match d with
         | .up => if wraps then a.front.liveTurn + 1 else a.front.liveTurn
         | .down => if wraps then a.front.liveTurn - 1 else a.front.liveTurn
       let b : Axis := { a with front := { a.front with c := c, liveTurn := turn } }
       (-255 ≤ b.lag ∧ b.lag ≤ 255 → a.count d = b) ∧
       (a.eval.state = .seeking ∨ a.eval.state = .faultedLag → a.count d = b) ∧
       (¬ (-255 ≤ b.lag ∧ b.lag ≤ 255) → a.eval.state = .tracking →
         a.count d = { b with
           eval := { a.eval with
             state := .faultedLag
             step := none
             guard := if a.eval.step = none then a.eval.guard
               else a.eval.guard.filter (staysGuarded a.config a.eval.e) }
           flags := a.flags ||| 0x10 }) ∧
       (¬ (-255 ≤ b.lag ∧ b.lag ≤ 255) → a.eval.state = .stalled →
         a.count d = { b with
           eval := { a.eval with state := .faultedLag, step := a.eval.step.map (fun st => { st with run := [] }) }
           flags := a.flags ||| 0x10 }))) ∧
  (∀ a : Axis,
     (a.config.kind = .linear → a.lag = a.front.c - a.eval.e) ∧
     (a.config.kind = .rotary → 0 < a.config.span →
       (∃ m : Int, a.lag = a.front.c - a.eval.e + m * a.config.span) ∧
       -(a.config.span : Int) < 2 * a.lag ∧ 2 * a.lag ≤ a.config.span))

/-- An index edge that is not qualified, or is taken in mode OFF, only changes the accepted level; a CAPTURE edge fills an empty
slot with C and the live turn and sets CAPTURED, or finds the slot full and sets CAPTURE_MISSED (R114, R115, R117, R118). -/
def Obligations.IndexCapture : Prop :=
  ∀ (s : State) (k : AxisId) (l : Level) (i : Instr), IndexRow s k l i →
    let a := s.ax k
    let qualified := a.front.state = .counting ∧ l = edgeLevel a.config.indexEdge
    (¬ qualified → exec i s = .next (s.setAx k (a.withIndex l))) ∧
    (qualified → a.front.homeRequest = false → a.config.indexMode = .off →
      exec i s = .next (s.setAx k (a.withIndex l))) ∧
    (qualified → a.front.homeRequest = false → a.config.indexMode = .capture → a.front.slot = .empty →
      exec i s = .next (s.setAx k { a.withIndex l with
        front := { (a.withIndex l).front with slot := .position a.front.c a.front.liveTurn }
        flags := a.flags ||| 0x02 })) ∧
    (qualified → a.front.homeRequest = false → a.config.indexMode = .capture → a.front.slot ≠ .empty →
      exec i s = .next (s.setAx k { a.withIndex l with flags := a.flags ||| 0x04 }))

/-- A qualified edge with the home request armed makes the home rebase, whatever the configured mode (R122); one in TRACK mode
with C away from the preset makes the track rebase with its slip (R123, R124); each orders a seek to the preset (R76, R99,
R125). -/
def Obligations.IndexRebase : Prop :=
  ∀ (s : State) (k : AxisId) (l : Level) (i : Instr), IndexRow s k l i →
    (s.ax k).front.state = .counting → l = edgeLevel (s.ax k).config.indexEdge →
    let a := s.ax k
    let preset := a.config.indexPreset
    (a.front.homeRequest = true →
      exec i s = .next ((s.setAx k (Axis.sought { a.withIndex l with
          config := { a.config with indexMode := .off }
          front := { (a.withIndex l).front with c := preset, liveTurn := 0, homeRequest := false }
          flags := a.flags ||| 0x01 } preset 0)).updEngine (fun g => g.atSeek k))) ∧
    (a.front.homeRequest = false → a.config.indexMode = .track → a.front.c = preset →
      exec i s = .next (s.setAx k (a.withIndex l))) ∧
    (∀ slip : Int, a.front.homeRequest = false → a.config.indexMode = .track → a.config.kind = .rotary →
      a.front.c ≠ preset → (∃ m : Int, slip = preset - a.front.c + m * a.config.span) →
      -(a.config.span : Int) < 2 * slip → 2 * slip ≤ a.config.span →
      let turn : Turn :=
        if (a.config.span : Int) ≤ a.front.c + slip then a.front.liveTurn + 1
        else if a.front.c + slip < 0 then a.front.liveTurn - 1 else a.front.liveTurn
      exec i s = .next ((s.setAx k (Axis.sought { a.withIndex l with
          front := { (a.withIndex l).front with
            c := preset, liveTurn := turn, slot := if a.front.slot = .empty then .slip slip else a.front.slot }
          flags := a.flags ||| (if a.front.slot = .empty then 0x02 else 0x04) } preset turn)).updEngine
          (fun g => g.atSeek k)))

/-! ### Table Engine (chapter 6) -/

/-- A table command that passes the port's checks: ACCEPTED, WAITING and any held result discarded in EMPTY and DONE, and the first
claim on an engine that is idle (R100); BUSY with no effect at all in WAITING and IN_PROGRESS (R95, R147). All seven rows. That the
first claim is held as a field until the grant is the model's (Log 28). -/
def Obligations.TableCommandReachesMailbox : Prop :=
  ∀ (s : State) (i : Instr) (code tag : Byte) (params : List Byte) (command : TableCommand),
    TableRow i code tag params command → Ready s code tag params →
    ((s.engine.mailbox = .empty ∨ ∃ r, s.engine.mailbox = .done r) →
      Answers i s { s.heard code tag params with
        engine := Engine.withArrival { s.engine with mailbox := .waiting { tag := tag, command := command } } } tag
        (bare .accepted)) ∧
    ((∃ c, s.engine.mailbox = .waiting c ∨ s.engine.mailbox = .inProgress c) →
      Answers i s (s.heard code tag params) tag (bare .busy))

/-- The arbiter (R100). It decides for the oldest link request when that is alone or the streak count is below 4, and for the
waiting command otherwise; the decision stands, whatever arrives, until the grant takes the claimant or a reset ends it. The
streak counts the requests taken over a waiting command: it rises with each, the command sets it to 0, and a request taken with
no command waiting leaves it at 0. That the decision is held as a claim until ARBITER_GRANT is the model's (Log 28). -/
def Obligations.ArbiterChoice : Prop :=
  (∀ g : Engine,
     (g.queue ≠ [] → (∀ c, g.mailbox ≠ .waiting c) ∨ g.streak < 4 → g.choice = some .link) ∧
     (∀ c, g.mailbox = .waiting c → g.queue = [] ∨ 4 ≤ g.streak → g.choice = some .command) ∧
     (g.queue = [] → (∀ c, g.mailbox ≠ .waiting c) → g.choice = none)) ∧
  (∀ s : State,
     (∀ tag command, MailboxTurn s tag command → ∃ t, exec .arbiterGrant s = .next t ∧
       t.engine.queue = s.engine.queue ∧ t.engine.streak = 0 ∧
       (t.engine.mailbox = .inProgress { tag := tag, command := command } ∨
         ∃ code data, t.engine.mailbox = .done { code := code, tag := tag, data := data })) ∧
     (∀ request rest, LinkTurn s request rest → ∃ t, exec .arbiterGrant s = .next t ∧
       t.engine.mailbox = s.engine.mailbox ∧
       t.engine.streak = (match s.engine.mailbox with
         | .waiting _ => s.engine.streak + 1
         | _ => 0) ∧
       ((t.engine.queue = request :: rest ∧ ∃ k, t.engine.occupant = .link request k 0) ∨
         (t.engine.queue = rest ∧ t.engine.occupant = .none)))) ∧
  (∀ (s t : State) (i : Instr), s.engine.occupant = .none → s.engine.claim ≠ none → i ≠ .arbiterGrant →
     exec i s = .next t →
     (t.engine.occupant = .none ∧ t.engine.claim = s.engine.claim) ∨ t.engine = Engine.initial)

/-- ALLOCATE at its grant takes the handle at the head of the free pool, sets its record to STAGED with the default fields, and
ends OK with the handle; an empty pool gives NO_RECORD with data 0 and changes nothing (R9, R102). STAGE and RELEASE at their
grant (R10, R17, R103, R108): the state check first, then the fields or the outstanding links; an accepted STAGE replaces the
programmed fields, and an accepted RELEASE frees the record: it is cleared, and its handle joins the tail of the pool (R16). A
record that is stored stands in the pending set exactly while its count or its link fault says so (R5, R127). The claim that the
arbiter's decision leaves (R100) is a field of the model's (Log 28). -/
def Obligations.AllocateStageAndRelease : Prop :=
  (∀ (s : State) (tag : Byte), MailboxTurn s tag .allocate →
     (s.freePool = [] →
       exec .arbiterGrant s = .next { s with engine := s.engine.endedWith tag .noRecord 0 }) ∧
     (∀ h rest, s.freePool = h :: rest →
       exec .arbiterGrant s = .next
         ({ s with freePool := rest, engine := s.engine.endedWith tag .ok (h.val + 1) }.putRecord h
           { state := .staged, axis := 0, position := 0, direction := .both, bank := 0, keep := .auto, notify := false,
             action := .none, followOn := .none, budget := 1, turnQualifier := none, gate := none, unacked := 0,
             linkFault := false, outstanding := 0, lastFire := none }))) ∧
  (∀ (s : State) (tag : Byte) (h : Handle),
     let r := s.recordAt h
     (∀ image, MailboxTurn s tag (.stage (handleNumber h) image) →
       (r.state ≠ .staged ∨ r.isPending = true →
         exec .arbiterGrant s = .next { s with engine := s.engine.endedWith tag .wrongState 0 }) ∧
       (r.state = .staged → r.isPending = false → stageRecord h r image = none →
         exec .arbiterGrant s = .next { s with engine := s.engine.endedWith tag .badField 0 }) ∧
       (∀ r', r.state = .staged → r.isPending = false → stageRecord h r image = some r' →
         exec .arbiterGrant s = .next
           ({ s with engine := s.engine.endedWith tag .ok 0 }.putRecord h r'))) ∧
     (MailboxTurn s tag (.release (handleNumber h)) →
       (r.state ≠ .staged ∧ r.state ≠ .spent →
         exec .arbiterGrant s = .next { s with engine := s.engine.endedWith tag .wrongState 0 }) ∧
       (r.state = .staged ∨ r.state = .spent → r.outstanding ≠ 0 →
         exec .arbiterGrant s = .next { s with engine := s.engine.endedWith tag .linkOutstanding 0 }) ∧
       (r.state = .staged ∨ r.state = .spent → r.outstanding = 0 →
         exec .arbiterGrant s = .next
           ({ s with engine := s.engine.endedWith tag .ok 0 }.freeRecord h)))) ∧
  (∀ (s : State) (h : Handle) (r : Record),
     (s.putRecord h r).recordAt h = r ∧ OnlyRecord s (s.putRecord h r) h ∧
     s.putRecord h r = { s with records := (s.putRecord h r).records, pendingSet := (s.putRecord h r).pendingSet } ∧
     s.freeRecord h = { s.putRecord h Record.cleared with freePool := s.freePool ++ [h] })

/-- ARM, DISARM, MOVE and RETIRE BANK at their grant (R101, R104, R106, R107, R109): a handle outside 1..1024 gives BAD_HANDLE for
each of the five commands that name one, the state check comes next, then the range checks, and a command that passes holds
the engine. The claim that the arbiter's decision leaves (R100) is a field of the model's (Log 28). -/
def Obligations.ListCommandsAtTheirGrant : Prop :=
  ∀ (s : State) (tag : Byte),
    (∀ n command, n = 0 ∨ 1024 < n →
      ((∃ image, command = .stage n image) ∨ command = .arm n ∨ command = .disarm n ∨ (∃ p, command = .move n p) ∨
        command = .release n) → MailboxTurn s tag command →
      exec .arbiterGrant s = .next { s with engine := s.engine.endedWith tag .badHandle 0 }) ∧
    (∀ h : Handle, MailboxTurn s tag (.arm (handleNumber h)) →
      let r := s.recordAt h
      (r.state ≠ .staged →
        exec .arbiterGrant s = .next { s with engine := s.engine.endedWith tag .wrongState 0 }) ∧
      (r.state = .staged → ¬ FitsAxis (s.ax r.axis).config r.position r.turnQualifier →
        exec .arbiterGrant s = .next { s with engine := s.engine.endedWith tag .outOfRange 0 }) ∧
      (r.state = .staged → FitsAxis (s.ax r.axis).config r.position r.turnQualifier →
        exec .arbiterGrant s = .next { s with
          engine := s.engine.goesOnWith tag (.arm (handleNumber h)) (.arm h r.axis 0) })) ∧
    (∀ h : Handle, MailboxTurn s tag (.disarm (handleNumber h)) →
      let r := s.recordAt h
      (r.state ≠ .armed →
        exec .arbiterGrant s = .next { s with engine := s.engine.endedWith tag .wrongState 0 }) ∧
      (r.state = .armed →
        exec .arbiterGrant s = .next { s with
          engine := s.engine.goesOnWith tag (.disarm (handleNumber h)) (.disarm h r.axis) })) ∧
    (∀ (h : Handle) (p : Int), MailboxTurn s tag (.move (handleNumber h) p) →
      let r := s.recordAt h
      let fits := (s.ax r.axis).config.kind = .linear ∨ (0 ≤ p ∧ p < (s.ax r.axis).config.span)
      (r.state ≠ .armed →
        exec .arbiterGrant s = .next { s with engine := s.engine.endedWith tag .wrongState 0 }) ∧
      (r.state = .armed → ¬ fits →
        exec .arbiterGrant s = .next { s with engine := s.engine.endedWith tag .outOfRange 0 }) ∧
      (r.state = .armed → fits →
        exec .arbiterGrant s = .next { s with
          engine := s.engine.goesOnWith tag (.move (handleNumber h) p) (.moveUnlink h r.axis p) })) ∧
    (∀ (k : AxisId) (bank : Bank), MailboxTurn s tag (.retireBank k bank) →
      ((s.ax k).eval.bank = bank →
        exec .arbiterGrant s = .next { s with engine := s.engine.endedWith tag .bankActive 0 }) ∧
      ((s.ax k).eval.bank ≠ bank →
        exec .arbiterGrant s = .next { s with
          engine := s.engine.goesOnWith tag (.retireBank k bank) (.retire k bank 0 0 none) }))

/-- A link request at its grant: a target that is STAGED and passes the checks of ARM is walked to, on its own axis (R111,
R158); any other target refuses the request in one event, which sets the source's link fault and lowers its count (R112). The
streak rises while a command waits and is left at 0 otherwise (R100); that the decision is held as a claim, and that it is the
mailbox at the grant that counts, is the model's (Log 28). -/
def Obligations.LinkRequestAtItsGrant : Prop :=
  ∀ (s : State) (request : LinkRequest) (rest : List LinkRequest), LinkTurn s request rest →
    let target := s.recordAt request.target
    let source := s.recordAt request.source
    let armable := target.state = .staged ∧ FitsAxis (s.ax target.axis).config target.position target.turnQualifier
    (armable → exec .arbiterGrant s = .next { s with
      engine := { s.engine with
        occupant := .link request target.axis 0, streak := s.engine.streakAfterLink, claim := none } }) ∧
    (¬ armable → exec .arbiterGrant s = .next
      ({ s with engine := Engine.idleAgain { s.engine with queue := rest, streak := s.engine.streakAfterLink } }.putRecord
        request.source { source with outstanding := source.outstanding - 1, linkFault := true }))

/-- LINK_EVENT of an ARM and of the relink of a MOVE: while the axis is SEEKING it waits (R25, R34); otherwise the record
becomes ARMED with no field changed, stands after the last record at or below its position and on its side of the cursor, is not
guarded, and the command ends OK (R11, R13, R22, R23, R105, R107), and the arbiter decides (R100; the claim it leaves is a field
of the model's, Log 28). The place that the walk had reached does not matter (R26): that the event passes what is left of the
walk is the model's (Log 12). -/
def Obligations.LinkEvent : Prop :=
  ∀ (s : State) (h : Handle) (k : AxisId) (place : Nat) (request : TableRequest),
    s.engine.occupant = .mailbox (.arm h k place) ∨ s.engine.occupant = .mailbox (.moveRelink h k place) →
    s.engine.mailbox = .inProgress request →
    ((s.ax k).eval.state = .seeking → exec .linkEvent s = .next s) ∧
    ((s.ax k).eval.state ≠ .seeking → ∃ t, exec .linkEvent s = .next t ∧
      t.recordAt h = { s.recordAt h with state := .armed } ∧ OnlyRecord s t h ∧
      LinkedInto s.posOf (s.posOf h) h (s.ax k).list (t.ax k).list ∧
      t.ax k = { s.ax k with
        list := (t.ax k).list
        cursor := (s.ax k).cursor.map (fun n => if s.posOf h ≤ (s.ax k).eval.e then n + 1 else n) } ∧
      (∀ j, j ≠ k → t.ax j = s.ax j) ∧
      t.engine = Engine.idleAgain { s.engine with
        mailbox := .done { code := .ok, tag := request.tag, data := 0 } } ∧
      t.lines = s.lines ∧ t.freePool = s.freePool ∧ RestKept s t)

/-- LINK_EVENT of a link request: while the axis of the target is SEEKING it waits (R25, R34); otherwise the target becomes
ARMED and stands after the last record at or below its position and on its side of the cursor (R22, R23), and in that event the
source's outstanding links fall by 1, the entry leaves the queue, the occupant goes NONE, and a SPENT AUTO source with nothing
left is freed; the mailbox is not touched (R18, R111), and the arbiter decides (R100; the claim it leaves is a field of the
model's, Log 28). The place that the walk had reached does not matter (R26): that the event passes what is left of the walk is
the model's (Log 12). -/
def Obligations.LinkEventOfARequest : Prop :=
  ∀ (s : State) (r : LinkRequest) (k : AxisId) (place : Nat), s.engine.occupant = .link r k place → r.source ≠ r.target →
    let source := s.recordAt r.source
    let freed := source.state = .spent ∧ source.keep = .auto ∧ source.isPending = false ∧ source.outstanding ≤ 1
    ((s.ax k).eval.state = .seeking → exec .linkEvent s = .next s) ∧
    ((s.ax k).eval.state ≠ .seeking → ∃ t, exec .linkEvent s = .next t ∧
      t.recordAt r.target = { s.recordAt r.target with state := .armed } ∧
      (¬ freed → t.recordAt r.source = { source with outstanding := source.outstanding - 1 } ∧
        t.freePool = s.freePool) ∧
      (freed → t.recordAt r.source = Record.cleared ∧ t.freePool = s.freePool ++ [r.source]) ∧
      (∀ g, g ≠ r.source → g ≠ r.target →
        t.recordAt g = s.recordAt g ∧ (g ∈ t.pendingSet ↔ g ∈ s.pendingSet)) ∧
      (∀ g, g = r.source ∨ g = r.target → (g ∈ t.pendingSet ↔ (t.recordAt g).isPending = true)) ∧
      LinkedInto s.posOf (s.posOf r.target) r.target (s.ax k).list (t.ax k).list ∧
      t.ax k = { s.ax k with
        list := (t.ax k).list
        cursor := (s.ax k).cursor.map (fun n => if s.posOf r.target ≤ (s.ax k).eval.e then n + 1 else n) } ∧
      (∀ j, j ≠ k → t.ax j = s.ax j) ∧
      t.engine = Engine.idleAgain { s.engine with queue := s.engine.queue.tail } ∧
      t.lines = s.lines ∧ RestKept s t)

/-- UNLINK_EVENT of DISARM, MOVE and RETIRE BANK: it waits on a seek and on the step that is examining the record (R25, R32,
R34); a record no longer ARMED ends DISARM and MOVE with WRONG_STATE and is passed by RETIRE BANK (R106, R107, R110). The claim
that the arbiter's decision leaves (R100) is a field of the model's (Log 28). -/
def Obligations.UnlinkEventWaitsAndRefuses : Prop :=
  ∀ (s : State) (h : Handle) (k : AxisId) (operation : Operation),
    operation = .disarm h k ∨ (∃ p, operation = .moveUnlink h k p) ∨
      (∃ bank place count, operation = .retire k bank place count (some h)) →
    s.engine.occupant = .mailbox operation →
    let inStep := (∃ st, (s.ax k).eval.step = some st ∧ h ∈ st.run) ∨
      (∃ f, (s.ax k).eval.held = some f ∧ f.source = h)
    ((s.ax k).eval.state = .seeking ∨ inStep → exec .unlinkEvent s = .next s) ∧
    ((s.ax k).eval.state ≠ .seeking → ¬ inStep → (s.recordAt h).state ≠ .armed →
      (∀ request, operation = .disarm h k ∨ (∃ p, operation = .moveUnlink h k p) →
        s.engine.mailbox = .inProgress request →
        exec .unlinkEvent s = .next { s with
          engine := Engine.idleAgain { s.engine with
            mailbox := .done { code := .wrongState, tag := request.tag, data := 0 } } }) ∧
      (∀ bank place count, operation = .retire k bank place count (some h) →
        exec .unlinkEvent s = .next { s with
          engine := { s.engine with occupant := .mailbox (.retire k bank place count none) } }))

/-- UNLINK_EVENT of a record still ARMED: it leaves its list, its side of the cursor and the guard set, the others keep their
order, and DISARM leaves it STAGED and ends OK, MOVE gives it its new position and goes on to the relink, RETIRE BANK leaves it
STAGED and counts it (R12, R13, R14, R24, R70, R106, R107, R110). The claim that the arbiter's decision leaves (R100) is a
field of the model's (Log 28). -/
def Obligations.UnlinkEventTakesTheRecord : Prop :=
  ∀ (s : State) (h : Handle) (k : AxisId) (operation : Operation), s.engine.occupant = .mailbox operation →
    (s.ax k).eval.state ≠ .seeking → (s.recordAt h).state = .armed →
    (∀ st, (s.ax k).eval.step = some st → h ∉ st.run) → (∀ f, (s.ax k).eval.held = some f → f.source ≠ h) →
    let left (t : State) : Prop :=
      OnlyRecord s t h ∧
      t.ax k = { s.ax k with
        list := (s.ax k).list.erase h
        cursor := (s.ax k).cursor.map (fun n => if (s.ax k).list.idxOf h < n then n - 1 else n)
        eval := { (s.ax k).eval with guard := (s.ax k).eval.guard.filter (fun g => decide (g.handle ≠ h)) } } ∧
      (∀ j, j ≠ k → t.ax j = s.ax j) ∧ t.lines = s.lines ∧ t.freePool = s.freePool ∧ RestKept s t
    (∀ request, operation = .disarm h k → s.engine.mailbox = .inProgress request →
      ∃ t, exec .unlinkEvent s = .next t ∧ left t ∧ t.recordAt h = { s.recordAt h with state := .staged } ∧
        t.engine = Engine.idleAgain { s.engine with
          mailbox := .done { code := .ok, tag := request.tag, data := 0 } }) ∧
    (∀ p, operation = .moveUnlink h k p →
      ∃ t, exec .unlinkEvent s = .next t ∧ left t ∧
        t.recordAt h = { s.recordAt h with state := .moving, position := p } ∧
        t.engine = { s.engine with occupant := .mailbox (.moveRelink h k 0) }) ∧
    (∀ bank place count, operation = .retire k bank place count (some h) →
      ∃ t, exec .unlinkEvent s = .next t ∧ left t ∧ t.recordAt h = { s.recordAt h with state := .staged } ∧
        t.engine = { s.engine with occupant := .mailbox (.retire k bank place (count + 1) none) })

/-- The RETIRE BANK walk (R109, R110): records of the other bank are passed; at the next of the named bank the walk ends
PARTIAL if that bank has become active, and sends the unlink otherwise; with none left before the end of the list it ends OK
with the count; a SEEKING axis holds it. That the two rows may come at any place of the walk, and pass the records left before
them in the one event, is the model's (Log 12). The claim that the arbiter's decision leaves (R100) is a field of the model's
(Log 28). -/
def Obligations.RetireBankWalk : Prop :=
  ∀ (s : State) (k : AxisId) (bank : Bank) (place count : Nat) (request : TableRequest),
    s.engine.occupant = .mailbox (.retire k bank place count none) → s.engine.mailbox = .inProgress request →
    ((s.ax k).eval.state = .seeking →
      exec .retireBankCheck s = .next s ∧ exec .retireBankWalkEnd s = .next s) ∧
    ((s.ax k).eval.state ≠ .seeking →
      (∀ passed h rest, (s.ax k).list.drop place = passed ++ h :: rest →
        (∀ g ∈ passed, (s.recordAt g).bank ≠ bank) → (s.recordAt h).bank = bank →
        ((s.ax k).eval.bank = bank → exec .retireBankCheck s = .next { s with
          engine := Engine.idleAgain { s.engine with
            mailbox := .done { code := .partialRetire, tag := request.tag, data := count } } }) ∧
        ((s.ax k).eval.bank ≠ bank → exec .retireBankCheck s = .next { s with
          engine := { s.engine with
            occupant := .mailbox (.retire k bank (place + passed.length) count (some h)) } }) ∧
        exec .retireBankWalkEnd s = .next s) ∧
      ((∀ g ∈ (s.ax k).list.drop place, (s.recordAt g).bank ≠ bank) →
        exec .retireBankCheck s = .next s ∧
        exec .retireBankWalkEnd s = .next { s with
          engine := Engine.idleAgain { s.engine with
            mailbox := .done { code := .ok, tag := request.tag, data := count } } }))

/-! ### Crossing evaluation (chapters 2 and 4) -/

/-- STEP_START up and down (R28, R29, R30, R62, R63, R64): E and the evaluated turn move one unit toward C, round the span on a
ROTARY axis, the run is fixed in its examination order, and the cursor passes it. A step with no run ends at once, with its
release checks (R71), and a settle notice is settled when E reaches C (R79). -/
def Obligations.StepStart : Prop :=
  ∀ (s : State) (k : AxisId), (s.ax k).eval.state = .tracking → (s.ax k).eval.step = none →
    let a := s.ax k
    let stepped (d : Dir) (e : Int) (turn crossing : Turn) (run : List Handle) (lower : Nat → Nat) : State :=
      s.setAx k { a with
        cursor := a.cursor.map lower
        eval := { a.eval with
          e := e
          evalTurn := turn
          step := if run = [] then none else some { dir := d, turn := crossing, run := run }
          guard := if run = [] then a.eval.guard.filter (staysGuarded a.config e) else a.eval.guard
          settle := if e = a.front.c then false else a.eval.settle }
        flags := if a.eval.settle = true ∧ e = a.front.c then a.flags ||| 0x80 else a.flags }
    let standing (p : Int) : List Handle := a.list.filter (fun h => decide (s.posOf h = p))
    (0 < a.lag → (a.config.kind = .linear ∨ a.eval.e ≠ (a.config.span : Int) - 1) →
      exec (.stepStart k) s = .next (stepped .up (a.eval.e + 1) a.eval.evalTurn a.eval.evalTurn
        (standing (a.eval.e + 1)) (fun n => n + (standing (a.eval.e + 1)).length))) ∧
    (0 < a.lag → a.config.kind = .rotary → a.eval.e = (a.config.span : Int) - 1 →
      exec (.stepStart k) s = .next (stepped .up 0 (a.eval.evalTurn + 1) (a.eval.evalTurn + 1)
        (standing 0) (fun _ => (standing 0).length))) ∧
    (a.lag < 0 → (a.config.kind = .linear ∨ a.eval.e ≠ 0) →
      exec (.stepStart k) s = .next (stepped .down (a.eval.e - 1) a.eval.evalTurn a.eval.evalTurn
        (standing a.eval.e).reverse (fun n => n - (standing a.eval.e).length))) ∧
    (a.lag < 0 → a.config.kind = .rotary → a.eval.e = 0 →
      exec (.stepStart k) s = .next (stepped .down ((a.config.span : Int) - 1) (a.eval.evalTurn - 1) a.eval.evalTurn
        (standing 0).reverse (fun _ => a.list.length)))

/-- EXAMINE_RECORD of a record that fails one of the five checks of R65: it passes, and only the run shortens; after the last record
of the run the step ends with its release checks (R63, R65, R71). -/
def Obligations.IneligibleRecordPasses : Prop :=
  ∀ (s : State) (k : AxisId) (st : CrossingStep) (h : Handle) (rest : List Handle), Examines s k st h rest →
    (s.ax k).eval.held = none → ¬ Eligible (s.ax k) st h (s.recordAt h) s.qualifiers →
    let a := s.ax k
    exec (.examineRecord k) s = .next (s.setAx k { a with
      eval := { a.eval with
        step := if rest = [] then none else some { st with run := rest }
        guard := if rest = [] then a.eval.guard.filter (staysGuarded a.config a.eval.e) else a.eval.guard } })

/-- The fire of an eligible record that stays ARMED: line request, last fire, notification, follow-on, budget, and guard entry, and
nothing else (R65, R66, R67, R68, R69). A LINK fire has a place in the queue here; the claim of
its request on an idle engine (R100) is a field of the model's (Log 28). -/
def Obligations.FireOfARecordThatGoesOn : Prop :=
  ∀ (s : State) (k : AxisId) (st : CrossingStep) (h : Handle) (rest : List Handle), Examines s k st h rest →
    (s.ax k).eval.held = none → Eligible (s.ax k) st h (s.recordAt h) s.qualifiers →
    (s.recordAt h).state = .armed → (s.recordAt h).budget ≠ 1 →
    (∀ target, (s.recordAt h).followOn = .link target → s.engine.queue.length < 8) →
    let a := s.ax k
    let r := s.recordAt h
    let guard := if 0 < a.config.band then guardAfter a.eval.guard h r.position else a.eval.guard
    ∃ t, exec (.examineRecord k) s = .next t ∧
      t.recordAt h = { (r.afterFire st).afterLink with budget := r.budget - 1 } ∧
      OnlyRecord s t h ∧
      t.ax k = { a with
        eval := { a.eval with
          bank := bankAfter a.eval.bank r
          step := if rest = [] then none else some { st with run := rest }
          guard := if rest = [] then guard.filter (staysGuarded a.config a.eval.e) else guard }
        flags := if 0 < a.config.band ∧ 8 ≤ a.eval.guard.length then a.flags ||| 0x40 else a.flags } ∧
      (∀ j, j ≠ k → t.ax j = s.ax j) ∧
      t.lines = (s.lineRequest r.action).lines ∧
      t.engine = s.engine.afterFire h r ∧
      t.freePool = s.freePool ∧ RestKept s t

/-- The fire that uses up a finite budget: every other part first, then the record leaves its list, its side of the cursor and
the guard set and is SPENT with budget 0, or FREE in the same event when auto-release holds (R15, R18, R24, R66, R67, R68). The
place of a walk of that list stays between the records on either side (R26, R109); that it is a count of records (Log 12), and
the claim of a request placed in an idle engine (R100; Log 28), are fields of the model's. -/
def Obligations.FireThatExhausts : Prop :=
  ∀ (s : State) (k : AxisId) (st : CrossingStep) (h : Handle) (rest : List Handle), Examines s k st h rest →
    (s.ax k).eval.held = none → Eligible (s.ax k) st h (s.recordAt h) s.qualifiers → (s.recordAt h).budget = 1 →
    (∀ target, (s.recordAt h).followOn = .link target → s.engine.queue.length < 8) →
    let a := s.ax k
    let r := s.recordAt h
    let spent : Record := { (r.afterFire st).afterLink with budget := 0, state := .spent }
    let freed := spent.keep = .auto ∧ spent.isPending = false ∧ spent.outstanding = 0
    let guard := a.eval.guard.filter (fun g => decide (g.handle ≠ h))
    ∃ t, exec (.examineRecord k) s = .next t ∧
      (¬ freed → t.recordAt h = spent ∧ t.freePool = s.freePool) ∧
      (freed → t.recordAt h = Record.cleared ∧ t.freePool = s.freePool ++ [h]) ∧
      OnlyRecord s t h ∧
      t.ax k = { a with
        list := a.list.erase h
        cursor := a.cursor.map (fun n => if a.list.idxOf h < n then n - 1 else n)
        eval := { a.eval with
          bank := bankAfter a.eval.bank r
          step := if rest = [] then none else some { st with run := rest }
          guard := if rest = [] then guard.filter (staysGuarded a.config a.eval.e) else guard } } ∧
      (∀ j, j ≠ k → t.ax j = s.ax j) ∧
      t.lines = (s.lineRequest r.action).lines ∧
      t.engine = { s.engine.afterFire h r with occupant := s.engine.occupant.afterRemoval k (a.list.idxOf h) } ∧
      RestKept s t

/-- A LINK fire that finds 8 requests in the queue is held before its LINK part: line request, last fire and notification stand, the
budget does not, the evaluator is STALLED and joins the tail of the stalled adders (R67, R72, R99). -/
def Obligations.LinkFireIsHeld : Prop :=
  ∀ (s : State) (k : AxisId) (st : CrossingStep) (h target : Handle) (rest : List Handle), Examines s k st h rest →
    (s.ax k).eval.held = none → Eligible (s.ax k) st h (s.recordAt h) s.qualifiers →
    (s.recordAt h).followOn = .link target → s.engine.queue.length = 8 →
    let a := s.ax k
    let r := s.recordAt h
    ∃ t, exec (.examineRecord k) s = .next t ∧
      t.recordAt h = r.afterFire st ∧ OnlyRecord s t h ∧
      t.ax k = { a with
        eval := { a.eval with
          state := .stalled, step := some { st with run := rest }, held := some { source := h, target := target } } } ∧
      (∀ j, j ≠ k → t.ax j = s.ax j) ∧
      t.lines = (s.lineRequest r.action).lines ∧
      t.engine = { s.engine with stalled := s.engine.stalled ++ [k] } ∧
      t.freePool = s.freePool ∧ RestKept s t

/-- STALLED_ADDER_PLACE (R72, R75, R79, R99): the head of the stalled adders places its request at the tail of the queue, its
source's outstanding links rise, its budget is counted and its guard entry made; a STALLED evaluator goes back to TRACKING, a
FAULTED(LAG) one stays so, the step ends when its run is done, and a settle notice is settled if the evaluator is TRACKING with
E equal to C. A record that it exhausts leaves its list, and the place of a walk there stays between the records on either side
(R24, R26, R109; that it is a count of records is the model's, Log 12). The claim of a request placed in an idle engine (R100)
is a field of the model's (Log 28). -/
def Obligations.HeldFireCompletes : Prop :=
  ∀ (s : State) (k : AxisId) (others : List AxisId) (f : HeldFire) (st : CrossingStep),
    s.engine.stalled = k :: others → (s.ax k).eval.held = some f → (s.ax k).eval.step = some st →
    s.engine.queue.length < 8 → (s.recordAt f.source).state = .armed →
    let a := s.ax k
    let r := s.recordAt f.source
    let placed := s.engine.queue ++ [{ source := f.source, target := f.target }]
    let state : EvalState := if a.eval.state = .stalled then .tracking else a.eval.state
    let settles := a.eval.settle = true ∧ state = .tracking ∧ a.eval.e = a.front.c
    let completed (list : List Handle) (cursor : Option Nat) (guard : List GuardEntry) (flags : BitVec 8) : Axis :=
      { a with
        list := list
        cursor := cursor
        eval := { a.eval with
          state := state
          held := none
          step := if st.run = [] then none else some st
          guard := if st.run = [] then guard.filter (staysGuarded a.config a.eval.e) else guard
          settle := if settles then false else a.eval.settle }
        flags := if settles then flags ||| 0x80 else flags }
    ∃ t, exec .stalledAdderPlace s = .next t ∧ OnlyRecord s t f.source ∧ (∀ j, j ≠ k → t.ax j = s.ax j) ∧
      t.lines = s.lines ∧ RestKept s t ∧
      (r.budget ≠ 1 →
        t.recordAt f.source = { r with outstanding := r.outstanding + 1, budget := r.budget - 1 } ∧
        t.engine = Engine.withArrival { s.engine with queue := placed, stalled := others } ∧ t.freePool = s.freePool ∧
        t.ax k = completed a.list a.cursor
          (if 0 < a.config.band then guardAfter a.eval.guard f.source r.position else a.eval.guard)
          (if 0 < a.config.band ∧ 8 ≤ a.eval.guard.length then a.flags ||| 0x40 else a.flags)) ∧
      (r.budget = 1 →
        t.recordAt f.source = { r with outstanding := r.outstanding + 1, budget := 0, state := .spent } ∧
        t.engine = { Engine.withArrival { s.engine with queue := placed, stalled := others } with
          occupant := s.engine.occupant.afterRemoval k (a.list.idxOf f.source) } ∧ t.freePool = s.freePool ∧
        t.ax k = completed (a.list.erase f.source)
          (a.cursor.map (fun n => if a.list.idxOf f.source < n then n - 1 else n))
          (a.eval.guard.filter (fun g => decide (g.handle ≠ f.source))) a.flags)

/-- SEEK_COMPLETE (R35, R77, R79): the cursor counts the records at or below E; with |lag| at most 255 the evaluator is
TRACKING, and a settle notice is settled if E equals C; otherwise it is FAULTED(LAG) with LAG set. -/
def Obligations.SeekComplete : Prop :=
  ∀ (s : State) (k : AxisId), (s.ax k).eval.state = .seeking →
    let a := s.ax k
    let cursor := some (a.list.filter (fun h => decide (s.posOf h ≤ a.eval.e))).length
    (-255 ≤ a.lag ∧ a.lag ≤ 255 →
      exec (.seekComplete k) s = .next (s.setAx k { a with
        cursor := cursor
        eval := { a.eval with
          state := .tracking, settle := if a.eval.e = a.front.c then false else a.eval.settle }
        flags := if a.eval.settle = true ∧ a.eval.e = a.front.c then a.flags ||| 0x80 else a.flags })) ∧
    (a.lag < -255 ∨ 255 < a.lag →
      exec (.seekComplete k) s = .next (s.setAx k { a with
        cursor := cursor, eval := { a.eval with state := .faultedLag }, flags := a.flags ||| 0x10 }))

/-! ### The laws of the device -/

/-- Reset meets every law, and is a machine at its reset values with its port idle and no command waiting. The levels of its
pins (Log 4), the buffers of its IDLE port (Log 19) and the values of the model's own fields (Log 5, Log 6, Log 18, Log 28) are
the model's choice. -/
def Obligations.ResetMeetsTheLaws : Prop :=
  ResetValues State.reset ∧ State.reset.port = idlePort ∧ State.reset.pending = [] ∧ PendingLaw State.reset ∧
    TimerLaw State.reset ∧ CapacityLaw State.reset ∧ ArbiterLaw State.reset ∧ StallLaw State.reset ∧ LagLaw State.reset ∧
    StoreLaw State.reset ∧ PortLaw State.reset

/-- Every step keeps the law of the pending set (R5, R127). -/
def Obligations.StepKeepsThePendingLaw : Prop :=
  ∀ s t : State, PendingLaw s → step s = .next t → PendingLaw t

/-- Every step keeps the law of timers: a RUNNING pulse timer has a HIGH shadow and 1 to 65,535 µs to go (R81), and a rate
generator is RUNNING exactly while its front end is COUNTING with source RATE (R51). Every step keeps the capacities of the link
queue and the guard sets (R69, R98), and the law of the arbiter: a streak of at most 4, 0 unless a command waits, and a claim
decided in an idle engine exactly while a claimant waits (R94, R100; that the claim is a field is the model's, Log 28). -/
def Obligations.StepKeepsTimersCapacitiesAndArbiter : Prop :=
  (∀ s t : State, TimerLaw s → step s = .next t → TimerLaw t) ∧
  (∀ s t : State, CapacityLaw s → step s = .next t → CapacityLaw t) ∧
  (∀ s t : State, ArbiterLaw s → step s = .next t → ArbiterLaw t)

/-- Every step keeps the law of the port: IDLE and SDO high impedance with nCS high or the part held in reset, SDO driven
exactly during a transaction, the running CRC that of the bytes received, and a reply at hand until it has been sent (R139,
R140, R142, R144, R154, R155). That SDO is high impedance too while a port that comes out of reset waits for nCS to go high is
the model's (Log 15). -/
def Obligations.StepKeepsThePortLaw : Prop :=
  ∀ s t : State, PortLaw s → step s = .next t → PortLaw t

/-- Every step keeps the law of stalls: the stalled adders are the axes with a held fire (R72, R75, R76, R99). -/
def Obligations.StepKeepsTheStallLaw : Prop :=
  ∀ s t : State, StallLaw s → step s = .next t → StallLaw t

/-- Every step keeps the law of the lag, with the ranges of every axis (R52, R53, R54, R62, R77). -/
def Obligations.StepKeepsTheLagLaw : Prop :=
  ∀ s t : State, LagLaw s → step s = .next t → LagLaw t

/-- Every step keeps the Record Store law, in states that meet the law of stalls: free pool, cam lists, cursors, runs, held fires,
guard sets, outstanding links and the operation in progress agree with the records (R8, R16, R21, R22, R27, R32, R69, R98). -/
def Obligations.StepKeepsTheStoreLaw : Prop :=
  ∀ s t : State, StoreLaw s → StallLaw s → step s = .next t → StoreLaw t

/-- No event of one front end or evaluator changes another axis (R59, R80), and none of them reaches the mailbox, the port or the
enables. What is stored at one axis reads back there, and nothing else changes. -/
def Obligations.AxisEventsStayOnTheirAxis : Prop :=
  (∀ (s t : State) (i : Instr) (k : AxisId), axisOfRow i = some k → exec i s = .next t →
    (∀ j, j ≠ k → t.ax j = s.ax j) ∧ t.engine.mailbox = s.engine.mailbox ∧ RestKept s t) ∧
  (∀ (s : State) (k : AxisId) (a : Axis),
    (s.setAx k a).ax k = a ∧ (∀ j, j ≠ k → (s.setAx k a).ax j = s.ax j) ∧
    s.setAx k a = { s with axes := (s.setAx k a).axes })
end

