-- ==== Sys2Proof/Laws/State.lean ====
section
/-! SUPPORT. One lemma per field and per update of State: what each named update leaves alone, and what it writes. -/

namespace Sys2Proof.Machine

/-! ### setAx -/

@[simp] theorem State.setAx_records (s : State) (k : AxisId) (a : Axis) : (s.setAx k a).records = s.records := rfl
@[simp] theorem State.setAx_freePool (s : State) (k : AxisId) (a : Axis) : (s.setAx k a).freePool = s.freePool := rfl
@[simp] theorem State.setAx_lines (s : State) (k : AxisId) (a : Axis) : (s.setAx k a).lines = s.lines := rfl
@[simp] theorem State.setAx_engine (s : State) (k : AxisId) (a : Axis) : (s.setAx k a).engine = s.engine := rfl
@[simp] theorem State.setAx_pendingSet (s : State) (k : AxisId) (a : Axis) : (s.setAx k a).pendingSet = s.pendingSet := rfl
@[simp] theorem State.setAx_pendingEnable (s : State) (k : AxisId) (a : Axis) : (s.setAx k a).pendingEnable = s.pendingEnable := rfl
@[simp] theorem State.setAx_doneEnable (s : State) (k : AxisId) (a : Axis) : (s.setAx k a).doneEnable = s.doneEnable := rfl
@[simp] theorem State.setAx_port (s : State) (k : AxisId) (a : Axis) : (s.setAx k a).port = s.port := rfl
@[simp] theorem State.setAx_qualifiers (s : State) (k : AxisId) (a : Axis) : (s.setAx k a).qualifiers = s.qualifiers := rfl
@[simp] theorem State.setAx_ncs (s : State) (k : AxisId) (a : Axis) : (s.setAx k a).ncs = s.ncs := rfl
@[simp] theorem State.setAx_nreset (s : State) (k : AxisId) (a : Axis) : (s.setAx k a).nreset = s.nreset := rfl
@[simp] theorem State.setAx_supply (s : State) (k : AxisId) (a : Axis) : (s.setAx k a).supply = s.supply := rfl
@[simp] theorem State.setAx_pending (s : State) (k : AxisId) (a : Axis) : (s.setAx k a).pending = s.pending := rfl
@[simp] theorem State.setAx_draws (s : State) (k : AxisId) (a : Axis) : (s.setAx k a).draws = s.draws := rfl
@[simp] theorem State.setAx_line (s : State) (k : AxisId) (a : Axis) (j : LineId) : (s.setAx k a).line j = s.line j := rfl
@[simp] theorem State.setAx_recordAt (s : State) (k : AxisId) (a : Axis) (g : Handle) : (s.setAx k a).recordAt g = s.recordAt g := rfl
@[simp] theorem State.setAx_posOf (s : State) (k : AxisId) (a : Axis) : (s.setAx k a).posOf = s.posOf := rfl
@[simp] theorem State.setAx_inReset (s : State) (k : AxisId) (a : Axis) : (s.setAx k a).inReset = s.inReset := rfl

/-! ### updAx -/

@[simp] theorem State.updAx_records (s : State) (k : AxisId) (f : Axis → Axis) : (s.updAx k f).records = s.records := rfl
@[simp] theorem State.updAx_freePool (s : State) (k : AxisId) (f : Axis → Axis) : (s.updAx k f).freePool = s.freePool := rfl
@[simp] theorem State.updAx_lines (s : State) (k : AxisId) (f : Axis → Axis) : (s.updAx k f).lines = s.lines := rfl
@[simp] theorem State.updAx_engine (s : State) (k : AxisId) (f : Axis → Axis) : (s.updAx k f).engine = s.engine := rfl
@[simp] theorem State.updAx_pendingSet (s : State) (k : AxisId) (f : Axis → Axis) : (s.updAx k f).pendingSet = s.pendingSet := rfl
@[simp] theorem State.updAx_pendingEnable (s : State) (k : AxisId) (f : Axis → Axis) : (s.updAx k f).pendingEnable = s.pendingEnable := rfl
@[simp] theorem State.updAx_doneEnable (s : State) (k : AxisId) (f : Axis → Axis) : (s.updAx k f).doneEnable = s.doneEnable := rfl
@[simp] theorem State.updAx_port (s : State) (k : AxisId) (f : Axis → Axis) : (s.updAx k f).port = s.port := rfl
@[simp] theorem State.updAx_qualifiers (s : State) (k : AxisId) (f : Axis → Axis) : (s.updAx k f).qualifiers = s.qualifiers := rfl
@[simp] theorem State.updAx_ncs (s : State) (k : AxisId) (f : Axis → Axis) : (s.updAx k f).ncs = s.ncs := rfl
@[simp] theorem State.updAx_nreset (s : State) (k : AxisId) (f : Axis → Axis) : (s.updAx k f).nreset = s.nreset := rfl
@[simp] theorem State.updAx_supply (s : State) (k : AxisId) (f : Axis → Axis) : (s.updAx k f).supply = s.supply := rfl
@[simp] theorem State.updAx_pending (s : State) (k : AxisId) (f : Axis → Axis) : (s.updAx k f).pending = s.pending := rfl
@[simp] theorem State.updAx_draws (s : State) (k : AxisId) (f : Axis → Axis) : (s.updAx k f).draws = s.draws := rfl
@[simp] theorem State.updAx_line (s : State) (k : AxisId) (f : Axis → Axis) (j : LineId) : (s.updAx k f).line j = s.line j := rfl
@[simp] theorem State.updAx_recordAt (s : State) (k : AxisId) (f : Axis → Axis) (g : Handle) : (s.updAx k f).recordAt g = s.recordAt g := rfl
@[simp] theorem State.updAx_posOf (s : State) (k : AxisId) (f : Axis → Axis) : (s.updAx k f).posOf = s.posOf := rfl
@[simp] theorem State.updAx_inReset (s : State) (k : AxisId) (f : Axis → Axis) : (s.updAx k f).inReset = s.inReset := rfl

/-! ### setLine -/

@[simp] theorem State.setLine_records (s : State) (l : LineId) (x : Line) : (s.setLine l x).records = s.records := rfl
@[simp] theorem State.setLine_freePool (s : State) (l : LineId) (x : Line) : (s.setLine l x).freePool = s.freePool := rfl
@[simp] theorem State.setLine_axes (s : State) (l : LineId) (x : Line) : (s.setLine l x).axes = s.axes := rfl
@[simp] theorem State.setLine_engine (s : State) (l : LineId) (x : Line) : (s.setLine l x).engine = s.engine := rfl
@[simp] theorem State.setLine_pendingSet (s : State) (l : LineId) (x : Line) : (s.setLine l x).pendingSet = s.pendingSet := rfl
@[simp] theorem State.setLine_pendingEnable (s : State) (l : LineId) (x : Line) : (s.setLine l x).pendingEnable = s.pendingEnable := rfl
@[simp] theorem State.setLine_doneEnable (s : State) (l : LineId) (x : Line) : (s.setLine l x).doneEnable = s.doneEnable := rfl
@[simp] theorem State.setLine_port (s : State) (l : LineId) (x : Line) : (s.setLine l x).port = s.port := rfl
@[simp] theorem State.setLine_qualifiers (s : State) (l : LineId) (x : Line) : (s.setLine l x).qualifiers = s.qualifiers := rfl
@[simp] theorem State.setLine_ncs (s : State) (l : LineId) (x : Line) : (s.setLine l x).ncs = s.ncs := rfl
@[simp] theorem State.setLine_nreset (s : State) (l : LineId) (x : Line) : (s.setLine l x).nreset = s.nreset := rfl
@[simp] theorem State.setLine_supply (s : State) (l : LineId) (x : Line) : (s.setLine l x).supply = s.supply := rfl
@[simp] theorem State.setLine_pending (s : State) (l : LineId) (x : Line) : (s.setLine l x).pending = s.pending := rfl
@[simp] theorem State.setLine_draws (s : State) (l : LineId) (x : Line) : (s.setLine l x).draws = s.draws := rfl
@[simp] theorem State.setLine_ax (s : State) (l : LineId) (x : Line) (j : AxisId) : (s.setLine l x).ax j = s.ax j := rfl
@[simp] theorem State.setLine_recordAt (s : State) (l : LineId) (x : Line) (g : Handle) : (s.setLine l x).recordAt g = s.recordAt g := rfl
@[simp] theorem State.setLine_posOf (s : State) (l : LineId) (x : Line) : (s.setLine l x).posOf = s.posOf := rfl
@[simp] theorem State.setLine_inReset (s : State) (l : LineId) (x : Line) : (s.setLine l x).inReset = s.inReset := rfl

/-! ### updEngine -/

@[simp] theorem State.updEngine_records (s : State) (f : Engine → Engine) : (s.updEngine f).records = s.records := rfl
@[simp] theorem State.updEngine_freePool (s : State) (f : Engine → Engine) : (s.updEngine f).freePool = s.freePool := rfl
@[simp] theorem State.updEngine_axes (s : State) (f : Engine → Engine) : (s.updEngine f).axes = s.axes := rfl
@[simp] theorem State.updEngine_lines (s : State) (f : Engine → Engine) : (s.updEngine f).lines = s.lines := rfl
@[simp] theorem State.updEngine_pendingSet (s : State) (f : Engine → Engine) : (s.updEngine f).pendingSet = s.pendingSet := rfl
@[simp] theorem State.updEngine_pendingEnable (s : State) (f : Engine → Engine) : (s.updEngine f).pendingEnable = s.pendingEnable := rfl
@[simp] theorem State.updEngine_doneEnable (s : State) (f : Engine → Engine) : (s.updEngine f).doneEnable = s.doneEnable := rfl
@[simp] theorem State.updEngine_port (s : State) (f : Engine → Engine) : (s.updEngine f).port = s.port := rfl
@[simp] theorem State.updEngine_qualifiers (s : State) (f : Engine → Engine) : (s.updEngine f).qualifiers = s.qualifiers := rfl
@[simp] theorem State.updEngine_ncs (s : State) (f : Engine → Engine) : (s.updEngine f).ncs = s.ncs := rfl
@[simp] theorem State.updEngine_nreset (s : State) (f : Engine → Engine) : (s.updEngine f).nreset = s.nreset := rfl
@[simp] theorem State.updEngine_supply (s : State) (f : Engine → Engine) : (s.updEngine f).supply = s.supply := rfl
@[simp] theorem State.updEngine_pending (s : State) (f : Engine → Engine) : (s.updEngine f).pending = s.pending := rfl
@[simp] theorem State.updEngine_draws (s : State) (f : Engine → Engine) : (s.updEngine f).draws = s.draws := rfl
@[simp] theorem State.updEngine_ax (s : State) (f : Engine → Engine) (j : AxisId) : (s.updEngine f).ax j = s.ax j := rfl
@[simp] theorem State.updEngine_line (s : State) (f : Engine → Engine) (j : LineId) : (s.updEngine f).line j = s.line j := rfl
@[simp] theorem State.updEngine_recordAt (s : State) (f : Engine → Engine) (g : Handle) : (s.updEngine f).recordAt g = s.recordAt g := rfl
@[simp] theorem State.updEngine_posOf (s : State) (f : Engine → Engine) : (s.updEngine f).posOf = s.posOf := rfl
@[simp] theorem State.updEngine_inReset (s : State) (f : Engine → Engine) : (s.updEngine f).inReset = s.inReset := rfl

/-! ### putRecord -/

@[simp] theorem State.putRecord_freePool (s : State) (h : Handle) (r : Record) : (s.putRecord h r).freePool = s.freePool := rfl
@[simp] theorem State.putRecord_axes (s : State) (h : Handle) (r : Record) : (s.putRecord h r).axes = s.axes := rfl
@[simp] theorem State.putRecord_lines (s : State) (h : Handle) (r : Record) : (s.putRecord h r).lines = s.lines := rfl
@[simp] theorem State.putRecord_engine (s : State) (h : Handle) (r : Record) : (s.putRecord h r).engine = s.engine := rfl
@[simp] theorem State.putRecord_pendingEnable (s : State) (h : Handle) (r : Record) : (s.putRecord h r).pendingEnable = s.pendingEnable := rfl
@[simp] theorem State.putRecord_doneEnable (s : State) (h : Handle) (r : Record) : (s.putRecord h r).doneEnable = s.doneEnable := rfl
@[simp] theorem State.putRecord_port (s : State) (h : Handle) (r : Record) : (s.putRecord h r).port = s.port := rfl
@[simp] theorem State.putRecord_qualifiers (s : State) (h : Handle) (r : Record) : (s.putRecord h r).qualifiers = s.qualifiers := rfl
@[simp] theorem State.putRecord_ncs (s : State) (h : Handle) (r : Record) : (s.putRecord h r).ncs = s.ncs := rfl
@[simp] theorem State.putRecord_nreset (s : State) (h : Handle) (r : Record) : (s.putRecord h r).nreset = s.nreset := rfl
@[simp] theorem State.putRecord_supply (s : State) (h : Handle) (r : Record) : (s.putRecord h r).supply = s.supply := rfl
@[simp] theorem State.putRecord_pending (s : State) (h : Handle) (r : Record) : (s.putRecord h r).pending = s.pending := rfl
@[simp] theorem State.putRecord_draws (s : State) (h : Handle) (r : Record) : (s.putRecord h r).draws = s.draws := rfl
@[simp] theorem State.putRecord_ax (s : State) (h : Handle) (r : Record) (j : AxisId) : (s.putRecord h r).ax j = s.ax j := rfl
@[simp] theorem State.putRecord_line (s : State) (h : Handle) (r : Record) (j : LineId) : (s.putRecord h r).line j = s.line j := rfl
@[simp] theorem State.putRecord_inReset (s : State) (h : Handle) (r : Record) : (s.putRecord h r).inReset = s.inReset := rfl

/-! ### freeRecord -/

@[simp] theorem State.freeRecord_axes (s : State) (h : Handle) : (s.freeRecord h).axes = s.axes := rfl
@[simp] theorem State.freeRecord_lines (s : State) (h : Handle) : (s.freeRecord h).lines = s.lines := rfl
@[simp] theorem State.freeRecord_engine (s : State) (h : Handle) : (s.freeRecord h).engine = s.engine := rfl
@[simp] theorem State.freeRecord_pendingEnable (s : State) (h : Handle) : (s.freeRecord h).pendingEnable = s.pendingEnable := rfl
@[simp] theorem State.freeRecord_doneEnable (s : State) (h : Handle) : (s.freeRecord h).doneEnable = s.doneEnable := rfl
@[simp] theorem State.freeRecord_port (s : State) (h : Handle) : (s.freeRecord h).port = s.port := rfl
@[simp] theorem State.freeRecord_qualifiers (s : State) (h : Handle) : (s.freeRecord h).qualifiers = s.qualifiers := rfl
@[simp] theorem State.freeRecord_ncs (s : State) (h : Handle) : (s.freeRecord h).ncs = s.ncs := rfl
@[simp] theorem State.freeRecord_nreset (s : State) (h : Handle) : (s.freeRecord h).nreset = s.nreset := rfl
@[simp] theorem State.freeRecord_supply (s : State) (h : Handle) : (s.freeRecord h).supply = s.supply := rfl
@[simp] theorem State.freeRecord_pending (s : State) (h : Handle) : (s.freeRecord h).pending = s.pending := rfl
@[simp] theorem State.freeRecord_draws (s : State) (h : Handle) : (s.freeRecord h).draws = s.draws := rfl
@[simp] theorem State.freeRecord_ax (s : State) (h : Handle) (j : AxisId) : (s.freeRecord h).ax j = s.ax j := rfl
@[simp] theorem State.freeRecord_line (s : State) (h : Handle) (j : LineId) : (s.freeRecord h).line j = s.line j := rfl
@[simp] theorem State.freeRecord_inReset (s : State) (h : Handle) : (s.freeRecord h).inReset = s.inReset := rfl

/-! ### receivedAll -/

@[simp] theorem State.receivedAll_records (s : State) (b : List Byte) : (s.receivedAll b).records = s.records := rfl
@[simp] theorem State.receivedAll_freePool (s : State) (b : List Byte) : (s.receivedAll b).freePool = s.freePool := rfl
@[simp] theorem State.receivedAll_axes (s : State) (b : List Byte) : (s.receivedAll b).axes = s.axes := rfl
@[simp] theorem State.receivedAll_lines (s : State) (b : List Byte) : (s.receivedAll b).lines = s.lines := rfl
@[simp] theorem State.receivedAll_engine (s : State) (b : List Byte) : (s.receivedAll b).engine = s.engine := rfl
@[simp] theorem State.receivedAll_pendingSet (s : State) (b : List Byte) : (s.receivedAll b).pendingSet = s.pendingSet := rfl
@[simp] theorem State.receivedAll_pendingEnable (s : State) (b : List Byte) : (s.receivedAll b).pendingEnable = s.pendingEnable := rfl
@[simp] theorem State.receivedAll_doneEnable (s : State) (b : List Byte) : (s.receivedAll b).doneEnable = s.doneEnable := rfl
@[simp] theorem State.receivedAll_qualifiers (s : State) (b : List Byte) : (s.receivedAll b).qualifiers = s.qualifiers := rfl
@[simp] theorem State.receivedAll_ncs (s : State) (b : List Byte) : (s.receivedAll b).ncs = s.ncs := rfl
@[simp] theorem State.receivedAll_nreset (s : State) (b : List Byte) : (s.receivedAll b).nreset = s.nreset := rfl
@[simp] theorem State.receivedAll_supply (s : State) (b : List Byte) : (s.receivedAll b).supply = s.supply := rfl
@[simp] theorem State.receivedAll_pending (s : State) (b : List Byte) : (s.receivedAll b).pending = s.pending := rfl
@[simp] theorem State.receivedAll_draws (s : State) (b : List Byte) : (s.receivedAll b).draws = s.draws := rfl
@[simp] theorem State.receivedAll_ax (s : State) (b : List Byte) (j : AxisId) : (s.receivedAll b).ax j = s.ax j := rfl
@[simp] theorem State.receivedAll_line (s : State) (b : List Byte) (j : LineId) : (s.receivedAll b).line j = s.line j := rfl
@[simp] theorem State.receivedAll_recordAt (s : State) (b : List Byte) (g : Handle) : (s.receivedAll b).recordAt g = s.recordAt g := rfl
@[simp] theorem State.receivedAll_posOf (s : State) (b : List Byte) : (s.receivedAll b).posOf = s.posOf := rfl
@[simp] theorem State.receivedAll_inReset (s : State) (b : List Byte) : (s.receivedAll b).inReset = s.inReset := rfl

/-! ### answer -/

@[simp] theorem State.answer_records (s : State) (tag : Byte) (r : Reply) : (s.answer tag r).records = s.records := rfl
@[simp] theorem State.answer_freePool (s : State) (tag : Byte) (r : Reply) : (s.answer tag r).freePool = s.freePool := rfl
@[simp] theorem State.answer_axes (s : State) (tag : Byte) (r : Reply) : (s.answer tag r).axes = s.axes := rfl
@[simp] theorem State.answer_lines (s : State) (tag : Byte) (r : Reply) : (s.answer tag r).lines = s.lines := rfl
@[simp] theorem State.answer_engine (s : State) (tag : Byte) (r : Reply) : (s.answer tag r).engine = s.engine := rfl
@[simp] theorem State.answer_pendingSet (s : State) (tag : Byte) (r : Reply) : (s.answer tag r).pendingSet = s.pendingSet := rfl
@[simp] theorem State.answer_pendingEnable (s : State) (tag : Byte) (r : Reply) : (s.answer tag r).pendingEnable = s.pendingEnable := rfl
@[simp] theorem State.answer_doneEnable (s : State) (tag : Byte) (r : Reply) : (s.answer tag r).doneEnable = s.doneEnable := rfl
@[simp] theorem State.answer_qualifiers (s : State) (tag : Byte) (r : Reply) : (s.answer tag r).qualifiers = s.qualifiers := rfl
@[simp] theorem State.answer_ncs (s : State) (tag : Byte) (r : Reply) : (s.answer tag r).ncs = s.ncs := rfl
@[simp] theorem State.answer_nreset (s : State) (tag : Byte) (r : Reply) : (s.answer tag r).nreset = s.nreset := rfl
@[simp] theorem State.answer_supply (s : State) (tag : Byte) (r : Reply) : (s.answer tag r).supply = s.supply := rfl
@[simp] theorem State.answer_pending (s : State) (tag : Byte) (r : Reply) : (s.answer tag r).pending = s.pending := rfl
@[simp] theorem State.answer_ax (s : State) (tag : Byte) (r : Reply) (j : AxisId) : (s.answer tag r).ax j = s.ax j := rfl
@[simp] theorem State.answer_line (s : State) (tag : Byte) (r : Reply) (j : LineId) : (s.answer tag r).line j = s.line j := rfl
@[simp] theorem State.answer_recordAt (s : State) (tag : Byte) (r : Reply) (g : Handle) : (s.answer tag r).recordAt g = s.recordAt g := rfl
@[simp] theorem State.answer_posOf (s : State) (tag : Byte) (r : Reply) : (s.answer tag r).posOf = s.posOf := rfl
@[simp] theorem State.answer_inReset (s : State) (tag : Byte) (r : Reply) : (s.answer tag r).inReset = s.inReset := rfl

/-! ### finishMailbox -/

@[simp] theorem State.finishMailbox_records (s : State) (c : ResultCode) (d : Nat) : (s.finishMailbox c d).records = s.records := rfl
@[simp] theorem State.finishMailbox_freePool (s : State) (c : ResultCode) (d : Nat) : (s.finishMailbox c d).freePool = s.freePool := rfl
@[simp] theorem State.finishMailbox_axes (s : State) (c : ResultCode) (d : Nat) : (s.finishMailbox c d).axes = s.axes := rfl
@[simp] theorem State.finishMailbox_lines (s : State) (c : ResultCode) (d : Nat) : (s.finishMailbox c d).lines = s.lines := rfl
@[simp] theorem State.finishMailbox_pendingSet (s : State) (c : ResultCode) (d : Nat) : (s.finishMailbox c d).pendingSet = s.pendingSet := rfl
@[simp] theorem State.finishMailbox_pendingEnable (s : State) (c : ResultCode) (d : Nat) : (s.finishMailbox c d).pendingEnable = s.pendingEnable := rfl
@[simp] theorem State.finishMailbox_doneEnable (s : State) (c : ResultCode) (d : Nat) : (s.finishMailbox c d).doneEnable = s.doneEnable := rfl
@[simp] theorem State.finishMailbox_port (s : State) (c : ResultCode) (d : Nat) : (s.finishMailbox c d).port = s.port := rfl
@[simp] theorem State.finishMailbox_qualifiers (s : State) (c : ResultCode) (d : Nat) : (s.finishMailbox c d).qualifiers = s.qualifiers := rfl
@[simp] theorem State.finishMailbox_ncs (s : State) (c : ResultCode) (d : Nat) : (s.finishMailbox c d).ncs = s.ncs := rfl
@[simp] theorem State.finishMailbox_nreset (s : State) (c : ResultCode) (d : Nat) : (s.finishMailbox c d).nreset = s.nreset := rfl
@[simp] theorem State.finishMailbox_supply (s : State) (c : ResultCode) (d : Nat) : (s.finishMailbox c d).supply = s.supply := rfl
@[simp] theorem State.finishMailbox_pending (s : State) (c : ResultCode) (d : Nat) : (s.finishMailbox c d).pending = s.pending := rfl
@[simp] theorem State.finishMailbox_draws (s : State) (c : ResultCode) (d : Nat) : (s.finishMailbox c d).draws = s.draws := rfl
@[simp] theorem State.finishMailbox_ax (s : State) (c : ResultCode) (d : Nat) (j : AxisId) : (s.finishMailbox c d).ax j = s.ax j := rfl
@[simp] theorem State.finishMailbox_line (s : State) (c : ResultCode) (d : Nat) (j : LineId) : (s.finishMailbox c d).line j = s.line j := rfl
@[simp] theorem State.finishMailbox_recordAt (s : State) (c : ResultCode) (d : Nat) (g : Handle) : (s.finishMailbox c d).recordAt g = s.recordAt g := rfl
@[simp] theorem State.finishMailbox_posOf (s : State) (c : ResultCode) (d : Nat) : (s.finishMailbox c d).posOf = s.posOf := rfl
@[simp] theorem State.finishMailbox_inReset (s : State) (c : ResultCode) (d : Nat) : (s.finishMailbox c d).inReset = s.inReset := rfl

/-! ### occupy -/

@[simp] theorem State.occupy_records (s : State) (o : Operation) : (s.occupy o).records = s.records := rfl
@[simp] theorem State.occupy_freePool (s : State) (o : Operation) : (s.occupy o).freePool = s.freePool := rfl
@[simp] theorem State.occupy_axes (s : State) (o : Operation) : (s.occupy o).axes = s.axes := rfl
@[simp] theorem State.occupy_lines (s : State) (o : Operation) : (s.occupy o).lines = s.lines := rfl
@[simp] theorem State.occupy_pendingSet (s : State) (o : Operation) : (s.occupy o).pendingSet = s.pendingSet := rfl
@[simp] theorem State.occupy_pendingEnable (s : State) (o : Operation) : (s.occupy o).pendingEnable = s.pendingEnable := rfl
@[simp] theorem State.occupy_doneEnable (s : State) (o : Operation) : (s.occupy o).doneEnable = s.doneEnable := rfl
@[simp] theorem State.occupy_port (s : State) (o : Operation) : (s.occupy o).port = s.port := rfl
@[simp] theorem State.occupy_qualifiers (s : State) (o : Operation) : (s.occupy o).qualifiers = s.qualifiers := rfl
@[simp] theorem State.occupy_ncs (s : State) (o : Operation) : (s.occupy o).ncs = s.ncs := rfl
@[simp] theorem State.occupy_nreset (s : State) (o : Operation) : (s.occupy o).nreset = s.nreset := rfl
@[simp] theorem State.occupy_supply (s : State) (o : Operation) : (s.occupy o).supply = s.supply := rfl
@[simp] theorem State.occupy_pending (s : State) (o : Operation) : (s.occupy o).pending = s.pending := rfl
@[simp] theorem State.occupy_draws (s : State) (o : Operation) : (s.occupy o).draws = s.draws := rfl
@[simp] theorem State.occupy_ax (s : State) (o : Operation) (j : AxisId) : (s.occupy o).ax j = s.ax j := rfl
@[simp] theorem State.occupy_line (s : State) (o : Operation) (j : LineId) : (s.occupy o).line j = s.line j := rfl
@[simp] theorem State.occupy_recordAt (s : State) (o : Operation) (g : Handle) : (s.occupy o).recordAt g = s.recordAt g := rfl
@[simp] theorem State.occupy_posOf (s : State) (o : Operation) : (s.occupy o).posOf = s.posOf := rfl
@[simp] theorem State.occupy_inReset (s : State) (o : Operation) : (s.occupy o).inReset = s.inReset := rfl

/-! ### What the updates write -/

@[simp] theorem State.setAx_ax_same (s : State) (k : AxisId) (a : Axis) : (s.setAx k a).ax k = a := by
  simp [State.ax, State.setAx, Vector.get_eq_getElem]

@[simp] theorem State.setAx_ax_ne (s : State) (k j : AxisId) (a : Axis) (h : j ≠ k) : (s.setAx k a).ax j = s.ax j := by
  have : k.val ≠ j.val := fun e => h (Fin.ext e.symm)
  simp [State.ax, State.setAx, Vector.get_eq_getElem, this]

theorem State.setAx_ax (s : State) (k j : AxisId) (a : Axis) :
    (s.setAx k a).ax j = if j = k then a else s.ax j := by
  by_cases h : j = k
  · subst h; simp
  · simp [h]

@[simp] theorem State.updAx_ax_same (s : State) (k : AxisId) (f : Axis → Axis) : (s.updAx k f).ax k = f (s.ax k) :=
  State.setAx_ax_same ..

@[simp] theorem State.updAx_ax_ne (s : State) (k j : AxisId) (f : Axis → Axis) (h : j ≠ k) :
    (s.updAx k f).ax j = s.ax j := State.setAx_ax_ne _ _ _ _ h

theorem State.updAx_ax (s : State) (k j : AxisId) (f : Axis → Axis) :
    (s.updAx k f).ax j = if j = k then f (s.ax k) else s.ax j := State.setAx_ax ..

@[simp] theorem State.setLine_line_same (s : State) (l : LineId) (x : Line) : (s.setLine l x).line l = x := by
  simp [State.line, State.setLine, Vector.get_eq_getElem]

@[simp] theorem State.setLine_line_ne (s : State) (l m : LineId) (x : Line) (h : m ≠ l) :
    (s.setLine l x).line m = s.line m := by
  have : l.val ≠ m.val := fun e => h (Fin.ext e.symm)
  simp [State.line, State.setLine, Vector.get_eq_getElem, this]

theorem State.setLine_line (s : State) (l m : LineId) (x : Line) :
    (s.setLine l x).line m = if m = l then x else s.line m := by
  by_cases h : m = l
  · subst h; simp
  · simp [h]

@[simp] theorem State.putRecord_recordAt_same (s : State) (h : Handle) (r : Record) :
    (s.putRecord h r).recordAt h = r := by
  simp [State.recordAt, State.putRecord, Vector.get_eq_getElem]

@[simp] theorem State.putRecord_recordAt_ne (s : State) (h g : Handle) (r : Record) (n : g ≠ h) :
    (s.putRecord h r).recordAt g = s.recordAt g := by
  have : h.val ≠ g.val := fun e => n (Fin.ext e.symm)
  simp [State.recordAt, State.putRecord, Vector.get_eq_getElem, this]

theorem State.putRecord_recordAt (s : State) (h g : Handle) (r : Record) :
    (s.putRecord h r).recordAt g = if g = h then r else s.recordAt g := by
  by_cases n : g = h
  · subst n; simp
  · simp [n]

@[simp] theorem State.putRecord_pendingSet (s : State) (h : Handle) (r : Record) :
    (s.putRecord h r).pendingSet = if r.isPending then joinSet h s.pendingSet else leaveSet h s.pendingSet := rfl

@[simp] theorem State.updEngine_engine (s : State) (f : Engine → Engine) : (s.updEngine f).engine = f s.engine := rfl

@[simp] theorem State.freeRecord_freePool (s : State) (h : Handle) : (s.freeRecord h).freePool = s.freePool ++ [h] := rfl

@[simp] theorem State.freeRecord_pendingSet (s : State) (h : Handle) :
    (s.freeRecord h).pendingSet = leaveSet h s.pendingSet := rfl

theorem State.freeRecord_recordAt (s : State) (h g : Handle) :
    (s.freeRecord h).recordAt g = if g = h then Record.cleared else s.recordAt g :=
  State.putRecord_recordAt s h g .cleared

/-- Two states with the same axes at every place, the same records and the same other fields are one state. -/
theorem State.ext_ax {s t : State} (h : ∀ k, s.ax k = t.ax k) : s.axes = t.axes := by
  apply Vector.ext
  intro i hi
  have := h ⟨i, hi⟩
  simpa [State.ax, Vector.get_eq_getElem] using this

theorem State.ext_line {s t : State} (h : ∀ l, s.line l = t.line l) : s.lines = t.lines := by
  apply Vector.ext
  intro i hi
  have := h ⟨i, hi⟩
  simpa [State.line, Vector.get_eq_getElem] using this

theorem State.ext_recordAt {s t : State} (h : ∀ g, s.recordAt g = t.recordAt g) : s.records = t.records := by
  apply Vector.ext
  intro i hi
  have := h ⟨i, hi⟩
  simpa [State.recordAt, Vector.get_eq_getElem] using this

end Sys2Proof.Machine
end

