-- ==== Sys2Proof/Laws/Sets.lean ====
section
/-! SUPPORT. The pending set as an ordered list (R5, R127), and the law it keeps through every update of a record. -/

namespace Sys2Proof.Machine

@[simp] theorem mem_joinSet (h g : Handle) (l : List Handle) : g ∈ joinSet h l ↔ g = h ∨ g ∈ l := by
  induction l with
  | nil => simp [joinSet]
  | cons x xs ih =>
    unfold joinSet
    split
    · simp
    · split
      · next e => subst e; simp
      · simp only [List.mem_cons, ih]; tauto

@[simp] theorem mem_leaveSet (h g : Handle) (l : List Handle) : g ∈ leaveSet h l ↔ g ∈ l ∧ g ≠ h := by
  simp [leaveSet]

theorem joinSet_ordered (h : Handle) (l : List Handle) (o : l.Pairwise (fun a b => a < b)) :
    (joinSet h l).Pairwise (fun a b => a < b) := by
  induction l with
  | nil => simp [joinSet]
  | cons x xs ih =>
    rw [List.pairwise_cons] at o
    unfold joinSet
    split
    · next lt =>
      refine List.pairwise_cons.2 ⟨fun y hy => ?_, List.pairwise_cons.2 o⟩
      rcases List.mem_cons.1 hy with rfl | m
      · exact lt
      · exact lt_trans lt (o.1 y m)
    · split
      · exact List.pairwise_cons.2 o
      · next n1 n2 =>
        refine List.pairwise_cons.2 ⟨fun y hy => ?_, ih o.2⟩
        rcases (mem_joinSet ..).1 hy with rfl | m
        · exact lt_of_le_of_ne (not_lt.1 n1) (Ne.symm n2)
        · exact o.1 y m

theorem leaveSet_ordered (h : Handle) (l : List Handle) (o : l.Pairwise (fun a b => a < b)) :
    (leaveSet h l).Pairwise (fun a b => a < b) := o.filter _

/-! ### The law of the pending set -/

/-- The law depends on the records and the set alone. -/
theorem PendingLaw.congr {s t : State} (p : PendingLaw s) (r : t.records = s.records) (m : t.pendingSet = s.pendingSet) :
    PendingLaw t := by
  refine ⟨fun h => ?_, m ▸ p.ordered⟩
  have := p.member h
  simp only [State.recordAt, r, m] at *
  exact this

/-- Storing a record keeps the law. -/
theorem PendingLaw.putRecord {s : State} (p : PendingLaw s) (h : Handle) (r : Record) : PendingLaw (s.putRecord h r) := by
  refine ⟨fun g => ?_, ?_⟩
  · rw [State.putRecord_recordAt, State.putRecord_pendingSet]
    by_cases e : g = h
    · subst e; cases q : r.isPending <;> simp [q]
    · cases q : r.isPending <;> simp [e, p.member g]
  · rw [State.putRecord_pendingSet]
    cases r.isPending
    · exact leaveSet_ordered _ _ p.ordered
    · exact joinSet_ordered _ _ p.ordered

theorem PendingLaw.freeRecord {s : State} (p : PendingLaw s) (h : Handle) : PendingLaw (s.freeRecord h) :=
  (p.putRecord h .cleared).congr rfl rfl

theorem PendingLaw.autoRelease {s : State} (p : PendingLaw s) (h : Handle) : PendingLaw (s.autoRelease h) := by
  unfold State.autoRelease
  split
  · exact p.freeRecord h
  · exact p

/-- A member of an ordered set that is at or above a bound, with no lower one at or above it, is what a search finds. -/
theorem find_lowest {l : List Handle} (o : l.Pairwise (fun a b => a < b)) (start h : Handle) (m : h ∈ l) (b : start ≤ h)
    (low : ∀ g ∈ l, start ≤ g → h ≤ g) : l.find? (fun g => decide (start ≤ g)) = some h := by
  induction l with
  | nil => cases m
  | cons x xs ih =>
    rw [List.pairwise_cons] at o
    by_cases c : start ≤ x
    · have e : x = h := by
        rcases List.mem_cons.1 m with e | e
        · exact e.symm
        · exact absurd (o.1 h e) (not_lt.2 (low x (by simp) c))
      simp [e, b]
    · rcases List.mem_cons.1 m with e | e
      · exact absurd (e ▸ b) c
      · rw [List.find?_cons_of_neg (by simpa using c)]
        exact ih o.2 e (fun g gm => low g (List.mem_cons_of_mem _ gm))

end Sys2Proof.Machine
end

