-- ==== Sys2Proof/Laws/Ops.lean ====
section
/-! SUPPORT. What the shared operations do, said once each. -/

namespace Sys2Proof.Machine

/-! ### Two updates at one place -/

@[simp] theorem State.setAx_setAx (s : State) (k : AxisId) (a b : Axis) : (s.setAx k a).setAx k b = s.setAx k b := by
  simp [State.setAx]

@[simp] theorem State.setAx_self (s : State) (k : AxisId) : s.setAx k (s.ax k) = s := by
  simp [State.setAx, State.ax, Vector.get_eq_getElem]

theorem State.updAx_eq (s : State) (k : AxisId) (f : Axis → Axis) : s.updAx k f = s.setAx k (f (s.ax k)) := rfl

@[simp] theorem State.setAx_updAx (s : State) (k : AxisId) (a : Axis) (f : Axis → Axis) :
    (s.setAx k a).updAx k f = s.setAx k (f a) := by
  simp [State.updAx_eq]

@[simp] theorem State.updAx_updAx (s : State) (k : AxisId) (f g : Axis → Axis) :
    (s.updAx k f).updAx k g = s.updAx k (fun a => g (f a)) := by
  simp [State.updAx_eq]

@[simp] theorem State.setLine_self (s : State) (l : LineId) : s.setLine l (s.line l) = s := by
  simp [State.setLine, State.line, Vector.get_eq_getElem]

@[simp] theorem State.updEngine_updEngine (s : State) (f g : Engine → Engine) :
    (s.updEngine f).updEngine g = s.updEngine (fun e => g (f e)) := rfl

/-! ### Handles, axes, banks -/

@[simp] theorem handleOf_handleNumber (h : Handle) : handleOf (handleNumber h) = some h := by
  have : h.val < 1024 := h.isLt
  have c : 1 ≤ h.val + 1 ∧ h.val + 1 ≤ 1024 := by omega
  simp [handleOf, handleNumber, c.2]

theorem handleOf_eq_some {n : Nat} {h : Handle} (e : n = handleNumber h) : handleOf n = some h := by
  subst e; simp

theorem handleOf_eq_none {n : Nat} (e : n = 0 ∨ 1024 < n) : handleOf n = none := by
  unfold handleOf
  rw [dif_neg]
  omega

theorem axisOf_eq_some {b : Byte} {k : AxisId} (e : b.toNat = k.val) : axisOf b = some k := by
  have : k.val < 4 := k.isLt
  unfold axisOf
  rw [dif_pos (by omega)]
  simp [e]

theorem axisOf_eq_none {b : Byte} (e : 3 < b.toNat) : axisOf b = none := by
  unfold axisOf
  rw [dif_neg (by omega)]

theorem bankOf_eq_some {b : Byte} {k : Bank} (e : b.toNat = k.val) : bankOf b = some k := by
  have : k.val < 2 := k.isLt
  unfold bankOf
  rw [dif_pos (by omega)]
  simp [e]

theorem bankOf_eq_none {b : Byte} (e : 1 < b.toNat) : bankOf b = none := by
  unfold bankOf
  rw [dif_neg (by omega)]

/-! ### The port -/

/-- What `answer` leaves is a reply of the state it answers in, with some filler in 1..8 (R144). -/
theorem replies_answer (e : State) (tag : Byte) (r : Reply) : Replies e (e.answer tag r) tag r := by
  refine ⟨1 + (Config.extraFiller e.draws).val, by omega, ?_, rfl⟩
  have := (Config.extraFiller e.draws).isLt
  omega

theorem answers_of {i : Instr} {s e : State} {tag : Byte} {r : Reply} (h : exec i s = .next (e.answer tag r)) :
    Answers i s e tag r := ⟨_, h, replies_answer e tag r⟩

theorem ready_iff (s : State) (code tag : Byte) (params : List Byte) :
    Ready s code tag params ↔ s.port.canComplete (requestBytes code tag params) = true := by
  simp [Ready, Port.canComplete]

/-- The row of a host command whose request can complete: its owner serves it (R143). -/
theorem hostCommand_of_ready {s : State} {code tag : Byte} {params : List Byte} (serve : State → Served)
    (r : Ready s code tag params) (n : params.length ≤ 32) :
    hostCommand code tag params serve s = State.served tag (serve (s.heard code tag params)) := by
  rw [ready_iff] at r
  simp [hostCommand, r, Config.paramLimit, n]

theorem hostCommand_of_not_ready {s : State} {code tag : Byte} {params : List Byte} (serve : State → Served)
    (r : ¬ Ready s code tag params) : hostCommand code tag params serve s = s := by
  rw [ready_iff] at r
  simp [hostCommand, r]

theorem hostRequest_of_ready {s : State} {code tag : Byte} {params : List Byte} (crc : Byte)
    (r : Ready s code tag params) (n : params.length ≤ 32) :
    hostRequest code tag params crc s = closeRequest code tag params crc (s.heard code tag params) := by
  rw [ready_iff] at r
  simp [hostRequest, r, Config.paramLimit, n]

theorem hostRequest_of_not_ready {s : State} {code tag : Byte} {params : List Byte} (crc : Byte)
    (r : ¬ Ready s code tag params) : hostRequest code tag params crc s = s := by
  rw [ready_iff] at r
  simp [hostRequest, r]

theorem withAxis_some {b : Byte} {k : AxisId} (e : b.toNat = k.val) (s : State) (serve : AxisId → Served) :
    withAxis b s serve = serve k := by simp [withAxis, axisOf_eq_some e]

theorem withAxis_none {b : Byte} (e : 3 < b.toNat) (s : State) (serve : AxisId → Served) :
    withAxis b s serve = (s, badArg) := by simp [withAxis, axisOf_eq_none e]

theorem withHandleParam_some {lo hi : Byte} {h : Handle} (e : u16 lo hi = handleNumber h) (s : State)
    (serve : Handle → Served) : withHandleParam lo hi s serve = serve h := by
  simp [withHandleParam, handleOf_eq_some e]

theorem withHandleParam_none {lo hi : Byte} (e : u16 lo hi = 0 ∨ 1024 < u16 lo hi) (s : State)
    (serve : Handle → Served) : withHandleParam lo hi s serve = (s, badArg) := by
  simp [withHandleParam, handleOf_eq_none e]

/-! ### Cam lists -/

/-- `insertAfter` links a handle immediately after the last record at or below its position (R23). -/
theorem insertAfter_links (pos : Handle → Int) (p : Int) (h : Handle) (l : List Handle) :
    LinkedInto pos p h l (insertAfter pos p h l) := by
  induction l with
  | nil => exact ⟨[], [], rfl, rfl, by simp, by simp⟩
  | cons x xs ih =>
    unfold insertAfter
    split
    · next c =>
      obtain ⟨b, a, e, f, lo, hi⟩ := ih
      refine ⟨x :: b, a, by simp [e], by simp [f], ?_, hi⟩
      intro g hg
      cases b with
      | nil =>
        simp only [List.getLast?_singleton, Option.some.injEq] at hg
        subst hg
        simp only [List.nil_append] at e
        simp only [Bool.or_eq_true, decide_eq_true_eq, List.any_eq_true] at c
        rcases c with ⟨y, ym, yp⟩ | c
        · have := hi y (e ▸ ym); omega
        · exact c
      | cons y ys => exact lo g (by simpa using hg)
    · next c =>
      simp only [Bool.or_eq_true, decide_eq_true_eq, List.any_eq_true, not_or, not_exists, not_and, not_le] at c
      refine ⟨[], x :: xs, rfl, rfl, by simp, ?_⟩
      intro g gm
      rcases List.mem_cons.1 gm with rfl | m
      · exact c.2
      · exact c.1 g m

/-! ### The guard set -/

theorem staysGuarded_eq (cfg : AxisConfig) (e : Int) (g : GuardEntry) :
    staysGuarded cfg e g = !guardReleased cfg e g.boundary := by
  unfold staysGuarded guardReleased
  cases cfg.kind <;> simp only [Bool.not_or, Bool.not_and, ← decide_not, not_le]
  · rw [Bool.and_comm]

theorem Axis.releaseChecks_eq (a : Axis) :
    a.releaseChecks = { a with eval := { a.eval with guard := a.eval.guard.filter (staysGuarded a.config a.eval.e) } } := by
  have : staysGuarded a.config a.eval.e = fun g => !guardReleased a.config a.eval.e g.boundary :=
    funext (staysGuarded_eq a.config a.eval.e)
  rw [this]; rfl

/-! ### The lag -/

theorem centre_spec {span : Nat} (pos : 0 < span) (d : Int) :
    (∃ m : Int, centre span d = d + m * span) ∧ -(span : Int) < 2 * centre span d ∧ 2 * centre span d ≤ span := by
  have p : (0 : Int) < span := by exact_mod_cast pos
  have h1 := Int.emod_nonneg d (ne_of_gt p)
  have h2 := Int.emod_lt_of_pos d p
  have h3 := Int.mul_ediv_add_emod d span
  simp only [centre]
  split
  · refine ⟨⟨-(d / span) - 1, by linarith⟩, by omega, by omega⟩
  · refine ⟨⟨-(d / span), by linarith⟩, by omega, by omega⟩

/-- The centred difference is the one value congruent to the difference that lies in −span/2..span/2. -/
theorem centre_unique {span : Nat} (d x : Int) (m : Int) (e : x = d + m * span) (lo : -(span : Int) < 2 * x)
    (hi : 2 * x ≤ span) : centre span d = x := by
  have pos : 0 < span := by omega
  obtain ⟨⟨n, f⟩, l, h⟩ := centre_spec pos d
  have g : centre span d - x = (n - m) * span := by rw [f, e]; ring
  have p : (0 : Int) < span := by exact_mod_cast pos
  have : n - m = 0 := by
    by_contra c
    rcases lt_or_gt_of_ne c with c | c
    · nlinarith
    · nlinarith
  rw [this] at g
  omega

end Sys2Proof.Machine
end

