-- ==== Sys2Proof/Laws/Frames.lean ====
section
/-! SUPPORT. The lengths of the byte formats (H-3, R149, R150), and the sources of nATTN as statements over axes (R137). -/

namespace Sys2Proof.Machine

@[simp] theorem byte1_length (n : Nat) : (byte1 n).length = 1 := rfl
@[simp] theorem le16_length (n : Nat) : (le16 n).length = 2 := rfl
@[simp] theorem le32_length (n : Nat) : (le32 n).length = 4 := rfl
@[simp] theorem leInt32_length (n : Int) : (leInt32 n).length = 4 := rfl
@[simp] theorem leTurn_length (t : Turn) : (leTurn t).length = 2 := rfl
@[simp] theorem configData_length (c : AxisConfig) : (configData c).length = 13 := by
  simp [configData]

@[simp] theorem slotData_length (x : CaptureSlot) : (slotData x).length = 7 := by cases x <;> rfl

@[simp] theorem recordImage_length (r : Record) : (recordImage r).length = 24 := by
  cases h : r.lastFire <;> simp [recordImage, h]

@[simp] theorem axisData_length (a : Axis) : (axisData a).length = 56 := by
  unfold axisData
  repeat rw [List.length_append]
  rw [configData_length, slotData_length]
  rfl

/-- The elements of a vector in turn are its values at the indexes in turn. -/
theorem toList_eq_map {α : Type} {n : Nat} (v : Vector α n) : v.toList = (List.finRange n).map v.get := by
  apply List.ext_getElem
  · simp
  · intro i h1 h2; simp [Vector.get_eq_getElem]

theorem axisSource_iff (s : State) : s.axisSource = true ↔ ∃ k : AxisId, (s.ax k).attention = true := by
  simp [State.axisSource, toList_eq_map, State.ax]

theorem attention_iff (a : Axis) :
    a.attention = true ↔ ∃ i : Fin 8, a.flags.getLsbD i = true ∧ a.mask.getLsbD i = true := by
  simp only [Axis.attention, bne_iff_ne, ne_eq]
  constructor
  · intro h
    by_contra c
    apply h
    apply BitVec.eq_of_getLsbD_eq
    intro i hi
    simp only [not_exists, not_and] at c
    have n := c ⟨i, hi⟩
    rw [BitVec.getLsbD_and, BitVec.ofNat_eq_ofNat, BitVec.getLsbD_zero]
    cases f : a.flags.getLsbD i
    · rfl
    · simpa using n f
  · rintro ⟨i, f, m⟩ c
    have e : (a.flags &&& a.mask).getLsbD i.val = (0 : BitVec 8).getLsbD i.val := by rw [c]
    rw [BitVec.getLsbD_and, f, m, BitVec.ofNat_eq_ofNat, BitVec.getLsbD_zero] at e
    cases e

end Sys2Proof.Machine
end

