-- ==== Sys2Proof/Laws/Axes.lean ====
section
/-! SUPPORT. The checks on an axis and its configuration as statements, and the seek start as one update (R41, R42, R76, R104). -/

namespace Sys2Proof.Machine

theorem inRange_iff (c : AxisConfig) (p : Int) : inRange c p = true ↔ c.kind = .linear ∨ (0 ≤ p ∧ p < c.span) := by
  unfold inRange; cases c.kind <;> simp

theorem armChecks_iff (s : State) (r : Record) :
    s.armChecks r = true ↔ FitsAxis (s.ax r.axis).config r.position r.turnQualifier := by
  unfold State.armChecks FitsAxis inRange turnAllowed
  cases (s.ax r.axis).config.kind <;> simp

theorem kindOrSpanChanges_iff (old new : AxisConfig) :
    kindOrSpanChanges old new = true ↔ old.kind ≠ new.kind ∨ (old.kind = .rotary ∧ old.span ≠ new.span) := by
  simp [kindOrSpanChanges]

theorem linksInto_iff (g : Engine) (k : AxisId) : g.linksInto k = true ↔
    (∃ h place, g.occupant = .mailbox (.arm h k place)) ∨ (∃ h place, g.occupant = .mailbox (.moveRelink h k place)) ∨
      (∃ r place, g.occupant = .link r k place) := by
  unfold Engine.linksInto
  split
  · next e => simp [e]
  · next e => simp [e]
  · next e => simp [e]
  · next e1 e2 e3 =>
    simp only [Bool.false_eq_true, false_iff, not_or, not_exists]
    exact ⟨fun h => e1 h k, fun h => e2 h k, fun r => e3 r k⟩

theorem spanValid_iff (n : Nat) : spanValid n = true ↔ 1024 ≤ n ∧ n ≤ 1073741824 := by
  rw [spanValid, Bool.and_eq_true, decide_eq_true_eq, decide_eq_true_eq]
  rfl

/-- The argument checks of CONFIGURE AXIS (R41). -/
theorem configValid_iff (c : AxisConfig) : configValid c = true ↔
    c.band ≤ 4095 ∧ c.ratePeriod ≠ 0 ∧ (c.kind = .linear → c.indexMode ≠ .track) ∧
      (c.kind = .rotary → (1024 ≤ c.span ∧ c.span ≤ 1073741824) ∧ c.band ≤ c.span / 4 ∧
        0 ≤ c.indexPreset ∧ c.indexPreset < c.span) := by
  unfold configValid
  rw [Bool.and_eq_true, Bool.and_eq_true, decide_eq_true_eq, decide_eq_true_eq]
  cases h : c.kind <;> simp [spanValid_iff, and_assoc] <;> intros <;> rfl

/-- The span that an accepted CONFIGURE AXIS stores (R41). -/
theorem configStored_eq (old c : AxisConfig) : configStored old c =
    { c with span := if c.kind = .linear ∧ (c.span < 1024 ∨ 1073741824 < c.span) then old.span else c.span } := by
  have e : spanValid c.span = false ↔ (c.span < 1024 ∨ 1073741824 < c.span) := by
    rw [Bool.eq_false_iff, ne_eq, spanValid_iff]; omega
  unfold configStored
  simp only [e]
  split <;> rfl

theorem configStored_kind (old c : AxisConfig) : (configStored old c).kind = c.kind := by rw [configStored_eq]

theorem configStored_source (old c : AxisConfig) : (configStored old c).source = c.source := by rw [configStored_eq]

/-- A span that is not stored is not changed either: the comparison of R42 may use the span as given. -/
theorem placeChanges_iff (old c : AxisConfig) : kindOrSpanChanges old (configStored old c) = true ↔
    old.kind ≠ c.kind ∨ (old.kind = .rotary ∧ old.span ≠ c.span) := by
  rw [kindOrSpanChanges_iff, configStored_eq]
  by_cases h : old.kind = c.kind
  · by_cases l : c.kind = .linear
    · simp [h, l]
    · simp [h, l]
  · simp [h]

/-- The state checks of CONFIGURE AXIS (R42). -/
theorem configRefused_iff (s : State) (k : AxisId) (c : AxisConfig) :
    s.configRefused k (configStored (s.ax k).config c) = true ↔
      (((s.ax k).config.kind ≠ c.kind ∨ ((s.ax k).config.kind = .rotary ∧ (s.ax k).config.span ≠ c.span)) ∨
          (s.ax k).config.source ≠ c.source) ∧ (s.ax k).front.state ≠ .halted ∨
      (((s.ax k).config.kind ≠ c.kind ∨ ((s.ax k).config.kind = .rotary ∧ (s.ax k).config.span ≠ c.span)) ∧
        (s.ax k).list ≠ []) ∨
      (((s.ax k).config.kind ≠ c.kind ∨ ((s.ax k).config.kind = .rotary ∧ (s.ax k).config.span ≠ c.span)) ∧
        ((∃ h place, s.engine.occupant = .mailbox (.arm h k place)) ∨
          (∃ h place, s.engine.occupant = .mailbox (.moveRelink h k place)) ∨
          (∃ r place, s.engine.occupant = .link r k place))) := by
  rw [← placeChanges_iff, ← linksInto_iff]
  unfold State.configRefused
  simp only [Bool.or_eq_true, Bool.and_eq_true, decide_eq_true_eq, configStored_source, or_assoc, Bool.not_eq_true',
    List.isEmpty_eq_false_iff, ne_eq]

/-! ### The seek start -/

/-- What a seek of list `k` does to the walk of the engine: one before a link goes back to the head, all else stays (R26, R109). -/
theorem soughtList_eq (o : Occupant) (k : AxisId) : o.soughtList k =
    match o with
    | .mailbox (.arm h j place) => .mailbox (.arm h j (if j = k then 0 else place))
    | .mailbox (.moveRelink h j place) => .mailbox (.moveRelink h j (if j = k then 0 else place))
    | .link request j place => .link request j (if j = k then 0 else place)
    | o => o := by
  unfold Occupant.soughtList Occupant.movePlace
  cases o with
  | mailbox operation => cases operation <;> (try rfl) <;> dsimp only <;> split <;> rfl
  | link request j place => dsimp only; split <;> rfl
  | _ => rfl

/-- What the removal of a record from list `k` does to the walk of the engine: one of that list stays between the records on either
side, all else stays (R26, R109). -/
theorem unlinked_eq (o : Occupant) (k : AxisId) (index : Nat) : o.unlinked k index = o.afterRemoval k index := by
  unfold Occupant.unlinked Occupant.movePlace Occupant.afterRemoval
  cases o with
  | mailbox operation => cases operation <;> (try rfl) <;> dsimp only <;> split <;> simp [*]
  | link request j place => dsimp only; split <;> simp [*]
  | _ => rfl

/-- A seek ordered in the event that also leaves axis `k` as `a` is one update of the axis and one of the engine (R76, R99). -/
theorem seekStart_eq (s : State) (k : AxisId) (a : Axis) (p : Int) (t t' : Turn)
    (h : t' = if a.config.kind = .linear then 0 else t) :
    (s.setAx k a).seekStart k p t = (s.setAx k (a.sought p t')).updEngine (fun g => g.atSeek k) := by
  subst h
  simp only [State.seekStart, State.setAx_updAx, soughtList_eq]
  rfl

end Sys2Proof.Machine
end

