-- ==== Sys2Proof/Laws/Engine.lean ====
section
/-! SUPPORT. What the table engine's shared operations do: the grant, the ends of commands, link and unlink, the walk
(chapters 1 and 6). -/

namespace Sys2Proof.Machine

/-! ### One record changed -/

/-- Storing record `h` changes that record alone, and its place in the pending set follows it (R5). -/
theorem OnlyRecord.putRecord (s : State) (h : Handle) (r : Record) : OnlyRecord s (s.putRecord h r) h := by
  refine ⟨fun g n => by simp [n], fun g n => ?_, ?_⟩
  · rw [State.putRecord_pendingSet]; split <;> simp [n]
  · rw [State.putRecord_pendingSet]; cases q : r.isPending <;> simp [q]

theorem OnlyRecord.trans {s t u : State} {h : Handle} (a : OnlyRecord s t h) (b : OnlyRecord t u h) : OnlyRecord s u h :=
  ⟨fun g n => (b.records g n).trans (a.records g n), fun g n => (b.members g n).trans (a.members g n), b.own⟩

/-- `OnlyRecord` looks at records and the pending set alone. -/
theorem OnlyRecord.congr {s s' t t' : State} {h : Handle} (a : OnlyRecord s t h) (r : s'.records = s.records)
    (m : s'.pendingSet = s.pendingSet) (r' : t'.records = t.records) (m' : t'.pendingSet = t.pendingSet) :
    OnlyRecord s' t' h := by
  have es : ∀ g, s'.recordAt g = s.recordAt g := fun g => by simp [State.recordAt, r]
  have et : ∀ g, t'.recordAt g = t.recordAt g := fun g => by simp [State.recordAt, r']
  refine ⟨fun g n => ?_, fun g n => ?_, ?_⟩
  · rw [es, et]; exact a.records g n
  · rw [m, m']; exact a.members g n
  · rw [m', et]; exact a.own

/-- A state equal to another in its port, enables, world and own fields. -/
theorem RestKept.refl (s : State) : RestKept s s := ⟨rfl, ⟨rfl, rfl⟩, ⟨rfl, rfl, rfl, rfl⟩, ⟨rfl, rfl⟩⟩

theorem RestKept.trans {s t u : State} (a : RestKept s t) (b : RestKept t u) : RestKept s u :=
  ⟨b.port.trans a.port, ⟨b.enables.1.trans a.enables.1, b.enables.2.trans a.enables.2⟩,
    ⟨b.world.1.trans a.world.1, b.world.2.1.trans a.world.2.1, b.world.2.2.1.trans a.world.2.2.1,
      b.world.2.2.2.trans a.world.2.2.2⟩, ⟨b.own.1.trans a.own.1, b.own.2.trans a.own.2⟩⟩

/-! ### The arbiter's decision (R100) -/

/-- The model's choice of claimant is the rule's. -/
theorem choice_eq (g : Engine) : g.choice = g.nextClaim := by
  unfold Engine.choice Engine.nextClaim Engine.commandWaits
  have limit : Config.streakLimit = 4 := rfl
  cases g.queue <;> cases g.mailbox <;> simp [limit]

/-- The arbiter decides as the occupant goes NONE. -/
theorem freed_eq (g : Engine) : g.freed = g.idleAgain := by
  unfold Engine.freed Engine.idleAgain
  dsimp only
  rw [choice_eq]
  rfl

/-- The arbiter decides at the first arrival at an idle engine. -/
theorem arrived_eq (g : Engine) : g.arrived = g.withArrival := by
  unfold Engine.arrived Engine.withArrival
  rw [choice_eq]
  cases o : g.occupant <;> cases c : g.claim <;> simp

/-- An arrival changes the decision alone, and only one not yet made. -/
theorem arrived_cases (g : Engine) : g.arrived = g ∨ (g.occupant = .none ∧ g.claim = none ∧ g.arrived = { g with claim := g.choice }) := by
  rw [arrived_eq, Engine.withArrival, choice_eq]
  split
  · next h => exact .inr ⟨h.1, h.2, rfl⟩
  · exact .inl rfl

@[simp] theorem arrived_occupant (g : Engine) : g.arrived.occupant = g.occupant := by
  rcases arrived_cases g with e | ⟨-, -, e⟩ <;> rw [e]
@[simp] theorem arrived_mailbox (g : Engine) : g.arrived.mailbox = g.mailbox := by
  rcases arrived_cases g with e | ⟨-, -, e⟩ <;> rw [e]
@[simp] theorem arrived_queue (g : Engine) : g.arrived.queue = g.queue := by
  rcases arrived_cases g with e | ⟨-, -, e⟩ <;> rw [e]
@[simp] theorem arrived_stalled (g : Engine) : g.arrived.stalled = g.stalled := by
  rcases arrived_cases g with e | ⟨-, -, e⟩ <;> rw [e]
@[simp] theorem arrived_streak (g : Engine) : g.arrived.streak = g.streak := by
  rcases arrived_cases g with e | ⟨-, -, e⟩ <;> rw [e]

@[simp] theorem freed_occupant (g : Engine) : g.freed.occupant = .none := rfl
@[simp] theorem freed_mailbox (g : Engine) : g.freed.mailbox = g.mailbox := rfl
@[simp] theorem freed_queue (g : Engine) : g.freed.queue = g.queue := rfl
@[simp] theorem freed_stalled (g : Engine) : g.freed.stalled = g.stalled := rfl
@[simp] theorem freed_streak (g : Engine) : g.freed.streak = g.streak := rfl

/-! ### The grant (R100) -/

/-- What ARBITER_GRANT can do: nothing, or take the claimant that has been decided on. -/
theorem grant_cases (s : State) : s.grant = s ∨
    (∃ request, s.engine.occupant = .none ∧ s.engine.claim = some .command ∧ s.engine.mailbox = .waiting request ∧
      s.grant = s.takeMailbox request) ∨
    (∃ request rest, s.engine.occupant = .none ∧ s.engine.claim = some .link ∧ s.engine.queue = request :: rest ∧
      s.grant = s.takeLink request) := by
  unfold State.grant
  split
  · next o c =>
    split
    · next request rest q => exact .inr (.inr ⟨request, rest, o, c, q, rfl⟩)
    · exact .inl rfl
  · next o c =>
    split
    · next request m => exact .inr (.inl ⟨request, o, c, m, rfl⟩)
    · exact .inl rfl
  · exact .inl rfl

theorem grant_mailbox {s : State} {tag : Byte} {command : TableCommand} (m : MailboxTurn s tag command) :
    s.grant = s.takeMailbox { tag := tag, command := command } := by
  simp [State.grant, m.free, m.turn, m.waiting]

theorem grant_link {s : State} {request : LinkRequest} {rest : List LinkRequest} (l : LinkTurn s request rest) :
    s.grant = s.takeLink request := by
  simp [State.grant, l.free, l.turn, l.oldest]

/-- The streak count once a link request is taken is the rule's. -/
theorem streakAtLink_eq (g : Engine) : g.streakAtLink = g.streakAfterLink := by
  unfold Engine.streakAtLink Engine.streakAfterLink Engine.commandWaits
  cases g.mailbox <;> rfl

/-- A command that ends at its grant (R96, R100). -/
theorem finish_taken (s : State) (tag : Byte) (command : TableCommand) (code : ResultCode) (data : Nat) :
    (s.updEngine (fun g => { g with
        occupant := .mailbox (.checking command), mailbox := .inProgress { tag := tag, command := command }, streak := 0
        claim := none })).finishMailbox
      code data = { s with engine := s.engine.endedWith tag code data } := by
  show { s with engine := Engine.freed _ } = _
  rw [freed_eq]
  rfl

/-- A command that goes on past its grant (R96, R100). -/
theorem occupy_taken (s : State) (tag : Byte) (command : TableCommand) (operation : Operation) :
    (s.updEngine (fun g => { g with
        occupant := .mailbox (.checking command), mailbox := .inProgress { tag := tag, command := command }, streak := 0
        claim := none })).occupy
      operation = { s with engine := s.engine.goesOnWith tag command operation } := rfl

/-- A link request that passes its checks walks, and one that does not ends at once (R100, R111, R112). -/
theorem takeLink_eq (s : State) (request : LinkRequest) : s.takeLink request =
    if (s.recordAt request.target).state = .staged ∧ s.armChecks (s.recordAt request.target) = true then
      { s with engine := { s.engine with
          occupant := .link request (s.recordAt request.target).axis 0, streak := s.engine.streakAfterLink, claim := none } }
    else
      { s with engine := { s.engine with
          occupant := .linkChecks request, streak := s.engine.streakAfterLink, claim := none } }.finishLink request.source true := by
  rw [← streakAtLink_eq]
  unfold State.takeLink State.checkLink
  dsimp only [State.updEngine_recordAt]
  rfl

/-- The end of a command in progress (R96, R100). -/
theorem finishMailbox_inProgress {s : State} {request : TableRequest} (m : s.engine.mailbox = .inProgress request)
    (code : ResultCode) (data : Nat) : s.finishMailbox code data =
      { s with engine := Engine.idleAgain { s.engine with
          mailbox := .done { code := code, tag := request.tag, data := data } } } := by
  simp only [State.finishMailbox, State.updEngine, Mailbox.finish, m, freed_eq]

/-! ### Waits (R25) -/

theorem inStep_iff (v : Evaluator) (h : Handle) : v.inStep h = true ↔
    (∃ st, v.step = some st ∧ h ∈ st.run) ∨ (∃ f, v.held = some f ∧ f.source = h) := by
  unfold Evaluator.inStep
  cases v.step <;> cases v.held <;> simp

theorem unlinkWaits_iff (s : State) (k : AxisId) (h : Handle) : s.unlinkWaits k h = true ↔
    (s.ax k).eval.state = .seeking ∨ ((∃ st, (s.ax k).eval.step = some st ∧ h ∈ st.run) ∨
      (∃ f, (s.ax k).eval.held = some f ∧ f.source = h)) := by
  simp [State.unlinkWaits, State.seeking, inStep_iff]

theorem seeking_iff (s : State) (k : AxisId) : s.seeking k = true ↔ (s.ax k).eval.state = .seeking := by
  simp [State.seeking]

/-! ### Link (R23) -/

/-- What the link event makes of axis `k`. -/
theorem linkRecord_ax (s : State) (k : AxisId) (h : Handle) : (s.linkRecord k h).ax k =
    { s.ax k with
      list := insertAfter s.posOf (s.posOf h) h (s.ax k).list
      cursor := (s.ax k).cursor.map (fun n => if s.posOf h ≤ (s.ax k).eval.e then n + 1 else n) } := by
  unfold State.linkRecord
  rw [State.putRecord_ax, State.updAx_ax, if_pos rfl]
  rfl

theorem linkRecord_ax_other (s : State) (k j : AxisId) (h : Handle) (n : j ≠ k) : (s.linkRecord k h).ax j = s.ax j := by
  simp [State.linkRecord, n]

theorem linkRecord_recordAt (s : State) (k : AxisId) (h : Handle) :
    (s.linkRecord k h).recordAt h = { s.recordAt h with state := .armed } := by
  simp [State.linkRecord]

theorem linkRecord_only (s : State) (k : AxisId) (h : Handle) : OnlyRecord s (s.linkRecord k h) h :=
  (OnlyRecord.putRecord (s.updAx k (Axis.linkIn s.posOf (s.recordAt h).position h)) h
    { s.recordAt h with state := .armed }).congr rfl rfl rfl rfl

theorem linkRecord_rest (s : State) (k : AxisId) (h : Handle) : RestKept s (s.linkRecord k h) ∧
    (s.linkRecord k h).lines = s.lines ∧ (s.linkRecord k h).freePool = s.freePool ∧
    (s.linkRecord k h).engine = s.engine :=
  ⟨⟨rfl, ⟨rfl, rfl⟩, ⟨rfl, rfl, rfl, rfl⟩, ⟨rfl, rfl⟩⟩, rfl, rfl, rfl⟩

/-! ### Unlink (R24) -/

/-- What the unlink event makes of axis `k`. -/
theorem unlinkRecord_ax (s : State) (k : AxisId) (h : Handle) (r : Record) : (s.unlinkRecord k h r).ax k =
    { s.ax k with
      list := (s.ax k).list.erase h
      cursor := (s.ax k).cursor.map (fun n => if (s.ax k).list.idxOf h < n then n - 1 else n)
      eval := { (s.ax k).eval with guard := (s.ax k).eval.guard.filter (fun g => decide (g.handle ≠ h)) } } := by
  simp [State.unlinkRecord, Axis.unlinkOut]

theorem unlinkRecord_ax_other (s : State) (k j : AxisId) (h : Handle) (r : Record) (n : j ≠ k) :
    (s.unlinkRecord k h r).ax j = s.ax j := by
  simp [State.unlinkRecord, n]

theorem unlinkRecord_recordAt (s : State) (k : AxisId) (h : Handle) (r : Record) :
    (s.unlinkRecord k h r).recordAt h = r := by
  simp [State.unlinkRecord]

theorem unlinkRecord_only (s : State) (k : AxisId) (h : Handle) (r : Record) : OnlyRecord s (s.unlinkRecord k h r) h :=
  (OnlyRecord.putRecord ((s.updAx k (Axis.unlinkOut h)).updEngine
    (fun g => { g with occupant := g.occupant.unlinked k ((s.ax k).list.idxOf h) })) h r).congr rfl rfl rfl rfl

theorem unlinkRecord_rest (s : State) (k : AxisId) (h : Handle) (r : Record) : RestKept s (s.unlinkRecord k h r) ∧
    (s.unlinkRecord k h r).lines = s.lines ∧ (s.unlinkRecord k h r).freePool = s.freePool ∧
    (s.unlinkRecord k h r).engine =
      { s.engine with occupant := s.engine.occupant.unlinked k ((s.ax k).list.idxOf h) } :=
  ⟨⟨rfl, ⟨rfl, rfl⟩, ⟨rfl, rfl, rfl, rfl⟩, ⟨rfl, rfl⟩⟩, rfl, rfl, rfl⟩

/-! ### Release (R17, R18) -/

theorem autoReleases_iff (r : Record) :
    r.autoReleases = true ↔ r.state = .spent ∧ r.keep = .auto ∧ r.isPending = false ∧ r.outstanding = 0 := by
  simp [Record.autoReleases, and_assoc]

/-- Auto-release changes at most the one record and the free pool. -/
theorem autoRelease_cases (s : State) (h : Handle) :
    ((s.recordAt h).autoReleases = true ∧ s.autoRelease h = s.freeRecord h) ∨
      ((s.recordAt h).autoReleases = false ∧ s.autoRelease h = s) := by
  unfold State.autoRelease
  cases q : (s.recordAt h).autoReleases <;> simp

@[simp] theorem freeRecord_recordAt (s : State) (h g : Handle) :
    (s.freeRecord h).recordAt g = if g = h then Record.cleared else s.recordAt g := by
  show (s.putRecord h .cleared).recordAt g = _
  rw [State.putRecord_recordAt]

@[simp] theorem freeRecord_freePool (s : State) (h : Handle) : (s.freeRecord h).freePool = s.freePool ++ [h] := rfl
@[simp] theorem freeRecord_ax (s : State) (h : Handle) (k : AxisId) : (s.freeRecord h).ax k = s.ax k := rfl
@[simp] theorem freeRecord_engine (s : State) (h : Handle) : (s.freeRecord h).engine = s.engine := rfl
@[simp] theorem freeRecord_lines (s : State) (h : Handle) : (s.freeRecord h).lines = s.lines := rfl

theorem freeRecord_only (s : State) (h : Handle) : OnlyRecord s (s.freeRecord h) h :=
  (OnlyRecord.putRecord s h .cleared).congr rfl rfl rfl rfl

theorem freeRecord_rest (s : State) (h : Handle) : RestKept s (s.freeRecord h) :=
  ⟨rfl, ⟨rfl, rfl⟩, ⟨rfl, rfl, rfl, rfl⟩, ⟨rfl, rfl⟩⟩

/-- A refused link request: its source is pending with the link fault, so it is not released (R18, R112). -/
theorem finishLink_fault (s : State) (source : Handle) : s.finishLink source true =
    (s.updEngine (fun g => Engine.idleAgain { g with queue := g.queue.tail })).putRecord source
      { s.recordAt source with outstanding := (s.recordAt source).outstanding - 1, linkFault := true } := by
  have e : s.finishLink source true =
      State.autoRelease ((s.updEngine (fun g => Engine.freed { g with queue := g.queue.tail })).putRecord source
        { s.recordAt source with outstanding := (s.recordAt source).outstanding - 1, linkFault := true }) source := by
    unfold State.finishLink
    dsimp only
    rw [Bool.or_true]
    rfl
  rw [e, State.autoRelease, if_neg]
  · simp only [freed_eq]
  · rw [State.putRecord_recordAt, if_pos rfl, autoReleases_iff]
    simp [Record.isPending]

/-! ### The RETIRE BANK walk (R109) -/

theorem nextOfBank_none (s : State) (bank : Bank) (l : List Handle) (h : ∀ g ∈ l, (s.recordAt g).bank ≠ bank) :
    s.nextOfBank bank l = none := by
  induction l with
  | nil => rfl
  | cons x xs ih =>
    rw [List.forall_mem_cons] at h
    simp [State.nextOfBank, h.1, ih h.2]

theorem nextOfBank_some (s : State) (bank : Bank) (passed rest : List Handle) (h : Handle)
    (p : ∀ g ∈ passed, (s.recordAt g).bank ≠ bank) (e : (s.recordAt h).bank = bank) :
    s.nextOfBank bank (passed ++ h :: rest) = some (passed.length, h) := by
  induction passed with
  | nil => simp [State.nextOfBank, e]
  | cons x xs ih =>
    rw [List.forall_mem_cons] at p
    simp [State.nextOfBank, p.1, ih p.2]

/-! ### Walks (R26, R109) -/

theorem passesNext_iff (s : State) (k : AxisId) (place : Nat) (pass : Handle → Bool) : s.passesNext k place pass = true ↔
    (s.ax k).eval.state ≠ .seeking ∧ ∃ g, (s.ax k).list[place]? = some g ∧ pass g = true := by
  unfold State.passesNext State.seeking
  cases (s.ax k).list[place]? <;> simp

theorem passesLink_iff (s : State) (k : AxisId) (place : Nat) (h : Handle) : s.passesLink k place h = true ↔
    (s.ax k).eval.state ≠ .seeking ∧ ∃ g, (s.ax k).list[place]? = some g ∧ s.posOf g ≤ s.posOf h := by
  simp [State.passesLink, passesNext_iff]

theorem passesRetire_iff (s : State) (k : AxisId) (place : Nat) (bank : Bank) : s.passesRetire k place bank = true ↔
    (s.ax k).eval.state ≠ .seeking ∧ ∃ g, (s.ax k).list[place]? = some g ∧ (s.recordAt g).bank ≠ bank := by
  simp [State.passesRetire, passesNext_iff]

/-- What a walk that goes on can do: nothing, or pass one record, which changes its place alone. -/
theorem walkOn_cases (s : State) : s.walkOn = s ∨ ∃ o : Occupant,
    s.walkOn = { s with engine := { s.engine with occupant := o } } ∧
    ((∃ h k place, s.engine.occupant = .mailbox (.arm h k place) ∧ o = .mailbox (.arm h k (place + 1))) ∨
      (∃ h k place, s.engine.occupant = .mailbox (.moveRelink h k place) ∧ o = .mailbox (.moveRelink h k (place + 1))) ∨
      (∃ k bank place count, s.engine.occupant = .mailbox (.retire k bank place count none) ∧
        o = .mailbox (.retire k bank (place + 1) count none)) ∨
      (∃ r k place, s.engine.occupant = .link r k place ∧ o = .link r k (place + 1))) := by
  unfold State.walkOn
  split
  · next h k place e =>
    split
    · exact .inr ⟨_, rfl, .inl ⟨h, k, place, e, rfl⟩⟩
    · exact .inl rfl
  · next h k place e =>
    split
    · exact .inr ⟨_, rfl, .inr (.inl ⟨h, k, place, e, rfl⟩)⟩
    · exact .inl rfl
  · next k bank place count e =>
    split
    · exact .inr ⟨_, rfl, .inr (.inr (.inl ⟨k, bank, place, count, e, rfl⟩))⟩
    · exact .inl rfl
  · next r k place e =>
    split
    · exact .inr ⟨_, rfl, .inr (.inr (.inr ⟨r, k, place, e, rfl⟩))⟩
    · exact .inl rfl
  · exact .inl rfl

end Sys2Proof.Machine
end

