-- ==== Sys2Proof/Laws/Evaluation.lean ====
section
/-! SUPPORT. What a fire and its parts do (chapters 2 and 4): eligibility, line requests, budget, guard entry, exhaustion. -/

namespace Sys2Proof.Machine

/-! ### Eligibility (R65) -/

theorem eligible_iff (a : Axis) (st : CrossingStep) (h : Handle) (r : Record) (q : Vector Level 4) :
    eligible r h a.eval st q = true ↔ Eligible a st h r q := by
  have d : directionAllows r.direction st.dir = true ↔
      (r.direction = .both ∨ (r.direction = .up ∧ st.dir = .up) ∨ (r.direction = .down ∧ st.dir = .down)) := by
    cases r.direction <;> cases st.dir <;> simp [directionAllows]
  have g : a.eval.guarded h = false ↔ ∀ g ∈ a.eval.guard, g.handle ≠ h := by
    simp [Evaluator.guarded]
  have t : turnMatches r.turnQualifier st.turn = true ↔ ∀ x, r.turnQualifier = some x → x = st.turn := by
    cases r.turnQualifier <;> simp [turnMatches]
  have e : gateMatches r.gate q = true ↔ ∀ g, r.gate = some g → q.get g.input = g.level := by
    cases r.gate <;> simp [gateMatches]
  simp only [eligible, Bool.and_eq_true, decide_eq_true_eq, d, t, e, Bool.not_eq_true', g]
  exact ⟨fun ⟨⟨⟨⟨x1, x2⟩, x3⟩, x4⟩, x5⟩ => ⟨x1, x2, x3, x4, x5⟩,
    fun x => ⟨⟨⟨⟨x.bank, x.direction⟩, x.guard⟩, x.turn⟩, x.gate⟩⟩

/-! ### Line requests (R82, R83) -/

/-- A line request changes the lines alone. -/
theorem lineRequest_eq (s : State) (act : LineAction) :
    s.lineRequest act = { s with lines := (s.lineRequest act).lines } := by
  cases act <;> rfl

@[simp] theorem lineRequest_records (s : State) (act : LineAction) : (s.lineRequest act).records = s.records := by
  cases act <;> rfl
@[simp] theorem lineRequest_pendingSet (s : State) (act : LineAction) : (s.lineRequest act).pendingSet = s.pendingSet := by
  cases act <;> rfl
@[simp] theorem lineRequest_freePool (s : State) (act : LineAction) : (s.lineRequest act).freePool = s.freePool := by
  cases act <;> rfl
@[simp] theorem lineRequest_axes (s : State) (act : LineAction) : (s.lineRequest act).axes = s.axes := by
  cases act <;> rfl
@[simp] theorem lineRequest_engine (s : State) (act : LineAction) : (s.lineRequest act).engine = s.engine := by
  cases act <;> rfl
@[simp] theorem lineRequest_ax (s : State) (act : LineAction) (k : AxisId) : (s.lineRequest act).ax k = s.ax k := by
  cases act <;> rfl
@[simp] theorem lineRequest_recordAt (s : State) (act : LineAction) (h : Handle) :
    (s.lineRequest act).recordAt h = s.recordAt h := by
  cases act <;> rfl

theorem lineRequest_rest (s : State) (act : LineAction) : RestKept s (s.lineRequest act) := by
  cases act <;> exact ⟨rfl, ⟨rfl, rfl⟩, ⟨rfl, rfl, rfl, rfl⟩, ⟨rfl, rfl⟩⟩

/-- What a line request makes of the lines depends on the lines alone. -/
theorem lineRequest_lines_congr {s t : State} (act : LineAction) (h : t.lines = s.lines) :
    (t.lineRequest act).lines = (s.lineRequest act).lines := by
  cases act <;> simp [State.lineRequest, State.setLine, State.line, h]

/-! ### The record of a fire (R5, R66) -/

theorem fired_eq (r : Record) (st : CrossingStep) : r.fired st.dir st.turn = r.afterFire st := by
  have e : (if r.notify = true then raiseUnacked r.unacked else r.unacked) =
      (if r.notify = true ∧ r.unacked < 15 then r.unacked + 1 else r.unacked) := by
    have l : Config.unackedLimit = 15 := rfl
    cases r.notify <;> simp [raiseUnacked, l]
  unfold Record.fired Record.afterFire
  rw [e]

/-! ### Guard entry (R69) -/

theorem guardEnter_eq (h : Handle) (p : Int) (a : Axis) : Axis.guardEnter h p a =
    { a with
      eval := { a.eval with guard := guardAfter a.eval.guard h p }
      flags := if 8 ≤ a.eval.guard.length then a.flags ||| 0x40 else a.flags } := by
  have l : Config.guardCapacity = 8 := rfl
  unfold Axis.guardEnter guardAfter
  rw [l]
  by_cases c : a.eval.guard.length < 8
  · simp [c, not_le.2 c]
  · simp [c, not_lt.1 c, Axis.setFlag, flagBit]

theorem guardFired_eq (s : State) (k : AxisId) (h : Handle) (armed : (s.recordAt h).state = .armed) :
    s.guardFired k h = s.setAx k
      { s.ax k with
        eval := { (s.ax k).eval with
          guard := if 0 < (s.ax k).config.band then guardAfter (s.ax k).eval.guard h (s.recordAt h).position
            else (s.ax k).eval.guard }
        flags := if 0 < (s.ax k).config.band ∧ 8 ≤ (s.ax k).eval.guard.length then (s.ax k).flags ||| 0x40
          else (s.ax k).flags } := by
  unfold State.guardFired
  by_cases b : 0 < (s.ax k).config.band
  · rw [if_pos ⟨armed, b⟩, State.updAx_eq, guardEnter_eq]
    simp [b]
  · rw [if_neg (fun x => b x.2)]
    simp only [b, if_false, false_and]
    exact (State.setAx_self s k).symm

theorem guardFired_rest (s : State) (k : AxisId) (h : Handle) : s.guardFired k h = s ∨
    s.guardFired k h = s.updAx k (Axis.guardEnter h (s.recordAt h).position) := by
  unfold State.guardFired
  split
  · exact .inr rfl
  · exact .inl rfl

/-! ### Budget (R15, R67, R68) -/

/-- A fire that does not exhaust its record. -/
theorem finishFire_goesOn (s : State) (k : AxisId) (h : Handle) (b : (s.recordAt h).budget ≠ 1)
    (own : h ∈ s.pendingSet ↔ (s.recordAt h).isPending = true) (armed : (s.recordAt h).state = .armed) :
    (s.finishFire k h).recordAt h = { s.recordAt h with budget := (s.recordAt h).budget - 1 } ∧
    OnlyRecord s (s.finishFire k h) h ∧
    (s.finishFire k h).ax k =
      { s.ax k with
        eval := { (s.ax k).eval with
          guard := if 0 < (s.ax k).config.band then guardAfter (s.ax k).eval.guard h (s.recordAt h).position
            else (s.ax k).eval.guard }
        flags := if 0 < (s.ax k).config.band ∧ 8 ≤ (s.ax k).eval.guard.length then (s.ax k).flags ||| 0x40
          else (s.ax k).flags } ∧
    (∀ j, j ≠ k → (s.finishFire k h).ax j = s.ax j) ∧
    (s.finishFire k h).lines = s.lines ∧ (s.finishFire k h).engine = s.engine ∧
    (s.finishFire k h).freePool = s.freePool ∧ RestKept s (s.finishFire k h) := by
  have key : ∃ t : State, s.finishFire k h = t.guardFired k h ∧
      t.recordAt h = { s.recordAt h with budget := (s.recordAt h).budget - 1 } ∧ OnlyRecord s t h ∧
      (∀ j, t.ax j = s.ax j) ∧ t.lines = s.lines ∧ t.engine = s.engine ∧ t.freePool = s.freePool ∧ RestKept s t := by
    unfold State.finishFire
    cases n : (s.recordAt h).budget with
    | zero =>
      refine ⟨s, by simp only [n], ?_, ⟨fun _ _ => rfl, fun _ _ => Iff.rfl, own⟩, fun _ => rfl, rfl, rfl, rfl, .refl s⟩
      rw [Nat.zero_sub, ← n]
    | succ m =>
      cases m with
      | zero => exact absurd n b
      | succ m =>
        refine ⟨s.putRecord h { s.recordAt h with budget := m + 1 }, by simp only [n], by simp,
          .putRecord s h _, by simp, rfl, rfl, rfl, ⟨rfl, ⟨rfl, rfl⟩, ⟨rfl, rfl, rfl, rfl⟩, ⟨rfl, rfl⟩⟩⟩
  obtain ⟨t, e, r, o, a, l, g, f, w⟩ := key
  have ta : (t.recordAt h).state = .armed := by rw [r]; exact armed
  have tp : (t.recordAt h).position = (s.recordAt h).position := by rw [r]
  rw [e, guardFired_eq t k h ta, a k, tp]
  refine ⟨by simp [r], o.congr rfl rfl rfl rfl, by simp, fun j n => ?_, l, g, f,
    w.trans ⟨rfl, ⟨rfl, rfl⟩, ⟨rfl, rfl, rfl, rfl⟩, ⟨rfl, rfl⟩⟩⟩
  rw [State.setAx_ax, if_neg n, a j]

/-- A fire that exhausts its record. -/
theorem finishFire_exhausts (s : State) (k : AxisId) (h : Handle) (b : (s.recordAt h).budget = 1) :
    s.finishFire k h =
      (s.unlinkRecord k h { s.recordAt h with budget := 0, state := .spent }).autoRelease h := by
  unfold State.finishFire
  simp only [b]
  rfl

/-- Auto-release keeps all but the record, its place in the pending set, and the free pool (R18). -/
theorem autoRelease_rest (s : State) (h : Handle) : (∀ k, (s.autoRelease h).ax k = s.ax k) ∧
    (s.autoRelease h).lines = s.lines ∧ (s.autoRelease h).engine = s.engine ∧ RestKept s (s.autoRelease h) := by
  rcases autoRelease_cases s h with ⟨_, e⟩ | ⟨_, e⟩ <;> rw [e]
  · exact ⟨fun _ => rfl, rfl, rfl, freeRecord_rest s h⟩
  · exact ⟨fun _ => rfl, rfl, rfl, .refl s⟩

theorem autoRelease_only (s : State) (h : Handle) (own : h ∈ s.pendingSet ↔ (s.recordAt h).isPending = true) :
    OnlyRecord s (s.autoRelease h) h := by
  rcases autoRelease_cases s h with ⟨_, e⟩ | ⟨_, e⟩ <;> rw [e]
  · exact freeRecord_only s h
  · exact ⟨fun _ _ => rfl, fun _ _ => Iff.rfl, own⟩

/-! ### The end of an examination (R63, R71) -/

theorem stepGoesOn_eq (a : Axis) (st : CrossingStep) (e : a.eval.step = some st) (n : a.eval.held = none) : a.stepGoesOn =
    { a with
      eval := { a.eval with
        step := if st.run = [] then none else some st
        guard := if st.run = [] then a.eval.guard.filter (staysGuarded a.config a.eval.e) else a.eval.guard } } := by
  unfold Axis.stepGoesOn
  rw [n, e]
  cases st with
  | mk dir turn run =>
    cases run with
    | nil => simp [Axis.endStep, Axis.releaseChecks_eq]
    | cons x xs => simp [← e]

theorem stepGoesOn_held (a : Axis) (f : HeldFire) (n : a.eval.held = some f) : a.stepGoesOn = a := by
  unfold Axis.stepGoesOn
  rw [n]

/-- SETTLED as one update (R79). -/
theorem settleCheck_eq (a : Axis) : a.settleCheck =
    { a with
      eval := { a.eval with settle := if a.eval.e = a.front.c then false else a.eval.settle }
      flags := if a.eval.settle = true ∧ a.eval.e = a.front.c then a.flags ||| 0x80 else a.flags } := by
  rcases a with ⟨config, front, ⟨state, e, evalTurn, bank, step, held, guard, settle⟩, list, cursor, flags, mask⟩
  unfold Axis.settleCheck
  cases settle <;> by_cases h : e = front.c <;> simp [h, Axis.setFlag, flagBit]

/-! ### Where an examination goes -/

theorem examine_eq {s : State} {k : AxisId} {st : CrossingStep} {h : Handle} {rest : List Handle}
    (x : Examines s k st h rest) : s.examine k =
      (if eligible (s.recordAt h) h (s.ax k).eval st s.qualifiers = true
        then (s.updAx k (Axis.setRun st rest)).fire k h st.dir st.turn
        else s.updAx k (Axis.setRun st rest)).updAx k Axis.stepGoesOn := by
  unfold State.examine
  dsimp only
  rw [x.state, x.step]
  dsimp only
  rw [x.run]

end Sys2Proof.Machine
end

