-- ==== Sys2Proof/Laws/FrontEnds.lean ====
section
/-! SUPPORT. What a row hands the decoder and the index unit, and what a count event and its lag check do (F-3, F-4, F-5). -/

namespace Sys2Proof.Machine

/-- A pin that changes is filtered as the rule says (R44). -/
theorem InputFilter.change_eq_moved (f : InputFilter) (w : FilterWidth) (l : Level) : f.change w l = f.moved w l := rfl

/-- A width that runs out acts as the rule says (R44). -/
theorem InputFilter.timeout_eq_ranOut (f : InputFilter) : f.timeout = f.ranOut := by
  unfold InputFilter.timeout InputFilter.ranOut InputFilter.accept
  cases f.timing <;> rfl

/-- A filter row that leaves the accepted level at the pin's ends with no timing. -/
theorem InputFilter.moved_accepts (f : InputFilter) (w : FilterWidth) (l : Level) (h : (f.moved w l).accepted ≠ f.accepted) :
    f.moved w l = .atLevel (f.moved w l).accepted := by
  unfold InputFilter.moved at h ⊢
  split at h
  · exact absurd rfl h
  · split at h
    · exact absurd rfl h
    · split at h
      · next h1 h2 h3 => rw [if_neg h1, if_neg h2, if_pos h3]; rfl
      · exact absurd rfl h

theorem InputFilter.ranOut_accepts (f : InputFilter) (h : f.ranOut.accepted ≠ f.accepted) :
    f.ranOut = .atLevel f.ranOut.accepted := by
  unfold InputFilter.ranOut at h ⊢
  split at h
  · exact absurd rfl h
  · next t => rw [if_neg t]; rfl

/-- A row that hands the decoder a pair is one `handOnPair` on its axis (R44, R45). -/
theorem PairRow.exec_eq {s : State} {k : AxisId} {i : Instr} {fa fb : InputFilter} (p : PairRow s k i fa fb) :
    exec i s = .next (s.setAx k (Axis.handOnPair fa fb (s.ax k))) := by
  cases p <;> simp [exec, execAxisInputChange, execFilterTimeout, State.inputChange, State.filterExpires, State.updAx_eq,
    InputFilter.change_eq_moved, InputFilter.timeout_eq_ranOut, *]

/-- A row that leaves both accepted levels changes the two filters alone (R44). -/
theorem Axis.handOnPair_same (a : Axis) (fa fb : InputFilter) (ha : fa.accepted = a.front.inputA.accepted)
    (hb : fb.accepted = a.front.inputB.accepted) :
    Axis.handOnPair fa fb a = { a with front := { a.front with inputA := fa, inputB := fb } } :=
  if_pos ⟨ha, hb⟩

/-! ### Counts -/

/-- The lag check after a count, for each state of the evaluator (R54, R74, R75). -/
theorem Axis.lagCheck_within (a : Axis) (h : -255 ≤ a.lag ∧ a.lag ≤ 255) : a.lagCheck = a := by
  have : a.lagWithin = true := by
    rw [Axis.lagWithin, decide_eq_true_eq]
    show a.lag.natAbs ≤ 255
    omega
  simp [Axis.lagCheck, this]

theorem Axis.lagWithin_iff (a : Axis) : a.lagWithin = true ↔ -255 ≤ a.lag ∧ a.lag ≤ 255 := by
  rw [Axis.lagWithin, decide_eq_true_eq]
  show a.lag.natAbs ≤ 255 ↔ _
  omega

/-- Storing the pair and counting are independent: the decoder may store first (R45). -/
theorem Axis.count_storePair (a : Axis) (d : Dir) (fa fb : InputFilter) :
    Axis.storePair (Axis.count d { a with front := { a.front with inputA := fa, inputB := fb } }) =
      Axis.count d (a.withPair fa fb) := by
  unfold Axis.count
  by_cases e : a.config.kind = .linear ∧ a.front.c = linearEnd d
  · exact (congrArg Axis.storePair (if_pos e)).trans (if_pos e).symm
  · refine (congrArg Axis.storePair (if_neg e)).trans (Eq.trans ?_ (if_neg e).symm)
    unfold Axis.moveCount Axis.lagCheck
    by_cases w : Axis.lagWithin { a with front := { a.front with
        c := (advance a.config d a.front.c a.front.liveTurn).1
        liveTurn := (advance a.config d a.front.c a.front.liveTurn).2 } } = true
    · exact (congrArg Axis.storePair (if_pos w)).trans (if_pos w).symm
    · refine (congrArg Axis.storePair (if_neg w)).trans (Eq.trans ?_ (if_neg w).symm)
      show Axis.storePair (match a.eval.state with | .tracking => _ | .stalled => _ | .seeking => _ | .faultedLag => _) =
        (match a.eval.state with | .tracking => _ | .stalled => _ | .seeking => _ | .faultedLag => _)
      cases a.eval.state with
      | tracking =>
        show Axis.storePair (Axis.lagFaultTracking _) = Axis.lagFaultTracking _
        unfold Axis.lagFaultTracking Axis.withPair
        cases h2 : a.eval.step <;> rfl
      | stalled => rfl
      | seeking => rfl
      | faultedLag => rfl

/-- What a decoder event makes of a pair handed on, while COUNTING (R45, R48). -/
theorem Axis.handOnPair_counting (a : Axis) (fa fb : InputFilter) (c : a.front.state = .counting)
    (h : fa.accepted ≠ a.front.inputA.accepted ∨ fb.accepted ≠ a.front.inputB.accepted) :
    Axis.handOnPair fa fb a =
      match decodePair a.config.source a.front.storedA a.front.storedB fa.accepted fb.accepted with
      | .nothing => a.withPair fa fb
      | .count d => Axis.count d (a.withPair fa fb)
      | .phaseError => { a.withPair fa fb with
          front := { (a.withPair fa fb).front with
            state := if a.config.strict = true then .faultedPhase else .counting }
          flags := a.flags ||| 0x08 } := by
  have n : ¬ (fa.accepted = a.front.inputA.accepted ∧ fb.accepted = a.front.inputB.accepted) := by tauto
  rw [Axis.handOnPair, if_neg n]
  unfold Axis.decoderEvent
  dsimp only
  rw [if_pos c]
  generalize decodePair a.config.source a.front.storedA a.front.storedB fa.accepted fb.accepted = e
  cases e with
  | nothing => rfl
  | count d => exact Axis.count_storePair a _ fa fb
  | phaseError =>
    unfold Axis.phaseError Axis.withPair Axis.storePair Axis.setFlag
    cases a.config.strict <;> simp [c, flagBit]

/-- While not COUNTING, or with source RATE, the pair is stored and nothing else happens (R45, R51). -/
theorem Axis.handOnPair_stores (a : Axis) (fa fb : InputFilter)
    (c : a.front.state ≠ .counting ∨ a.config.source = .rate)
    (h : fa.accepted ≠ a.front.inputA.accepted ∨ fb.accepted ≠ a.front.inputB.accepted) :
    Axis.handOnPair fa fb a = a.withPair fa fb := by
  have n : ¬ (fa.accepted = a.front.inputA.accepted ∧ fb.accepted = a.front.inputB.accepted) := by tauto
  simp only [Axis.handOnPair, n, if_false, Axis.decoderEvent]
  rcases c with c | c
  · simp only [c, if_false]; rfl
  · simp only [c, decodePair, ite_self]; rfl

/-! ### Index edges -/

/-- A row that gives I a new filter state is one `handOnIndex` on its axis (R44, R115). -/
theorem IndexFilterRow.exec_eq {s : State} {k : AxisId} {i : Instr} {f : InputFilter} (p : IndexFilterRow s k i f) :
    exec i s = .next (s.handOnIndex k f) := by
  cases p <;> simp [exec, execAxisInputChange, execFilterTimeout, State.inputChange, State.filterExpires,
    InputFilter.change_eq_moved, InputFilter.timeout_eq_ranOut, *]

/-- A filter row that leaves the accepted level of I changes that filter alone (R44). -/
theorem handOnIndex_same (s : State) (k : AxisId) (f : InputFilter) (h : f.accepted = (s.ax k).front.inputI.accepted) :
    s.handOnIndex k f = s.setAx k { s.ax k with front := { (s.ax k).front with inputI := f } } :=
  if_pos h

/-- A row that hands the index unit a level is one `indexEdge` on its axis with the level accepted (R44, R115). -/
theorem IndexRow.exec_eq {s : State} {k : AxisId} {l : Level} {i : Instr} (p : IndexRow s k l i) :
    exec i s = .next ((s.setAx k ((s.ax k).withIndex l)).indexEdge k l) := by
  obtain ⟨n, f, row, rfl⟩ := p
  have e : f = .atLevel f.accepted := by
    cases row with
    | change l' out => exact InputFilter.moved_accepts _ _ _ n
    | timeout => exact InputFilter.ranOut_accepts _ n
  rw [row.exec_eq]
  unfold State.handOnIndex
  dsimp only
  rw [if_neg n]
  unfold Axis.withIndex
  rw [← e]

theorem Axis.edgeQualified_iff (a : Axis) (l : Level) :
    a.edgeQualified l = true ↔ a.front.state = .counting ∧ l = edgeLevel a.config.indexEdge := by
  unfold Axis.edgeQualified edgeLevel
  cases a.config.indexEdge <;> simp

end Sys2Proof.Machine
end

