-- ==== Sys2Proof/Laws/Lists.lean ====
section
/-! SUPPORT. Cam lists as lists: sorted insertion and removal, and how the cursor's count follows them (R22, R23, R24, R27). -/

namespace Sys2Proof.Machine

/-- How many records of a list stand at or below `e`. -/
def countOf (pos : Handle → Int) (l : List Handle) (e : Int) : Nat := (l.filter (fun h => decide (pos h ≤ e))).length

theorem countBelow_eq (s : State) (l : List Handle) (e : Int) : s.countBelow l e = countOf s.posOf l e := rfl

/-- The count depends on the positions of the list's own records. -/
theorem countOf_congr {pos pos' : Handle → Int} {l : List Handle} (h : ∀ g ∈ l, pos' g = pos g) (e : Int) :
    countOf pos' l e = countOf pos l e := by
  unfold countOf
  congr 1
  apply List.filter_congr
  intro g m
  rw [h g m]

theorem countOf_append (pos : Handle → Int) (a b : List Handle) (e : Int) :
    countOf pos (a ++ b) e = countOf pos a e + countOf pos b e := by
  simp [countOf]

theorem countOf_cons (pos : Handle → Int) (h : Handle) (l : List Handle) (e : Int) :
    countOf pos (h :: l) e = (if pos h ≤ e then 1 else 0) + countOf pos l e := by
  unfold countOf
  by_cases c : pos h ≤ e
  · simp [c]; omega
  · simp [c]

/-- The count at `e + 1` has the run at `e + 1` more. -/
theorem countOf_up (pos : Handle → Int) (l : List Handle) (e : Int) :
    countOf pos l (e + 1) = countOf pos l e + (l.filter (fun h => decide (pos h = e + 1))).length := by
  induction l with
  | nil => rfl
  | cons x xs ih =>
    rw [countOf_cons, countOf_cons, ih, List.filter_cons]
    by_cases a : pos x ≤ e
    · have b : pos x ≤ e + 1 := by omega
      have c : pos x ≠ e + 1 := by omega
      simp [a, b, c]; omega
    · by_cases c : pos x = e + 1
      · simp [c]; omega
      · have b : ¬ pos x ≤ e + 1 := by omega
        simp [a, b, c]

theorem countOf_all (pos : Handle → Int) (l : List Handle) (e : Int) (h : ∀ g ∈ l, pos g ≤ e) :
    countOf pos l e = l.length := by
  unfold countOf
  rw [List.filter_eq_self.2]
  intro g m; simpa using h g m

/-- With every position at or above 0, the count at 0 is the run at 0. -/
theorem countOf_zero (pos : Handle → Int) (l : List Handle) (h : ∀ g ∈ l, 0 ≤ pos g) :
    countOf pos l 0 = (l.filter (fun g => decide (pos g = 0))).length := by
  unfold countOf
  congr 1
  apply List.filter_congr
  intro g m
  have := h g m
  congr 1
  apply propext
  omega

/-! ### Insertion (R23) -/

theorem linkedInto_mem {pos : Handle → Int} {p : Int} {h : Handle} {old new : List Handle}
    (l : LinkedInto pos p h old new) (g : Handle) : g ∈ new ↔ g = h ∨ g ∈ old := by
  obtain ⟨b, a, rfl, rfl, _, _⟩ := l
  simp only [List.mem_append, List.mem_cons]
  tauto

theorem linkedInto_count {pos : Handle → Int} {p : Int} {h : Handle} {old new : List Handle}
    (l : LinkedInto pos p h old new) (e : Int) :
    countOf pos new e = countOf pos old e + if pos h ≤ e then 1 else 0 := by
  obtain ⟨b, a, rfl, rfl, _, _⟩ := l
  rw [countOf_append, countOf_cons, countOf_append]
  omega

theorem linkedInto_nodup {pos : Handle → Int} {p : Int} {h : Handle} {old new : List Handle}
    (l : LinkedInto pos p h old new) (n : old.Nodup) (m : h ∉ old) : new.Nodup := by
  obtain ⟨b, a, rfl, rfl, _, _⟩ := l
  rw [List.nodup_middle]
  exact List.nodup_cons.2 ⟨m, n⟩

theorem linkedInto_sorted {pos : Handle → Int} {h : Handle} {old new : List Handle}
    (l : LinkedInto pos (pos h) h old new) (s : old.Pairwise (fun x y => pos x ≤ pos y)) :
    new.Pairwise (fun x y => pos x ≤ pos y) := by
  obtain ⟨b, a, rfl, rfl, lo, hi⟩ := l
  have below : ∀ g ∈ b, pos g ≤ pos h := by
    intro g m
    cases hb : b.getLast? with
    | none => rw [List.getLast?_eq_none_iff] at hb; subst hb; cases m
    | some z =>
      have hz := lo z hb
      obtain ⟨c, rfl⟩ := List.getLast?_eq_some_iff.1 hb
      rw [List.pairwise_append] at s
      rcases List.mem_append.1 m with x | x
      · have := (List.pairwise_append.1 s.1).2.2 g x z (by simp)
        omega
      · simp only [List.mem_singleton] at x; subst x; exact hz
  rw [List.pairwise_append] at s ⊢
  refine ⟨s.1, List.pairwise_cons.2 ⟨fun g m => le_of_lt (hi g m), s.2.1⟩, fun x hx y hy => ?_⟩
  rcases List.mem_cons.1 hy with rfl | m
  · exact below x hx
  · exact s.2.2 x hx y m

/-! ### Removal (R24) -/

theorem countOf_erase (pos : Handle → Int) (l : List Handle) (h : Handle) (m : h ∈ l) (e : Int) :
    countOf pos l e = countOf pos (l.erase h) e + if pos h ≤ e then 1 else 0 := by
  induction l with
  | nil => cases m
  | cons x xs ih =>
    by_cases c : x = h
    · subst c; rw [List.erase_cons_head, countOf_cons]; omega
    · have m' : h ∈ xs := (List.mem_cons.1 m).resolve_left (Ne.symm c)
      rw [List.erase_cons_tail (by simpa using c), countOf_cons, countOf_cons, ih m']
      omega

/-- In a sorted list, a record stands before the cursor exactly when it is at or below E. -/
theorem idxOf_lt_count (pos : Handle → Int) (l : List Handle) (h : Handle) (m : h ∈ l)
    (s : l.Pairwise (fun x y => pos x ≤ pos y)) (e : Int) : l.idxOf h < countOf pos l e ↔ pos h ≤ e := by
  induction l with
  | nil => cases m
  | cons x xs ih =>
    rw [List.pairwise_cons] at s
    rw [countOf_cons]
    by_cases c : x = h
    · subst c
      rw [List.idxOf_cons_self]
      by_cases a : pos x ≤ e
      · simp [a]
      · have z : countOf pos xs e = 0 := by
          unfold countOf
          rw [List.length_eq_zero_iff, List.filter_eq_nil_iff]
          intro g gm
          have := s.1 g gm
          simp; omega
        simp [a, z]
    · have m' : h ∈ xs := (List.mem_cons.1 m).resolve_left (Ne.symm c)
      rw [List.idxOf_cons_ne _ c]
      have := ih m' s.2
      by_cases a : pos x ≤ e
      · simp [a]; omega
      · have b : ¬ pos h ≤ e := by have := s.1 h m'; omega
        simp only [a, if_false, Nat.zero_add]
        constructor
        · intro hlt; exact absurd (this.1 (by omega)) b
        · intro hle; exact absurd hle b

/-- The cursor after the unlink event counts the records left at or below E. -/
theorem unlink_count (pos : Handle → Int) (l : List Handle) (h : Handle) (m : h ∈ l)
    (s : l.Pairwise (fun x y => pos x ≤ pos y)) (e : Int) :
    (if l.idxOf h < countOf pos l e then countOf pos l e - 1 else countOf pos l e) = countOf pos (l.erase h) e := by
  have a := idxOf_lt_count pos l h m s e
  have b := countOf_erase pos l h m e
  by_cases c : pos h ≤ e
  · rw [if_pos (a.2 c)]; rw [if_pos c] at b; omega
  · rw [if_neg (fun x => c (a.1 x))]; rw [if_neg c] at b; omega

end Sys2Proof.Machine
end

