-- ==== Sys2Proof/Laws/Reset.lean ====
section
/-! SUPPORT. What reset leaves in each block (R20, R36, R40, R60, R61, R93, R113, R138). -/

namespace Sys2Proof.Machine

@[simp] theorem resetBlocks_recordAt (s : State) (h : Handle) : s.resetBlocks.recordAt h = Record.cleared := by
  simp [State.resetBlocks, State.recordAt, State.reset, Vector.get_eq_getElem]

@[simp] theorem resetBlocks_ax (s : State) (k : AxisId) : s.resetBlocks.ax k = Axis.resetValues (s.ax k) := by
  simp [State.resetBlocks, State.ax, State.reset, Vector.get_eq_getElem]

@[simp] theorem resetBlocks_line (s : State) (l : LineId) : s.resetBlocks.line l = Line.initial := by
  simp [State.resetBlocks, State.line, State.reset, Vector.get_eq_getElem]

@[simp] theorem resetBlocks_freePool (s : State) : s.resetBlocks.freePool = List.finRange 1024 := by
  simp only [State.resetBlocks, State.reset]

@[simp] theorem resetBlocks_engine (s : State) : s.resetBlocks.engine = Engine.initial := rfl

@[simp] theorem resetBlocks_pendingSet (s : State) : s.resetBlocks.pendingSet = [] := rfl

@[simp] theorem resetBlocks_port (s : State) : s.resetBlocks.port = Port.initial := rfl

@[simp] theorem reset_recordAt (h : Handle) : State.reset.recordAt h = Record.cleared := by
  simp [State.recordAt, State.reset, Vector.get_eq_getElem]

@[simp] theorem reset_ax (k : AxisId) : State.reset.ax k = Axis.initial .low .low .low := by
  simp [State.ax, State.reset, Vector.get_eq_getElem]

@[simp] theorem reset_line (l : LineId) : State.reset.line l = Line.initial := by
  simp [State.line, State.reset, Vector.get_eq_getElem]

theorem handles_from_one : (List.finRange 1024).map handleNumber = (List.range 1024).map (fun n => n + 1) := by
  have : handleNumber = (fun n => n + 1) ∘ (Fin.val : Handle → Nat) := rfl
  rw [this, ← List.map_map, List.map_coe_finRange_eq_range]

/-- Any state whose blocks are as reset leaves them holds the reset values. -/
theorem ResetValues.of_blocks {t : State} (records : ∀ h, t.recordAt h = Record.cleared)
    (pool : t.freePool = List.finRange 1024) (axes : ∀ k, ∃ a b i, t.ax k = Axis.initial a b i)
    (lines : ∀ l, t.line l = Line.initial) (engine : t.engine = Engine.initial) (set : t.pendingSet = [])
    (enables : t.pendingEnable = false ∧ t.doneEnable = false) : ResetValues t := by
  constructor
  · intro h; rw [records]; rfl
  · rw [pool]; exact handles_from_one
  · intro k; obtain ⟨a, b, i, e⟩ := axes k; rw [e]; rfl
  · intro k; obtain ⟨a, b, i, e⟩ := axes k; rw [e]; exact ⟨rfl, rfl, rfl, rfl, rfl, rfl⟩
  · intro k; obtain ⟨a, b, i, e⟩ := axes k; rw [e]; exact ⟨rfl, rfl, rfl, rfl, rfl, rfl, rfl, rfl⟩
  · intro k; obtain ⟨a, b, i, e⟩ := axes k; rw [e]; rfl
  · intro k; obtain ⟨a, b, i, e⟩ := axes k; rw [e]; exact ⟨rfl, rfl⟩
  · intro k; obtain ⟨a, b, i, e⟩ := axes k; rw [e]; exact ⟨rfl, rfl⟩
  · intro l; rw [lines]; exact ⟨rfl, rfl, rfl⟩
  · rw [engine]; exact ⟨rfl, rfl, rfl, rfl, rfl⟩
  · refine ⟨by rw [engine]; rfl, fun l => by rw [lines]; rfl, fun k => ?_⟩
    obtain ⟨a, b, i, e⟩ := axes k; rw [e]; rfl
  · exact set
  · exact enables

theorem resetBlocks_values (s : State) : ResetValues s.resetBlocks :=
  .of_blocks (by simp) (by simp) (fun k => ⟨_, _, _, resetBlocks_ax s k⟩) (by simp) rfl rfl ⟨rfl, rfl⟩

theorem reset_values : ResetValues State.reset :=
  .of_blocks (by simp) (by simp only [State.reset]) (fun k => ⟨_, _, _, reset_ax k⟩) (by simp) rfl rfl ⟨rfl, rfl⟩

/-- The values do not depend on the port, nor on the levels outside. -/
theorem ResetValues.withPort {t : State} (r : ResetValues t) (p : Port) : ResetValues { t with port := p } :=
  ⟨r.records, r.pool, r.config, r.counts, r.inputs, r.eval, r.lists, r.flags, r.lines, r.engine, r.own,
    r.pendingSet, r.enables⟩

theorem resetBlocks_world (s : State) : WorldKept s s.resetBlocks := by
  refine ⟨fun k => ?_, fun k => ?_, fun k => ?_, rfl, rfl, rfl⟩ <;> rw [resetBlocks_ax] <;> rfl

theorem WorldKept.withPort {s t : State} (w : WorldKept s t) (p : Port) : WorldKept s { t with port := p } :=
  ⟨w.pinA, w.pinB, w.pinI, w.qualifiers, w.pending, w.draws⟩

end Sys2Proof.Machine
end

