-- ==== Sys2Proof/Laws/Store.lean ====
section
/-! SUPPORT. The Record Store law through each shared operation (R8, R16, R21, R22, R27, R32, R69, R98), what it says of the
operation in progress apart. -/

namespace Sys2Proof.Machine

/-- The Record Store law but for what it says of the operation in progress. -/
structure StoreCore (s : State) : Prop where
  poolOnce : s.freePool.Nodup
  pool : ∀ h : Handle, h ∈ s.freePool ↔ (s.recordAt h).state = .free
  freeCleared : ∀ h : Handle, (s.recordAt h).state = .free → s.recordAt h = Record.cleared
  listOnce : ∀ k : AxisId, (s.ax k).list.Nodup
  list : ∀ (k : AxisId) (h : Handle), h ∈ (s.ax k).list ↔ (s.recordAt h).state = .armed ∧ (s.recordAt h).axis = k
  sorted : ∀ k : AxisId, (s.ax k).list.Pairwise (fun a b => s.posOf a ≤ s.posOf b)
  inAxis : ∀ (k : AxisId) (h : Handle), h ∈ (s.ax k).list → inRange (s.ax k).config (s.posOf h) = true
  cursor : ∀ k : AxisId, (s.ax k).cursor =
    if (s.ax k).eval.state = .seeking then none else some (countOf s.posOf (s.ax k).list (s.ax k).eval.e)
  run : ∀ (k : AxisId) (st : CrossingStep), (s.ax k).eval.step = some st →
    st.run.Nodup ∧ ∀ h ∈ st.run, h ∈ (s.ax k).list
  held : ∀ (k : AxisId) (f : HeldFire), (s.ax k).eval.held = some f →
    f.source ∈ (s.ax k).list ∧ (∀ g ∈ (s.ax k).eval.guard, g.handle ≠ f.source) ∧
    ∀ st : CrossingStep, (s.ax k).eval.step = some st → f.source ∉ st.run
  guardOnce : ∀ k : AxisId, ((s.ax k).eval.guard.map GuardEntry.handle).Nodup
  guard : ∀ (k : AxisId) (g : GuardEntry), g ∈ (s.ax k).eval.guard → g.handle ∈ (s.ax k).list
  outstanding : ∀ h : Handle, (s.recordAt h).outstanding = s.requestsOf h

theorem StoreLaw.core {s : State} (p : StoreLaw s) : StoreCore s :=
  ⟨p.poolOnce, p.pool, p.freeCleared, p.listOnce, p.list, p.sorted, p.inAxis, p.cursor, p.run, p.held, p.guardOnce, p.guard,
    p.outstanding⟩

theorem StoreCore.law {s : State} (p : StoreCore s) (o : OperationFits s) : StoreLaw s :=
  ⟨p.poolOnce, p.pool, p.freeCleared, p.listOnce, p.list, p.sorted, p.inAxis, p.cursor, p.run, p.held, p.guardOnce, p.guard,
    p.outstanding, o⟩

/-! ### What one axis owes the store -/

/-- What the law says of one axis, with the records as `recordAt` gives them. -/
structure ListFine (recordAt : Handle → Record) (k : AxisId) (a : Axis) : Prop where
  listOnce : a.list.Nodup
  list : ∀ h : Handle, h ∈ a.list ↔ (recordAt h).state = .armed ∧ (recordAt h).axis = k
  sorted : a.list.Pairwise (fun x y => (recordAt x).position ≤ (recordAt y).position)
  inAxis : ∀ h ∈ a.list, inRange a.config (recordAt h).position = true
  cursor : a.cursor =
    if a.eval.state = .seeking then none else some (countOf (fun h => (recordAt h).position) a.list a.eval.e)
  run : ∀ st : CrossingStep, a.eval.step = some st → st.run.Nodup ∧ ∀ h ∈ st.run, h ∈ a.list
  held : ∀ f : HeldFire, a.eval.held = some f →
    f.source ∈ a.list ∧ (∀ g ∈ a.eval.guard, g.handle ≠ f.source) ∧
    ∀ st : CrossingStep, a.eval.step = some st → f.source ∉ st.run
  guardOnce : (a.eval.guard.map GuardEntry.handle).Nodup
  guard : ∀ g ∈ a.eval.guard, g.handle ∈ a.list

/-- What the law says of pool and links. -/
structure PoolFine (s : State) : Prop where
  poolOnce : s.freePool.Nodup
  pool : ∀ h : Handle, h ∈ s.freePool ↔ (s.recordAt h).state = .free
  freeCleared : ∀ h : Handle, (s.recordAt h).state = .free → s.recordAt h = Record.cleared
  outstanding : ∀ h : Handle, (s.recordAt h).outstanding = s.requestsOf h

theorem StoreCore.axis {s : State} (p : StoreCore s) (k : AxisId) : ListFine s.recordAt k (s.ax k) :=
  ⟨p.listOnce k, p.list k, p.sorted k, p.inAxis k, p.cursor k, p.run k, p.held k, p.guardOnce k, p.guard k⟩

theorem StoreCore.poolFine {s : State} (p : StoreCore s) : PoolFine s :=
  ⟨p.poolOnce, p.pool, p.freeCleared, p.outstanding⟩

theorem StoreCore.of_parts {s : State} (q : PoolFine s) (h : ∀ k, ListFine s.recordAt k (s.ax k)) : StoreCore s :=
  ⟨q.poolOnce, q.pool, q.freeCleared, fun k => (h k).listOnce, fun k => (h k).list, fun k => (h k).sorted,
    fun k => (h k).inAxis, fun k => (h k).cursor, fun k => (h k).run, fun k => (h k).held, fun k => (h k).guardOnce,
    fun k => (h k).guard, q.outstanding⟩

/-- Pool and links look at records, pool and queue alone. -/
theorem PoolFine.congr {s t : State} (q : PoolFine s) (r : t.records = s.records) (f : t.freePool = s.freePool)
    (e : t.engine.queue = s.engine.queue) : PoolFine t := by
  have ra : ∀ h, t.recordAt h = s.recordAt h := fun h => by simp only [State.recordAt, r]
  refine ⟨f ▸ q.poolOnce, fun h => ?_, fun h => ?_, fun h => ?_⟩
  · rw [f, ra]; exact q.pool h
  · rw [ra]; exact q.freeCleared h
  · rw [ra, q.outstanding]; simp only [State.requestsOf, e]

/-- The law of an axis depends on a record only as far as it is linked there, and where. -/
theorem ListFine.congr {r r' : Handle → Record} {k : AxisId} {a : Axis} (f : ListFine r k a)
    (armed : ∀ h, ((r' h).state = .armed ∧ (r' h).axis = k) ↔ ((r h).state = .armed ∧ (r h).axis = k))
    (place : ∀ h ∈ a.list, (r' h).position = (r h).position) : ListFine r' k a := by
  refine ⟨f.listOnce, fun h => (f.list h).trans (armed h).symm, ?_, ?_, ?_, f.run, f.held, f.guardOnce, f.guard⟩
  · refine f.sorted.imp_of_mem (fun {x y} hx hy h => ?_)
    rw [place x hx, place y hy]; exact h
  · intro h m; rw [place h m]; exact f.inAxis h m
  · rw [f.cursor, countOf_congr place]

/-- The law of an axis depends on its list, cursor, E, state, step, held fire, guard set and ranges alone. -/
theorem ListFine.same {r : Handle → Record} {k : AxisId} {a b : Axis} (f : ListFine r k a) (list : b.list = a.list)
    (cursor : b.cursor = a.cursor) (e : b.eval.e = a.eval.e)
    (state : b.eval.state = .seeking ↔ a.eval.state = .seeking) (step : b.eval.step = a.eval.step)
    (held : b.eval.held = a.eval.held) (guard : b.eval.guard = a.eval.guard) (config : b.config = a.config) :
    ListFine r k b := by
  refine ⟨?_, ?_, ?_, ?_, ?_, ?_, ?_, ?_, ?_⟩
  · rw [list]; exact f.listOnce
  · rw [list]; exact f.list
  · rw [list]; exact f.sorted
  · rw [list, config]; exact f.inAxis
  · rw [cursor, list, e, f.cursor]; simp only [state]
  · rw [step, list]; exact f.run
  · rw [held, list, guard, step]; exact f.held
  · rw [guard]; exact f.guardOnce
  · rw [guard, list]; exact f.guard

/-! ### Changes of one axis -/

theorem StoreCore.setAx {s : State} (p : StoreCore s) (k : AxisId) (a : Axis) (f : ListFine s.recordAt k a) :
    StoreCore (s.setAx k a) := by
  refine .of_parts (p.poolFine.congr rfl rfl rfl) (fun j => ?_)
  rw [State.setAx_ax]
  split
  · next e => subst e; exact f
  · exact p.axis j

theorem StoreCore.updAx {s : State} (p : StoreCore s) (k : AxisId) (f : Axis → Axis)
    (h : ListFine s.recordAt k (s.ax k) → ListFine s.recordAt k (f (s.ax k))) : StoreCore (s.updAx k f) :=
  p.setAx k _ (h (p.axis k))

theorem StoreCore.updEngine {s : State} (p : StoreCore s) (f : Engine → Engine) (q : (f s.engine).queue = s.engine.queue) :
    StoreCore (s.updEngine f) :=
  .of_parts (p.poolFine.congr rfl rfl q) p.axis

theorem StoreCore.congr {s t : State} (p : StoreCore s) (r : t.records = s.records) (f : t.freePool = s.freePool)
    (a : ∀ k, t.ax k = s.ax k) (e : t.engine.queue = s.engine.queue) : StoreCore t := by
  refine .of_parts (p.poolFine.congr r f e) (fun k => ?_)
  have ra : t.recordAt = s.recordAt := funext (fun h => by simp only [State.recordAt, r])
  rw [ra, a]; exact p.axis k

/-- Some guard entries leave (R70, R71). -/
theorem ListFine.filterGuard {r : Handle → Record} {k : AxisId} {a : Axis} (f : ListFine r k a) (p : GuardEntry → Bool) :
    ListFine r k { a with eval := { a.eval with guard := a.eval.guard.filter p } } := by
  refine ⟨f.listOnce, f.list, f.sorted, f.inAxis, f.cursor, f.run, fun x hx => ?_, ?_, ?_⟩
  · obtain ⟨h1, h2, h3⟩ := f.held x hx
    exact ⟨h1, fun g m => h2 g (List.mem_of_mem_filter m), h3⟩
  · exact (List.filter_sublist.map _).nodup f.guardOnce
  · exact fun g m => f.guard g (List.mem_of_mem_filter m)

/-- The step ends (R63, R71). -/
theorem ListFine.noStep {r : Handle → Record} {k : AxisId} {a : Axis} (f : ListFine r k a) :
    ListFine r k { a with eval := { a.eval with step := none } } := by
  refine ⟨f.listOnce, f.list, f.sorted, f.inAxis, f.cursor, fun _ h => (by cases h), fun x hx => ?_, f.guardOnce, f.guard⟩
  obtain ⟨h1, h2, _⟩ := f.held x hx
  exact ⟨h1, h2, fun _ h => (by cases h)⟩

theorem ListFine.endStep {r : Handle → Record} {k : AxisId} {a : Axis} (f : ListFine r k a) : ListFine r k a.endStep := by
  unfold Axis.endStep
  rw [Axis.releaseChecks_eq]
  exact (f.filterGuard (staysGuarded a.config a.eval.e)).noStep

theorem ListFine.stepGoesOn {r : Handle → Record} {k : AxisId} {a : Axis} (f : ListFine r k a) :
    ListFine r k a.stepGoesOn := by
  unfold Axis.stepGoesOn
  split
  · split
    · exact f.endStep
    · exact f
  · exact f

theorem ListFine.settleCheck {r : Handle → Record} {k : AxisId} {a : Axis} (f : ListFine r k a) :
    ListFine r k a.settleCheck := by
  rw [settleCheck_eq]; exact f.same rfl rfl rfl Iff.rfl rfl rfl rfl rfl

theorem ListFine.settleIfTracking {r : Handle → Record} {k : AxisId} {a : Axis} (f : ListFine r k a) :
    ListFine r k a.settleIfTracking := by
  unfold Axis.settleIfTracking
  split
  · exact f.settleCheck
  · exact f

/-- The held fire is no longer held (R72, R75, R76). -/
theorem ListFine.dropHeld {r : Handle → Record} {k : AxisId} {a : Axis} (f : ListFine r k a) : ListFine r k a.dropHeld := by
  have e : a.dropHeld.eval.state = .seeking ↔ a.eval.state = .seeking := by
    show (if a.eval.state = .stalled then EvalState.tracking else a.eval.state) = .seeking ↔ _
    split
    · next h => rw [h]; simp
    · exact Iff.rfl
  refine ⟨f.listOnce, f.list, f.sorted, f.inAxis, ?_, f.run, fun _ h => (by cases h), f.guardOnce, f.guard⟩
  show a.cursor = _
  rw [f.cursor]
  simp only [e]
  rfl

/-- A record of the list enters the guard set that it is not in (R69). -/
theorem ListFine.guardEnter {r : Handle → Record} {k : AxisId} {a : Axis} (f : ListFine r k a) (h : Handle) (p : Int)
    (m : h ∈ a.list) (n : ∀ g ∈ a.eval.guard, g.handle ≠ h) (free : a.eval.held = none) :
    ListFine r k (Axis.guardEnter h p a) := by
  have sub : ((if a.eval.guard.length < 8 then a.eval.guard else a.eval.guard.tail)).Sublist a.eval.guard := by
    split
    · exact List.Sublist.refl _
    · exact List.tail_sublist _
  rw [guardEnter_eq]
  refine ⟨f.listOnce, f.list, f.sorted, f.inAxis, f.cursor, f.run, fun x hx => ?_, ?_, ?_⟩
  · have hx' : a.eval.held = some x := hx
    rw [free] at hx'; cases hx'
  · show ((guardAfter a.eval.guard h p).map GuardEntry.handle).Nodup
    unfold guardAfter
    rw [List.map_append, List.nodup_append]
    refine ⟨(sub.map _).nodup f.guardOnce, by simp, fun x hx y hy => ?_⟩
    obtain ⟨g, gm, rfl⟩ := List.mem_map.1 hx
    simp only [List.map_cons, List.map_nil, List.mem_singleton] at hy
    subst hy
    exact n g (sub.subset gm)
  · intro g gm
    rcases List.mem_append.1 gm with x | x
    · exact f.guard g (sub.subset x)
    · simp only [List.mem_singleton] at x; subst x; exact m

/-! ### Seeks and steps -/

/-- A seek start leaves the list; cursor, step, held fire and guard set go (R34, R76). -/
theorem ListFine.seekTo {r : Handle → Record} {k : AxisId} {a : Axis} (f : ListFine r k a) (target : Int) (turn : Turn) :
    ListFine r k (Axis.seekTo target turn a) := by
  refine ⟨f.listOnce, f.list, f.sorted, f.inAxis, rfl, fun _ h => (by cases h), fun _ h => (by cases h), ?_, ?_⟩
  · exact List.nodup_nil
  · intro g m; cases m

/-- A seek complete sets the cursor afresh (R35, R77). -/
theorem ListFine.seekComplete {r : Handle → Record} {k : AxisId} {a : Axis} (f : ListFine r k a) :
    ListFine r k (Axis.seekComplete (fun h => (r h).position) a) := by
  have g : ∀ st : EvalState, st ≠ .seeking → ListFine r k { a with
      cursor := some (a.list.filter (fun h => decide ((r h).position ≤ a.eval.e))).length
      eval := { a.eval with state := st } } := by
    intro st h
    refine ⟨f.listOnce, f.list, f.sorted, f.inAxis, ?_, f.run, f.held, f.guardOnce, f.guard⟩
    show _ = if st = .seeking then none else _
    rw [if_neg h]; rfl
  unfold Axis.seekComplete
  split
  · dsimp only
    split
    · exact (g .tracking (by decide)).settleCheck
    · exact (g .faultedLag (by decide)).same rfl rfl rfl Iff.rfl rfl rfl rfl rfl
  · exact f

/-- A step start moves the cursor past its run (R27, R28, R29, R30). -/
theorem ListFine.beginStep {r : Handle → Record} {k : AxisId} {a : Axis} (f : ListFine r k a)
    (free : a.eval.held = none) (idle : a.eval.state = .tracking) (d : Dir) :
    ListFine r k (a.beginStep (fun h => (r h).position) d) := by
  have range : a.config.kind = .rotary → ∀ g ∈ a.list, 0 ≤ (r g).position ∧ (r g).position < a.config.span := by
    intro h g m
    have := (inRange_iff _ _).1 (f.inAxis g m)
    rw [h] at this
    simpa using this
  have cursor := f.cursor
  rw [idle] at cursor
  have key : ∀ run : List Handle,
      run = runOrder d (a.list.filter (fun h => decide ((r h).position = crossedPosition a.config d a.eval.e a.eval.evalTurn))) →
      a.cursor.map (stepCursor a.config d a.eval.e a.list.length run.length) =
        some (countOf (fun h => (r h).position) a.list (advance a.config d a.eval.e a.eval.evalTurn).1) := by
    intro run hr
    have len : run.length = (a.list.filter (fun h =>
        decide ((r h).position = crossedPosition a.config d a.eval.e a.eval.evalTurn))).length := by
      rw [hr]; cases d <;> simp [runOrder]
    rw [len, cursor]
    simp only [reduceCtorEq, if_false, Option.map_some, Option.some.injEq]
    have up := countOf_up (fun h => (r h).position) a.list
    have down := up (a.eval.e - 1)
    rw [show a.eval.e - 1 + 1 = a.eval.e by omega] at down
    cases d with
    | up =>
      rw [show crossedPosition a.config .up a.eval.e a.eval.evalTurn = (advance a.config .up a.eval.e a.eval.evalTurn).1 from rfl]
      cases kind : a.config.kind with
      | linear =>
        rw [show (advance a.config .up a.eval.e a.eval.evalTurn).1 = a.eval.e + 1 by simp [advance, kind], up]
        simp only [stepCursor, kind]
      | rotary =>
        by_cases w : a.eval.e = (a.config.span : Int) - 1
        · rw [show (advance a.config .up a.eval.e a.eval.evalTurn).1 = 0 by simp [advance, kind, w],
            countOf_zero _ _ (fun g m => (range kind g m).1)]
          simp only [stepCursor, kind, w, if_true]
        · rw [show (advance a.config .up a.eval.e a.eval.evalTurn).1 = a.eval.e + 1 by simp [advance, kind, w], up]
          simp only [stepCursor, kind, if_neg w]
    | down =>
      rw [show crossedPosition a.config .down a.eval.e a.eval.evalTurn = a.eval.e from rfl]
      cases kind : a.config.kind with
      | linear =>
        rw [show (advance a.config .down a.eval.e a.eval.evalTurn).1 = a.eval.e - 1 by simp [advance, kind]]
        simp only [stepCursor, kind]
        omega
      | rotary =>
        by_cases w : a.eval.e = 0
        · rw [show (advance a.config .down a.eval.e a.eval.evalTurn).1 = (a.config.span : Int) - 1 by simp [advance, kind, w],
            countOf_all _ _ _ (fun g m => Int.le_sub_one_of_lt (range kind g m).2)]
          simp only [stepCursor, kind, w, if_true]
        · rw [show (advance a.config .down a.eval.e a.eval.evalTurn).1 = a.eval.e - 1 by simp [advance, kind, w]]
          simp only [stepCursor, kind, if_neg w]
          omega
  have mem : ∀ h, h ∈ runOrder d (a.list.filter (fun h =>
      decide ((r h).position = crossedPosition a.config d a.eval.e a.eval.evalTurn))) → h ∈ a.list := by
    intro h m
    cases d <;> simp only [runOrder, List.mem_reverse, List.mem_filter] at m <;> exact m.1
  have once : (runOrder d (a.list.filter (fun h =>
      decide ((r h).position = crossedPosition a.config d a.eval.e a.eval.evalTurn)))).Nodup := by
    cases d
    · exact f.listOnce.filter _
    · exact List.nodup_reverse.2 (f.listOnce.filter _)
  unfold Axis.beginStep
  dsimp only
  generalize hr : runOrder d _ = run at *
  have started : ListFine r k { a with
      cursor := a.cursor.map (stepCursor a.config d a.eval.e a.list.length run.length)
      eval := { a.eval with
        e := (advance a.config d a.eval.e a.eval.evalTurn).1
        evalTurn := (advance a.config d a.eval.e a.eval.evalTurn).2
        step := some { dir := d, turn := crossingTurn a.config d a.eval.e a.eval.evalTurn, run := run } } } := by
    refine ⟨f.listOnce, f.list, f.sorted, f.inAxis, ?_, ?_, fun x hx => ?_, f.guardOnce, f.guard⟩
    · show _ = if a.eval.state = .seeking then none else _
      rw [idle, key run rfl]; simp
    · intro st h; cases h; exact ⟨once, mem⟩
    · have hx' : a.eval.held = some x := hx
      rw [free] at hx'; cases hx'
  split
  · exact started.endStep
  · exact started

/-! ### Changes of one record -/

theorem PoolFine.putRecord {s : State} (q : PoolFine s) (h : Handle) (r : Record) (was : (s.recordAt h).state ≠ .free)
    (is : r.state ≠ .free) (out : r.outstanding = (s.recordAt h).outstanding) : PoolFine (s.putRecord h r) := by
  refine ⟨q.poolOnce, fun g => ?_, fun g => ?_, fun g => ?_⟩
  · rw [State.putRecord_recordAt, State.putRecord_freePool, q.pool]
    split
    · next e => subst e; exact ⟨fun x => absurd x was, fun x => absurd x is⟩
    · exact Iff.rfl
  · rw [State.putRecord_recordAt]
    split
    · exact fun x => absurd x is
    · exact q.freeCleared g
  · rw [State.putRecord_recordAt]
    split
    · next e => subst e; rw [out]; exact q.outstanding g
    · exact q.outstanding g

/-- A record that stays in its state, axis and place. -/
theorem StoreCore.putQuiet {s : State} (p : StoreCore s) (h : Handle) (r : Record) (was : (s.recordAt h).state ≠ .free)
    (state : r.state = (s.recordAt h).state) (axis : r.axis = (s.recordAt h).axis)
    (position : r.position = (s.recordAt h).position) (out : r.outstanding = (s.recordAt h).outstanding) :
    StoreCore (s.putRecord h r) := by
  refine .of_parts (p.poolFine.putRecord h r was (state ▸ was) out) (fun k => ?_)
  rw [State.putRecord_ax]
  refine (p.axis k).congr (fun g => ?_) (fun g _ => ?_) <;> rw [State.putRecord_recordAt] <;> split
  · next e => subst e; rw [state, axis]
  · exact Iff.rfl
  · next e => subst e; exact position
  · rfl

/-- A record that is in no list before or after. -/
theorem StoreCore.putUnlisted {s : State} (p : StoreCore s) (h : Handle) (r : Record) (was : (s.recordAt h).state ≠ .free)
    (was' : (s.recordAt h).state ≠ .armed) (is : r.state ≠ .free) (is' : r.state ≠ .armed)
    (out : r.outstanding = (s.recordAt h).outstanding) : StoreCore (s.putRecord h r) := by
  refine .of_parts (p.poolFine.putRecord h r was is out) (fun k => ?_)
  rw [State.putRecord_ax]
  refine (p.axis k).congr (fun g => ?_) (fun g m => ?_) <;> rw [State.putRecord_recordAt] <;> split
  · next e => subst e; exact ⟨fun x => absurd x.1 is', fun x => absurd x.1 was'⟩
  · exact Iff.rfl
  · next e => subst e; exact absurd ((p.list k g).1 m).1 was'
  · rfl

/-! ### Release and allocation (R9, R17, R18) -/

theorem StoreCore.freeRecord {s : State} (p : StoreCore s) (h : Handle) (was : (s.recordAt h).state ≠ .free)
    (was' : (s.recordAt h).state ≠ .armed) (out : (s.recordAt h).outstanding = 0) : StoreCore (s.freeRecord h) := by
  have ne : h ∉ s.freePool := fun m => was ((p.pool h).1 m)
  refine .of_parts ⟨?_, fun g => ?_, fun g => ?_, fun g => ?_⟩ (fun k => ?_)
  · rw [freeRecord_freePool, List.nodup_append]
    refine ⟨p.poolOnce, by simp, fun x hx y hy => ?_⟩
    simp only [List.mem_singleton] at hy
    subst hy; rintro rfl; exact ne hx
  · rw [freeRecord_freePool, freeRecord_recordAt, List.mem_append, List.mem_singleton, p.pool]
    split
    · next e => subst e; exact ⟨fun _ => rfl, fun _ => .inr rfl⟩
    · next e => exact ⟨fun x => x.resolve_right e, .inl⟩
  · rw [freeRecord_recordAt]
    split
    · exact fun _ => rfl
    · exact p.freeCleared g
  · rw [freeRecord_recordAt]
    split
    · next e => subst e; show 0 = s.requestsOf g; rw [← p.outstanding, out]
    · exact p.outstanding g
  · rw [freeRecord_ax]
    refine (p.axis k).congr (fun g => ?_) (fun g m => ?_) <;> rw [freeRecord_recordAt] <;> split
    · next e => subst e; exact ⟨fun x => absurd x.1 (by decide), fun x => absurd x.1 was'⟩
    · exact Iff.rfl
    · next e => subst e; exact absurd ((p.list k g).1 m).1 was'
    · rfl

theorem StoreCore.autoRelease {s : State} (p : StoreCore s) (h : Handle) : StoreCore (s.autoRelease h) := by
  rcases autoRelease_cases s h with ⟨a, e⟩ | ⟨_, e⟩ <;> rw [e]
  · rw [autoReleases_iff] at a
    exact p.freeRecord h (by rw [a.1]; simp) (by rw [a.1]; simp) a.2.2.2
  · exact p

theorem StoreCore.allocate {s : State} (p : StoreCore s) (h : Handle) (rest : List Handle) (e : s.freePool = h :: rest)
    (r : Record) (is : r.state ≠ .free) (is' : r.state ≠ .armed) (out : r.outstanding = 0) :
    StoreCore ({ s with freePool := rest }.putRecord h r) := by
  have free : (s.recordAt h).state = .free := (p.pool h).1 (by rw [e]; simp)
  have once := p.poolOnce
  rw [e, List.nodup_cons] at once
  have recs : ∀ g, ({ s with freePool := rest }.putRecord h r).recordAt g = if g = h then r else s.recordAt g :=
    fun g => State.putRecord_recordAt ..
  refine .of_parts ⟨once.2, fun g => ?_, fun g => ?_, fun g => ?_⟩ (fun k => ?_)
  · rw [recs]
    show g ∈ rest ↔ _
    split
    · next x => subst x; exact ⟨fun m => absurd m once.1, fun m => absurd m is⟩
    · next x =>
      rw [← p.pool, e, List.mem_cons]
      exact ⟨.inr, fun m => m.resolve_left x⟩
  · rw [recs]
    split
    · exact fun m => absurd m is
    · exact p.freeCleared g
  · rw [recs]
    show _ = s.requestsOf g
    split
    · next x => subst x; rw [out, ← p.outstanding, p.freeCleared g free]; rfl
    · exact p.outstanding g
  · show ListFine _ k (s.ax k)
    refine (p.axis k).congr (fun g => ?_) (fun g m => ?_) <;> rw [recs] <;> split
    · next x => subst x; exact ⟨fun y => absurd y.1 is', fun y => by rw [free] at y; cases y.1⟩
    · exact Iff.rfl
    · next x => subst x; have := ((p.list k g).1 m).1; rw [free] at this; cases this
    · rfl

/-! ### Links (R23, R24) -/

/-- The link event of a record that is in no list, on an axis that is not SEEKING and that it fits. -/
theorem StoreCore.linkRecord {s : State} (p : StoreCore s) (k : AxisId) (h : Handle) (was : (s.recordAt h).state ≠ .free)
    (was' : (s.recordAt h).state ≠ .armed) (axis : (s.recordAt h).axis = k)
    (fits : inRange (s.ax k).config (s.recordAt h).position = true) (still : (s.ax k).eval.state ≠ .seeking) :
    StoreCore (s.linkRecord k h) := by
  have out : ∀ j, h ∉ (s.ax j).list := fun j m => was' ((p.list j h).1 m).1
  have recs : ∀ g, (s.linkRecord k h).recordAt g =
      if g = h then { s.recordAt h with state := .armed } else s.recordAt g := by
    intro g
    split
    · next e => subst e; exact linkRecord_recordAt s k g
    · next e => exact (linkRecord_only s k h).records g e
  have pos : ∀ g, ((s.linkRecord k h).recordAt g).position = s.posOf g := by
    intro g; rw [recs]; split
    · next e => subst e; rfl
    · rfl
  have q : PoolFine (s.linkRecord k h) := by
    have := (p.poolFine.congr (t := s.updAx k (Axis.linkIn s.posOf (s.recordAt h).position h)) rfl rfl rfl).putRecord h
      { s.recordAt h with state := .armed } was (by simp) rfl
    exact this
  refine .of_parts q (fun j => ?_)
  by_cases e : j = k
  · subst e
    have f := p.axis j
    have l := insertAfter_links s.posOf (s.posOf h) h (s.ax j).list
    have members := linkedInto_mem l
    rw [linkRecord_ax]
    refine ⟨linkedInto_nodup l f.listOnce (out j), fun g => ?_, ?_, fun g m => ?_, ?_, fun st hs => ?_, fun x hx => ?_,
      f.guardOnce, fun g m => ?_⟩
    · rw [recs]
      refine (members g).trans ?_
      split
      · next y => subst y; exact ⟨fun _ => ⟨rfl, axis⟩, fun _ => .inl rfl⟩
      · next y => rw [f.list]; exact ⟨fun z => z.resolve_left y, .inr⟩
    · simp only [pos]; exact linkedInto_sorted l f.sorted
    · rw [pos]
      rcases (members g).1 m with rfl | m
      · exact fits
      · exact f.inAxis g m
    · simp only [pos]
      show (s.ax j).cursor.map _ = if (s.ax j).eval.state = .seeking then none else _
      rw [if_neg still, f.cursor, if_neg still, Option.map_some]
      refine congrArg some ?_
      refine Eq.trans ?_ (linkedInto_count l (s.ax j).eval.e).symm
      show (if s.posOf h ≤ (s.ax j).eval.e then countOf s.posOf (s.ax j).list (s.ax j).eval.e + 1
        else countOf s.posOf (s.ax j).list (s.ax j).eval.e) = _
      split <;> rfl
    · obtain ⟨a, b⟩ := f.run st hs
      exact ⟨a, fun g m => (members g).2 (.inr (b g m))⟩
    · obtain ⟨a, b, c⟩ := f.held x hx
      exact ⟨(members _).2 (.inr a), b, c⟩
    · exact (members _).2 (.inr (f.guard g m))
  · rw [linkRecord_ax_other _ _ _ _ e]
    refine (p.axis j).congr (fun g => ?_) (fun g _ => pos g)
    rw [recs]
    split
    · next y => subst y; exact ⟨fun z => absurd (z.2.symm.trans axis) e, fun z => absurd z.1 was'⟩
    · exact Iff.rfl

/-- The unlink event of a record that stands in the list, is not part of a step and is not held (R24, R70). -/
theorem StoreCore.unlinkRecord {s : State} (p : StoreCore s) (k : AxisId) (h : Handle) (r : Record)
    (m : h ∈ (s.ax k).list) (is : r.state ≠ .free) (is' : r.state ≠ .armed)
    (out : r.outstanding = (s.recordAt h).outstanding) (still : (s.ax k).eval.state ≠ .seeking)
    (run : ∀ st, (s.ax k).eval.step = some st → h ∉ st.run) (held : ∀ f, (s.ax k).eval.held = some f → f.source ≠ h) :
    StoreCore (s.unlinkRecord k h r) := by
  have armed := (p.list k h).1 m
  have recs : ∀ g, (s.unlinkRecord k h r).recordAt g = if g = h then r else s.recordAt g := by
    intro g
    split
    · next e => subst e; exact unlinkRecord_recordAt s k g r
    · next e => exact (unlinkRecord_only s k h r).records g e
  have q : PoolFine (s.unlinkRecord k h r) := by
    have := (p.poolFine.congr (t := (s.updAx k (Axis.unlinkOut h)).updEngine
      (fun g => { g with occupant := g.occupant.unlinked k ((s.ax k).list.idxOf h) })) rfl rfl rfl).putRecord h r
      (by show (s.recordAt h).state ≠ _; rw [armed.1]; simp) is out
    exact this
  refine .of_parts q (fun j => ?_)
  by_cases e : j = k
  · subst e
    have f := p.axis j
    have mem : ∀ g, g ∈ (s.ax j).list.erase h ↔ g ≠ h ∧ g ∈ (s.ax j).list := fun g => f.listOnce.mem_erase_iff
    have pos : ∀ g ∈ (s.ax j).list.erase h, ((s.unlinkRecord j h r).recordAt g).position = s.posOf g := by
      intro g gm
      rw [recs, if_neg ((mem g).1 gm).1]; rfl
    rw [unlinkRecord_ax]
    refine ⟨f.listOnce.erase h, fun g => ?_, ?_, fun g gm => ?_, ?_, fun st hs => ?_, fun x hx => ?_, ?_, fun g gm => ?_⟩
    · rw [recs]
      refine (mem g).trans ?_
      split
      · next y => subst y; exact ⟨fun z => absurd rfl z.1, fun z => absurd z.1 is'⟩
      · next y => rw [f.list]; exact ⟨And.right, fun z => ⟨y, z⟩⟩
    · refine (f.sorted.sublist List.erase_sublist).imp_of_mem (fun {x y} hx hy l => ?_)
      rw [pos x hx, pos y hy]; exact l
    · rw [pos g gm]; exact f.inAxis g ((mem g).1 gm).2
    · show (s.ax j).cursor.map _ = if (s.ax j).eval.state = .seeking then none else _
      rw [if_neg still, f.cursor, if_neg still, Option.map_some]
      refine congrArg some ?_
      rw [countOf_congr pos]
      exact unlink_count s.posOf (s.ax j).list h m f.sorted (s.ax j).eval.e
    · obtain ⟨a, b⟩ := f.run st hs
      exact ⟨a, fun g gm => (mem g).2 ⟨fun y => run st hs (y ▸ gm), b g gm⟩⟩
    · obtain ⟨a, b, c⟩ := f.held x hx
      exact ⟨(mem _).2 ⟨held x hx, a⟩, fun g gm => b g (List.mem_of_mem_filter gm), c⟩
    · exact (List.filter_sublist.map _).nodup f.guardOnce
    · obtain ⟨gm, gn⟩ := List.mem_filter.1 gm
      exact (mem _).2 ⟨by simpa using gn, f.guard g gm⟩
  · rw [unlinkRecord_ax_other _ _ _ _ _ e]
    refine (p.axis j).congr (fun g => ?_) (fun g gm => ?_) <;> rw [recs] <;> split
    · next y => subst y; exact ⟨fun z => absurd z.1 is', fun z => absurd (z.2.symm.trans armed.2) e⟩
    · exact Iff.rfl
    · next y => subst y; exact absurd (((p.list j g).1 gm).2.symm.trans armed.2) e
    · rfl

/-! ### The link queue (R67, R98, R111, R112) -/

theorem requestsOf_append (s : State) (source target h : Handle) :
    ((s.engine.queue ++ [({ source := source, target := target } : LinkRequest)]).filter
      (fun r : LinkRequest => decide (r.source = h))).length = s.requestsOf h + if h = source then 1 else 0 := by
  rw [List.filter_append, List.length_append, State.requestsOf]
  by_cases e : source = h
  · subst e; simp
  · simp [e, Ne.symm e]

/-- A request joins the queue (R67). -/
theorem StoreCore.placeLink {s : State} (p : StoreCore s) (source target : Handle)
    (was : (s.recordAt source).state ≠ .free) : StoreCore (s.placeLink source target) := by
  have recs : ∀ g, (s.placeLink source target).recordAt g =
      if g = source then { s.recordAt source with outstanding := (s.recordAt source).outstanding + 1 } else s.recordAt g :=
    fun g => State.putRecord_recordAt ..
  refine .of_parts ⟨p.poolOnce, fun g => ?_, fun g => ?_, fun g => ?_⟩ (fun k => ?_)
  · rw [recs]
    show g ∈ s.freePool ↔ _
    split
    · next e => subst e; exact p.pool g
    · exact p.pool g
  · rw [recs]
    split
    · exact fun x => absurd x was
    · exact p.freeCleared g
  · rw [recs]
    have q : (s.placeLink source target).requestsOf g = s.requestsOf g + if g = source then 1 else 0 := by
      rw [← requestsOf_append s source target g]
      show ((Engine.arrived _).queue.filter _).length = _
      rw [arrived_queue]
    rw [q]
    split
    · next e => subst e; show (s.recordAt g).outstanding + 1 = _; rw [p.outstanding]
    · exact p.outstanding g
  · show ListFine _ k (s.ax k)
    refine (p.axis k).congr (fun g => ?_) (fun g _ => ?_) <;> rw [recs] <;> split
    · next e => subst e; exact Iff.rfl
    · exact Iff.rfl
    · next e => subst e; rfl
    · rfl

/-- The engine has finished with the request at the head of the queue (R111, R112). -/
theorem StoreCore.finishLink {s : State} (p : StoreCore s) (request : LinkRequest) (rest : List LinkRequest)
    (e : s.engine.queue = request :: rest) (fault : Bool) : StoreCore (s.finishLink request.source fault) := by
  have count : ∀ g, s.requestsOf g =
      (rest.filter (fun r => decide (r.source = g))).length + if g = request.source then 1 else 0 := by
    intro g
    rw [State.requestsOf, e, List.filter_cons]
    by_cases x : request.source = g
    · subst x; simp
    · simp [x, Ne.symm x]
  have some' : (s.recordAt request.source).outstanding ≠ 0 := by
    rw [p.outstanding, count]; simp
  have was : (s.recordAt request.source).state ≠ .free := by
    intro x
    rw [p.freeCleared _ x] at some'
    exact some' rfl
  unfold State.finishLink
  dsimp only
  apply StoreCore.autoRelease
  generalize ((s.recordAt request.source).linkFault || fault) = lf
  have recs : ∀ g, ((s.putRecord request.source { s.recordAt request.source with
      linkFault := lf, outstanding := (s.recordAt request.source).outstanding - 1 }).updEngine
        (fun g => Engine.freed { g with queue := g.queue.tail })).recordAt g =
      if g = request.source then { s.recordAt request.source with
        linkFault := lf, outstanding := (s.recordAt request.source).outstanding - 1 } else s.recordAt g :=
    fun g => State.putRecord_recordAt ..
  refine .of_parts ⟨p.poolOnce, fun g => ?_, fun g => ?_, fun g => ?_⟩ (fun k => ?_)
  · rw [recs]
    show g ∈ s.freePool ↔ _
    split
    · next x => subst x; exact p.pool _
    · exact p.pool g
  · rw [recs]
    split
    · exact fun x => absurd x was
    · exact p.freeCleared g
  · rw [recs]
    show _ = (s.engine.queue.tail.filter (fun r => decide (r.source = g))).length
    rw [e, List.tail_cons]
    have c := count g
    split
    · next x =>
      subst x
      show (s.recordAt request.source).outstanding - 1 = _
      rw [p.outstanding, c]; simp
    · next x => rw [p.outstanding, c, if_neg x, Nat.add_zero]
  · show ListFine _ k (s.ax k)
    refine (p.axis k).congr (fun g => ?_) (fun g _ => ?_) <;> rw [recs] <;> split
    · next x => subst x; exact Iff.rfl
    · exact Iff.rfl
    · next x => subst x; rfl
    · rfl

/-! ### Reset -/

theorem ListFine.initial (k : AxisId) (a b i : Level) : ListFine (fun _ => Record.cleared) k (Axis.initial a b i) := by
  refine ⟨List.nodup_nil, fun h => ?_, List.Pairwise.nil, fun h m => ?_, rfl, fun _ h => ?_, fun _ h => ?_, List.nodup_nil,
    fun g m => ?_⟩
  · exact ⟨fun m => (by cases m), fun m => (by cases m.1)⟩
  · cases m
  · cases h
  · cases h
  · cases m

theorem StoreCore.resetBlocks (s : State) : StoreCore s.resetBlocks := by
  refine .of_parts ⟨?_, fun h => ?_, fun h _ => ?_, fun h => ?_⟩ (fun k => ?_)
  · rw [resetBlocks_freePool]; exact List.nodup_finRange _
  · rw [resetBlocks_freePool, resetBlocks_recordAt]
    exact ⟨fun _ => rfl, fun _ => List.mem_finRange h⟩
  · exact resetBlocks_recordAt s h
  · rw [resetBlocks_recordAt, State.requestsOf, resetBlocks_engine]; rfl
  · rw [resetBlocks_ax]
    have : s.resetBlocks.recordAt = fun _ => Record.cleared := funext (resetBlocks_recordAt s)
    rw [this]
    exact .initial k _ _ _

end Sys2Proof.Machine
end

