-- ==== Sys2Proof/Laws/Fits.lean ====
section
/-! SUPPORT. What the operation in progress relies on (`OperationFits`), and the whole Record Store law, through changes of one
axis, links and fires (R33, R42, R68, R72). -/

namespace Sys2Proof.Machine

/-! ### What the operation in progress relies on -/

/-- A change that leaves alone what an operation in progress has checked: the head of the queue, records that are STAGED or
MOVING, and positions that fit an axis; and no record becomes ARMED. -/
structure Compat (s t : State) : Prop where
  head : ∀ r, s.engine.queue.head? = some r → t.engine.queue.head? = some r
  still : ∀ h, (s.recordAt h).state = .staged ∨ (s.recordAt h).state = .moving →
    (t.recordAt h).state = (s.recordAt h).state ∧ (t.recordAt h).axis = (s.recordAt h).axis ∧
      (t.recordAt h).position = (s.recordAt h).position
  armed : ∀ h, (t.recordAt h).state = .armed →
    (s.recordAt h).state = .armed ∧ (t.recordAt h).axis = (s.recordAt h).axis
  range : ∀ k p, inRange (s.ax k).config p = true → inRange (t.ax k).config p = true

theorem Compat.refl (s : State) : Compat s s :=
  ⟨fun _ h => h, fun _ _ => ⟨rfl, rfl, rfl⟩, fun _ h => ⟨h, rfl⟩, fun _ _ h => h⟩

theorem Compat.trans {s t u : State} (a : Compat s t) (b : Compat t u) : Compat s u := by
  refine ⟨fun r h => b.head r (a.head r h), fun h x => ?_, fun h x => ?_, fun k p h => b.range k p (a.range k p h)⟩
  · obtain ⟨a1, a2, a3⟩ := a.still h x
    obtain ⟨b1, b2, b3⟩ := b.still h (by rw [a1]; exact x)
    exact ⟨b1.trans a1, b2.trans a2, b3.trans a3⟩
  · obtain ⟨b1, b2⟩ := b.armed h x
    obtain ⟨a1, a2⟩ := a.armed h b1
    exact ⟨a1, b2.trans a2⟩

/-- A walk that keeps its place. -/
theorem movePlace_id (o : Occupant) (k : AxisId) : o.movePlace k id id = o := by
  unfold Occupant.movePlace
  cases o with
  | mailbox operation => cases operation <;> dsimp only [id] <;> (try split) <;> rfl
  | link r j place => dsimp only [id]; split <;> rfl
  | _ => rfl

/-- An unlink and a seek move the place of a walk of their list, and nothing else. -/
theorem unlinked_moves (o : Occupant) (k : AxisId) (index : Nat) : ∃ j f g, o.unlinked k index = o.movePlace j f g :=
  ⟨k, _, _, rfl⟩

theorem soughtList_moves (o : Occupant) (k : AxisId) : ∃ j f g, o.soughtList k = o.movePlace j f g := ⟨k, _, _, rfl⟩

/-- Such a change keeps the operation in progress fitting, also when the place of its walk moves (R26, R109). -/
theorem OperationFits.keep {s t : State} (o : OperationFits s) (c : Compat s t)
    (occ : t.engine.occupant = s.engine.occupant ∨ ∃ k f g, t.engine.occupant = s.engine.occupant.movePlace k f g) :
    OperationFits t := by
  have linking : ∀ (h : Handle) (k : AxisId) (st : RecordState), st = .staged ∨ st = .moving →
      ((s.recordAt h).state = st ∧ (s.recordAt h).axis = k ∧ inRange (s.ax k).config (s.recordAt h).position = true) →
      (t.recordAt h).state = st ∧ (t.recordAt h).axis = k ∧ inRange (t.ax k).config (t.recordAt h).position = true := by
    intro h k st is ⟨o1, o2, o3⟩
    obtain ⟨a1, a2, a3⟩ := c.still h (by rw [o1]; exact is)
    exact ⟨a1.trans o1, a2.trans o2, by rw [a3]; exact c.range _ _ o3⟩
  have unlinking : ∀ (h : Handle) (k : AxisId), ((s.recordAt h).state = .armed → (s.recordAt h).axis = k) →
      (t.recordAt h).state = .armed → (t.recordAt h).axis = k := by
    intro h k o x
    obtain ⟨a1, a2⟩ := c.armed h x
    exact a2.trans (o a1)
  obtain ⟨k, f, g, e⟩ : ∃ k f g, t.engine.occupant = s.engine.occupant.movePlace k f g := by
    rcases occ with e | e
    · exact ⟨0, id, id, by rw [movePlace_id, e]⟩
    · exact e
  unfold OperationFits at *
  rw [e]
  cases q : s.engine.occupant with
  | none => trivial
  | linkChecks r => trivial
  | link r j place =>
    rw [q] at o
    have := And.intro (c.head _ o.1) (linking _ j _ (.inl rfl) o.2)
    unfold Occupant.movePlace; dsimp only; by_cases y : j = k <;> simp only [y, if_true, if_false] <;> simpa [y] using this
  | mailbox op =>
    rw [q] at o
    cases op with
    | checking command => trivial
    | arm h j place =>
      have := linking h j _ (.inl rfl) o
      unfold Occupant.movePlace; dsimp only; by_cases y : j = k <;> simp only [y, if_true, if_false] <;> simpa [y] using this
    | moveRelink h j place =>
      have := linking h j _ (.inr rfl) o
      unfold Occupant.movePlace; dsimp only; by_cases y : j = k <;> simp only [y, if_true, if_false] <;> simpa [y] using this
    | disarm h j => exact unlinking h j o
    | moveUnlink h j p =>
      intro x
      obtain ⟨a1, a2⟩ := c.armed h x
      exact ⟨a2.trans (o a1).1, c.range _ _ (o a1).2⟩
    | retire j bank place count sent =>
      cases sent with
      | none => unfold Occupant.movePlace; dsimp only; by_cases y : j = k <;> simp only [y, if_true, if_false]
      | some h =>
        have := unlinking h j o
        unfold Occupant.movePlace; dsimp only; by_cases y : j = k <;> simp only [y, if_true, if_false] <;> simpa [y] using this

theorem Compat.same {s t : State} (r : t.records = s.records) (q : t.engine.queue = s.engine.queue)
    (a : ∀ k, (t.ax k).config.kind = (s.ax k).config.kind ∧ (t.ax k).config.span = (s.ax k).config.span) :
    Compat s t := by
  have ra : ∀ h, t.recordAt h = s.recordAt h := fun h => by simp only [State.recordAt, r]
  refine ⟨fun r h => by rw [q]; exact h, fun h _ => by rw [ra]; exact ⟨rfl, rfl, rfl⟩,
    fun h x => by rw [ra] at *; exact ⟨x, rfl⟩, fun k p h => ?_⟩
  rw [inRange_iff] at *; rw [(a k).1, (a k).2]; exact h

theorem Compat.putQuiet {s : State} (h : Handle) (r : Record) (st : r.state = (s.recordAt h).state)
    (ax : r.axis = (s.recordAt h).axis) (po : r.position = (s.recordAt h).position) : Compat s (s.putRecord h r) := by
  refine ⟨fun _ x => x, fun g x => ?_, fun g x => ?_, fun _ _ x => x⟩
  · rw [State.putRecord_recordAt]; split
    · next e => subst e; exact ⟨st, ax, po⟩
    · exact ⟨rfl, rfl, rfl⟩
  · rw [State.putRecord_recordAt] at *; split at x
    · next e => subst e; rw [if_pos rfl]; exact ⟨st ▸ x, ax⟩
    · next e => rw [if_neg e]; exact ⟨x, rfl⟩

theorem Compat.free {s : State} (h : Handle) (was : (s.recordAt h).state ≠ .staged ∧ (s.recordAt h).state ≠ .moving) :
    Compat s (s.freeRecord h) := by
  refine ⟨fun _ x => x, fun g x => ?_, fun g x => ?_, fun _ _ x => x⟩
  · rw [freeRecord_recordAt]; split
    · next e => subst e; rcases x with x | x; exact absurd x was.1; exact absurd x was.2
    · exact ⟨rfl, rfl, rfl⟩
  · rw [freeRecord_recordAt] at *; split at x
    · cases x
    · next e => rw [if_neg e]; exact ⟨x, rfl⟩

theorem Compat.auto {s : State} (h : Handle) : Compat s (s.autoRelease h) := by
  rcases autoRelease_cases s h with ⟨a, e⟩ | ⟨_, e⟩ <;> rw [e]
  · rw [autoReleases_iff] at a; exact .free h (by rw [a.1]; simp)
  · exact .refl s

theorem autoRelease_engine (s : State) (h : Handle) : (s.autoRelease h).engine = s.engine := (autoRelease_rest s h).2.2.1

theorem Compat.unlinkSpent {s : State} (k : AxisId) (h : Handle) (r : Record) (was : (s.recordAt h).state = .armed)
    (is : r.state = .spent) : Compat s (s.unlinkRecord k h r) := by
  have recs : ∀ g, (s.unlinkRecord k h r).recordAt g = if g = h then r else s.recordAt g := by
    intro g
    split
    · next e => subst e; exact unlinkRecord_recordAt s k g r
    · next e => exact (unlinkRecord_only s k h r).records g e
  refine ⟨fun _ x => x, fun g x => ?_, fun g x => ?_, fun j p x => ?_⟩
  · rw [recs]; split
    · next e => subst e; rw [was] at x; rcases x with x | x <;> cases x
    · exact ⟨rfl, rfl, rfl⟩
  · rw [recs] at *; split at x
    · rw [is] at x; cases x
    · next e => rw [if_neg e]; exact ⟨x, rfl⟩
  · by_cases e : j = k
    · subst e; rw [unlinkRecord_ax]; exact x
    · rw [unlinkRecord_ax_other _ _ _ _ _ e]; exact x

/-! ### The whole law through plain changes -/

/-- A change of one axis that keeps its configuration. -/
theorem StoreLaw.updAx {s : State} (p : StoreLaw s) (k : AxisId) (f : Axis → Axis)
    (c : (f (s.ax k)).config = (s.ax k).config)
    (h : ListFine s.recordAt k (s.ax k) → ListFine s.recordAt k (f (s.ax k))) : StoreLaw (s.updAx k f) := by
  refine (p.core.updAx k f h).law (p.operation.keep (.same rfl rfl (fun j => ?_)) (.inl rfl))
  rw [State.updAx_ax]; split
  · next e => subst e; rw [c]; exact ⟨rfl, rfl⟩
  · exact ⟨rfl, rfl⟩

/-- A change of one axis that keeps its kind and span. -/
theorem StoreLaw.setAx {s : State} (p : StoreLaw s) (k : AxisId) (a : Axis)
    (c : a.config.kind = (s.ax k).config.kind ∧ a.config.span = (s.ax k).config.span)
    (h : ListFine s.recordAt k a) : StoreLaw (s.setAx k a) := by
  refine (p.core.setAx k a h).law (p.operation.keep (.same rfl rfl (fun j => ?_)) (.inl rfl))
  rw [State.setAx_ax]; split
  · next e => subst e; exact c
  · exact ⟨rfl, rfl⟩

theorem StoreLaw.updEngine {s : State} (p : StoreLaw s) (f : Engine → Engine) (q : (f s.engine).queue = s.engine.queue)
    (o : (f s.engine).occupant = s.engine.occupant ∨
      ∃ k f' g', (f s.engine).occupant = s.engine.occupant.movePlace k f' g') : StoreLaw (s.updEngine f) :=
  (p.core.updEngine f q).law (p.operation.keep (.same rfl q (fun _ => ⟨rfl, rfl⟩)) o)

theorem StoreLaw.congr {s t : State} (p : StoreLaw s) (r : t.records = s.records) (f : t.freePool = s.freePool)
    (a : ∀ k, t.ax k = s.ax k) (e : t.engine.queue = s.engine.queue) (o : t.engine.occupant = s.engine.occupant) :
    StoreLaw t :=
  (p.core.congr r f a e).law (p.operation.keep (.same r e (fun k => by rw [a]; exact ⟨rfl, rfl⟩)) (.inl o))

theorem StoreLaw.seek {s : State} (p : StoreLaw s) (k : AxisId) (target : Int) (turn : Turn) :
    StoreLaw (s.seekStart k target turn) :=
  (p.updAx k (Axis.seekTo target turn) rfl (fun f => f.seekTo target turn)).updEngine _ rfl (.inr (soughtList_moves ..))

/-- The end of a mailbox operation leaves no operation to fit. -/
theorem StoreCore.finished {s : State} (q : StoreCore s) (code : ResultCode) (data : Nat) :
    StoreLaw (s.finishMailbox code data) :=
  StoreCore.law (s := s.finishMailbox code data) (q.congr rfl rfl (fun _ => rfl) rfl) (trivial : True)

theorem StoreCore.occupied {s : State} (q : StoreCore s) (op : Operation) (o : OperationFits (s.occupy op)) :
    StoreLaw (s.occupy op) :=
  StoreCore.law (s := s.occupy op) (q.congr rfl rfl (fun _ => rfl) rfl) o

/-! ### The front end's changes -/

theorem ListFine.sameAll {r : Handle → Record} {k : AxisId} {a b : Axis} (f : ListFine r k a) (l : b.list = a.list)
    (c : b.cursor = a.cursor) (e : b.eval = a.eval) (cf : b.config = a.config) : ListFine r k b :=
  f.same l c (by rw [e]) (by rw [e]) (by rw [e]) (by rw [e]) (by rw [e]) cf

theorem ListFine.lagCheck {r : Handle → Record} {k : AxisId} {a : Axis} (f : ListFine r k a) : ListFine r k a.lagCheck := by
  unfold Axis.lagCheck
  split
  · exact f
  · split
    · unfold Axis.lagFaultTracking
      have faulted : ∀ b : Axis, ListFine r k b → b.eval.state ≠ .seeking →
          ListFine r k (Axis.setFlag { b with eval := { b.eval with state := .faultedLag } } .lag) := by
        intro b g n
        refine g.same rfl rfl rfl ?_ rfl rfl rfl rfl
        exact ⟨fun x => (by cases x), fun x => absurd x n⟩
      apply faulted
      · split
        · exact f.endStep
        · exact f
      · next h => split <;> (intro x; have x' : a.eval.state = .seeking := x; rw [h] at x'; cases x')
    · next h =>
      have emptied : ∀ flags, ListFine r k { a with
          flags := flags
          eval := { a.eval with
            state := .faultedLag, step := a.eval.step.map (fun st => { st with run := [] }) } } := by
        intro flags
        refine ⟨f.listOnce, f.list, f.sorted, f.inAxis, ?_, ?_, ?_, f.guardOnce, f.guard⟩
        · show a.cursor = _; rw [f.cursor, h]; rfl
        · intro st e
          have e' : a.eval.step.map (fun st : CrossingStep => { st with run := [] }) = some st := e
          obtain ⟨st', _, rfl⟩ := Option.map_eq_some_iff.1 e'
          exact ⟨List.nodup_nil, fun _ m => by cases m⟩
        · intro x hx
          obtain ⟨h1, h2, h3⟩ := f.held x hx
          refine ⟨h1, h2, fun st e => ?_⟩
          have e' : a.eval.step.map (fun st : CrossingStep => { st with run := [] }) = some st := e
          obtain ⟨st', _, rfl⟩ := Option.map_eq_some_iff.1 e'
          simp
      exact emptied _
    · exact f
    · exact f

theorem ListFine.count {r : Handle → Record} {k : AxisId} {a : Axis} (f : ListFine r k a) (d : Dir) :
    ListFine r k (a.count d) := by
  unfold Axis.count
  split
  · exact f.sameAll rfl rfl rfl rfl
  · have g : ListFine r k { a with
        front := { a.front with
          c := (advance a.config d a.front.c a.front.liveTurn).1
          liveTurn := (advance a.config d a.front.c a.front.liveTurn).2 } } := f.sameAll rfl rfl rfl rfl
    exact g.lagCheck

theorem lagCheck_config (a : Axis) : a.lagCheck.config = a.config := by
  unfold Axis.lagCheck; split
  · rfl
  · split
    · unfold Axis.lagFaultTracking; dsimp only; split <;> rfl
    all_goals rfl

theorem count_config (a : Axis) (d : Dir) : (a.count d).config = a.config := by
  unfold Axis.count; split
  · rfl
  · exact lagCheck_config _

theorem ListFine.decoderEvent {r : Handle → Record} {k : AxisId} {a : Axis} (f : ListFine r k a) :
    ListFine r k a.decoderEvent := by
  unfold Axis.decoderEvent
  dsimp only
  generalize (if a.front.state = .counting then _ else _ : Decoded) = made
  cases made with
  | nothing => exact f.sameAll rfl rfl rfl rfl
  | count d => exact (f.count d).sameAll rfl rfl rfl rfl
  | phaseError =>
    refine f.sameAll ?_ ?_ ?_ ?_ <;> unfold Axis.phaseError Axis.storePair Axis.setFlag <;> dsimp only <;> split <;> rfl

theorem decoderEvent_config (a : Axis) : a.decoderEvent.config = a.config := by
  unfold Axis.decoderEvent
  dsimp only
  generalize (if a.front.state = .counting then _ else _ : Decoded) = made
  cases made with
  | nothing => rfl
  | count d => exact count_config a d
  | phaseError => unfold Axis.phaseError Axis.storePair Axis.setFlag; dsimp only; split <;> rfl

/-! ### Fires -/

/-- The end of a fire of a listed record, with the list not held, off the run, with no fire held, unguarded. -/
theorem StoreLaw.finishFire {s : State} (p : StoreLaw s) (k : AxisId) (h : Handle) (m : h ∈ (s.ax k).list)
    (still : (s.ax k).eval.state ≠ .seeking) (run : ∀ st, (s.ax k).eval.step = some st → h ∉ st.run)
    (unguarded : ∀ g ∈ (s.ax k).eval.guard, g.handle ≠ h) (unheld : (s.ax k).eval.held = none) :
    StoreLaw (s.finishFire k h) := by
  have ar := ((p.list k h).1 m).1
  have gf : ∀ u : State, StoreLaw u → (u.ax k) = s.ax k → StoreLaw (u.guardFired k h) := by
    intro u q e
    unfold State.guardFired
    split
    · exact q.updAx k _ (by rw [guardEnter_eq])
        (fun f => f.guardEnter _ _ (by rw [e]; exact m) (by rw [e]; exact unguarded) (by rw [e]; exact unheld))
    · exact q
  unfold State.finishFire
  dsimp only
  split
  · exact gf s p rfl
  · unfold State.exhaust
    have c := p.core.unlinkRecord k h { s.recordAt h with budget := 0, state := .spent } m (by simp) (by simp) rfl still
      run (by rw [unheld]; simp)
    refine (c.autoRelease h).law (p.operation.keep ((Compat.unlinkSpent k h _ ar rfl).trans (.auto h))
      (.inr ?_))
    rw [autoRelease_engine]; exact unlinked_moves ..
  · next n e =>
    refine gf _ ?_ rfl
    exact (p.core.putQuiet h { s.recordAt h with budget := n + 1 } (by rw [ar]; simp) rfl rfl rfl rfl).law
      (p.operation.keep (.putQuiet h { s.recordAt h with budget := n + 1 } rfl rfl rfl) (.inl rfl))

theorem StoreLaw.placeLink {s : State} (p : StoreLaw s) (source target : Handle)
    (was : (s.recordAt source).state ≠ .free) : StoreLaw (s.placeLink source target) := by
  refine (p.core.placeLink source target was).law (p.operation.keep
    (Compat.trans (t := s.updEngine (fun g =>
        Engine.arrived { g with queue := g.queue ++ [{ source := source, target := target }] }))
      ⟨?_, fun _ _ => ⟨rfl, rfl, rfl⟩, fun _ x => ⟨x, rfl⟩, fun _ _ x => x⟩ (.putQuiet source _ rfl rfl rfl))
    (.inl (arrived_occupant _)))
  intro r e
  show (Engine.arrived _).queue.head? = _
  rw [arrived_queue, List.head?_append, e]; rfl

/-! ### A held fire can be dropped before or after its end -/

theorem guardFired_dropHeld (s : State) (k : AxisId) (h : Handle) :
    (s.guardFired k h).updAx k Axis.dropHeld = (s.updAx k Axis.dropHeld).guardFired k h := by
  unfold State.guardFired
  have same : ((s.updAx k Axis.dropHeld).recordAt h).state = .armed ∧
        0 < ((s.updAx k Axis.dropHeld).ax k).config.band ↔
      (s.recordAt h).state = .armed ∧ 0 < (s.ax k).config.band := by
    rw [State.updAx_ax, if_pos rfl]; exact Iff.rfl
  by_cases c : (s.recordAt h).state = .armed ∧ 0 < (s.ax k).config.band
  · rw [if_pos c, if_pos (same.2 c), State.updAx_updAx, State.updAx_updAx]
    congr 1; funext a
    unfold Axis.guardEnter Axis.dropHeld; dsimp only; split <;> rfl
  · rw [if_neg c, if_neg (fun x => c (same.1 x))]

theorem autoRelease_updAx (s : State) (k : AxisId) (h : Handle) (f : Axis → Axis) :
    (s.autoRelease h).updAx k f = (s.updAx k f).autoRelease h := by
  unfold State.autoRelease
  rw [State.updAx_recordAt]
  split <;> rfl

theorem unlinkRecord_dropHeld (s : State) (k : AxisId) (h : Handle) (r : Record) :
    (s.unlinkRecord k h r).updAx k Axis.dropHeld = (s.updAx k Axis.dropHeld).unlinkRecord k h r := by
  have e : ((s.updAx k Axis.dropHeld).ax k).list = (s.ax k).list := by rw [State.updAx_ax, if_pos rfl]; rfl
  have c : (s.updAx k (Axis.unlinkOut h)).updAx k Axis.dropHeld =
      (s.updAx k Axis.dropHeld).updAx k (Axis.unlinkOut h) := by
    rw [State.updAx_updAx, State.updAx_updAx]; rfl
  unfold State.unlinkRecord
  dsimp only
  rw [e, ← c]; rfl

theorem finishFire_dropHeld (s : State) (k : AxisId) (h : Handle) :
    (s.finishFire k h).updAx k Axis.dropHeld = (s.updAx k Axis.dropHeld).finishFire k h := by
  unfold State.finishFire
  dsimp only
  rw [State.updAx_recordAt]
  split
  · exact guardFired_dropHeld ..
  · unfold State.exhaust
    rw [autoRelease_updAx, unlinkRecord_dropHeld]; rfl
  · rw [guardFired_dropHeld]; rfl

end Sys2Proof.Machine
end

