-- ==== Sys2Proof/Laws/Lag.lean ====
section
/-! SUPPORT. The ranges of an axis and its lag through every operation on an axis (R52, R53, R54, R62, R77). -/

namespace Sys2Proof.Machine

/-- What the law of the lag says of one axis. -/
structure LagFine (a : Axis) : Prop where
  range : AxisRange a
  lag : a.eval.state = .tracking ∨ a.eval.state = .stalled → a.lag.natAbs ≤ Config.lagLimit

theorem LagLaw.fine {s : State} (p : LagLaw s) (k : AxisId) : LagFine (s.ax k) := ⟨p.range k, p.lag k⟩

theorem LagLaw.of_fine {s : State} (h : ∀ k, LagFine (s.ax k)) : LagLaw s := ⟨fun k => (h k).range, fun k => (h k).lag⟩

/-- The law looks at the axes alone. -/
theorem LagLaw.congr {s t : State} (p : LagLaw s) (e : ∀ k, t.ax k = s.ax k) : LagLaw t :=
  .of_fine (fun k => by rw [e]; exact p.fine k)

/-- A change of one axis that is fine again. -/
theorem LagLaw.setAx {s : State} (p : LagLaw s) (k : AxisId) (a : Axis) (f : LagFine a) : LagLaw (s.setAx k a) := by
  refine .of_fine (fun j => ?_)
  rw [State.setAx_ax]
  split
  · exact f
  · exact p.fine j

theorem LagLaw.updAx {s : State} (p : LagLaw s) (k : AxisId) (f : Axis → Axis) (h : LagFine (s.ax k) → LagFine (f (s.ax k))) :
    LagLaw (s.updAx k f) := p.setAx k _ (h (p.fine k))

/-- The law of one axis depends on its configuration, C, E, turns and evaluator state; a state that the lag does not bind is
always fine. -/
theorem LagFine.congr {a b : Axis} (f : LagFine a) (config : b.config = a.config) (c : b.front.c = a.front.c)
    (turn : b.front.liveTurn = a.front.liveTurn) (e : b.eval.e = a.eval.e) (eturn : b.eval.evalTurn = a.eval.evalTurn)
    (state : b.eval.state = .tracking ∨ b.eval.state = .stalled → a.eval.state = .tracking ∨ a.eval.state = .stalled) :
    LagFine b := by
  have l : b.lag = a.lag := by unfold Axis.lag; rw [config, c, e]
  obtain ⟨⟨r1, r2, r3, r4, r5⟩, g⟩ := f
  refine ⟨⟨?_, ?_, ?_, ?_, ?_⟩, fun h => ?_⟩
  · rw [c]; exact r1
  · rw [e]; exact r2
  · rw [config]; exact r3
  · rw [config, turn, eturn]; exact r4
  · rw [config, c, e]; exact r5
  · rw [l]; exact g (state h)

/-! ### Operations that leave C, E and the configuration -/

theorem LagFine.endStep {a : Axis} (f : LagFine a) : LagFine a.endStep := f.congr rfl rfl rfl rfl rfl id

theorem LagFine.setFlag {a : Axis} (f : LagFine a) (g : AxisFlag) : LagFine (a.setFlag g) := f.congr rfl rfl rfl rfl rfl id

theorem LagFine.settleCheck {a : Axis} (f : LagFine a) : LagFine a.settleCheck := by
  rw [settleCheck_eq]; exact f.congr rfl rfl rfl rfl rfl id

theorem LagFine.settleIfTracking {a : Axis} (f : LagFine a) : LagFine a.settleIfTracking := by
  unfold Axis.settleIfTracking
  split
  · exact f.settleCheck
  · exact f

theorem LagFine.stepGoesOn {a : Axis} (f : LagFine a) : LagFine a.stepGoesOn := by
  unfold Axis.stepGoesOn
  split
  · split
    · exact f.endStep
    · exact f
  · exact f

theorem LagFine.guardEnter {a : Axis} (f : LagFine a) (h : Handle) (p : Int) : LagFine (Axis.guardEnter h p a) := by
  rw [guardEnter_eq]; exact f.congr rfl rfl rfl rfl rfl id

theorem LagFine.startRate {a : Axis} (f : LagFine a) : LagFine a.startRate := by
  unfold Axis.startRate
  split
  · exact f.congr rfl rfl rfl rfl rfl id
  · exact f

theorem LagFine.captureValue {a : Axis} (f : LagFine a) (v : CaptureSlot) : LagFine (Axis.captureValue v a) := by
  unfold Axis.captureValue
  split
  · exact f.congr rfl rfl rfl rfl rfl id
  · exact f.setFlag _

theorem LagFine.dropHeld {a : Axis} (f : LagFine a) : LagFine a.dropHeld := by
  refine f.congr rfl rfl rfl rfl rfl ?_
  show (if a.eval.state = .stalled then EvalState.tracking else a.eval.state) = .tracking ∨
    (if a.eval.state = .stalled then EvalState.tracking else a.eval.state) = .stalled → _
  split
  · next e => exact fun _ => .inr e
  · exact id

/-! ### Seeks (R34, R76, R77) -/

/-- A seek start on an axis whose ranges hold, to a target in its range. -/
theorem LagFine.seekTo {a : Axis} (r : AxisRange a) (target : Int) (turn : Turn)
    (t : Config.positionMin ≤ target ∧ target ≤ Config.positionMax)
    (rot : a.config.kind = .rotary → 0 ≤ target ∧ target < a.config.span) : LagFine (Axis.seekTo target turn a) := by
  refine ⟨⟨r.c, t, r.preset, fun l => ⟨(r.linear l).1, ?_, (r.linear l).2.2⟩, fun h => ?_⟩, ?_⟩
  · show (if a.config.kind = .linear then (0 : Turn) else turn) = 0
    exact if_pos l
  · obtain ⟨h1, h2, h3, h4, h5⟩ := r.rotary h
    exact ⟨h1, h2, h3, rot h, h5⟩
  · rintro (h | h) <;> cases h

theorem seekStart_ax (s : State) (k j : AxisId) (target : Int) (turn : Turn) :
    (s.seekStart k target turn).ax j = if j = k then Axis.seekTo target turn (s.ax k) else s.ax j := by
  unfold State.seekStart
  rw [State.updEngine_ax, State.updAx_ax]

/-- A seek complete tests the lag, whatever it is (R77). -/
theorem LagFine.seekComplete {a : Axis} (f : LagFine a) (pos : Handle → Int) : LagFine (Axis.seekComplete pos a) := by
  unfold Axis.seekComplete
  split
  · dsimp only
    split
    · next w =>
      apply LagFine.settleCheck
      have r : AxisRange { a with
          cursor := some (a.list.filter (fun h => decide (pos h ≤ a.eval.e))).length
          eval := { a.eval with state := .tracking } } :=
        ⟨f.range.c, f.range.e, f.range.preset, f.range.linear, f.range.rotary⟩
      exact ⟨r, fun _ => of_decide_eq_true w⟩
    · apply LagFine.setFlag
      have r : AxisRange { a with
          cursor := some (a.list.filter (fun h => decide (pos h ≤ a.eval.e))).length
          eval := { a.eval with state := .faultedLag } } :=
        ⟨f.range.c, f.range.e, f.range.preset, f.range.linear, f.range.rotary⟩
      refine ⟨r, ?_⟩
      rintro (h | h) <;> cases h
  · exact f

/-! ### Counts (R52, R53, R54) -/

/-- The lag check leaves an axis fine whose ranges hold (R54, R74, R75). -/
theorem LagFine.lagCheck {a : Axis} (r : AxisRange a) : LagFine a.lagCheck := by
  have fault : ∀ b : Axis, AxisRange b → b.eval.state = .faultedLag → LagFine b := by
    intro b rb h
    refine ⟨rb, fun x => ?_⟩
    rw [h] at x
    rcases x with x | x <;> cases x
  unfold Axis.lagCheck
  split
  · next w => exact ⟨r, fun _ => of_decide_eq_true w⟩
  · split
    · apply fault
      · unfold Axis.lagFaultTracking
        split <;> exact ⟨r.c, r.e, r.preset, r.linear, r.rotary⟩
      · unfold Axis.lagFaultTracking
        rfl
    · exact fault _ ⟨r.c, r.e, r.preset, r.linear, r.rotary⟩ rfl
    · next h =>
      refine ⟨r, fun x => ?_⟩
      rw [h] at x
      rcases x with x | x <;> cases x
    · next h => exact fault a r h

/-- Where a count leaves C and the live turn, they stay in their ranges (R52, R53). -/
theorem AxisRange.moved {a : Axis} (r : AxisRange a) (d : Dir)
    (inside : ¬ (a.config.kind = .linear ∧ a.front.c = linearEnd d)) :
    AxisRange { a with front := { a.front with
      c := (advance a.config d a.front.c a.front.liveTurn).1
      liveTurn := (advance a.config d a.front.c a.front.liveTurn).2 } } := by
  have lo : Config.positionMin = -2147483648 := rfl
  have hi : Config.positionMax = 2147483647 := rfl
  have sm : Config.spanMax = 1073741824 := rfl
  have sn : Config.spanMin = 1024 := rfl
  have c := r.c
  cases kind : a.config.kind with
  | linear =>
    have l := r.linear kind
    have ne : a.front.c ≠ linearEnd d := fun x => inside ⟨kind, x⟩
    refine ⟨?_, r.e, r.preset, fun _ => ⟨?_, l.2⟩, fun h => ?_⟩
    · cases d <;> simp only [advance, kind, linearEnd] at * <;> omega
    · cases d <;> simp only [advance, kind] <;> exact l.1
    · have h' : a.config.kind = .rotary := h
      rw [kind] at h'; cases h'
  | rotary =>
    obtain ⟨h1, h2, h3, h4, h5⟩ := r.rotary kind
    have b : 0 ≤ (advance a.config d a.front.c a.front.liveTurn).1 ∧
        (advance a.config d a.front.c a.front.liveTurn).1 < a.config.span := by
      cases d <;> simp only [advance, kind] <;> split <;> dsimp only <;> omega
    refine ⟨?_, r.e, r.preset, fun h => ?_, fun _ => ⟨h1, h2, b, h4, h5⟩⟩
    · dsimp only; omega
    · have h' : a.config.kind = .linear := h
      rw [kind] at h'; cases h'

theorem LagFine.count {a : Axis} (f : LagFine a) (d : Dir) : LagFine (a.count d) := by
  unfold Axis.count
  split
  · exact f.congr rfl rfl rfl rfl rfl id
  · next h => exact .lagCheck (f.range.moved d h)

/-! ### Steps (R62, R63, R64) -/

/-- A unit step moves E toward C: E stays in its range, and the lag is one smaller. -/
theorem LagFine.beginStep {a : Axis} (f : LagFine a) (t : a.eval.state = .tracking) (pos : Handle → Int) (d : Dir)
    (l : a.stepDir = some d) : LagFine (a.beginStep pos d) := by
  have key : AxisRange { a with eval := { a.eval with
        e := (advance a.config d a.eval.e a.eval.evalTurn).1
        evalTurn := (advance a.config d a.eval.e a.eval.evalTurn).2 } } ∧
      (lagOf a.config a.front.c (advance a.config d a.eval.e a.eval.evalTurn).1).natAbs ≤ Config.lagLimit := by
    have lo : Config.positionMin = -2147483648 := rfl
    have hi : Config.positionMax = 2147483647 := rfl
    have sm : Config.spanMax = 1073741824 := rfl
    have sn : Config.spanMin = 1024 := rfl
    have ll : Config.lagLimit = 255 := rfl
    have r := f.range
    have c := r.c
    have e := r.e
    have g : a.lag.natAbs ≤ 255 := f.lag (.inl t)
    have dir : (d = .up ∧ 0 < a.lag) ∨ (d = .down ∧ a.lag < 0) := by
      unfold Axis.stepDir at l
      split at l
      · cases l; exact .inl ⟨rfl, by assumption⟩
      · split at l
        · cases l; exact .inr ⟨rfl, by assumption⟩
        · cases l
    cases kind : a.config.kind with
    | linear =>
      have lag : a.lag = a.front.c - a.eval.e := by simp [Axis.lag, lagOf, kind]
      have lin := r.linear kind
      refine ⟨⟨r.c, ?_, r.preset, fun _ => ⟨lin.1, ?_, lin.2.2⟩, fun h => ?_⟩, ?_⟩
      · rcases dir with ⟨rfl, x⟩ | ⟨rfl, x⟩ <;> simp only [advance, kind] <;> omega
      · rcases dir with ⟨rfl, x⟩ | ⟨rfl, x⟩ <;> simp only [advance, kind] <;> exact lin.2.1
      · have h' : a.config.kind = .rotary := h
        rw [kind] at h'; cases h'
      · rcases dir with ⟨rfl, x⟩ | ⟨rfl, x⟩ <;> simp only [advance, kind, lagOf] <;> omega
    | rotary =>
      obtain ⟨h1, h2, h3, h4, h5⟩ := r.rotary kind
      have lag : a.lag = centre a.config.span (a.front.c - a.eval.e) := by simp [Axis.lag, lagOf, kind]
      obtain ⟨⟨m, sp⟩, _, _⟩ := centre_spec (span := a.config.span) (by omega) (a.front.c - a.eval.e)
      rw [← lag] at sp
      have b : 0 ≤ (advance a.config d a.eval.e a.eval.evalTurn).1 ∧
          (advance a.config d a.eval.e a.eval.evalTurn).1 < a.config.span := by
        rcases dir with ⟨rfl, x⟩ | ⟨rfl, x⟩ <;> simp only [advance, kind] <;> split <;> dsimp only <;> omega
      refine ⟨⟨r.c, ?_, r.preset, fun h => ?_, fun _ => ⟨h1, h2, h3, b, h5⟩⟩, ?_⟩
      · dsimp only; omega
      · have h' : a.config.kind = .linear := h
        rw [kind] at h'; cases h'
      · rcases dir with ⟨rfl, x⟩ | ⟨rfl, x⟩
        · have v : centre a.config.span (a.front.c - (advance a.config .up a.eval.e a.eval.evalTurn).1) = a.lag - 1 := by
            simp only [advance, kind]
            split
            · next w => exact centre_unique _ _ (m - 1) (by rw [sp, w]; ring) (by omega) (by omega)
            · exact centre_unique _ _ m (by rw [sp]; ring) (by omega) (by omega)
          simp only [lagOf, kind, v]; omega
        · have v : centre a.config.span (a.front.c - (advance a.config .down a.eval.e a.eval.evalTurn).1) = a.lag + 1 := by
            simp only [advance, kind]
            split
            · next w => exact centre_unique _ _ (m + 1) (by rw [sp, w]; ring) (by omega) (by omega)
            · exact centre_unique _ _ m (by rw [sp]; ring) (by omega) (by omega)
          simp only [lagOf, kind, v]; omega
  have started : ∀ (cursor : Option Nat) (st : Option CrossingStep), LagFine { a with
      cursor := cursor
      eval := { a.eval with
        e := (advance a.config d a.eval.e a.eval.evalTurn).1
        evalTurn := (advance a.config d a.eval.e a.eval.evalTurn).2
        step := st } } :=
    fun _ _ => ⟨⟨key.1.c, key.1.e, key.1.preset, key.1.linear, key.1.rotary⟩, fun _ => key.2⟩
  unfold Axis.beginStep
  dsimp only
  split
  · exact (started _ _).endStep
  · exact started _ _

theorem LagFine.stepStart {a : Axis} (f : LagFine a) (pos : Handle → Int) : LagFine (Axis.stepStart pos a) := by
  unfold Axis.stepStart
  split
  · next t _ l => exact (f.beginStep t pos _ l).settleCheck
  · exact f

/-! ### The decoder and the rate generator -/

theorem LagFine.decoderEvent {a : Axis} (f : LagFine a) : LagFine a.decoderEvent := by
  unfold Axis.decoderEvent
  dsimp only
  generalize (if a.front.state = .counting then _ else _ : Decoded) = made
  cases made with
  | nothing => exact f.congr rfl rfl rfl rfl rfl id
  | count d => exact (f.count d).congr rfl rfl rfl rfl rfl id
  | phaseError =>
    refine f.congr ?_ ?_ ?_ ?_ ?_ ?_ <;> unfold Axis.phaseError Axis.storePair Axis.setFlag <;> dsimp only <;>
      split <;> first | rfl | exact id

theorem LagFine.handOnPair {a : Axis} (f : LagFine a) (fa fb : InputFilter) : LagFine (Axis.handOnPair fa fb a) := by
  unfold Axis.handOnPair
  dsimp only
  have g : LagFine { a with front := { a.front with inputA := fa, inputB := fb } } := f.congr rfl rfl rfl rfl rfl id
  split
  · exact g
  · exact g.decoderEvent

theorem LagFine.rateCount {a : Axis} (f : LagFine a) : LagFine a.rateCount := by
  have g : LagFine { a with front := { a.front with rateTimer := some a.config.ratePeriod } } :=
    f.congr rfl rfl rfl rfl rfl id
  exact g.count _

theorem LagFine.rateExpire {a : Axis} (f : LagFine a) : LagFine a.rateExpire := by
  unfold Axis.rateExpire
  split
  · have g : LagFine { a with front := { a.front with rateAhead := true } } := f.congr rfl rfl rfl rfl rfl id
    exact g.rateCount
  · exact f

theorem LagFine.tick {a : Axis} (f : LagFine a) : LagFine a.tick := by
  unfold Axis.tick
  split
  · exact f.congr rfl rfl rfl rfl rfl id
  · split
    · exact f.rateCount
    · exact f.congr rfl rfl rfl rfl rfl id

theorem LagFine.initial (a b i : Level) : LagFine (Axis.initial a b i) := by
  refine ⟨⟨?_, ?_, ?_, ?_, ?_⟩, fun _ => ?_⟩ <;>
    simp [Axis.initial, AxisConfig.initial, Axis.lag, lagOf, Config.positionMin, Config.positionMax]

/-! ### The law of every axis through the shared operations -/

/-- An update of one axis and the seek that it orders (R76). -/
theorem LagLaw.seek {s : State} (p : LagLaw s) (k : AxisId) (f : Axis → Axis) (target : Int) (turn : Turn)
    (r : AxisRange (f (s.ax k))) (t : Config.positionMin ≤ target ∧ target ≤ Config.positionMax)
    (rot : (f (s.ax k)).config.kind = .rotary → 0 ≤ target ∧ target < (f (s.ax k)).config.span) :
    LagLaw ((s.updAx k f).seekStart k target turn) := by
  refine .of_fine (fun j => ?_)
  rw [seekStart_ax]
  split
  · rw [State.updAx_ax, if_pos rfl]; exact .seekTo r target turn t rot
  · next n => rw [State.updAx_ax, if_neg n]; exact p.fine j

theorem LagLaw.unlinkRecord {s : State} (p : LagLaw s) (k : AxisId) (h : Handle) (r : Record) :
    LagLaw (s.unlinkRecord k h r) := by
  refine LagLaw.of_fine (fun j => ?_)
  by_cases n : j = k
  · subst n; rw [unlinkRecord_ax]; exact (p.fine j).congr rfl rfl rfl rfl rfl id
  · rw [unlinkRecord_ax_other _ _ _ _ _ n]; exact p.fine j

theorem LagLaw.linkRecord {s : State} (p : LagLaw s) (k : AxisId) (h : Handle) : LagLaw (s.linkRecord k h) := by
  refine LagLaw.of_fine (fun j => ?_)
  by_cases n : j = k
  · subst n; rw [linkRecord_ax]; exact (p.fine j).congr rfl rfl rfl rfl rfl id
  · rw [linkRecord_ax_other _ _ _ _ n]; exact p.fine j

theorem LagLaw.putRecord {s : State} (p : LagLaw s) (h : Handle) (r : Record) : LagLaw (s.putRecord h r) :=
  p.congr (fun _ => rfl)

theorem LagLaw.autoRelease {s : State} (p : LagLaw s) (h : Handle) : LagLaw (s.autoRelease h) :=
  p.congr (autoRelease_rest s h).1

theorem LagLaw.updEngine {s : State} (p : LagLaw s) (f : Engine → Engine) : LagLaw (s.updEngine f) := p.congr (fun _ => rfl)

theorem LagLaw.finishLink {s : State} (p : LagLaw s) (source : Handle) (fault : Bool) :
    LagLaw (s.finishLink source fault) :=
  LagLaw.autoRelease (LagLaw.updEngine (p.putRecord source _) _) source

theorem LagLaw.guardFired {s : State} (p : LagLaw s) (k : AxisId) (h : Handle) : LagLaw (s.guardFired k h) := by
  rcases guardFired_rest s k h with e | e <;> rw [e]
  · exact p
  · exact p.updAx k _ (fun f => f.guardEnter _ _)

theorem LagLaw.finishFire {s : State} (p : LagLaw s) (k : AxisId) (h : Handle) : LagLaw (s.finishFire k h) := by
  unfold State.finishFire
  dsimp only
  split
  · exact p.guardFired _ _
  · exact LagLaw.autoRelease (p.unlinkRecord _ _ _) _
  · exact (p.putRecord _ _).guardFired _ _

theorem LagLaw.placeLink {s : State} (p : LagLaw s) (source target : Handle) : LagLaw (s.placeLink source target) :=
  p.congr (fun _ => rfl)

/-- The fire of a TRACKING evaluator, held or whole. -/
theorem LagLaw.fire {s : State} (p : LagLaw s) (k : AxisId) (h : Handle) (d : Dir) (t : Turn)
    (tracking : (s.ax k).eval.state = .tracking) : LagLaw (s.fire k h d t) := by
  have q : LagLaw ((s.lineRequest (s.recordAt h).action).putRecord h ((s.recordAt h).fired d t)) :=
    p.congr (fun k => by simp)
  have same : ((s.lineRequest (s.recordAt h).action).putRecord h ((s.recordAt h).fired d t)).ax k = s.ax k := by simp
  unfold State.fire
  dsimp only
  split
  · exact q.finishFire k h
  · exact LagLaw.finishFire (q.updAx k _ (fun f => f.congr rfl rfl rfl rfl rfl id)) k h
  · split
    · exact (q.placeLink h _).finishFire k h
    · refine LagLaw.updEngine (q.updAx k _ (fun f => ?_)) _
      refine f.congr rfl rfl rfl rfl rfl (fun _ => .inl ?_)
      rw [same]; exact tracking

end Sys2Proof.Machine
end

