-- ==== Sys2Proof/Laws/Pending.lean ====
section
/-! SUPPORT. The shared operations keep the law of the pending set (R5, R127). -/

namespace Sys2Proof.Machine

theorem PendingLaw.updAx {s : State} (p : PendingLaw s) (k : AxisId) (f : Axis → Axis) : PendingLaw (s.updAx k f) :=
  p.congr rfl rfl

theorem PendingLaw.setAx {s : State} (p : PendingLaw s) (k : AxisId) (a : Axis) : PendingLaw (s.setAx k a) :=
  p.congr rfl rfl

theorem PendingLaw.updEngine {s : State} (p : PendingLaw s) (f : Engine → Engine) : PendingLaw (s.updEngine f) :=
  p.congr rfl rfl

theorem PendingLaw.finishMailbox {s : State} (p : PendingLaw s) (code : ResultCode) (data : Nat) :
    PendingLaw (s.finishMailbox code data) := p.congr rfl rfl

theorem PendingLaw.occupy {s : State} (p : PendingLaw s) (o : Operation) : PendingLaw (s.occupy o) := p.congr rfl rfl

theorem PendingLaw.lineRequest {s : State} (p : PendingLaw s) (act : LineAction) : PendingLaw (s.lineRequest act) :=
  p.congr (lineRequest_records s act) (lineRequest_pendingSet s act)

theorem PendingLaw.linkRecord {s : State} (p : PendingLaw s) (k : AxisId) (h : Handle) : PendingLaw (s.linkRecord k h) :=
  (p.updAx k _).putRecord h _

theorem PendingLaw.unlinkRecord {s : State} (p : PendingLaw s) (k : AxisId) (h : Handle) (r : Record) :
    PendingLaw (s.unlinkRecord k h r) :=
  ((p.updAx k _).updEngine _).putRecord h _

theorem PendingLaw.placeLink {s : State} (p : PendingLaw s) (source target : Handle) :
    PendingLaw (s.placeLink source target) :=
  (p.updEngine _).putRecord source _

theorem PendingLaw.finishLink {s : State} (p : PendingLaw s) (source : Handle) (fault : Bool) :
    PendingLaw (s.finishLink source fault) :=
  ((p.putRecord source _).updEngine _).autoRelease source

theorem PendingLaw.guardFired {s : State} (p : PendingLaw s) (k : AxisId) (h : Handle) : PendingLaw (s.guardFired k h) := by
  rcases guardFired_rest s k h with e | e <;> rw [e]
  · exact p
  · exact p.updAx k _

theorem PendingLaw.finishFire {s : State} (p : PendingLaw s) (k : AxisId) (h : Handle) : PendingLaw (s.finishFire k h) := by
  unfold State.finishFire
  dsimp only
  split
  · exact p.guardFired k h
  · exact (p.unlinkRecord k h _).autoRelease h
  · exact (p.putRecord h _).guardFired k h

theorem PendingLaw.fire {s : State} (p : PendingLaw s) (k : AxisId) (h : Handle) (d : Dir) (t : Turn) :
    PendingLaw (s.fire k h d t) := by
  have q := (p.lineRequest (s.recordAt h).action).putRecord h ((s.recordAt h).fired d t)
  unfold State.fire
  dsimp only
  split
  · exact q.finishFire k h
  · exact (q.updAx k _).finishFire k h
  · split
    · exact (q.placeLink h _).finishFire k h
    · exact (q.updAx k _).updEngine _

theorem PendingLaw.resetBlocks (s : State) : PendingLaw s.resetBlocks := by
  refine ⟨fun h => ?_, ?_⟩
  · rw [resetBlocks_recordAt, resetBlocks_pendingSet]; simp [Record.isPending, Record.cleared]
  · rw [resetBlocks_pendingSet]; simp

end Sys2Proof.Machine
end

