-- ==== Sys2Proof/Laws/Steps.lean ====
section
/-! SUPPORT. What a row can do to the blocks behind the port, said once: every invariant of the records, lists, lines, axes and
the engine goes through `exec_change`. -/

namespace Sys2Proof.Machine

/-- The two states agree in every block behind the port and the enables. -/
structure SameBlocks (s t : State) : Prop where
  records : t.records = s.records
  freePool : t.freePool = s.freePool
  axes : t.axes = s.axes
  lines : t.lines = s.lines
  engine : t.engine = s.engine
  pendingSet : t.pendingSet = s.pendingSet

theorem SameBlocks.refl (s : State) : SameBlocks s s := ⟨rfl, rfl, rfl, rfl, rfl, rfl⟩

theorem SameBlocks.trans {s t u : State} (a : SameBlocks s t) (b : SameBlocks t u) : SameBlocks s u :=
  ⟨b.records.trans a.records, b.freePool.trans a.freePool, b.axes.trans a.axes, b.lines.trans a.lines,
    b.engine.trans a.engine, b.pendingSet.trans a.pendingSet⟩

theorem SameBlocks.ax {s t : State} (b : SameBlocks s t) (k : AxisId) : t.ax k = s.ax k := by
  simp only [State.ax, b.axes]

theorem SameBlocks.line {s t : State} (b : SameBlocks s t) (l : LineId) : t.line l = s.line l := by
  simp only [State.line, b.lines]

theorem SameBlocks.recordAt {s t : State} (b : SameBlocks s t) (h : Handle) : t.recordAt h = s.recordAt h := by
  simp only [State.recordAt, b.records]

/-- An update of one axis that its evaluator, list, cursor and configuration never see, its settle notice and bank apart. -/
inductive QuietUpdate : (Axis → Axis) → Prop where
  | emptySlot : QuietUpdate (fun a => { a with front := { a.front with slot := .empty } })
  | clearFlags (clear : Byte) : QuietUpdate (fun a => { a with flags := a.flags &&& ~~~clear })
  | mask (mask : Byte) : QuietUpdate (fun a => { a with mask := mask })
  | start : QuietUpdate Axis.started
  | stop : QuietUpdate Axis.stopped
  | home : QuietUpdate (fun a => { a with front := { a.front with homeRequest := true } })
  | bank (bank : Bank) : QuietUpdate (fun a => { a with eval := { a.eval with bank := bank } })
  | pins (change : InputChange) : QuietUpdate (fun a => { a with front := a.front.pinChange change })

/-- What one row, or the walk of a step with no row to run, does to the blocks behind the port. -/
inductive Change (s : State) : State → Prop where
  | idle : Change s s
  | reset : Change s s.resetBlocks
  | modes (mask : Byte) (mode : LineId → LineMode) : Change s (s.setModes mask mode)
  | expire (l : LineId) : Change s (s.setLine l (s.line l).takeExpiry)
  | tick : Change s s.tick
  | acknowledge (h : Handle) (pending : h ∈ s.pendingSet) : Change s (s.acknowledge h)
  | quiet (k : AxisId) (f : Axis → Axis) (q : QuietUpdate f) : Change s (s.updAx k f)
  | masks (m0 m1 m2 m3 : Byte) : Change s ((((s.setMask 0 m0).setMask 1 m1).setMask 2 m2).setMask 3 m3)
  | pair (k : AxisId) (fa fb : InputFilter) : Change s (s.updAx k (Axis.handOnPair fa fb))
  | index (k : AxisId) (fi : InputFilter) : Change s (s.handOnIndex k fi)
  | rate (k : AxisId) : Change s (s.updAx k Axis.rateExpire)
  | configure (k : AxisId) (given : AxisConfig) (valid : configValid given = true)
      (preset : Config.positionMin ≤ given.indexPreset ∧ given.indexPreset ≤ Config.positionMax)
      (period : given.ratePeriod ≤ 65535)
      (allowed : s.configRefused k (configStored (s.ax k).config given) = false) :
      Change s (s.configure k (configStored (s.ax k).config given))
  | setPosition (k : AxisId) (p : Int) (fits : inRange (s.ax k).config p = true)
      (range : Config.positionMin ≤ p ∧ p ≤ Config.positionMax) :
      Change s ((s.updAx k (fun a => { a with front := { a.front with c := p, liveTurn := 0 } })).seekStart k p 0)
  | resync (k : AxisId) :
      Change s ((s.updAx k Axis.resynced).seekStart k (s.ax k).front.c (s.ax k).front.liveTurn)
  | take (request : TableRequest) : Change s (s.mailboxTake request).1
  | grant : Change s s.grant
  | link : Change s s.linkEvent
  | unlink : Change s s.unlinkEvent
  | retireCheck : Change s s.retireCheck
  | retireEnd : Change s s.retireEnd
  | walk : Change s s.walkOn
  | place : Change s s.placeStalled
  | stepStart (k : AxisId) : Change s (s.updAx k (Axis.stepStart s.posOf))
  | examine (k : AxisId) : Change s (s.examine k)
  | seekComplete (k : AxisId) : Change s (s.updAx k (Axis.seekComplete s.posOf))

/-- `t` is `s` after one change, what the port and the enables hold apart. -/
def Changed (s t : State) : Prop := ∃ s' u, SameBlocks s s' ∧ Change s' u ∧ SameBlocks u t

theorem Changed.same {s t : State} (b : SameBlocks s t) : Changed s t := ⟨s, s, .refl s, .idle, b⟩

theorem Changed.of {s t : State} (c : Change s t) : Changed s t := ⟨s, t, .refl s, c, .refl t⟩

theorem i32_range (b0 b1 b2 b3 : Byte) :
    Config.positionMin ≤ i32 b0 b1 b2 b3 ∧ i32 b0 b1 b2 b3 ≤ Config.positionMax := by
  have lo := BitVec.le_toInt (BitVec.ofNat 32 (u32 b0 b1 b2 b3))
  have hi := BitVec.toInt_lt (x := BitVec.ofNat 32 (u32 b0 b1 b2 b3))
  have e : Config.positionMin = -2147483648 := rfl
  have f : Config.positionMax = 2147483647 := rfl
  rw [e, f]
  unfold i32
  norm_num at lo hi
  omega

/-- The preset of a decoded configuration is a 32-bit value (R41). -/
theorem configOf_preset {params : List Byte} {c : AxisConfig} (e : configOf params = some c) :
    Config.positionMin ≤ c.indexPreset ∧ c.indexPreset ≤ Config.positionMax := by
  unfold configOf at e
  split at e
  · next x0 x1 x2 x3 =>
    simp only [Option.bind_eq_bind, Option.bind_eq_some_iff, Option.pure_def, Option.some.injEq] at e
    obtain ⟨_, _, _, _, _, _, _, _, _, _, _, _, _, _, rfl⟩ := e
    exact i32_range x0 x1 x2 x3
  · cases e

/-- The rate period of a decoded configuration is a 16-bit value (R41). -/
theorem configOf_period {params : List Byte} {c : AxisConfig} (e : configOf params = some c) : c.ratePeriod ≤ 65535 := by
  unfold configOf at e
  split at e
  · next p0 p1 _ _ _ _ _ _ _ =>
    simp only [Option.bind_eq_bind, Option.bind_eq_some_iff, Option.pure_def, Option.some.injEq] at e
    obtain ⟨_, _, _, _, _, _, _, _, _, _, _, _, _, _, rfl⟩ := e
    have h0 := p0.isLt
    have h1 := p1.isLt
    show u16 p0 p1 ≤ 65535
    unfold u16
    omega
  · cases e

theorem SameBlocks.withEnables (s : State) (p d : Bool) :
    SameBlocks s { s with pendingEnable := p, doneEnable := d } := ⟨rfl, rfl, rfl, rfl, rfl, rfl⟩

/-! ### The owners of H-4 -/

/-- What an owner that checks an axis can do. -/
theorem Changed.withAxis {b : Byte} {s : State} {serve : AxisId → Served} (h : ∀ k, Changed s (serve k).1) :
    Changed s (Machine.withAxis b s serve).1 := by
  unfold Machine.withAxis
  split
  · exact h _
  · exact .same (.refl s)

theorem Changed.withHandleParam {lo hi : Byte} {s : State} {serve : Handle → Served} (h : ∀ k, Changed s (serve k).1) :
    Changed s (Machine.withHandleParam lo hi s serve).1 := by
  unfold Machine.withHandleParam
  split
  · exact h _
  · exact .same (.refl s)

theorem Changed.toMailbox (tag : Byte) (command : TableCommand) (s : State) : Changed s (Machine.toMailbox tag command s).1 :=
  .of (.take _)

/-- Every owner's event is one change (R143). -/
theorem owner_changed {code tag : Byte} {params : List Byte} {serve : State → Served}
    (o : ownerOf code tag params = some serve) (s : State) : Changed s (serve s).1 := by
  have idle : Changed s s := .same (.refl s)
  unfold ownerOf at o
  split at o <;> (try cases o)
  · unfold serveIdent; split <;> exact idle
  · unfold serveReadRecord; split
    · exact .withHandleParam (fun _ => idle)
    · exact idle
  · unfold serveReadAxis; split
    · exact .withAxis (fun _ => idle)
    · exact idle
  · unfold serveReadCapture; split
    · refine .withAxis (fun k => ?_)
      split
      · exact idle
      · exact .of (.quiet k _ .emptySlot)
    · exact idle
  · unfold serveReadLines; split <;> exact idle
  · unfold serveNextPending; split
    · exact idle
    · exact .withHandleParam (fun _ => idle)
    · exact idle
  · unfold serveAck; split
    · refine .withHandleParam (fun h => ?_)
      dsimp only
      split
      · next m => exact .of (.acknowledge h (by simpa using m))
      · exact idle
    · exact idle
  · unfold serveAckAxis; split
    · exact .withAxis (fun k => .of (.quiet k _ (.clearFlags _)))
    · exact idle
  · unfold serveForceLine; split
    · split
      · exact idle
      · exact .of (.modes _ _)
    · exact idle
  · unfold serveReleaseLine; split
    · split
      · exact idle
      · exact .of (.modes _ _)
    · exact idle
  · unfold serveConfigureAxis; split
    · split
      · refine .withAxis (fun k => ?_)
        split
        · exact idle
        · next given e =>
          split
          · next v =>
            dsimp only
            split
            · exact idle
            · next r => exact .of (.configure k given v (configOf_preset e) (configOf_period e) (by simpa using r))
          · exact idle
      · exact idle
    · exact idle
  · unfold serveStart; split
    · refine .withAxis (fun k => ?_)
      split
      · exact .of (.quiet k _ .start)
      · exact idle
      · exact idle
      · exact idle
    · exact idle
  · unfold serveStop; split
    · exact .withAxis (fun k => .of (.quiet k _ .stop))
    · exact idle
  · unfold serveSetPosition; split
    · refine .withAxis (fun k => ?_)
      dsimp only
      split
      · next f =>
        split
        · exact .of (.setPosition k _ f (i32_range _ _ _ _))
        · exact idle
      · exact idle
    · exact idle
  · unfold serveHome; split
    · refine .withAxis (fun k => ?_)
      split
      · exact .of (.quiet k _ .home)
      · exact idle
    · exact idle
  · unfold serveResync; split
    · refine .withAxis (fun k => ?_)
      dsimp only
      split
      · exact idle
      · exact .of (.resync k)
    · exact idle
  · unfold serveSetBank; split
    · refine .withAxis (fun k => ?_)
      split
      · exact .of (.quiet k _ (.bank _))
      · exact idle
    · exact idle
  · unfold serveSetEnables; split
    · exact ⟨s, _, .refl s, .masks _ _ _ _, .withEnables _ _ _⟩
    · exact idle
  · unfold serveGetResult; split <;> exact idle
  · unfold serveReset; split
    · exact .same ⟨rfl, rfl, rfl, rfl, rfl, rfl⟩
    · exact idle
  · unfold serveAllocate; split
    · exact .toMailbox ..
    · exact idle
  · unfold serveStage; split
    · split
      · exact .toMailbox ..
      · exact idle
    · exact idle
  · unfold serveArm; split
    · exact .toMailbox ..
    · exact idle
  · unfold serveDisarm; split
    · exact .toMailbox ..
    · exact idle
  · unfold serveMove; split
    · exact .toMailbox ..
    · exact idle
  · unfold serveRelease; split
    · exact .toMailbox ..
    · exact idle
  · unfold serveRetireBank; split
    · refine .withAxis (fun k => ?_)
      split
      · exact .toMailbox ..
      · exact idle
    · exact idle

/-! ### The port -/

theorem SameBlocks.answer (s : State) (tag : Byte) (r : Reply) : SameBlocks s (s.answer tag r) := ⟨rfl, rfl, rfl, rfl, rfl, rfl⟩

theorem SameBlocks.receivedAll (s : State) (bytes : List Byte) : SameBlocks s (s.receivedAll bytes) :=
  ⟨rfl, rfl, rfl, rfl, rfl, rfl⟩

theorem SameBlocks.withPort (s : State) (p : Port) : SameBlocks s { s with port := p } := ⟨rfl, rfl, rfl, rfl, rfl, rfl⟩

theorem SameBlocks.withPending (s : State) (q : List Instr) : SameBlocks s { s with pending := q } :=
  ⟨rfl, rfl, rfl, rfl, rfl, rfl⟩

theorem Changed.before {s s' t : State} (b : SameBlocks s s') (c : Changed s' t) : Changed s t := by
  obtain ⟨x, y, h1, h2, h3⟩ := c
  exact ⟨x, y, b.trans h1, h2, h3⟩

theorem Changed.after {s t t' : State} (c : Changed s t) (b : SameBlocks t t') : Changed s t' := by
  obtain ⟨x, y, h1, h2, h3⟩ := c
  exact ⟨x, y, h1, h2, h3.trans b⟩

theorem hostCommand_changed {code tag : Byte} {params : List Byte} {serve : State → Served}
    (o : ownerOf code tag params = some serve) (s : State) : Changed s (hostCommand code tag params serve s) := by
  unfold hostCommand
  split
  · split
    · exact ((owner_changed o _).before (.receivedAll s _)).after (.answer ..)
    · exact .same ((SameBlocks.receivedAll s _).trans (.answer ..))
  · exact .same (.refl s)

theorem takeRequest_changed (code tag : Byte) (params : List Byte) (s : State) :
    Changed s (takeRequest code tag params s) := by
  unfold takeRequest
  split
  · next serve o => exact (owner_changed o s).after (.answer ..)
  · exact .same (.answer ..)

theorem hostRequest_changed (code tag : Byte) (params : List Byte) (crc : Byte) (s : State) :
    Changed s (hostRequest code tag params crc s) := by
  unfold hostRequest
  split
  · split
    · unfold closeRequest
      split
      · exact (takeRequest_changed ..).before (.receivedAll s _)
      · exact .same ((SameBlocks.receivedAll s _).trans (.answer ..))
    · exact .same ((SameBlocks.receivedAll s _).trans (.answer ..))
  · exact .same (.refl s)

theorem byteComplete_changed (byte : Byte) (s : State) : Changed s (s.byteComplete byte) := by
  have port : ∀ p, Changed s { s with port := p } := fun _ => .same ⟨rfl, rfl, rfl, rfl, rfl, rfl⟩
  unfold State.byteComplete
  split
  · split
    · exact port _
    · exact .same (.refl s)
  · unfold State.receiveByte
    split
    · dsimp only
      split
      · exact (port _).after (.answer ..)
      · exact port _
    · split
      · dsimp only
        split
        · exact (takeRequest_changed _ _ _ _).before (.withPort s _)
        · exact (port _).after (.answer ..)
      · exact port _
    · exact port _
  · exact port _
  · exact port _
  · exact port _

/-! ### Every row -/

theorem Changed.reset {s s' : State} (b : SameBlocks s s') : Changed s s'.resetBlocks := ⟨s', _, b, .reset, .refl _⟩

theorem SameBlocks.withPins (s : State) (ncs nreset : Level) (supply : Supply) :
    SameBlocks s { s with ncs := ncs, nreset := nreset, supply := supply } := ⟨rfl, rfl, rfl, rfl, rfl, rfl⟩

/-- Every row answers a next state, and makes one change behind the port. -/
theorem exec_change (i : Instr) (s : State) : ∃ t, exec i s = .next t ∧ Changed s t := by
  cases i with
  | ident tag params => exact ⟨_, rfl, hostCommand_changed (code := 0x01) rfl s⟩
  | readRecord tag params => exact ⟨_, rfl, hostCommand_changed (code := 0x02) rfl s⟩
  | readAxis tag params => exact ⟨_, rfl, hostCommand_changed (code := 0x03) rfl s⟩
  | readCapture tag params => exact ⟨_, rfl, hostCommand_changed (code := 0x04) rfl s⟩
  | readLines tag params => exact ⟨_, rfl, hostCommand_changed (code := 0x05) rfl s⟩
  | nextPending tag params => exact ⟨_, rfl, hostCommand_changed (code := 0x06) rfl s⟩
  | ack tag params => exact ⟨_, rfl, hostCommand_changed (code := 0x07) rfl s⟩
  | ackAxis tag params => exact ⟨_, rfl, hostCommand_changed (code := 0x08) rfl s⟩
  | forceLine tag params => exact ⟨_, rfl, hostCommand_changed (code := 0x09) rfl s⟩
  | releaseLine tag params => exact ⟨_, rfl, hostCommand_changed (code := 0x0A) rfl s⟩
  | configureAxis tag params => exact ⟨_, rfl, hostCommand_changed (code := 0x10) rfl s⟩
  | start tag params => exact ⟨_, rfl, hostCommand_changed (code := 0x11) rfl s⟩
  | stop tag params => exact ⟨_, rfl, hostCommand_changed (code := 0x12) rfl s⟩
  | setPosition tag params => exact ⟨_, rfl, hostCommand_changed (code := 0x13) rfl s⟩
  | home tag params => exact ⟨_, rfl, hostCommand_changed (code := 0x14) rfl s⟩
  | resync tag params => exact ⟨_, rfl, hostCommand_changed (code := 0x15) rfl s⟩
  | setBank tag params => exact ⟨_, rfl, hostCommand_changed (code := 0x16) rfl s⟩
  | setEnables tag params => exact ⟨_, rfl, hostCommand_changed (code := 0x17) rfl s⟩
  | getResult tag params => exact ⟨_, rfl, hostCommand_changed (code := 0x18) rfl s⟩
  | reset tag params => exact ⟨_, rfl, hostCommand_changed (code := 0x1F) rfl s⟩
  | allocate tag params => exact ⟨_, rfl, hostCommand_changed (code := 0x20) rfl s⟩
  | stage tag params => exact ⟨_, rfl, hostCommand_changed (code := 0x21) rfl s⟩
  | arm tag params => exact ⟨_, rfl, hostCommand_changed (code := 0x22) rfl s⟩
  | disarm tag params => exact ⟨_, rfl, hostCommand_changed (code := 0x23) rfl s⟩
  | move tag params => exact ⟨_, rfl, hostCommand_changed (code := 0x24) rfl s⟩
  | release tag params => exact ⟨_, rfl, hostCommand_changed (code := 0x25) rfl s⟩
  | retireBank tag params => exact ⟨_, rfl, hostCommand_changed (code := 0x26) rfl s⟩
  | frameError code tag params crc => exact ⟨_, rfl, hostRequest_changed ..⟩
  | unknown code tag params => exact ⟨_, rfl, hostRequest_changed ..⟩
  | badLength code tag length =>
    refine ⟨_, rfl, ?_⟩
    split
    · split
      · exact .same ((SameBlocks.receivedAll s _).trans (.answer ..))
      · exact .same (.receivedAll s _)
    · exact .same (.refl s)
  | spiByteComplete byte => exact ⟨_, rfl, byteComplete_changed byte s⟩
  | transactionStart =>
    refine ⟨_, rfl, ?_⟩
    unfold State.selectPort
    split
    · exact .same (.refl s)
    · split
      · exact .same ⟨rfl, rfl, rfl, rfl, rfl, rfl⟩
      · split <;> exact .same ⟨rfl, rfl, rfl, rfl, rfl, rfl⟩
  | deselect =>
    refine ⟨_, rfl, ?_⟩
    unfold State.deselectPort
    split
    · exact .same (.refl s)
    · split
      · exact (Changed.reset (.withPins s .high s.nreset s.supply)).after (.withPort _ _)
      · exact .same ⟨rfl, rfl, rfl, rfl, rfl, rfl⟩
  | nresetAssert =>
    exact ⟨_, rfl, Changed.reset (.withPins s s.ncs .low s.supply)⟩
  | nresetRelease =>
    refine ⟨_, rfl, ?_⟩
    split
    · exact Changed.reset (.withPins s s.ncs .high s.supply)
    · exact .same (.refl s)
  | supplyDrop =>
    exact ⟨_, rfl, Changed.reset (.withPins s s.ncs s.nreset .below)⟩
  | supplyRise =>
    refine ⟨_, rfl, ?_⟩
    split <;> exact .same ⟨rfl, rfl, rfl, rfl, rfl, rfl⟩
  | supplyHoldEnd =>
    refine ⟨_, rfl, ?_⟩
    split
    · exact Changed.reset (.withPins s s.ncs s.nreset .up)
    · exact .same (.refl s)
  | resetComplete => exact ⟨_, rfl, .same ⟨rfl, rfl, rfl, rfl, rfl, rfl⟩⟩
  | qualifierInputChange q level => exact ⟨_, rfl, .same ⟨rfl, rfl, rfl, rfl, rfl, rfl⟩⟩
  | pulseExpiry l => exact ⟨_, rfl, .of (.expire l)⟩
  | timeBaseTick => exact ⟨_, rfl, .of .tick⟩
  | axisInputChange k change =>
    refine ⟨_, rfl, ?_⟩
    split
    · exact .of (.quiet k _ (.pins change))
    · unfold State.inputChange
      cases change with
      | a l => exact .of (.pair k _ _)
      | b l => exact .of (.pair k _ _)
      | ab la lb => exact .of (.pair k _ _)
      | index l => exact .of (.index k _)
  | filterTimeout k input =>
    refine ⟨_, rfl, ?_⟩
    cases input with
    | a => exact .of (.pair k _ _)
    | b => exact .of (.pair k _ _)
    | ab => exact .of (.pair k _ _)
    | index => exact .of (.index k _)
  | rateExpiry k => exact ⟨_, rfl, .of (.rate k)⟩
  | stepStart k => exact ⟨_, rfl, .of (.stepStart k)⟩
  | examineRecord k => exact ⟨_, rfl, .of (.examine k)⟩
  | seekComplete k => exact ⟨_, rfl, .of (.seekComplete k)⟩
  | stalledAdderPlace => exact ⟨_, rfl, .of .place⟩
  | arbiterGrant => exact ⟨_, rfl, .of .grant⟩
  | linkEvent => exact ⟨_, rfl, .of .link⟩
  | unlinkEvent => exact ⟨_, rfl, .of .unlink⟩
  | retireBankCheck => exact ⟨_, rfl, .of .retireCheck⟩
  | retireBankWalkEnd => exact ⟨_, rfl, .of .retireEnd⟩

/-- Every step answers a next state, and makes at most one change behind the port. -/
theorem step_change (s : State) : ∃ t, step s = .next t ∧ Changed s t := by
  unfold step
  split
  · exact ⟨s.walkOn, rfl, .of .walk⟩
  · next c rest e =>
    obtain ⟨t, h1, h2⟩ := exec_change c { s with pending := rest }
    exact ⟨t, h1, h2.before (.withPending s rest)⟩

/-- A property of the blocks that every change keeps is kept by every step. -/
theorem step_keeps {P : State → Prop} (congr : ∀ s t, SameBlocks s t → P s → P t)
    (keeps : ∀ s t, Change s t → P s → P t) (s t : State) (p : P s) (e : step s = .next t) : P t := by
  obtain ⟨t', h1, s', u, b1, c, b2⟩ := step_change s
  rw [h1] at e
  cases e
  exact congr _ _ b2 (keeps _ _ c (congr _ _ b1 p))

end Sys2Proof.Machine
end

