-- ==== Sys2Proof/Tests/Slice0.lean ====
section
/-! SUPPORT. The model's own tests: ill-formed operands that WellFormed refuses, worked examples of the spec, and for each
statement of Certificates/ that has hypotheses a state and operands that meet them, at a boundary where a clause has one. -/

namespace Sys2Proof.Tests

open Sys2Proof.Machine

-- One theorem at a time: each is a kernel evaluation, and a hundred at once run out of threads.
set_option Elab.async false

/-! ### Small states -/

/-- The state after a command; every command answers a next state. -/
def after (i : Instr) (s : State) : State :=
  match exec i s with
  | .next t => t
  | .fault _ => s
  | .refused _ => s

/-- The part after reset, with a transaction just begun. -/
def selected : State := { State.reset with ncs := .low, port := { Port.initial with phase := .receiving } }

/-- `selected` with axis 0 changed. -/
def onAxis (f : Axis → Axis) : State := selected.updAx 0 f

/-- `selected` with the front end of axis 0 changed. -/
def onFront (f : FrontEnd → FrontEnd) : State := onAxis (fun a => { a with front := f a.front })

/-- `selected` with the evaluator of axis 0 changed. -/
def onEval (f : Evaluator → Evaluator) : State := onAxis (fun a => { a with eval := f a.eval })

/-- `selected` with the engine changed. -/
def onEngine (f : Engine → Engine) : State := selected.updEngine f

/-- `selected` with its port changed. -/
def onPort (f : Port → Port) : State := { selected with port := f selected.port }

/-- An ARMED record of axis 0 at a position, as ALLOCATE and ARM leave it. -/
def armedAt (p : Int) : Record := { Record.cleared with state := .armed, direction := .both, budget := 1, position := p }

/-- Records 0, 1, … of the list stand ARMED in the cam list of axis 0, whose evaluator is as given. -/
def listed (records : List Record) (v : Evaluator → Evaluator) : State :=
  (records.zipIdx.foldl (fun s x => s.putRecord (Fin.ofNat 1024 x.2) x.1)
    (onAxis (fun a => { a with list := (List.range records.length).map (Fin.ofNat 1024), eval := v a.eval })))

/-- An up step onto position 1 in flight, with a run to examine. -/
def stepping (run : List Handle) (v : Evaluator) : Evaluator :=
  { v with e := 1, step := some { dir := .up, turn := 0, run := run } }

/-- The bytes the port sends while the given number of bytes are clocked. -/
def reply (n : Nat) (s : State) : List Sdo := (sentFor (List.replicate n 0) s).1

/-- A command in progress, for the engine's rows. -/
def inHand (command : TableCommand) : Mailbox := .inProgress { tag := 7, command := command }

/-! ### WellFormed -/

/-- A BAD_LENGTH whose length byte is a good one. -/
theorem test_wellFormed_badLength :
    (Instr.badLength 1 0 32).wellFormed = false ∧ (Instr.badLength 1 0 33).wellFormed = true := by decide +kernel

/-- A FRAME_ERROR whose CRC byte matches, and one with 33 parameters. -/
theorem test_wellFormed_frameError :
    (Instr.frameError 0x01 0x00 [] 0x40).wellFormed = false ∧ (Instr.frameError 0x01 0x00 [] 0x41).wellFormed = true ∧
      (Instr.frameError 0x01 0x00 (List.replicate 33 0) 0x41).wellFormed = false := by decide +kernel

/-- An UNKNOWN with a code that H-4 lists, and one with 33 parameters. -/
theorem test_wellFormed_unknown :
    (Instr.unknown 0x26 0 []).wellFormed = false ∧ (Instr.unknown 0x27 0 []).wellFormed = true ∧
      (Instr.unknown 0x27 0 (List.replicate 33 0)).wellFormed = false := by decide +kernel

/-- A host command with 33 parameters. -/
theorem test_wellFormed_params :
    (Instr.stage 0 (List.replicate 33 0)).wellFormed = false ∧ (Instr.stage 0 (List.replicate 32 0)).wellFormed = true := by
  decide +kernel

/-- No row of the opcode table gives bits. -/
theorem test_noWordSpellsACommand : decodeTableWord 8 1 = none := rfl

/-! ### The port -/

/-- A request can open in `selected`. -/
theorem ready (code tag : Byte) (params : List Byte) : Ready selected code tag params := ⟨rfl, List.nil_prefix⟩

/-- A request can open in any such state. -/
theorem readyIn {s : State} (phase : s.port.phase = .receiving) (received : s.port.received = []) (code tag : Byte)
    (params : List Byte) : Ready s code tag params := ⟨phase, by rw [received]; exact List.nil_prefix⟩

/-- H-7: the CRC of IDENT with tag 0 is 0x40, worked byte by byte. -/
theorem test_crc_ident :
    crcByte 0xFF 0x01 = 0xF4 ∧ crc8 [0x01, 0x00] = 0xC2 ∧ crc8 (requestBytes 0x01 0x00 []) = 0x40 := by decide +kernel

/-- Witness of StepRunsTheFrontCommand: a tick waits in front of a STOP. -/
theorem witness_stepRunsTheFrontCommand :
    ({ selected with pending := [.timeBaseTick, .stop 0 [3]] } : State).pending = .timeBaseTick :: [.stop 0 [3]] ∧
      (match step { selected with pending := [.timeBaseTick, .stop 0 [3]] } with
        | .next t => t.pending
        | _ => []) = [.stop 0 [3]] := by decide +kernel

/-- Axis 0 with records 1 to 3 ARMED at 1, 2 and 3, and an operation of the engine. -/
def walked (o : Occupant) : State :=
  (listed [armedAt 1, { armedAt 2 with bank := 1 }, armedAt 3] id).updEngine (fun g => { g with occupant := o })

/-- Where a step with no command waiting leaves the engine. -/
def walkedTo (o : Occupant) : Occupant :=
  match step (walked o) with
  | .next t => t.engine.occupant
  | _ => .none

/-- Witness of StepRunsTheFrontCommand with no command waiting: a walk before a link passes the record at its own position and stops
at a higher one, the walk of RETIRE BANK passes the other bank and stops at its own and at the end, and other operations wait. -/
theorem witness_walk :
    (walked .none).pending = [] ∧
      [walkedTo (.mailbox (.arm 1 0 1)), walkedTo (.mailbox (.arm 1 0 2)), walkedTo (.mailbox (.moveRelink 2 0 2)),
        walkedTo (.mailbox (.moveRelink 2 0 3)), walkedTo (.link ⟨5, 1⟩ 0 0), walkedTo (.link ⟨5, 1⟩ 0 2)] =
      [.mailbox (.arm 1 0 2), .mailbox (.arm 1 0 2), .mailbox (.moveRelink 2 0 3), .mailbox (.moveRelink 2 0 3),
        .link ⟨5, 1⟩ 0 1, .link ⟨5, 1⟩ 0 2] ∧
      [walkedTo (.mailbox (.retire 0 1 0 7 none)), walkedTo (.mailbox (.retire 0 1 1 7 none)),
        walkedTo (.mailbox (.retire 0 1 3 7 none)), walkedTo (.mailbox (.disarm 0 0))] =
      [.mailbox (.retire 0 1 1 7 none), .mailbox (.retire 0 1 1 7 none), .mailbox (.retire 0 1 3 7 none),
        .mailbox (.disarm 0 0)] := by decide +kernel

/-- R94: the phases of an operation, from its checks to its event. -/
theorem test_phases :
    [(walked .none).operationPhase, (walked (.mailbox (.checking (.arm 1)))).operationPhase,
        (walked (.linkChecks ⟨5, 1⟩)).operationPhase, (walked (.mailbox (.arm 1 0 1))).operationPhase,
        (walked (.mailbox (.arm 1 0 2))).operationPhase, (walked (.link ⟨5, 1⟩ 0 0)).operationPhase,
        (walked (.mailbox (.disarm 0 0))).operationPhase,
        ((walked (.mailbox (.disarm 0 0))).updAx 0 (Axis.seekTo 0 0)).operationPhase] =
      [none, some .checking, some .checking, some .walking, some .linking, some .walking, some .unlinking,
        some .waitingOnSeek] := by decide +kernel

/-- R26, R109: a seek sends a walk before a link back to the head, and holds the walk of RETIRE BANK at its place. -/
theorem test_seekRestartsWalk :
    ((walked (.mailbox (.arm 1 0 2))).seekStart 0 9 0).engine.occupant = .mailbox (.arm 1 0 0) ∧
      ((walked (.link ⟨5, 1⟩ 3 2)).seekStart 0 9 0).engine.occupant = .link ⟨5, 1⟩ 3 2 ∧
      ((walked (.mailbox (.retire 0 1 1 7 none))).seekStart 0 9 0).engine.occupant = .mailbox (.retire 0 1 1 7 none) := by
  decide +kernel

/-- R26, R109: a record that leaves the list before the place of a walk lowers the place by one; one at or after the place, and one of
another list, leave it. -/
theorem test_removalKeepsWalkPlace :
    [(walked (.mailbox (.arm 1 0 2))).unlinkRecord 0 1 (armedAt 2),
        (walked (.mailbox (.retire 0 1 1 7 none))).unlinkRecord 0 0 (armedAt 1),
        (walked (.mailbox (.retire 0 1 1 7 none))).unlinkRecord 0 1 (armedAt 2),
        (walked (.link ⟨5, 1⟩ 0 3)).unlinkRecord 0 2 (armedAt 3),
        (walked (.link ⟨5, 1⟩ 3 2)).unlinkRecord 0 0 (armedAt 1)].map (fun s => s.engine.occupant) =
      [.mailbox (.arm 1 0 1), .mailbox (.retire 0 1 0 7 none), .mailbox (.retire 0 1 1 7 none), .link ⟨5, 1⟩ 0 2,
        .link ⟨5, 1⟩ 3 2] := by decide +kernel

/-- Witness of RowsWithoutTheirEventChangeNothing: after reset no row of a transaction, an operation, a step or a timer has its
event; the other clauses need a transaction in hand, an occupant of another kind, 8 requests, a step with an empty run, or a
timer ahead of its tick. -/
theorem witness_rowsWithoutTheirEvent :
    (requestOf (.ident 0 []) = some (0x01, 0, [], 0x40) ∧ ¬ Ready State.reset 0x01 0 []) ∧
    ¬ (State.reset.port.phase = .receiving ∧ State.reset.port.received <+: [1, 0, 33]) ∧
    (∀ h k, (walked (.mailbox (.arm 1 0 1))).engine.occupant ≠ .mailbox (.disarm h k)) ∧
    (∀ h k place, (walked (.mailbox (.disarm 0 0))).engine.occupant ≠ .mailbox (.arm h k place)) ∧
    selected.ncs = .low ∧ State.reset.ncs = .high ∧
    (walked (.mailbox (.disarm 0 0))).engine.occupant ≠ .none ∧ State.reset.engine.claim = none ∧
    State.reset.engine.stalled = [] ∧
    8 ≤ (onEngine (fun g => { g with queue := List.replicate 8 ⟨0, 1⟩, stalled := [0] })).engine.queue.length ∧
    (State.reset.ax 3).eval.state ≠ .seeking ∧ (State.reset.ax 3).lag = 0 ∧ (State.reset.ax 3).eval.step = none ∧
    ((onEval (fun v => { v with step := some ⟨.up, 0, []⟩ })).ax 0).eval.step = some ⟨.up, 0, []⟩ ∧
    (State.reset.ax 3).front.rateTimer = none ∧ (State.reset.line 7).timer = none ∧
    ((onFront (fun f => { f with rateTimer := some 2 })).ax 0).front.rateTimer = some (0 + 2) ∧
    ((onFront (fun f => { f with rateAhead := true })).ax 0).front.rateAhead = true ∧
    (State.reset.ax 3).front.inputA.timing = none ∧ (State.reset.ax 3).front.inputB.timing = none ∧
    (State.reset.ax 3).front.inputI.timing = none ∧ State.reset.port.resetting = false ∧
    State.reset.nreset = .high ∧ State.reset.supply ≠ .below ∧ State.reset.supply ≠ .hold := by
  refine ⟨⟨by decide +kernel, fun r => absurd r.1 (by decide +kernel)⟩, fun r => absurd r.1 (by decide +kernel), ?_⟩
  refine ⟨fun _ _ e => (nomatch e), fun _ _ _ e => (nomatch e), ?_⟩
  decide +kernel

/-- Witness of TransactionStartAndDeselect, all five clauses. -/
theorem witness_transactionStartAndDeselect :
    (State.reset.ncs = .high ∧ State.reset.inReset = false ∧ State.reset.port.resetting = false) ∧
    ({ State.reset with port := { idlePort with resetting := true } } : State).port.resetting = true ∧
    ({ State.reset with nreset := .low } : State).inReset = true ∧
    (selected.ncs = .low ∧ selected.port.resetHeld = false) ∧
    ((onPort (fun p => { p with resetHeld := true })).ncs = .low ∧
      (onPort (fun p => { p with resetHeld := true })).port.resetHeld = true) := by decide +kernel

/-- R139: a transaction starts in RECEIVING with the CRC at 0xFF, and a rise of nCS ends it. -/
theorem test_transactionStart :
    (after .transactionStart State.reset).port.phase = .receiving ∧ (after .transactionStart State.reset).port.crc = 0xFF ∧
      (after .deselect (after .transactionStart State.reset)).port = idlePort := by decide +kernel

/-- R140, R154, R155: SDO is high impedance with nCS high and in reset, and drives from the fall of nCS on, also through a
transaction that is ignored whole. -/
theorem test_sdo :
    State.reset.port.sdo = .highZ ∧ (after .transactionStart State.reset).port.sdo = .driven 0 ∧
      (after .deselect (after .transactionStart State.reset)).port.sdo = .highZ ∧
      (after .nresetAssert (after .transactionStart State.reset)).port.sdo = .highZ ∧
      (after .transactionStart (after .nresetAssert State.reset)).port.sdo = .highZ ∧
      (after .transactionStart { State.reset with port := { idlePort with resetting := true } }).port.sdo = .driven 0 := by
  decide +kernel

/-- Witness of RefusedFrames: the length bytes 33 and 255, a CRC of IDENT off by one bit, and the codes 0x00 and 0x27. -/
theorem witness_refusedFrames :
    (selected.port.phase = .receiving ∧ selected.port.received <+: [0x21, 0x09, 33] ∧ 32 < (33 : Byte).toNat ∧
      32 < (255 : Byte).toNat) ∧
    ((0x41 : Byte) ≠ crc8 (requestBytes 0x01 0x00 []) ∧ ([] : List Byte).length ≤ 32) ∧
    ((0x00 : Byte) ∉ commandCodes ∧ (0x27 : Byte) ∉ commandCodes ∧ (List.replicate 32 (0 : Byte)).length ≤ 32) := by
  decide +kernel

/-- R141, R142, R143: the replies FRAME_ERROR, FRAME_ERROR and UNKNOWN echo the tag. -/
theorem test_refusedFrames :
    (after (.badLength 0x21 0x09 33) selected).port.toSend.take 3 = [0x03, 0x09, 0x00] ∧
      (after (.frameError 0x01 0x0A [] 0x41) selected).port.toSend.take 3 = [0x03, 0x0A, 0x00] ∧
      (after (.unknown 0x27 0x0B []) selected).port.toSend.take 3 = [0x04, 0x0B, 0x00] := by decide +kernel

/-- H-3, R141, R144: the reply frame of EMPTY with tag 9, and the bytes of the fields -2, 65,535 and 0x12345678. -/
theorem test_frameBytes :
    (replyFrame 9 { code := .empty, data := [0xAB, 0xCD] }).take 5 = [0x07, 0x09, 0x02, 0xAB, 0xCD] ∧
      leInt32 (-2) = [0xFE, 0xFF, 0xFF, 0xFF] ∧ i32 0xFE 0xFF 0xFF 0xFF = -2 ∧ le16 65535 = [0xFF, 0xFF] ∧
      le32 0x12345678 = [0x78, 0x56, 0x34, 0x12] ∧ u16 0x34 0x12 = 0x1234 := by decide +kernel

/-- Witness of PortRefusesBadArguments: a length outside the table, axis 4, bank 2, and the handles 0 and 1025. -/
theorem witness_portRefusesBadArguments :
    (∃ r ∈ hostRows, r.code = 0x06 ∧ [(0 : Byte)].length ∉ r.lengths ∧ Ready selected r.code 0 [0]) ∧
    (∃ r ∈ hostRows, r.code = 0x10 ∧ r.axisFirst = true ∧ 3 < (4 : Byte).toNat ∧
      Ready selected r.code 0 (4 :: List.replicate 19 0)) ∧
    (∃ r ∈ hostRows, r.code = 0x26 ∧ r.bankSecond = true ∧ 1 < (2 : Byte).toNat ∧ Ready selected r.code 0 [0, 2]) ∧
    (∃ r ∈ hostRows, r.code = 0x07 ∧ r.handleFirst = true ∧ u16 0 0 = 0 ∧ 1024 < u16 0x01 0x04 ∧
      Ready selected r.code 0 [0x01, 0x04]) :=
  ⟨⟨_, List.mem_of_getElem? (i := 5) rfl, rfl, by decide, ready _ _ _⟩,
    ⟨_, List.mem_of_getElem? (i := 10) rfl, rfl, rfl, by decide, ready _ _ _⟩,
    ⟨_, List.mem_of_getElem? (i := 26) rfl, rfl, rfl, by decide, ready _ _ _⟩,
    ⟨_, List.mem_of_getElem? (i := 6) rfl, rfl, rfl, by decide, by decide, ready _ _ _⟩⟩

/-- The port in AWAITING with 8 filler bytes and the five bytes of BAD_ARG for tag 0 left to send. -/
def awaiting : State := onPort (fun p => { p with phase := .awaiting, filler := 8, toSend := [5, 0, 0, 0xAA] })

/-- Witness of ByteInEachPhase, all eight clauses. -/
theorem witness_byteInEachPhase :
    (State.reset.port.phase = .idle ∧ State.reset.port.ignoring = false) ∧
    (onPort (fun p => { p with phase := .idle, ignoring := true })).port.ignoring = true ∧
    (selected.port.phase = .receiving ∧ (onPort (fun p => { p with received := [1] })).port.received.length < 2) ∧
    (awaiting.port.phase = .awaiting ∧ awaiting.port.filler = 7 + 1) ∧
    (onPort (fun p => { p with phase := .awaiting, filler := 0 })).port.filler = 0 ∧
    (onPort (fun p => { p with phase := .replying, toSend := [1, 2] })).port.toSend = 1 :: 2 :: [] ∧
    (onPort (fun p => { p with phase := .replying, toSend := [2] })).port.toSend = [2] ∧
    (onPort (fun p => { p with phase := .draining })).port.phase = .draining := by decide +kernel

/-- Witness of ReplyIsSentInOrder: 8 filler bytes, the marker, four reply bytes and two more. -/
theorem witness_replyIsSentInOrder :
    (awaiting.port.phase = .awaiting ∧ awaiting.port.toSend ≠ [] ∧
      (List.replicate 15 (0 : Byte)).length = awaiting.port.filler + 1 + awaiting.port.toSend.length + 2) ∧
    (reply 15 awaiting).drop 8 = [0x5A, 5, 0, 0, 0xAA, 0, 0].map Sdo.driven := by decide +kernel

/-- Witness of RequestBytesAreTheRow: the last two bytes of IDENT, and the length byte of a bad length. -/
theorem witness_requestBytesAreTheRow :
    ((Instr.ident 0 []).wellFormed = true ∧ requestOf (.ident 0 []) = some (0x01, 0x00, [], 0x40) ∧
      ReceivingPort { selected.port with received := [0x01, 0x00], crc := 0xC2 } [0x01, 0x00] ∧
      requestBytes 0x01 0x00 [] ++ [0x40] = [0x01, 0x00] ++ [0x00, 0x40]) ∧
    (32 < (33 : Byte).toNat ∧ [0x01, 0x00, 33] = [0x01, 0x00] ++ [(33 : Byte)]) := by
  refine ⟨⟨by decide +kernel, by decide +kernel, ⟨rfl, rfl, by decide +kernel⟩, by decide +kernel⟩, by decide, rfl⟩

/-! ### Reads and acknowledgements -/

/-- Witness of Ident, and R148's ten bytes in the reply frame, after code, tag and length. -/
theorem witness_ident :
    Ready selected 0x01 0x00 [] ∧
      (after (.ident 0 []) selected).port.toSend.take 13 = [0, 0, 10, 0x08, 0x04, 1, 4, 8, 4, 0x00, 0x04, 8, 8] :=
  ⟨ready _ _ _, by decide +kernel⟩

/-- Witness of ReadRecordAndReadAxis: the handles 1 and 1024, and axis 3. -/
theorem witness_readRecordAndReadAxis :
    (u16 0x01 0x00 = handleNumber 0 ∧ u16 0x00 0x04 = handleNumber 1023 ∧ Ready selected 0x02 0 [0x00, 0x04] ∧
      selected.recordAt 1023 = Record.cleared) ∧
    ((3 : Byte).toNat = (3 : AxisId).val ∧ Ready selected 0x03 0 [3]) :=
  ⟨⟨by decide +kernel, by decide +kernel, ready _ _ _, by decide +kernel⟩, by decide, ready _ _ _⟩

/-- A record with a value in every field of its image. -/
def imaged : Record :=
  { state := .armed, axis := 2, position := -2, direction := .down, bank := 1, keep := .keep, notify := true,
    action := .pulse 6 0x1234, followOn := .link 257, budget := 0x0506, turnQualifier := some (-1), gate := some ⟨3, .high⟩,
    unacked := 9, linkFault := true, outstanding := 3,
    lastFire := some { position := 0x01020304, turn := 5, direction := .down } }

/-- H-3: each byte of the image of `imaged`, from its layout. -/
theorem test_readRecord :
    (after (.readRecord 0 [0x01, 0x00]) (selected.putRecord 0 imaged)).port.toSend.take 27 =
      [0, 0, 24, 0x02, 0x76, 0xFE, 0xFF, 0xFF, 0xFF, 0x34, 0x34, 0x12, 0x06, 0x05, 0x7E, 0x02, 0x01, 0xFF, 0xFF, 0x79, 3,
        0x04, 0x03, 0x02, 0x01, 5, 0] := by decide +kernel

/-- R150: the 56 bytes of axis 0 after reset with a fire held, a guard entry, a slip in the slot and a lag past the range. -/
theorem test_readAxis :
    (after (.readAxis 0 [0]) (onAxis (fun a => { a with
        config := { a.config with filter := .four, band := 0x0102, indexMode := .capture, indexEdge := .falling }
        front := { a.front with state := .faultedRange, c := 2147483647, slot := .slip (-3), homeRequest := true }
        eval := { a.eval with
          state := .stalled, e := -5, held := some ⟨1023, 0⟩, guard := [⟨0, 5⟩], settle := true, bank := 1 }
        cursor := none, list := [0, 1], flags := 0x21, mask := 0x80 }))).port.toSend.take 59 =
      [0, 0, 56, 3, 0, 0x00, 0x04, 0, 0, 0, 0, 3, 0x02, 0x01, 0xE8, 0x03, 0, 1, 1, 1, 0, 0, 0, 0] ++
      [0xFF, 0xFF, 0xFF, 0x7F, 0, 0, 2, 0xFD, 0xFF, 0xFF, 0xFF, 0, 0, 1, 0xFB, 0xFF, 0xFF, 0xFF, 0, 0] ++
      [0xFF, 0xFF, 0xFF, 0x7F, 1, 1, 0x00, 0x04, 1, 2, 0, 0xFF, 0xFF, 0x21, 0x80] := by decide +kernel

/-- Witness of RecordImageRoundTrip: the ends of the position, the width and the budget. -/
theorem witness_recordImageRoundTrip :
    let r : Record := { armedAt 2147483647 with action := .pulse 7 65535, budget := 65535, followOn := .link 1023 }
    r.direction ≠ .unset ∧ -2147483648 ≤ r.position ∧ r.position ≤ 2147483647 ∧ r.budget ≤ 65535 ∧
      (∀ l w, r.action = .pulse l w → 1 ≤ w ∧ w ≤ 65535) ∧ (∀ t, r.followOn = .link t → t ≠ 0) := by
  refine ⟨by decide, by decide, by decide, by decide, ?_, ?_⟩
  · intro l w e; cases e; decide
  · intro t e; cases e; decide

/-- R151: a PULSE of line 2, 500 µs, staged with a turn qualifier whose presence bit is clear, which is discarded. -/
theorem test_stageRecord :
    (stageRecord 2 (armedAt 0) [0, 0x48, 0xC8, 0, 0, 0, 0x14, 0xF4, 0x01, 2, 0, 0, 0, 0, 9, 9, 0]).map
        (fun r => (r.position, r.direction, r.notify, r.action, r.turnQualifier)) =
      some (200, .up, true, .pulse 2 500, none) := by decide +kernel

/-- Witness of ConfigurationRoundTrip: the ends of the ranges that fields carry. -/
theorem witness_configurationRoundTrip :
    let c : AxisConfig := { AxisConfig.initial with
      span := 4294967295, band := 65535, ratePeriod := 65535, indexPreset := -2147483648 }
    c.span < 4294967296 ∧ c.band ≤ 65535 ∧ c.ratePeriod ≤ 65535 ∧ -2147483648 ≤ c.indexPreset ∧
      c.indexPreset ≤ 2147483647 := by decide

/-- Witness of ReadCapture: each content of the slot. X-7: READ CAPTURE returns SLIP +2 and empties the slot. -/
theorem witness_readCapture :
    ((0 : Byte).toNat = (0 : AxisId).val ∧ Ready selected 0x04 0 [0] ∧ (selected.ax 0).front.slot = .empty) ∧
    ((onFront (fun f => { f with slot := .position (-1) 0 })).ax 0).front.slot = .position (-1) 0 ∧
    ((onFront (fun f => { f with slot := .slip 2 })).ax 0).front.slot = .slip 2 ∧
    (after (.readCapture 0 [0]) (onFront (fun f => { f with slot := .slip 2 }))).port.toSend.take 10 =
      [0, 0, 7, 2, 2, 0, 0, 0, 0, 0] := by
  refine ⟨⟨by decide, ready _ _ _, by decide +kernel⟩, by decide +kernel, by decide +kernel, by decide +kernel⟩

/-- Witness of ReadLinesAndQualifierInputs, with Q3 HIGH. -/
theorem witness_readLinesAndQualifierInputs :
    Ready selected 0x05 0 [] ∧
      ((after (.readLines 0 []) (after (.qualifierInputChange 3 .high) selected)).port.toSend.drop 3).take 25 =
        List.replicate 24 0 ++ [8] := ⟨ready _ _ _, by decide +kernel⟩

/-- R91, R152: L1 forced LOW over a HIGH shadow in a pulse of 258 µs, L7 HIGH. -/
theorem test_readLines :
    ((after (.readLines 0 []) ((({ selected with qualifiers := Vector.replicate 4 .high }.lineRequest
        (.pulse 1 258)).setModes 2 (fun _ => .forced .low)).lineRequest (.set 7))).port.toSend.drop 3).take 25 =
      [0, 0, 0, 0x15, 0x02, 0x01] ++ List.replicate 15 0 ++ [0x0C, 0, 0, 0x0F] := by decide +kernel

/-- A state with handle 1024 pending by a link fault and nothing else. -/
def faulted : State := selected.putRecord 1023 { armedAt 0 with linkFault := true }

/-- The pending set of `faulted` and of `selected` follows its law. -/
theorem selected_pendingLaw : PendingLaw selected :=
  PendingLaw.congr
    (s := State.reset.resetBlocks) (PendingLaw.resetBlocks _) rfl rfl

theorem faulted_pendingLaw : PendingLaw faulted := selected_pendingLaw.putRecord 1023 _

/-- Witness of NextPending: from handle 1 and from handle 1024 to the lowest member, and an empty set. -/
theorem witness_nextPending :
    (PendingLaw faulted ∧ Ready faulted 0x06 0 [0x00, 0x04] ∧ u16 0x00 0x04 = 1024 ∧
      (faulted.recordAt 1023).isPending = true ∧ 1024 ≤ handleNumber 1023) ∧
    (PendingLaw selected ∧ Ready selected 0x06 0 [] ∧
      ∀ g : Handle, (selected.recordAt g).isPending = true → handleNumber g < 1) :=
  ⟨⟨faulted_pendingLaw, readyIn (by decide +kernel) (by decide +kernel) _ _ _, by decide, by decide +kernel, by decide⟩, selected_pendingLaw, ready _ _ _,
    fun g p => absurd ((selected_pendingLaw.member g).mpr p) (by show g ∉ []; simp)⟩

/-- R129, R152: the record bytes of a fire and of none, and the attention summary. -/
theorem test_nextPending :
    (after (.nextPending 0 []) ({ faulted with pendingEnable := true }.updAx 3 (fun a => { a with flags := 3, mask := 2 }))).port.toSend.take 23 =
        [0, 0, 20, 0x00, 0x04, 2, 0, 0, 1, 0, 0, 0, 0, 0, 0, 0, 0, 1, 0, 1, 0, 0, 8] ∧
      (after (.nextPending 0 []) (selected.putRecord 0 imaged)).port.toSend.take 17 =
        [0, 0, 20, 0x01, 0x00, 2, 2, 9, 1, 1, 0x04, 0x03, 0x02, 0x01, 5, 0, 1] := by decide +kernel

/-- K-8: record 3, SPENT with 2 fires to acknowledge and keep AUTO. -/
def spentThree : State :=
  selected.putRecord 2 { armedAt 200 with state := .spent, budget := 0, unacked := 2, notify := true }

/-- Witness of AckOfARecord: a record that is not pending, one that the ACK frees (K-8), and one it leaves ARMED. -/
theorem witness_ack :
    (PendingLaw spentThree ∧ u16 0x03 0x00 = handleNumber 2 ∧ Ready spentThree 0x07 0 [0x03, 0x00] ∧
      (spentThree.recordAt 2).isPending = true ∧ (spentThree.recordAt 2).state = .spent ∧
      (spentThree.recordAt 2).keep = .auto ∧ (spentThree.recordAt 2).outstanding = 0) ∧
    (PendingLaw selected ∧ (selected.recordAt 0).isPending = false) ∧
    (PendingLaw faulted ∧ (faulted.recordAt 1023).isPending = true ∧ (faulted.recordAt 1023).state ≠ .spent) :=
  ⟨⟨selected_pendingLaw.putRecord 2 _, by decide, readyIn (by decide +kernel) (by decide +kernel) _ _ _,
      by decide +kernel, by decide +kernel, by decide +kernel,
      by decide +kernel⟩, ⟨selected_pendingLaw, by decide +kernel⟩, faulted_pendingLaw, by decide +kernel, by decide +kernel⟩

/-- K-8: the ACK of record 3 frees it, its handle joins the tail of the pool, and the reply carries the count 2. -/
theorem test_ack :
    (after (.ack 0 [3, 0]) spentThree).recordAt 2 = Record.cleared ∧
      (after (.ack 0 [3, 0]) spentThree).freePool.getLast? = some 2 ∧
      (after (.ack 0 [3, 0]) spentThree).port.toSend.take 5 = [0, 0, 2, 2, 0] := by decide +kernel

/-- Witness of AckAxis: axis 3, axis 4, and flags whose enables are all clear. -/
theorem witness_ackAxis :
    ((3 : Byte).toNat = (3 : AxisId).val ∧ Ready selected 0x08 0 [3, 0xFF] ∧
      ∀ j, (selected.ax j).flags &&& (selected.ax j).mask = 0) ∧
    (3 < (4 : Byte).toNat ∧ Ready selected 0x08 0 [4, 0xFF]) :=
  ⟨⟨by decide, ready _ _ _, by decide +kernel⟩, by decide, ready _ _ _⟩

/-- Witness of EnablesAndAttention; an enabled flag pulls nATTN low at once (R135, R137). -/
theorem witness_enablesAndAttention :
    Ready (onAxis (fun a => { a with flags := 0x80 })) 0x17 0 [0, 0, 0x80, 0, 0, 0] ∧
      (onAxis (fun a => { a with flags := 0x80 })).nattn = .high ∧
      (after (.setEnables 0 [0, 0, 0x80, 0, 0, 0]) (onAxis (fun a => { a with flags := 0x80 }))).nattn = .low :=
  ⟨readyIn (by decide +kernel) (by decide +kernel) _ _ _, by decide +kernel⟩

/-- Witness of GetResult: each state of the mailbox. -/
theorem witness_getResult :
    Ready selected 0x18 0 [] ∧
    (onEngine (fun g => { g with mailbox := .done { code := .partialRetire, tag := 9, data := 258 } })).engine.mailbox =
      .done { code := .partialRetire, tag := 9, data := 258 } ∧
    selected.engine.mailbox = .empty ∧
    (onEngine (fun g => { g with mailbox := .waiting { tag := 9, command := .allocate } })).engine.mailbox =
      .waiting { tag := 9, command := .allocate } ∧
    (onEngine (fun g => { g with mailbox := inHand (.arm 1) })).engine.mailbox = .inProgress { tag := 7, command := .arm 1 } ∧
    (after (.getResult 1 []) (onEngine (fun g =>
      { g with mailbox := .done { code := .partialRetire, tag := 9, data := 258 } }))).port.toSend.take 10 =
        [0, 1, 7, 0x01, 9, 2, 1, 0, 0, 0] := ⟨ready _ _ _, by decide +kernel⟩

/-! ### Reset -/

/-- Witness of ResetCommand. -/
theorem witness_resetCommand : Ready selected 0x1F 0 [] := ready _ _ _

/-- R154: RESET is held, acts at the rise of nCS, and RESET_COMPLETE ends it. -/
theorem test_reset :
    (after (.reset 0 []) (onFront (fun f => { f with c := 5 }))).port.resetHeld = true ∧
      ((after (.reset 0 []) (onFront (fun f => { f with c := 5 }))).ax 0).front.c = 5 ∧
      ((after .deselect (after (.reset 0 []) (onFront (fun f => { f with c := 5 })))).ax 0).front.c = 0 ∧
      (after .resetComplete (after .deselect (after (.reset 0 []) selected))).port = idlePort := by decide +kernel

/-- Witness of ResetPinAndSupply: nRESET low, VDD below, VDD in its hold. -/
theorem witness_resetPinAndSupply :
    (after .nresetAssert selected).nreset = .low ∧ (after .supplyDrop selected).supply = .below ∧
      (after .supplyRise (after .supplyDrop selected)).supply = .hold ∧
      (after .supplyHoldEnd (after .supplyRise (after .supplyDrop selected))).supply = .up ∧
      (after .nresetRelease (after .nresetAssert selected)).inReset = false := by decide +kernel

/-! ### Lines -/

/-- Witness of ForceAndReleaseLine: masks that name no line, L7 alone, and every line. -/
theorem witness_forceAndReleaseLine :
    (Ready selected 0x09 0 [0x80, 0xFF] ∧ (0x80 : Byte) ≠ 0) ∧ (Ready selected 0x09 0 [0, 0xFF] ∧ (0 : Byte) = 0) ∧
    (Ready selected 0x0A 0 [0xFF] ∧ (0xFF : Byte) ≠ 0) ∧ Ready selected 0x0A 0 [0] :=
  ⟨⟨ready _ _ _, by decide⟩, ⟨ready _ _ _, rfl⟩, ⟨ready _ _ _, by decide⟩, ready _ _ _⟩

/-- A-9: L4 is forced LOW over a HIGH shadow, and shows the shadow again at RELEASE LINE. -/
theorem test_forceAndReleaseLine :
    let s := selected.lineRequest (.set 4)
    ((after (.forceLine 0 [0x10, 0]) s).line 4).pin = .low ∧ ((after (.forceLine 0 [0x10, 0]) s).line 4).shadow = .high ∧
      ((after (.releaseLine 0 [0x10]) { (after (.forceLine 0 [0x10, 0]) s) with port := selected.port }).line 4).pin = .high := by
  decide +kernel

/-- Witness of LineRequest: a line with a LOW shadow and one with a HIGH shadow. -/
theorem witness_lineRequest :
    (selected.line 0).shadow = .low ∧ ((selected.lineRequest (.pulse 7 65535)).line 7).shadow = .high := by decide +kernel

/-- A line with a pulse and axis 0 with a rate generator, both with `n` µs to go. -/
def timed (n : Nat) : State :=
  (onAxis (fun a => { a with
    config := { a.config with source := .rate, ratePeriod := 3 }
    front := { a.front with state := .counting, rateTimer := some n } })).lineRequest (.pulse 7 n)

/-- Witness of ExpiriesAndTick: timers IDLE, at their last tick, before it, and ahead of it; the meeting of R86. -/
theorem witness_expiriesAndTick :
    (((timed 1).line 7).timer = some 1 ∧ ((timed 1).line 7).ahead = false ∧ ((timed 1).line 7).shadow = .high ∧
      ((timed 1).ax 0).front.rateTimer = some 1 ∧ ((timed 1).ax 0).front.rateAhead = false) ∧
    (((timed 2).line 7).timer = some 2 ∧ ((timed 2).ax 0).front.rateTimer = some 2) ∧
    ((after (.pulseExpiry 7) (timed 1)).line 7).ahead = true ∧
    ((after (.rateExpiry 0) (timed 1)).ax 0).front.rateAhead = true ∧
    (((timed 1).line 6).timer = none ∧ ((timed 1).ax 3).front.rateTimer = none) := by decide +kernel

/-- R51, R85: at the last tick the pulse ends, and the generator counts and starts the period in force; an expiry in an event of its
own gives the same, and the tick leaves that timer as it is. -/
theorem test_expiries :
    let own := after (.rateExpiry 0) (after (.pulseExpiry 7) (timed 1))
    (after .timeBaseTick (timed 1)).line 7 = Line.initial ∧ ((after .timeBaseTick (timed 1)).ax 0).front.c = 1 ∧
      ((after .timeBaseTick (timed 1)).ax 0).front.rateTimer = some 3 ∧
      (after .timeBaseTick own).lines = (after .timeBaseTick (timed 1)).lines ∧
      (after .timeBaseTick own).axes = (after .timeBaseTick (timed 1)).axes := by decide +kernel

/-- R86: a PULSE at the last tick of another, in each order, and one of width 1 taken first. -/
theorem test_pulseAtExpiry :
    ((after .timeBaseTick (timed 1)).lineRequest (.pulse 7 9)).line 7 = { Line.initial with shadow := .high, timer := some 9 } ∧
      (after .timeBaseTick ((timed 1).lineRequest (.pulse 7 9))).line 7 = { Line.initial with shadow := .high, timer := some 8 } ∧
      (after .timeBaseTick ((timed 1).lineRequest (.pulse 7 1))).line 7 = Line.initial := by decide +kernel

/-! ### Commands to an axis -/

/-- Witness of StartStopHomeAndSetBank: each front-end state, and both outcomes of a STOP. -/
theorem witness_startStop :
    ((0 : Byte).toNat = (0 : AxisId).val ∧ Ready selected 0x11 0 [0] ∧ (selected.ax 0).front.state = .halted) ∧
    ((onFront (fun f => { f with state := .counting })).ax 0).front.state = .counting ∧
    ((onFront (fun f => { f with state := .faultedRange })).ax 0).front.state = .faultedRange ∧
    (Ready selected 0x12 0 [0] ∧ (selected.ax 0).eval.state = .tracking ∧
      (selected.ax 0).eval.e = (selected.ax 0).front.c) ∧
    ((onFront (fun f => { f with c := 1 })).ax 0).eval.e ≠ ((onFront (fun f => { f with c := 1 })).ax 0).front.c :=
  ⟨⟨by decide, ready _ _ _, by decide +kernel⟩, by decide +kernel, by decide +kernel,
    ⟨ready _ _ _, by decide +kernel, by decide +kernel⟩, by decide +kernel⟩

/-- R51, R55: START starts a RATE generator with the full period. R56, V-8: STOP with E = C sets SETTLED at once. -/
theorem test_startAndStop :
    ((after (.start 0 [0]) (onAxis (fun a => { a with config := { a.config with source := .rate } }))).ax 0).front.rateTimer =
        some 1000 ∧
      ((after (.stop 0 [0]) selected).ax 0).flags = 0x80 ∧
      ((after (.stop 0 [0]) (onFront (fun f => { f with c := 1 }))).ax 0).eval.settle = true := by decide +kernel

/-- A ROTARY axis with span 4096. -/
def rotary (a : Axis) : Axis := { a with config := { a.config with kind := .rotary, span := 4096 } }

/-- Witness of SetPositionAndResync: positions at both ends of a ROTARY axis, one past the end, and each state. -/
theorem witness_setPositionAndResync :
    ((0 : Byte).toNat = (0 : AxisId).val ∧ Ready selected 0x13 0 [0, 0xFF, 0x0F, 0, 0] ∧
      i32 0xFF 0x0F 0 0 = 4095 ∧ i32 0x00 0x10 0 0 = 4096 ∧ i32 0xFF 0xFF 0xFF 0xFF = -1 ∧
      ((onAxis rotary).ax 0).config.kind = .rotary ∧ ((onAxis rotary).ax 0).config.span = 4096) ∧
    (selected.ax 0).front.state = .halted ∧
    (Ready selected 0x15 0 [0] ∧ ((onFront (fun f => { f with state := .faultedPhase })).ax 0).front.state ≠ .halted) :=
  ⟨⟨by decide, ready _ _ _, by decide +kernel⟩, by decide +kernel, ready _ _ _, by decide +kernel⟩

/-- R57, R58: a seek is ordered to the position, and to C as it stands. -/
theorem test_setPositionAndResync :
    ((after (.setPosition 0 [0, 0xFF, 0x0F, 0, 0]) (onAxis rotary)).ax 0).eval.e = 4095 ∧
      (after (.setPosition 0 [0, 0x00, 0x10, 0, 0]) (onAxis rotary)).port.toSend.take 1 = [0x05] ∧
      ((after (.resync 0 [0]) (onFront (fun f => { f with state := .faultedRange, c := 412 }))).ax 0).eval.e = 412 ∧
      ((after (.resync 0 [0]) (onFront (fun f => { f with state := .faultedRange }))).ax 0).eval.state = .seeking := by
  decide +kernel

/-- Witness of StartStopHomeAndSetBank: COUNTING, HALTED, and bank 1. -/
theorem witness_homeAndSetBank :
    ((3 : Byte).toNat = (3 : AxisId).val ∧ Ready selected 0x14 0 [3] ∧ (selected.ax 3).front.state ≠ .counting) ∧
    ((onFront (fun f => { f with state := .counting })).ax 0).front.state = .counting ∧
    ((1 : Byte).toNat = (1 : Bank).val ∧ Ready selected 0x16 0 [3, 1] ∧
      ((after (.setBank 0 [3, 1]) selected).ax 3).eval.bank = 1) :=
  ⟨⟨by decide, ready _ _ _, by decide +kernel⟩, by decide +kernel, by decide, ready _ _ _, by decide +kernel⟩

/-- The 19 bytes of a configuration. -/
def configBytes (c : AxisConfig) : List Byte :=
  configData c ++ byte1 (edgeCode c.indexEdge) ++ byte1 (modeCode c.indexMode) ++ leInt32 c.indexPreset

/-- A ROTARY configuration at the low end of the span, with the widest band it may have. -/
def narrow : AxisConfig := { AxisConfig.initial with kind := .rotary, band := 256, indexPreset := 1023 }

/-- Witness of ConfigureAxisChecks: a code outside its field, arguments just in and just out of range, and a COUNTING axis. -/
theorem witness_configureAxisChecks :
    ((0 : Byte).toNat = (0 : AxisId).val ∧ (configBytes narrow).length = 19 ∧ Ready selected 0x10 0 (0 :: configBytes narrow)) ∧
    configOf (2 :: List.replicate 18 0) = none ∧
    (configOf (configBytes narrow) = some narrow ∧ configValid narrow = true) ∧
    configValid { narrow with band := 257 } = false ∧ configValid { narrow with indexPreset := 1024 } = false ∧
    configValid { narrow with span := 1023 } = false ∧ configValid { AxisConfig.initial with band := 4096 } = false ∧
    (selected.ax 0).config.kind ≠ narrow.kind ∧
    ((onFront (fun f => { f with state := .counting })).ax 0).front.state ≠ .halted := by
  refine ⟨⟨by decide, by decide +kernel, ready _ _ _⟩, ?_⟩
  decide +kernel

/-- R41, R42: OK with a seek to 0 in HALTED, and AXIS_STATE in COUNTING. -/
theorem test_configureAxis :
    ((after (.configureAxis 0 (0 :: configBytes narrow)) selected).ax 0).config = narrow ∧
      ((after (.configureAxis 0 (0 :: configBytes narrow)) selected).ax 0).eval.state = .seeking ∧
      (after (.configureAxis 0 (0 :: configBytes narrow)) (onFront (fun f => { f with state := .counting }))).port.toSend.take 1 =
        [0x06] := by decide +kernel

/-- Witness of ConfigureAxisChanges: no change of place with and without a new band, and a change of place. -/
theorem witness_configureAxisChanges :
    (selected.ax 0).config.kind = AxisConfig.initial.kind ∧ (selected.ax 0).config.kind = .linear ∧
      (selected.ax 0).config.band = AxisConfig.initial.band ∧
      (selected.ax 0).config.band ≠ ({ AxisConfig.initial with band := 4095 } : AxisConfig).band ∧
      (selected.ax 0).config.kind ≠ narrow.kind := by decide +kernel

/-! ### Front end -/

/-- Axis 0 COUNTING with a source, its stored pair and accepted levels at (a, b), and its pins as given. -/
def counting (src : Source) (a b pinA pinB : Level) (width : FilterWidth) : State :=
  onAxis (fun x => { x with
    config := { x.config with source := src, filter := width }
    front := { x.front with
      state := .counting, c := 10, storedA := a, storedB := b
      inputA := { pin := pinA, accepted := a, timing := if pinA = a then none else some width }
      inputB := { pin := pinB, accepted := b, timing := if pinB = b then none else some width } } })

/-- Witness of InputFilters: A and B that move together with a width, with one that is timed and one that returns, and with width 0
while B stays; a timeout of both with one timed; I; and the part held in reset. -/
theorem witness_inputFilters :
    let f (s : State) : FrontEnd := (s.ax 0).front
    let wide := counting .quad4 .low .low .low .low .four
    let half := counting .quad4 .low .low .high .low .four
    let zero := counting .quad4 .low .low .low .low .zero
    (PairRow wide 0 (.axisInputChange 0 (.ab .high .high)) ((f wide).inputA.moved .four .high) ((f wide).inputB.moved .four .high) ∧
      ((f wide).inputA.moved .four .high).accepted = .low ∧ ((f wide).inputA.moved .four .high).timing = some .four) ∧
    (PairRow half 0 (.axisInputChange 0 (.ab .low .high)) ((f half).inputA.moved .four .low) ((f half).inputB.moved .four .high) ∧
      ((f half).inputA.moved .four .low).timing = none) ∧
    (PairRow zero 0 (.axisInputChange 0 (.ab .low .low)) ((f zero).inputA.moved .zero .low) ((f zero).inputB.moved .zero .low) ∧
      ((f zero).inputA.moved .zero .high).accepted = .high) ∧
    (PairRow half 0 (.filterTimeout 0 .b) (f half).inputA (f half).inputB.ranOut ∧ (f half).inputB.ranOut.accepted = .low) ∧
    (IndexFilterRow wide 0 (.axisInputChange 0 (.index .high)) ((f wide).inputI.moved .four .high) ∧
      ((f wide).inputI.moved .four .high).accepted = (f wide).inputI.accepted) ∧
    (after .nresetAssert selected).inReset = true :=
  ⟨⟨.ab .high .high (by decide +kernel), by decide +kernel⟩, ⟨.ab .low .high (by decide +kernel), by decide +kernel⟩,
    ⟨.ab .low .low (by decide +kernel), by decide +kernel⟩, ⟨.timeoutB, by decide +kernel⟩,
    ⟨.change .high (by decide +kernel), by decide +kernel⟩, by decide +kernel⟩

/-- R44: a new level is accepted when the width runs out on it, and not when it returns first; in reset only the pins move. -/
theorem test_inputFilters :
    let s := after (.axisInputChange 0 (.a .high)) (counting .quad4 .low .low .low .low .four)
    (s.ax 0).front.c = 10 ∧ ((after (.filterTimeout 0 .a) s).ax 0).front.c = 11 ∧
      ((after (.filterTimeout 0 .ab) s).ax 0).front.c = 11 ∧
      ((after (.filterTimeout 0 .a) (after (.axisInputChange 0 (.a .low)) s)).ax 0).front.c = 10 ∧
      ((after (.axisInputChange 0 (.ab .high .high)) (after .nresetAssert selected)).ax 0).front.inputB =
        { pin := .high, accepted := .low, timing := none } := by decide +kernel

/-- Witness of QuadratureSources: a row of each of the six kinds of PairRow, and a step of each clause. -/
theorem witness_quadratureSources :
    let f (s : State) : FrontEnd := (s.ax 0).front
    let zero := counting .quad4 .low .low .low .low .zero
    let both := counting .quad4 .low .low .high .high .four
    (PairRow zero 0 (.axisInputChange 0 (.a .high)) ((f zero).inputA.moved .zero .high) (f zero).inputB ∧
      PairRow zero 0 (.axisInputChange 0 (.b .high)) (f zero).inputA ((f zero).inputB.moved .zero .high) ∧
      PairRow zero 0 (.axisInputChange 0 (.ab .high .high)) ((f zero).inputA.moved .zero .high)
        ((f zero).inputB.moved .zero .high) ∧
      (f zero).inputA.moved .zero .high = .atLevel .high ∧ (f zero).state = .counting) ∧
    (PairRow both 0 (.filterTimeout 0 .a) (f both).inputA.ranOut (f both).inputB ∧
      PairRow both 0 (.filterTimeout 0 .b) (f both).inputA (f both).inputB.ranOut ∧
      PairRow both 0 (.filterTimeout 0 .ab) (f both).inputA.ranOut (f both).inputB.ranOut ∧
      (f both).inputA.ranOut = .atLevel .high ∧ (f both).inputB.ranOut = .atLevel .high) :=
  ⟨⟨.a .high (by decide +kernel), .b .high (by decide +kernel), .ab .high .high (by decide +kernel), by decide +kernel⟩,
    .timeoutA, .timeoutB, .timeoutAB, by decide +kernel⟩

/-- C of axis 0 after one decoder event with the new pair (a1, b1). -/
def countAfter (src : Source) (a b a1 b1 : Level) : Int :=
  ((after (.filterTimeout 0 .ab) (counting src a b a1 b1 .four)).ax 0).front.c

/-- F-7: the nine events on QUAD4 and on QUAD1, each from C = 10. -/
theorem test_quadrature :
    [countAfter .quad4 .low .low .high .low, countAfter .quad4 .high .low .high .high,
        countAfter .quad4 .high .high .low .high, countAfter .quad4 .low .high .low .low,
        countAfter .quad4 .low .low .low .high, countAfter .quad4 .low .high .high .high,
        countAfter .quad4 .low .high .high .low, countAfter .quad4 .high .low .low .low] = [11, 11, 11, 11, 9, 9, 10, 9] ∧
      [countAfter .quad1 .low .low .high .low, countAfter .quad1 .low .high .low .low,
        countAfter .quad1 .low .low .low .high, countAfter .quad1 .low .high .high .low] = [10, 11, 9, 10] ∧
      ((after (.filterTimeout 0 .ab) (counting .quad4 .low .high .high .low .four)).ax 0).flags = 0x08 := by
  decide +kernel

/-- Witness of PulseSources: an event of STEP_DIR with B HIGH before it, one of UP_DOWN, and one of a HALTED front end. -/
theorem witness_pulseSources :
    let f (s : State) : FrontEnd := (s.ax 0).front
    let dir := counting .stepDir .low .high .high .low .four
    let updown := counting .upDown .low .low .high .high .four
    let halted := onFront (fun f => { f with inputA := { f.inputA with pin := .high, timing := some .one } })
    (PairRow dir 0 (.filterTimeout 0 .ab) (f dir).inputA.ranOut (f dir).inputB.ranOut ∧
      (f dir).inputA.ranOut.accepted = .high ∧ (f dir).storedA = .low ∧ (f dir).storedB = .high) ∧
    (PairRow updown 0 (.filterTimeout 0 .b) (f updown).inputA (f updown).inputB.ranOut ∧
      (f updown).inputB.ranOut.accepted ≠ (f updown).inputB.accepted) ∧
    (PairRow halted 0 (.filterTimeout 0 .a) (f halted).inputA.ranOut (f halted).inputB ∧
      (f halted).inputA.ranOut.accepted ≠ (f halted).inputA.accepted ∧ (f halted).state ≠ .counting) :=
  ⟨⟨.timeoutAB, by decide +kernel⟩, ⟨.timeoutB, by decide +kernel⟩, .timeoutA, by decide +kernel⟩

/-- R49, R50: the direction from B as it stood before, and a rise of both inputs that counts nothing. -/
theorem test_pulseSources :
    [countAfter .stepDir .low .high .high .low, countAfter .stepDir .low .low .high .high,
        countAfter .stepDir .high .low .low .low, countAfter .upDown .low .low .high .low,
        countAfter .upDown .low .low .low .high, countAfter .upDown .low .low .high .high,
        countAfter .upDown .low .high .high .low, countAfter .rate .low .low .high .low] =
      [11, 9, 10, 11, 9, 10, 11, 10] := by decide +kernel

/-- An axis at C and E. -/
def placed (c e : Int) : Axis :=
  { Axis.initial .low .low .low with
    front := { (Axis.initial .low .low .low).front with c := c }
    eval := { (Axis.initial .low .low .low).eval with e := e } }

/-- Witness of CountEventAndLag: C at both ends of a LINEAR axis, E 254 and 255 counts behind, and the wrap of a ROTARY one. -/
theorem witness_countEventAndLag :
    ((placed 2147483647 0).config.kind = .linear ∧ (placed 2147483647 0).front.c = 2147483647 ∧
      (placed (-2147483648) 0).front.c = -2147483648) ∧
    ((placed 255 0).lag = 255 ∧ (placed 256 0).lag = 256 ∧ (placed (-256) 0).lag = -256) ∧
    ((rotary (placed 4095 0)).config.kind = .rotary ∧ (rotary (placed 4095 0)).front.c = (4096 : Int) - 1 ∧
      (rotary (placed 2048 0)).lag = 2048 ∧ (rotary (placed 2049 0)).lag = -2047 ∧ 0 < (rotary (placed 0 0)).config.span) := by
  decide +kernel

/-- F-8, F-9: the wrap, the 256th count of a stalled axis, and the range fault. -/
theorem test_count :
    ((rotary (placed 4095 4090)).count .up).front.c = 0 ∧ ((rotary (placed 4095 4090)).count .up).front.liveTurn = 1 ∧
      (rotary (placed 5 4090)).lag = 11 ∧ ((placed 355 100).count .up).eval.state = .faultedLag ∧
      ((placed 354 100).count .up).eval.state = .tracking ∧
      ((placed 2147483647 2147483647).count .up).flags = 0x20 := by decide +kernel

/-- Axis 0 ROTARY and COUNTING, with its index mode, its home request and its count, and I rising after a timing. -/
def indexed (mode : IndexMode) (home : Bool) (c : Int) (turn : Turn) (slot : CaptureSlot) : State :=
  onAxis (fun a => { rotary a with
    config := { (rotary a).config with indexMode := mode }
    front := { a.front with
      state := .counting, c := c, liveTurn := turn, homeRequest := home, slot := slot
      inputI := { pin := .high, accepted := .low, timing := some .one } } })

/-- Witness of IndexCapture: an edge in OFF, one in CAPTURE with an empty and with a full slot, and a HALTED front end. -/
theorem witness_indexCapture :
    IndexRow (indexed .capture false 4094 6 .empty) 0 .high (.filterTimeout 0 .index) ∧
    (((indexed .off false 4094 6 .empty).ax 0).front.state = .counting ∧
      Level.high = edgeLevel ((indexed .off false 4094 6 .empty).ax 0).config.indexEdge ∧
      ((indexed .off false 4094 6 .empty).ax 0).config.indexMode = .off) ∧
    (((indexed .capture false 4094 6 .empty).ax 0).front.slot = .empty ∧
      ((indexed .capture false 4094 6 (.slip 2)).ax 0).front.slot ≠ .empty) ∧
    IndexRow selected 0 .high (.axisInputChange 0 (.index .high)) ∧ (selected.ax 0).front.state ≠ .counting := by
  refine ⟨⟨by decide +kernel, _, .timeout, by decide +kernel⟩, by decide +kernel, by decide +kernel,
    ⟨by decide +kernel, _, .change .high (by decide +kernel), by decide +kernel⟩, by decide +kernel⟩

/-- R117: an edge fills the empty slot, and misses with the full one. -/
theorem test_indexCapture :
    ((after (.filterTimeout 0 .index) (indexed .capture false 4094 6 .empty)).ax 0).front.slot = .position 4094 6 ∧
      ((after (.filterTimeout 0 .index) (indexed .capture false 4094 6 (.slip 2))).ax 0).flags = 0x04 := by decide +kernel

/-- Witness of IndexRebase: the home rebase, C at the preset, and the slips +2, −3 and +span/2 (X-7). -/
theorem witness_indexRebase :
    IndexRow (indexed .track false 4094 6 .empty) 0 .high (.filterTimeout 0 .index) ∧
    ((indexed .track true 0 6 .empty).ax 0).front.homeRequest = true ∧
    ((indexed .track false 0 6 .empty).ax 0).front.c = ((indexed .track false 0 6 .empty).ax 0).config.indexPreset ∧
    ((indexed .track false 4094 6 .empty).ax 0).front.c ≠ ((indexed .track false 4094 6 .empty).ax 0).config.indexPreset ∧
    (2 : Int) = 0 - 4094 + 1 * (4096 : Nat) ∧ (-3 : Int) = 0 - 3 + 0 * (4096 : Nat) ∧
    ((2048 : Int) = 0 - 2048 + 1 * (4096 : Nat) ∧ -((4096 : Nat) : Int) < 2 * 2048 ∧ 2 * (2048 : Int) ≤ (4096 : Nat)) := by
  refine ⟨⟨by decide +kernel, _, .timeout, by decide +kernel⟩, ?_⟩
  decide +kernel

/-- X-7, first edge: C 0 in turn 7, SLIP +2, CAPTURED, and a seek to 0. -/
theorem test_trackRebase :
    let t := (after (.filterTimeout 0 .index) (indexed .track false 4094 6 .empty)).ax 0
    (t.front.c, t.front.liveTurn, t.front.slot, t.flags, t.eval.state, t.eval.e) = (0, 7, .slip 2, 0x02, .seeking, 0) := by
  decide +kernel

/-! ### Table Engine -/

/-- A command that waits, with the arbiter's decision for it, on top of `s`. -/
def waiting (command : TableCommand) (s : State) : State :=
  s.updEngine (fun g => { g with mailbox := .waiting { tag := 7, command := command }, claim := some .command })

/-- A command that waits before a free engine, with the decision for it, has its turn. -/
theorem waiting_turn {s : State} (free : s.engine.occupant = .none) (command : TableCommand) :
    MailboxTurn (waiting command s) 7 command := ⟨free, rfl, rfl⟩

/-- Witness of TableCommandReachesMailbox: an EMPTY and a WAITING mailbox, and the widest rows. -/
theorem witness_tableCommandReachesMailbox :
    TableRow (.retireBank 1 [3, 1]) 0x26 1 [3, 1] (.retireBank 3 1) ∧
    TableRow (.stage 1 (0 :: 0 :: List.replicate 17 0)) 0x21 1 (0 :: 0 :: List.replicate 17 0)
      (.stage (u16 0 0) (List.replicate 17 0)) ∧
    Ready selected 0x26 1 [3, 1] ∧ selected.engine.mailbox = .empty ∧
    (waiting (.arm 1) selected).engine.mailbox = .waiting { tag := 7, command := .arm 1 } :=
  ⟨.retireBank 1 3 1 3 1 rfl rfl, .stage 1 0 0 _ rfl, ready _ _ _, rfl, rfl⟩

/-- R95: ACCEPTED, then BUSY. Each of the seven rows reaches the mailbox. -/
theorem test_tableCommands :
    [(after (.allocate 7 []) selected).engine.mailbox, (after (.arm 7 [1, 0]) selected).engine.mailbox,
        (after (.disarm 7 [1, 0]) selected).engine.mailbox, (after (.release 7 [0, 4]) selected).engine.mailbox,
        (after (.move 7 [1, 0, 0xFF, 0xFF, 0xFF, 0xFF]) selected).engine.mailbox,
        (after (.retireBank 7 [3, 1]) selected).engine.mailbox] =
      [.waiting ⟨7, .allocate⟩, .waiting ⟨7, .arm 1⟩, .waiting ⟨7, .disarm 1⟩, .waiting ⟨7, .release 1024⟩,
        .waiting ⟨7, .move 1 (-1)⟩, .waiting ⟨7, .retireBank 3 1⟩] ∧
      (after (.allocate 7 []) (waiting (.arm 1) selected)).port.toSend.take 1 = [0x02] := by decide +kernel

/-- Witness of ArbiterChoice: a command overtaken 4 times is chosen, 3 times leaves the request the choice; each has its turn; and a
decision stands through a row. -/
theorem witness_arbiterChoice :
    (∃ g : Engine, g.queue = [⟨0, 1⟩] ∧ g.mailbox = .waiting ⟨7, .allocate⟩ ∧ g.streak = 4 ∧ g.choice = some .command) ∧
    (∃ g : Engine, g.queue = [⟨0, 1⟩] ∧ g.mailbox = .waiting ⟨7, .allocate⟩ ∧ g.streak = 3 ∧ g.choice = some .link) ∧
    (∃ s, MailboxTurn s 7 .allocate ∧ s.engine.queue = [⟨0, 1⟩] ∧ s.engine.streak = 4) ∧
    (∃ s, LinkTurn s ⟨0, 1⟩ [] ∧ s.engine.mailbox = .waiting ⟨7, .allocate⟩ ∧ s.engine.streak = 3) ∧
    (∃ s, LinkTurn s ⟨0, 1⟩ [] ∧ s.engine.mailbox = .empty) ∧
    ((waiting .allocate selected).engine.occupant = .none ∧ (waiting .allocate selected).engine.claim ≠ none ∧
      exec .timeBaseTick (waiting .allocate selected) = .next (after .timeBaseTick (waiting .allocate selected))) :=
  ⟨⟨{ Engine.initial with queue := [⟨0, 1⟩], mailbox := .waiting ⟨7, .allocate⟩, streak := 4 }, rfl, rfl, rfl, by decide⟩,
    ⟨{ Engine.initial with queue := [⟨0, 1⟩], mailbox := .waiting ⟨7, .allocate⟩, streak := 3 }, rfl, rfl, rfl, by decide⟩,
    ⟨waiting .allocate (onEngine (fun g => { g with queue := [⟨0, 1⟩], streak := 4 })), ⟨rfl, rfl, rfl⟩, rfl, rfl⟩,
    ⟨onEngine (fun g => { g with
        queue := [⟨0, 1⟩], mailbox := .waiting ⟨7, .allocate⟩, streak := 3, claim := some .link }), ⟨rfl, rfl, rfl⟩, rfl, rfl⟩,
    ⟨onEngine (fun g => { g with queue := [⟨0, 1⟩], claim := some .link }), ⟨rfl, rfl, rfl⟩, rfl⟩, rfl, nofun, rfl⟩

/-- R100: at an idle engine the first arrival is the one that is taken, whichever of the two it is. -/
theorem test_firstArrival :
    (after .arbiterGrant ((after (.allocate 7 []) selected).placeLink 5 6)).engine.mailbox =
        .done { code := .ok, tag := 7, data := 1 } ∧
      (after .arbiterGrant (after (.allocate 7 []) (selected.placeLink 5 6))).engine.mailbox =
        .waiting { tag := 7, command := .allocate } ∧
      (after .arbiterGrant (after (.allocate 7 []) (selected.placeLink 5 6))).engine.streak = 1 := by decide +kernel

/-- A STAGED record at a position, under handle 1. -/
def staged (p : Int) : State := selected.putRecord 0 { armedAt p with state := .staged }

/-- An ARMED record at a position, under handle 1, in the list of axis 0. -/
def linked (p : Int) : State := listed [armedAt p] id

/-- Witness of AllocateStageAndRelease: the pool with and without a handle, and each state of the record. -/
theorem witness_allocateStageAndRelease :
    (MailboxTurn (waiting .allocate selected) 7 .allocate ∧ (waiting .allocate selected).freePool.head? = some 0) ∧
    (MailboxTurn (waiting .allocate { selected with freePool := [] }) 7 .allocate) ∧
    (MailboxTurn (waiting (.stage (handleNumber 0) (List.replicate 17 0)) (staged 0)) 7
        (.stage (handleNumber 0) (List.replicate 17 0)) ∧
      ((staged 0).recordAt 0).state = .staged ∧ ((staged 0).recordAt 0).isPending = false ∧
      stageRecord 0 ((staged 0).recordAt 0) (List.replicate 17 0) = none) ∧
    (MailboxTurn (waiting (.release (handleNumber 0)) (linked 0)) 7 (.release (handleNumber 0)) ∧
      ((linked 0).recordAt 0).state = .armed) ∧
    ((spentThree.recordAt 2).state = .spent ∧ (spentThree.recordAt 2).outstanding = 0) ∧
    ((selected.putRecord 0 { armedAt 0 with state := .spent, outstanding := 1 }).recordAt 0).outstanding ≠ 0 :=
  ⟨⟨waiting_turn (by decide +kernel) _, by decide +kernel⟩, waiting_turn (by decide +kernel) _,
    ⟨waiting_turn (by decide +kernel) _, by decide +kernel, by decide +kernel, by decide +kernel⟩,
    ⟨waiting_turn (by decide +kernel) _, by decide +kernel⟩, by decide +kernel, by decide +kernel⟩

/-- K-8: ALLOCATE gives handle 1 from the head of the pool, STAGED with budget 1. -/
theorem test_allocate :
    (after .arbiterGrant (waiting .allocate selected)).engine.mailbox = .done { code := .ok, tag := 7, data := 1 } ∧
      ((after .arbiterGrant (waiting .allocate selected)).recordAt 0).state = .staged ∧
      ((after .arbiterGrant (waiting .allocate selected)).recordAt 0).budget = 1 ∧
      (after .arbiterGrant (waiting .allocate selected)).freePool.head? = some 1 := by decide +kernel

/-- Witness of ListCommandsAtTheirGrant: handles 0 and 1025, records in each state, positions 4095 and 4096 of a ROTARY axis, a turn
qualifier on a LINEAR axis, and the active and the inactive bank. -/
theorem witness_listCommandsAtTheirGrant :
    MailboxTurn (waiting (.arm 0) selected) 7 (.arm 0) ∧ MailboxTurn (waiting (.move 1025 0) selected) 7 (.move 1025 0) ∧
    (MailboxTurn (waiting (.arm (handleNumber 0)) (staged 0)) 7 (.arm (handleNumber 0)) ∧
      FitsAxis ((staged 0).ax 0).config 0 none) ∧
    (FitsAxis (rotary (placed 0 0)).config 4095 (some 0) ∧ ¬ FitsAxis (rotary (placed 0 0)).config 4096 none ∧
      ¬ FitsAxis (placed 0 0).config 0 (some 0)) ∧
    (MailboxTurn (waiting (.disarm (handleNumber 0)) (linked 0)) 7 (.disarm (handleNumber 0)) ∧
      ((linked 0).recordAt 0).state = .armed ∧ ((staged 0).recordAt 0).state ≠ .armed) ∧
    MailboxTurn (waiting (.move (handleNumber 0) (-1)) (linked 0)) 7 (.move (handleNumber 0) (-1)) ∧
    (MailboxTurn (waiting (.retireBank 0 1) selected) 7 (.retireBank 0 1) ∧ (selected.ax 0).eval.bank ≠ 1 ∧
      (selected.ax 0).eval.bank = 0) := by
  refine ⟨waiting_turn (by decide +kernel) _, waiting_turn (by decide +kernel) _, ⟨waiting_turn ?_ _, ?_⟩, ⟨?_, ?_, ?_⟩,
    ⟨waiting_turn ?_ _, ?_⟩, waiting_turn ?_ _, waiting_turn (by decide +kernel) _, ?_⟩
  all_goals first
    | decide +kernel
    | (show _ ∧ _; decide)
    | (show ¬ (_ ∧ _); decide)
    | exact (rfl : (none : Option Turn) = none)
    | exact fun e => (nomatch (e : some (0 : Turn) = none))

/-- Witness of LinkRequestAtItsGrant: a STAGED target that fits, and a FREE one. -/
theorem witness_linkRequestAtItsGrant :
    (∃ s, LinkTurn s ⟨1, 0⟩ [] ∧ (s.recordAt 0).state = .staged ∧ (s.recordAt 0).turnQualifier = none ∧
      (s.ax 0).config.kind = .linear) ∧
    (∃ s, LinkTurn s ⟨1, 0⟩ [] ∧ (s.recordAt 0).state ≠ .staged) :=
  ⟨⟨(staged 0).updEngine (fun g => { g with queue := [⟨1, 0⟩], claim := some .link }),
      ⟨by decide +kernel, by decide +kernel, by decide +kernel⟩, by decide +kernel, by decide +kernel, by decide +kernel⟩,
    ⟨onEngine (fun g => { g with queue := [⟨1, 0⟩], claim := some .link }), ⟨rfl, rfl, rfl⟩, by decide +kernel⟩⟩

/-- R112: a refused request sets the link fault of its source, which is then pending. -/
theorem test_refusedLink :
    let s := (selected.putRecord 1 { armedAt 0 with outstanding := 1 }).updEngine (fun g => { g with queue := [⟨1, 0⟩], claim := some .link })
    (after .arbiterGrant s).pendingSet = [1] ∧ ((after .arbiterGrant s).recordAt 1).outstanding = 0 := by decide +kernel

/-- An operation in progress, with its command in the mailbox. -/
def busy (o : Operation) (s : State) : State :=
  s.updEngine (fun g => { g with occupant := .mailbox o, mailbox := inHand (.arm 1) })

/-- Witness of LinkEvent: an ARM, a relink, and a SEEKING axis. -/
theorem witness_linkEvent :
    ((busy (.arm 0 0 0) (staged 0)).engine.occupant = .mailbox (.arm 0 0 0) ∧
      (busy (.arm 0 0 0) (staged 0)).engine.mailbox = .inProgress { tag := 7, command := .arm 1 } ∧
      ((busy (.arm 0 0 0) (staged 0)).ax 0).eval.state ≠ .seeking) ∧
    (busy (.moveRelink 0 0 0) (staged 0)).engine.occupant = .mailbox (.moveRelink 0 0 0) ∧
    ((onEval (fun v => { v with state := .seeking })).ax 0).eval.state = .seeking := by decide +kernel

/-- D-8, Case A: a record at the position of two others joins after them, in the lower part. -/
theorem test_linkEvent :
    let s := busy (.arm 3 0 3) ((listed [armedAt 500, armedAt 500, armedAt 520] (fun v => { v with e := 500 })).putRecord 3
      { armedAt 500 with state := .staged })
    let t := after .linkEvent (s.updAx 0 (fun a => { a with cursor := some 2 }))
    (t.ax 0).list = [0, 1, 3, 2] ∧ (t.ax 0).cursor = some 3 ∧ (t.recordAt 3).state = .armed ∧
      t.engine.mailbox = .done { code := .ok, tag := 7, data := 0 } := by decide +kernel

/-- A link request 1 → 0 in progress: its source is as given. -/
def linking (source : Record) : State :=
  ((staged 0).putRecord 1 source).updEngine (fun g => { g with queue := [⟨1, 0⟩], occupant := .link ⟨1, 0⟩ 0 0 })

/-- Witness of LinkEventOfARequest: a source that stays, and one that auto-release frees. -/
theorem witness_linkEventOfARequest :
    ((linking { armedAt 0 with outstanding := 1 }).engine.occupant = .link ⟨1, 0⟩ 0 0 ∧ (1 : Handle) ≠ 0 ∧
      ((linking { armedAt 0 with outstanding := 1 }).ax 0).eval.state ≠ .seeking ∧
      ((linking { armedAt 0 with outstanding := 1 }).recordAt 1).state ≠ .spent) ∧
    (((linking { armedAt 0 with outstanding := 1, state := .spent }).recordAt 1).state = .spent ∧
      ((linking { armedAt 0 with outstanding := 1, state := .spent }).recordAt 1).keep = .auto ∧
      ((linking { armedAt 0 with outstanding := 1, state := .spent }).recordAt 1).isPending = false ∧
      (after .linkEvent (linking { armedAt 0 with outstanding := 1, state := .spent })).recordAt 1 = Record.cleared) := by
  decide +kernel

/-- Witness of UnlinkEventWaitsAndRefuses: a SEEKING axis, a step that holds the record, and a record no longer ARMED. -/
theorem witness_unlinkEventWaitsAndRefuses :
    ((busy (.disarm 0 0) (linked 1)).engine.occupant = .mailbox (.disarm 0 0)) ∧
    ((busy (.disarm 0 0) (listed [armedAt 1] (stepping [0]))).ax 0).eval.step =
      some { dir := .up, turn := 0, run := [0] } ∧
    ((busy (.disarm 0 0) (listed [armedAt 1] (fun v => { v with state := .seeking }))).ax 0).eval.state = .seeking ∧
    (((busy (.disarm 0 0) (staged 0)).recordAt 0).state ≠ .armed ∧
      ((busy (.disarm 0 0) (staged 0)).ax 0).eval.step = none ∧ ((busy (.disarm 0 0) (staged 0)).ax 0).eval.held = none ∧
      (busy (.disarm 0 0) (staged 0)).engine.mailbox = .inProgress { tag := 7, command := .arm 1 }) ∧
    ((after .unlinkEvent (busy (.disarm 0 0) (listed [armedAt 1] (stepping [0])))).recordAt 0).state = .armed := by
  decide +kernel

/-- Witness of UnlinkEventTakesTheRecord: DISARM, MOVE and RETIRE BANK of an ARMED record that no step examines. -/
theorem witness_unlinkEventTakesTheRecord :
    ((busy (.disarm 0 0) (linked 1)).engine.occupant = .mailbox (.disarm 0 0) ∧
      ((busy (.disarm 0 0) (linked 1)).ax 0).eval.state ≠ .seeking ∧ ((busy (.disarm 0 0) (linked 1)).recordAt 0).state = .armed ∧
      ((busy (.disarm 0 0) (linked 1)).ax 0).eval.step = none ∧ ((busy (.disarm 0 0) (linked 1)).ax 0).eval.held = none) ∧
    ((after .unlinkEvent (busy (.disarm 0 0) (linked 1))).recordAt 0).state = .staged ∧
    ((after .unlinkEvent (busy (.moveUnlink 0 0 9) (linked 1))).recordAt 0).position = 9 ∧
    (after .unlinkEvent (busy (.retire 0 1 0 3 (some 0)) (linked 1))).engine.occupant = .mailbox (.retire 0 1 0 4 none) := by
  decide +kernel

/-- T-6: RETIRE BANK 1 over records of banks 0 and 1, with bank 1 inactive or active. -/
def retiring (active : Bank) (place : Nat) : State :=
  busy (.retire 0 1 place 2 none)
    (listed [armedAt 1, { armedAt 2 with bank := 1 }, armedAt 3] (fun v => { v with bank := active }))

/-- Witness of RetireBankWalk: the next record of the bank with the bank active and not, none left, and a SEEKING axis. -/
theorem witness_retireBankWalk :
    ((retiring 0 0).engine.occupant = .mailbox (.retire 0 1 0 2 none) ∧
      (retiring 0 0).engine.mailbox = .inProgress { tag := 7, command := .arm 1 } ∧
      ((retiring 0 0).ax 0).eval.state ≠ .seeking ∧
      ((retiring 0 0).ax 0).list.drop 0 = [0] ++ 1 :: [2] ∧ ((retiring 0 0).recordAt 0).bank ≠ 1 ∧
      ((retiring 0 0).recordAt 1).bank = 1) ∧
    (((retiring 1 0).ax 0).eval.bank = 1 ∧ ((retiring 0 0).ax 0).eval.bank ≠ 1) ∧
    (∀ g ∈ ((retiring 0 2).ax 0).list.drop 2, ((retiring 0 2).recordAt g).bank ≠ 1) ∧
    ((busy (.retire 0 1 0 2 none) (onEval (fun v => { v with state := .seeking }))).ax 0).eval.state = .seeking := by
  decide +kernel

/-- R109, R110: the unlink is sent, PARTIAL and OK carry the count. -/
theorem test_retireBankWalk :
    (after .retireBankCheck (retiring 0 0)).engine.occupant = .mailbox (.retire 0 1 1 2 (some 1)) ∧
      (after .retireBankCheck (retiring 1 0)).engine.mailbox = .done { code := .partialRetire, tag := 7, data := 2 } ∧
      (after .retireBankWalkEnd (retiring 0 2)).engine.mailbox = .done { code := .ok, tag := 7, data := 2 } := by
  decide +kernel

/-! ### Crossing evaluation -/

/-- Axis 0 at C and E, with records at positions in its list and the cursor after those at or below E. -/
def running (rot : Bool) (c e : Int) (turn : Turn) (positions : List Int) : State :=
  (listed (positions.map armedAt) id).updAx 0 (fun a =>
    let b : Axis := if rot then { a with config := { a.config with kind := .rotary, span := 1024 } } else a
    { b with
      front := { b.front with c := c }
      eval := { b.eval with e := e, evalTurn := turn }
      cursor := some (positions.filter (fun p => decide (p ≤ e))).length })

/-- Witness of StepStart: up and down, inside a LINEAR axis and over the ends of a ROTARY one. -/
theorem witness_stepStart :
    ((((running false 500 499 0 [450, 500, 500, 520]).ax 0).eval.state = .tracking ∧
      ((running false 500 499 0 [450, 500, 500, 520]).ax 0).eval.step = none) ∧
      0 < ((running false 500 499 0 []).ax 0).lag ∧ ((running false 500 499 0 []).ax 0).config.kind = .linear) ∧
    (0 < ((running true 0 1023 4 []).ax 0).lag ∧ ((running true 0 1023 4 []).ax 0).config.kind = .rotary ∧
      ((running true 0 1023 4 []).ax 0).eval.e = (1024 : Int) - 1) ∧
    (((running true 0 1 5 []).ax 0).lag < 0 ∧ ((running true 0 1 5 []).ax 0).eval.e ≠ 0) ∧
    (((running true 1023 0 5 []).ax 0).lag < 0 ∧ ((running true 1023 0 5 []).ax 0).eval.e = 0) := by decide +kernel

/-- What a step start leaves: E, the evaluated turn, the run and the lower count. -/
def started (s : State) : Int × Turn × List Handle × Option Nat :=
  let a := (after (.stepStart 0) s).ax 0
  (a.eval.e, a.eval.evalTurn, (a.eval.step.map CrossingStep.run).getD [], a.cursor)

/-- D-8, D-9: the step starts of both examples. -/
theorem test_stepStart :
    [started (running false 500 499 0 [450, 500, 500, 520]), started (running false 499 500 0 [450, 500, 500, 500, 520]),
        started (running true 0 1023 4 [0, 0, 1023]), started (running true 1023 0 5 [0, 0, 1023]),
        started (running true 1022 1023 4 [0, 0, 1023])] =
      [(500, 0, [1, 2], some 3), (499, 0, [3, 2, 1], some 1), (0, 5, [0, 1], some 2), (1023, 4, [1, 0], some 3),
        (1022, 4, [2], some 2)] := by decide +kernel

/-- Axis 0 with a record at 1 to examine, in an up step onto 1, on top of a band. -/
def examining (r : Record) (band : Nat) (queue : List LinkRequest) : State :=
  ((listed [r] (stepping [0])).updAx 0 (fun a => { a with config := { a.config with band := band }, cursor := some 1 })).updEngine
    (fun g => { g with queue := queue })

/-- The step of `examining`. -/
def upStep : CrossingStep := { dir := .up, turn := 0, run := [0] }

theorem examining_examines (r : Record) (band : Nat) (queue : List LinkRequest) :
    Examines (examining r band queue) 0 upStep 0 [] := ⟨rfl, rfl, rfl⟩

/-- The record at 1 with every check of R65 passed. -/
theorem eligible_plain (a : Axis) (bank : a.eval.bank = 0) (guard : a.eval.guard = []) (r : Record) (b : r.bank = 0)
    (d : r.direction = .both) (t : r.turnQualifier = none) (g : r.gate = none) (q : Vector Level 4) :
    Eligible a upStep 0 r q :=
  ⟨by rw [b, bank], .inl d, by rw [guard]; exact fun _ m => absurd m List.not_mem_nil,
    fun _ e => (by rw [t] at e; cases e), fun _ e => (by rw [g] at e; cases e)⟩

/-- Witness of IneligibleRecordPasses: a record of the other bank. -/
theorem witness_ineligibleRecordPasses :
    Examines (examining { armedAt 1 with bank := 1 } 0 []) 0 upStep 0 [] ∧
      ((examining { armedAt 1 with bank := 1 } 0 []).ax 0).eval.held = none ∧
      ¬ Eligible ((examining { armedAt 1 with bank := 1 } 0 []).ax 0) upStep 0
          ((examining { armedAt 1 with bank := 1 } 0 []).recordAt 0) selected.qualifiers :=
  ⟨examining_examines _ _ _, rfl, fun e => absurd e.bank (by decide +kernel)⟩

/-- Witness of FireOfARecordThatGoesOn: budgets 0 and 2, and a LINK fire that finds 7 requests. -/
theorem witness_fireOfARecordThatGoesOn :
    let s := examining { armedAt 1 with budget := 2, followOn := .link 5 } 3 (List.replicate 7 ⟨9, 5⟩)
    Examines s 0 upStep 0 [] ∧ (s.ax 0).eval.held = none ∧ Eligible (s.ax 0) upStep 0 (s.recordAt 0) s.qualifiers ∧
      (s.recordAt 0).state = .armed ∧ (s.recordAt 0).budget ≠ 1 ∧ s.engine.queue.length < 8 := by
  refine ⟨examining_examines _ _ _, rfl, eligible_plain _ ?_ ?_ _ ?_ ?_ ?_ ?_ _, ?_, ?_, ?_⟩ <;> decide +kernel

/-- V-10: TOGGLE L1 at 1000 with band 3, and entry into the guard set. -/
theorem test_fire :
    let t := after (.examineRecord 0) (examining { armedAt 1 with budget := 0, action := .toggle 1 } 3 [])
    (t.line 1).shadow = .high ∧ (t.ax 0).eval.guard = [{ handle := 0, boundary := 1 }] ∧ (t.ax 0).eval.step = none ∧
      (t.recordAt 0).lastFire = some { position := 1, turn := 0, direction := .up } := by decide +kernel

/-- Witness of FireThatExhausts: a record that auto-release frees, and one that its notification keeps SPENT (K-8). -/
theorem witness_fireThatExhausts :
    let s := examining { armedAt 1 with notify := true } 0 []
    Examines s 0 upStep 0 [] ∧ (s.ax 0).eval.held = none ∧ Eligible (s.ax 0) upStep 0 (s.recordAt 0) s.qualifiers ∧
      (s.recordAt 0).budget = 1 ∧ (s.recordAt 0).followOn = .none ∧
      ((after (.examineRecord 0) s).recordAt 0).state = .spent ∧
      ((after (.examineRecord 0) (examining (armedAt 1) 0 [])).recordAt 0).state = .free := by
  refine ⟨examining_examines _ _ _, rfl, eligible_plain _ ?_ ?_ _ ?_ ?_ ?_ ?_ _, ?_⟩ <;> decide +kernel

/-- Record 40 of V-11, at position 1 here. -/
def forty : Record := { armedAt 1 with action := .pulse 2 300, notify := true, followOn := .link 40 }

/-- Witness of LinkFireIsHeld: the queue holds 8 requests. -/
theorem witness_linkFireIsHeld :
    let s := examining forty 0 (List.replicate 8 ⟨9, 5⟩)
    Examines s 0 upStep 0 [] ∧ (s.ax 0).eval.held = none ∧ Eligible (s.ax 0) upStep 0 (s.recordAt 0) s.qualifiers ∧
      (s.recordAt 0).followOn = .link 40 ∧ s.engine.queue.length = 8 := by
  refine ⟨examining_examines _ _ _, rfl, eligible_plain _ ?_ ?_ _ ?_ ?_ ?_ ?_ _, ?_⟩ <;> decide +kernel

/-- V-11: record 40 held, and then the queue with a place free again. -/
def held : State :=
  (after (.examineRecord 0) (examining forty 0 (List.replicate 8 ⟨9, 5⟩))).updEngine (fun g => { g with queue := g.queue.tail })

/-- Witness of HeldFireCompletes, with budget 1 and with budget 0. -/
theorem witness_heldFireCompletes :
    (held.engine.stalled = 0 :: [] ∧ (held.ax 0).eval.held = some { source := 0, target := 40 } ∧
      (held.ax 0).eval.step = some { dir := .up, turn := 0, run := [] } ∧ held.engine.queue.length < 8 ∧
      (held.recordAt 0).state = .armed ∧ (held.recordAt 0).budget = 1) ∧
    ((held.putRecord 0 { held.recordAt 0 with budget := 0 }).recordAt 0).budget ≠ 1 := by decide +kernel

/-- V-11: STALLED with budget 1 and no outstanding link; then SPENT, pending, with one. -/
theorem test_heldFire :
    (held.ax 0).eval.state = .stalled ∧ (held.recordAt 0).outstanding = 0 ∧ (held.line 2).timer = some 300 ∧
      (after .stalledAdderPlace held).engine.queue.length = 8 ∧ (after .stalledAdderPlace held).pendingSet = [0] ∧
      ((after .stalledAdderPlace held).recordAt 0).state = .spent ∧
      ((after .stalledAdderPlace held).recordAt 0).outstanding = 1 ∧
      ((after .stalledAdderPlace held).ax 0).eval.state = .tracking := by decide +kernel

/-- Witness of SeekComplete: a lag of 255 and of 256 at the completion. -/
theorem witness_seekComplete :
    let s (c : Int) := (running false c 0 0 []).updAx 0 (fun a => { a with eval := { a.eval with state := .seeking } })
    ((s 255).ax 0).eval.state = .seeking ∧ ((s 255).ax 0).lag = 255 ∧ ((s 256).ax 0).lag = 256 ∧
      ((after (.seekComplete 0) (s 255)).ax 0).eval.state = .tracking ∧
      ((after (.seekComplete 0) (s 256)).ax 0).flags = 0x10 := by decide +kernel

/-- Witness of AxisEventsStayOnTheirAxis: the six rows it names, each with its next state. -/
theorem witness_axisEventsStayOnTheirAxis :
    axisOfRow (.stepStart 0) = some 0 ∧ axisOfRow (.examineRecord 3) = some 3 ∧ axisOfRow (.seekComplete 1) = some 1 ∧
      axisOfRow (.axisInputChange 2 (.index .high)) = some 2 ∧ axisOfRow (.filterTimeout 2 .ab) = some 2 ∧
      axisOfRow (.rateExpiry 0) = some 0 ∧ (∃ t, exec (.stepStart 0) selected = .next t) :=
  ⟨rfl, rfl, rfl, rfl, rfl, rfl, _, rfl⟩

/-! ### The laws -/

/-- Handle 1 just allocated at reset and linked into the list of axis 0 at position 0. -/
def linkedLone : State :=
  ({ State.reset.resetBlocks with freePool := (List.finRange 1024).tail }.putRecord 0 allocatedRecord).linkRecord 0 0

/-- `linkedLone` in an up step onto 0 that is about to fire the record. -/
def lone : State :=
  { linkedLone.updAx 0 (fun a => { a with eval := { a.eval with step := some upStep } }) with pending := [.examineRecord 0] }

theorem queued_pendingLaw {s : State} (p : PendingLaw s) (pool : List Handle) (q : List Instr) :
    PendingLaw { s with freePool := pool, pending := q } := p.congr rfl rfl

theorem queued_storeCore {s : State} (p : StoreCore s) (q : List Instr) : StoreCore { s with pending := q } :=
  p.congr rfl rfl (fun _ => rfl) rfl

theorem lone_pendingLaw : PendingLaw lone := by
  have start := queued_pendingLaw (PendingLaw.resetBlocks State.reset) (List.finRange 1024).tail []
  have linked : PendingLaw linkedLone := (start.putRecord 0 allocatedRecord).linkRecord 0 0
  exact queued_pendingLaw (linked.updAx 0 _) _ _

theorem lone_lagLaw : LagLaw lone := by
  refine ⟨fun k => ⟨?_, ?_, ?_, ?_, ?_⟩, ?_⟩
  all_goals first
    | (revert k; decide +kernel)
    | decide +kernel

theorem lone_storeLaw : StoreLaw lone := by
  have pool : State.reset.resetBlocks.freePool = 0 :: (List.finRange 1024).tail := by
    rw [resetBlocks_freePool]; decide +kernel
  have linked : StoreCore linkedLone :=
    ((StoreCore.resetBlocks State.reset).allocate 0 _ pool allocatedRecord (by decide) (by decide) rfl).linkRecord 0 0
      (by decide +kernel) (by decide +kernel) (by decide +kernel) (by decide +kernel) (by decide +kernel)
  refine (queued_storeCore (linked.updAx 0 _ fun f => ?_) _).law ?_
  case refine_2 => exact (trivial : True)
  refine ⟨f.listOnce, f.list, f.sorted, f.inAxis, f.cursor, fun st e => ?_, fun x e => ?_, f.guardOnce, f.guard⟩
  · cases e
    exact ⟨by decide, by decide +kernel⟩
  · have none : (linkedLone.ax 0).eval.held = none := by decide +kernel
    cases none.symm.trans e

theorem lone_action (h : Handle) : (lone.recordAt h).action = .none := by
  have same : lone.recordAt h = linkedLone.recordAt h := by simp only [lone, State.recordAt, State.updAx_records]
  rw [same, linkedLone]
  by_cases n : h = 0
  · subst n
    rw [linkRecord_recordAt, State.putRecord_recordAt, if_pos rfl]
    rfl
  · rw [(linkRecord_only _ 0 0).records h n, State.putRecord_recordAt, if_neg n]
    have c := resetBlocks_recordAt State.reset h
    simp only [State.recordAt] at c ⊢
    rw [c]
    rfl

theorem lone_timerLaw : TimerLaw lone where
  line l n e := by
    have none : ∀ l : LineId, (lone.line l).timer = none := by decide +kernel
    rw [none] at e; cases e
  width h l w e := by
    rw [lone_action] at e; cases e
  period := by decide +kernel
  rate k n e := by
    have none : ∀ k : AxisId, (lone.ax k).front.rateTimer = none := by decide +kernel
    rw [none] at e; cases e
  running := by decide +kernel

theorem lone_arbiterLaw : ArbiterLaw lone :=
  ⟨Nat.zero_le _, fun _ => rfl, fun _ => rfl, fun _ => ⟨fun _ => ⟨rfl, fun _ e => (nomatch e)⟩, fun _ => rfl⟩,
    fun e => (nomatch e), fun e => (nomatch e)⟩

/-- Witness of the laws that every step keeps: `lone` meets them all, and its step is a fire that exhausts and frees. -/
theorem witness_stepKeepsTheLaws :
    PendingLaw lone ∧ TimerLaw lone ∧ CapacityLaw lone ∧ ArbiterLaw lone ∧ StallLaw lone ∧ LagLaw lone ∧ StoreLaw lone ∧
      step lone = .next (after (.examineRecord 0) { lone with pending := [] }) ∧
      ((after (.examineRecord 0) { lone with pending := [] }).recordAt 0).state = .free :=
  ⟨lone_pendingLaw, lone_timerLaw, ⟨by decide +kernel, by decide +kernel⟩, lone_arbiterLaw,
    ⟨by decide +kernel, by decide +kernel, by decide +kernel, by decide +kernel⟩, lone_lagLaw, lone_storeLaw, rfl,
    by decide +kernel⟩

/-- Witness of StepKeepsThePortLaw: a port that has just sent its marker, and its next byte. -/
theorem witness_stepKeepsThePortLaw :
    let s : State := { onPort (fun p => { p with phase := .replying, toSend := [0, 0, 0, 0xAA], sdo := .driven 0x5A }) with
      pending := [.spiByteComplete 0] }
    PortLaw s ∧ step s = .next (after (.spiByteComplete 0) { s with pending := [] }) ∧
      (after (.spiByteComplete 0) { s with pending := [] }).port.sdo = .driven 0 :=
  ⟨⟨by decide +kernel, by decide +kernel, by decide +kernel, by decide +kernel, by decide +kernel, by decide +kernel⟩, rfl,
    by decide +kernel⟩

end Sys2Proof.Tests
end

