-- ==== Sys2Proof/Proofs/AxisCounting.lean ====
section
/-! PROOFS. The decoder of the Axis Front End (F-4): what each source makes of a transition, and what a row that hands the decoder
a pair then does to its axis. -/

namespace Sys2Proof.Machine

/-! ### What each source makes of a transition (R46 to R50) -/

/-- The transitions one place forward in the up sequence 00, 10, 11, 01, 00 of a pair (A, B) (R46). -/
def upSequence : List ((Level × Level) × (Level × Level)) :=
  [((.low, .low), (.high, .low)), ((.high, .low), (.high, .high)), ((.high, .high), (.low, .high)),
    ((.low, .high), (.low, .low))]

theorem decodeQuad4_forward :
    ∀ t ∈ upSequence, decodeQuad4 t.1.1 t.1.2 t.2.1 t.2.2 = .count .up := by decide

theorem decodeQuad4_backward :
    ∀ t ∈ upSequence, decodeQuad4 t.2.1 t.2.2 t.1.1 t.1.2 = .count .down := by decide

theorem level_ne_iff {l m : Level} : l ≠ m ↔ (l = .low ∧ m = .high) ∨ (l = .high ∧ m = .low) := by
  cases l <;> cases m <;> decide

/-- A change of both members is two places of the sequence, whichever way each member goes (R48). -/
theorem decodeQuad4_both {a0 b0 a1 b1 : Level} (h : a0 ≠ a1 ∧ b0 ≠ b1) : decodeQuad4 a0 b0 a1 b1 = .phaseError := by
  obtain ⟨ha, hb⟩ := h
  rcases level_ne_iff.mp ha with ⟨rfl, rfl⟩ | ⟨rfl, rfl⟩ <;>
    rcases level_ne_iff.mp hb with ⟨rfl, rfl⟩ | ⟨rfl, rfl⟩ <;> rfl

theorem decodeQuad1_up {a0 b0 a1 b1 : Level} (h : ((a0, b0), (a1, b1)) = ((.low, .high), (.low, .low))) :
    decodeQuad1 a0 b0 a1 b1 = .count .up := by
  cases h; rfl

theorem decodeQuad1_down {a0 b0 a1 b1 : Level} (h : ((a0, b0), (a1, b1)) = ((.low, .low), (.low, .high))) :
    decodeQuad1 a0 b0 a1 b1 = .count .down := by
  cases h; rfl

/-- Away from the boundary between 01 and 00, QUAD1 only looks for phase errors (R47, R48). -/
theorem decodeQuad1_off_boundary {a0 b0 a1 b1 : Level} (up : ((a0, b0), (a1, b1)) ≠ ((.low, .high), (.low, .low)))
    (down : ((a0, b0), (a1, b1)) ≠ ((.low, .low), (.low, .high))) :
    decodeQuad1 a0 b0 a1 b1 = if a0 ≠ a1 ∧ b0 ≠ b1 then .phaseError else .nothing := by
  unfold decodeQuad1
  split
  · exact absurd rfl up
  · exact absurd rfl down
  · rfl

theorem decodeQuad1_both {a0 b0 a1 b1 : Level} (h : a0 ≠ a1 ∧ b0 ≠ b1) : decodeQuad1 a0 b0 a1 b1 = .phaseError := by
  rw [decodeQuad1_off_boundary, if_pos h]
  · rintro ⟨⟩; exact h.1 rfl
  · rintro ⟨⟩; exact h.1 rfl

theorem rises_iff {l m : Level} : rises l m = true ↔ l = .low ∧ m = .high := by
  simp [rises]

/-- The direction is taken from B as it stood before the event (R49). -/
theorem decodeStepDir_rise {a0 b0 a1 : Level} {d : Dir} (rise : a0 = .low ∧ a1 = .high)
    (dir : (if b0 = .high then Dir.up else .down) = d) : decodeStepDir a0 b0 a1 = .count d :=
  (if_pos (rises_iff.mpr rise)).trans (congrArg Decoded.count dir)

theorem decodeStepDir_noRise {a0 b0 a1 : Level} (h : ¬ (a0 = .low ∧ a1 = .high)) : decodeStepDir a0 b0 a1 = .nothing :=
  if_neg (mt rises_iff.mp h)

section UpDown
variable {a0 b0 a1 b1 : Level}

theorem decodeUpDown_riseA (ha : a0 = .low ∧ a1 = .high) (hb : ¬ (b0 = .low ∧ b1 = .high)) :
    decodeUpDown a0 b0 a1 b1 = .count .up := by
  simp [decodeUpDown, rises_iff.mpr ha, mt rises_iff.mp hb]

theorem decodeUpDown_riseB (ha : ¬ (a0 = .low ∧ a1 = .high)) (hb : b0 = .low ∧ b1 = .high) :
    decodeUpDown a0 b0 a1 b1 = .count .down := by
  simp [decodeUpDown, mt rises_iff.mp ha, rises_iff.mpr hb]

/-- Both rising or neither: an up and a down count together leave C where it was (R50). -/
theorem decodeUpDown_alike (h : a0 = .low ∧ a1 = .high ↔ b0 = .low ∧ b1 = .high) :
    decodeUpDown a0 b0 a1 b1 = .nothing := by
  have alike : rises a0 a1 = rises b0 b1 := Bool.eq_iff_iff.mpr (rises_iff.trans (h.trans rises_iff.symm))
  unfold decodeUpDown
  rw [alike]
  cases rises b0 b1 <;> rfl

end UpDown

/-! ### What a row does with the decoded transition (R45, R48) -/

section DecodedRow
variable {s : State} {k : AxisId} {i : Instr} {fa fb : InputFilter} {src : Source}

theorem PairRow.exec_count (p : PairRow s k i fa fb) (counting : (s.ax k).front.state = .counting)
    (change : fa.accepted ≠ (s.ax k).front.inputA.accepted ∨ fb.accepted ≠ (s.ax k).front.inputB.accepted)
    (source : (s.ax k).config.source = src) {d : Dir}
    (made : decodePair src (s.ax k).front.storedA (s.ax k).front.storedB fa.accepted fb.accepted = .count d) :
    exec i s = .next (s.setAx k (((s.ax k).withPair fa fb).count d)) := by
  rw [p.exec_eq, Axis.handOnPair_counting _ _ _ counting change, source, made]

theorem PairRow.exec_nothing (p : PairRow s k i fa fb) (counting : (s.ax k).front.state = .counting)
    (change : fa.accepted ≠ (s.ax k).front.inputA.accepted ∨ fb.accepted ≠ (s.ax k).front.inputB.accepted)
    (source : (s.ax k).config.source = src)
    (made : decodePair src (s.ax k).front.storedA (s.ax k).front.storedB fa.accepted fb.accepted = .nothing) :
    exec i s = .next (s.setAx k ((s.ax k).withPair fa fb)) := by
  rw [p.exec_eq, Axis.handOnPair_counting _ _ _ counting change, source, made]

theorem PairRow.exec_phaseError (p : PairRow s k i fa fb) (counting : (s.ax k).front.state = .counting)
    (change : fa.accepted ≠ (s.ax k).front.inputA.accepted ∨ fb.accepted ≠ (s.ax k).front.inputB.accepted)
    (source : (s.ax k).config.source = src)
    (made : decodePair src (s.ax k).front.storedA (s.ax k).front.storedB fa.accepted fb.accepted = .phaseError) :
    exec i s = .next (s.setAx k { (s.ax k).withPair fa fb with
      front := { ((s.ax k).withPair fa fb).front with
        state := if (s.ax k).config.strict = true then .faultedPhase else .counting }
      flags := (s.ax k).flags ||| 0x08 }) := by
  rw [p.exec_eq, Axis.handOnPair_counting _ _ _ counting change, source, made]

end DecodedRow

/-! ### The statements -/

/-- Settles O31: the row is one decoder event, and the source's table says what it makes of the transition. -/
theorem quadratureSources : Obligations.QuadratureSources := by
  intro s k i fa fb p counting a step forward both change
  refine ⟨fun source h => ?up4, fun source h => ?down4, fun source h => ?up1, fun source h => ?down1,
    fun source one up down => ?quiet1, fun source h => ?error⟩
  case up4 => exact p.exec_count counting change source (decodeQuad4_forward step h)
  case down4 => exact p.exec_count counting change source (decodeQuad4_backward step.swap h)
  case up1 => exact p.exec_count counting change source (decodeQuad1_up h)
  case down1 => exact p.exec_count counting change source (decodeQuad1_down h)
  case quiet1 =>
    exact p.exec_nothing counting change source ((decodeQuad1_off_boundary up down).trans (if_neg one))
  case error =>
    rcases source with source | source
    · exact p.exec_phaseError counting change source (decodeQuad4_both h)
    · exact p.exec_phaseError counting change source (decodeQuad1_both h)

/-- Settles O32: the row is one decoder event, and the rising changes of A and B decide what the source makes of it. -/
theorem pulseSources : Obligations.PulseSources := by
  intro s k i fa fb p a riseA riseB change
  refine ⟨fun counting source rise high => ?stepUp, fun counting source rise low => ?stepDown,
    fun counting source still => ?stepStill, fun counting source ha hb => ?up, fun counting source ha hb => ?down,
    fun counting source alike => ?alike, fun idle => ?idle⟩
  case stepUp => exact p.exec_count counting change source (decodeStepDir_rise rise (if_pos high))
  case stepDown => exact p.exec_count counting change source (decodeStepDir_rise rise (if_neg (by rw [low]; decide)))
  case stepStill => exact p.exec_nothing counting change source (decodeStepDir_noRise still)
  case up => exact p.exec_count counting change source (decodeUpDown_riseA ha hb)
  case down => exact p.exec_count counting change source (decodeUpDown_riseB ha hb)
  case alike => exact p.exec_nothing counting change source (decodeUpDown_alike alike)
  case idle => rw [p.exec_eq, Axis.handOnPair_stores a fa fb idle change]

end Sys2Proof.Machine
end

