-- ==== Sys2Proof/Proofs/ActionLines.lean ====
section
/-! PROOFS. The Line Driver (chapter 5): what each line request makes of the line it names (R83), and what storing a line leaves. -/

namespace Sys2Proof.Machine

/-! ### TOGGLE, by the shadow before it (R83) -/

theorem lineRequest_toggle_low {s : State} {l : LineId} (low : (s.line l).shadow = .low) :
    s.lineRequest (.toggle l) = s.setLine l { s.line l with shadow := .high, timer := none } := by
  simp [State.lineRequest, low, flipLevel]

theorem lineRequest_toggle_high {s : State} {l : LineId} (high : (s.line l).shadow = .high) :
    s.lineRequest (.toggle l) = s.setLine l { s.line l with shadow := .low, timer := none } := by
  simp [State.lineRequest, high, flipLevel]

/-! ### The frame of a line stored (R81) -/

theorem State.setLine_eq (s : State) (l : LineId) (x : Line) :
    s.setLine l x = { s with lines := (s.setLine l x).lines } := rfl

/-! ### The statement -/

/-- Settles O24: SET, CLEAR and PULSE store what the table says whatever the shadow and the timer were; only TOGGLE looks at the
shadow, and a line stored changes the lines alone, at its own place. -/
theorem lineRequest : Obligations.LineRequest := by
  intro s l
  refine ⟨?set, ?clear, lineRequest_toggle_low, lineRequest_toggle_high, fun width => ?pulse, fun x => ?frame⟩
  case set => rfl
  case clear => rfl
  case pulse => rfl
  case frame =>
    exact ⟨s.setLine_line_same l x, fun m other => s.setLine_line_ne l m x other, s.setLine_eq l x⟩

end Sys2Proof.Machine
end

