-- ==== Sys2Proof/Proofs/TableEngine.lean ====
section
/-! PROOFS. The mailbox of the Table Engine as the port reads it (R97): the one answer of GET RESULT, and what that answer shows
in each state of the mailbox (R153). -/

namespace Sys2Proof.Machine

/-! ### The row -/

/-- GET RESULT is served from the engine as it stands when its request ends, which receiving the request does not touch. -/
theorem exec_getResult_of_ready {s : State} {tag : Byte} (r : Ready s 0x18 tag []) :
    exec (.getResult tag []) s = .next ((s.heard 0x18 tag []).answer tag (resultReply s.engine)) :=
  congrArg Host.Outcome.next (hostCommand_of_ready (serveGetResult []) r (by decide))

theorem answers_getResult {s : State} {tag : Byte} {reply : Reply} (r : Ready s 0x18 tag [])
    (shown : resultReply s.engine = reply) : Answers (.getResult tag []) s (s.heard 0x18 tag []) tag reply :=
  answers_of (shown ▸ exec_getResult_of_ready r)

/-! ### The reply by the state of the mailbox (R97) -/

theorem resultReply_done {g : Engine} {r : TableResult} (done : g.mailbox = .done r) :
    resultReply g =
      { code := .ok, data := BitVec.ofNat 8 (resultCode r.code) :: r.tag :: le16 r.data ++ engineData g } := by
  unfold resultReply
  rw [done]
  rfl

/-- Short of DONE the reply is the mailbox state and the tag held, whatever the mailbox holds beside the tag. -/
theorem resultReply_noResult {g : Engine} {m : Mailbox} (held : g.mailbox = m) (notDone : ∀ r, m ≠ .done r) :
    resultReply g =
      { code := .noResult, data := BitVec.ofNat 8 (mailboxCode m) :: heldTag m :: engineData g } := by
  unfold resultReply
  rw [held]
  split
  case h_1 r => exact absurd rfl (notDone r)
  case h_2 => rfl

/-! ### The statement -/

/-- Settles O20: the row has one answer, its last three bytes are the engine's in every case, and the state of the mailbox
decides the bytes before them. -/
theorem getResult : Obligations.GetResult := by
  intro s tag ready g engine
  have engineBytes : engineData g = engine := by
    unfold engineData engine
    cases g.occupant <;> rfl
  have noResult {m : Mailbox} (held : g.mailbox = m) (notDone : ∀ r, m ≠ .done r) :
      Answers (.getResult tag []) s (s.heard 0x18 tag []) tag
        { code := .noResult, data := BitVec.ofNat 8 (mailboxCode m) :: heldTag m :: engine } := by
    rw [← engineBytes]
    exact answers_getResult ready (resultReply_noResult held notDone)
  refine ⟨fun r done => ?done, fun empty => ?empty, fun c waiting => ?waiting, fun c inProgress => ?inProgress⟩
  case done =>
    rw [← engineBytes]
    refine answers_getResult ready ((resultReply_done done).trans ?_)
    cases r.code <;> rfl
  case empty => exact noResult empty nofun
  case waiting => exact noResult waiting nofun
  case inProgress => exact noResult inProgress nofun

end Sys2Proof.Machine
end

