-- ==== Sys2Proof/Proofs/NotificationsAndAttention.lean ====
section
/-! PROOFS. The axis flags of the Notification Unit (chapter 8): how ACK AXIS answers and what it clears (R133), and when the axis
source of nATTN is false (R137). -/

namespace Sys2Proof.Machine

/-! ### The row -/

theorem exec_ackAxis_of_ready {s : State} {tag ax mask : Byte} (r : Ready s 0x08 tag [ax, mask]) :
    exec (.ackAxis tag [ax, mask]) s =
      .next (State.served tag (serveAckAxis [ax, mask] (s.heard 0x08 tag [ax, mask]))) :=
  congrArg Host.Outcome.next (hostCommand_of_ready (serveAckAxis [ax, mask]) r (by simp))

theorem serveAckAxis_axis {ax : Byte} {k : AxisId} (named : ax.toNat = k.val) (mask : Byte) (s : State) :
    serveAckAxis [ax, mask] s =
      (s.setAx k { s.ax k with flags := (s.ax k).flags &&& ~~~mask }, okWith [(s.ax k).flags]) :=
  withAxis_some named s _

theorem serveAckAxis_noAxis {ax : Byte} (none : 3 < ax.toNat) (mask : Byte) (s : State) :
    serveAckAxis [ax, mask] s = (s, badArg) :=
  withAxis_none none s _

/-- The reply carries the flags as they stood before the clear. -/
theorem answers_ackAxis {s : State} {tag ax mask : Byte} {k : AxisId} (r : Ready s 0x08 tag [ax, mask])
    (named : ax.toNat = k.val) :
    Answers (.ackAxis tag [ax, mask]) s
      ((s.heard 0x08 tag [ax, mask]).setAx k { s.ax k with flags := (s.ax k).flags &&& ~~~mask }) tag
      { code := .ok, data := [(s.ax k).flags] } :=
  answers_of (by rw [exec_ackAxis_of_ready r, serveAckAxis_axis named]; rfl)

theorem answers_ackAxis_badArg {s : State} {tag ax mask : Byte} (r : Ready s 0x08 tag [ax, mask]) (none : 3 < ax.toNat) :
    Answers (.ackAxis tag [ax, mask]) s (s.heard 0x08 tag [ax, mask]) tag (bare .badArg) :=
  answers_of (by rw [exec_ackAxis_of_ready r, serveAckAxis_noAxis none]; rfl)

/-! ### The flags and the axis source -/

theorem getLsbD_and_not {w : Nat} (flags mask : BitVec w) (i : Fin w) :
    (flags &&& ~~~mask).getLsbD i = (flags.getLsbD i && !mask.getLsbD i) := by
  rw [BitVec.getLsbD_and, BitVec.getLsbD_not, decide_eq_true i.isLt, Bool.true_and]

/-- The axis source is derived, not stored: with no enabled flag left it is false at once (R137, Log 13). -/
theorem axisSource_eq_false {s : State} (clear : ∀ k, (s.ax k).flags &&& (s.ax k).mask = 0) : s.axisSource = false := by
  rw [← Bool.not_eq_true, axisSource_iff]
  rintro ⟨k, attention⟩
  exact bne_iff_ne.mp attention (clear k)

/-! ### The statement -/

/-- Settles O18: the state that answers is the one served, with the flags ANDed with the complement of the mask; the frame, the
bits and the axis source are read off it. An axis above 3 is refused before anything is cleared. -/
theorem ackAxis : Obligations.AckAxis := by
  intro s tag ax mask
  refine ⟨fun k named ready => ?acked, fun none ready => ?refused⟩
  case acked =>
    refine ⟨_, answers_ackAxis ready named, ?frame, fun i => ?bits, axisSource_eq_false⟩
    case frame => rw [State.setAx_ax_same]
    case bits => rw [State.setAx_ax_same, getLsbD_and_not]
  case refused => exact answers_ackAxis_badArg ready none

end Sys2Proof.Machine
end

