-- ==== Sys2Proof/Proofs/HostCommandPort.lean ====
section
/-! PROOFS. The commands that the Host Port serves by itself (chapter 9): IDENT, whose reply depends on no block (R148). -/

namespace Sys2Proof.Machine

/-! ### IDENT (R148) -/

/-- Two of R148's fields have two bytes, least significant first: the part code 0x0408 and the record capacity 1,024. -/
theorem identData_bytes : identData = [0x08, 0x04, 1, 4, 8, 4, 0x00, 0x04, 8, 8] := by decide

theorem serveIdent_noParams (s : State) : serveIdent [] s = (s, okWith identData) := rfl

theorem exec_ident_of_ready {s : State} {tag : Byte} (r : Ready s 0x01 tag []) :
    exec (.ident tag []) s = .next (State.served tag (serveIdent [] (s.heard 0x01 tag []))) :=
  congrArg Host.Outcome.next (hostCommand_of_ready (serveIdent []) r (by decide))

/-- Settles O9: the state that answers is the one that has heard the request, since the port serves IDENT without an effect, and
the data of the reply are the identification values byte by byte. -/
theorem ident : Obligations.Ident := by
  intro s tag ready
  have served : exec (.ident tag []) s = .next ((s.heard 0x01 tag []).answer tag (okWith identData)) := by
    rw [exec_ident_of_ready ready, serveIdent_noParams, State.served]
  rw [identData_bytes] at served
  exact answers_of served

end Sys2Proof.Machine
end

section
/-! PROOFS. What the rows of the Table Engine and the examination of a record can do, said once: every law of the device goes
through the cases of `Begun`, `EngineRow` and `Examined`. -/

namespace Sys2Proof.Machine

/-! ### Table commands at their grant (R101 to R110) -/

/-- What the checks of a table command lead to, in the event that takes the command. -/
inductive Begun (s : State) : State → Prop where
  | ended (code : ResultCode) (data : Nat) : Begun s (s.finishMailbox code data)
  | allocated (h : Handle) (rest : List Handle) (head : s.freePool = h :: rest) :
      Begun s (({ s with freePool := rest }.putRecord h allocatedRecord).finishMailbox .ok (handleNumber h))
  | staged (h : Handle) (image : List Byte) (r : Record) (state : (s.recordAt h).state = .staged)
      (given : stageRecord h (s.recordAt h) image = some r) : Begun s ((s.putRecord h r).finishMailbox .ok 0)
  | released (h : Handle) (state : (s.recordAt h).state = .staged ∨ (s.recordAt h).state = .spent)
      (unlinked : (s.recordAt h).outstanding = 0) : Begun s ((s.freeRecord h).finishMailbox .ok 0)
  | arms (h : Handle) (state : (s.recordAt h).state = .staged) (fits : s.armChecks (s.recordAt h) = true) :
      Begun s (s.occupy (.arm h (s.recordAt h).axis 0))
  | disarms (h : Handle) (state : (s.recordAt h).state = .armed) : Begun s (s.occupy (.disarm h (s.recordAt h).axis))
  | moves (h : Handle) (p : Int) (state : (s.recordAt h).state = .armed)
      (fits : inRange (s.ax (s.recordAt h).axis).config p = true) :
      Begun s (s.occupy (.moveUnlink h (s.recordAt h).axis p))
  | retires (k : AxisId) (bank : Bank) : Begun s (s.occupy (.retire k bank 0 0 none))

theorem Begun.withHandle {s : State} (n : Nat) (op : Handle → State) (h : ∀ g, Begun s (op g)) :
    Begun s (s.withHandle n op) := by
  unfold State.withHandle
  split
  · exact h _
  · exact .ended _ _

theorem opAllocate_begun (s : State) : Begun s s.opAllocate := by
  unfold State.opAllocate
  split
  · exact .ended _ _
  · next h rest head => exact .allocated h rest head

theorem opStage_begun (s : State) (h : Handle) (image : List Byte) : Begun s (s.opStage h image) := by
  unfold State.opStage
  dsimp only
  split
  · next ready =>
    split
    · next r given => exact .staged h image r ready.1 given
    · exact .ended _ _
  · exact .ended _ _

theorem opArm_begun (s : State) (h : Handle) : Begun s (s.opArm h) := by
  unfold State.opArm
  dsimp only
  split
  · next state =>
    split
    · next fits => exact .arms h state fits
    · exact .ended _ _
  · exact .ended _ _

theorem opDisarm_begun (s : State) (h : Handle) : Begun s (s.opDisarm h) := by
  unfold State.opDisarm
  dsimp only
  split
  · next state => exact .disarms h state
  · exact .ended _ _

theorem opMove_begun (s : State) (h : Handle) (p : Int) : Begun s (s.opMove h p) := by
  unfold State.opMove
  dsimp only
  split
  · next state =>
    split
    · next fits => exact .moves h p state fits
    · exact .ended _ _
  · exact .ended _ _

theorem opRelease_begun (s : State) (h : Handle) : Begun s (s.opRelease h) := by
  unfold State.opRelease
  dsimp only
  split
  · next state =>
    split
    · next unlinked => exact .released h state unlinked
    · exact .ended _ _
  · exact .ended _ _

theorem opRetire_begun (s : State) (k : AxisId) (bank : Bank) : Begun s (s.opRetire k bank) := by
  unfold State.opRetire
  split
  · exact .ended _ _
  · exact .retires k bank

theorem beginCommand_begun (s : State) (command : TableCommand) : Begun s (s.beginCommand command) := by
  cases command with
  | allocate => exact opAllocate_begun s
  | stage n image => exact .withHandle n _ (fun h => opStage_begun s h image)
  | arm n => exact .withHandle n _ (opArm_begun s)
  | disarm n => exact .withHandle n _ (opDisarm_begun s)
  | move n p => exact .withHandle n _ (fun h => opMove_begun s h p)
  | release n => exact .withHandle n _ (opRelease_begun s)
  | retireBank k bank => exact opRetire_begun s k bank

/-! ### The rows of the engine -/

/-- The engine has taken the waiting command, and its checks come next (R96, R100, R101). -/
def State.commandTaken (s : State) (request : TableRequest) : State :=
  s.updEngine (fun g => { g with
    occupant := .mailbox (.checking request.command), mailbox := .inProgress request, streak := 0, claim := none })

/-- The engine has taken the oldest link request, and its checks come next (R98, R100, R111). -/
def State.linkTaken (s : State) (request : LinkRequest) : State :=
  s.updEngine (fun g => { g with occupant := .linkChecks request, streak := g.streakAtLink, claim := none })

theorem takeMailbox_eq (s : State) (request : TableRequest) :
    s.takeMailbox request = (s.commandTaken request).beginCommand request.command := rfl

theorem takeLink_eq_checkLink (s : State) (request : LinkRequest) :
    s.takeLink request = (s.linkTaken request).checkLink request := rfl

/-- The operation goes on after a step of its walk, or after a record that its walk has met (R26, R109, R110). -/
inductive GoesOn (s : State) : Occupant → Occupant → Prop where
  | arm (h : Handle) (k : AxisId) (place place' : Nat) :
      GoesOn s (.mailbox (.arm h k place)) (.mailbox (.arm h k place'))
  | relink (h : Handle) (k : AxisId) (place place' : Nat) :
      GoesOn s (.mailbox (.moveRelink h k place)) (.mailbox (.moveRelink h k place'))
  | link (r : LinkRequest) (k : AxisId) (place place' : Nat) : GoesOn s (.link r k place) (.link r k place')
  | retire (k : AxisId) (bank : Bank) (place place' count : Nat) (sent : Option Handle) :
      GoesOn s (.mailbox (.retire k bank place count sent)) (.mailbox (.retire k bank place' count none))
  | sends (k : AxisId) (bank : Bank) (place place' count : Nat) (h : Handle) (listed : h ∈ (s.ax k).list) :
      GoesOn s (.mailbox (.retire k bank place count none)) (.mailbox (.retire k bank place' count (some h)))

/-- The operation unlinks record `h` from list `k`; the record becomes `r`, and the engine goes on as `f` says (R106, R107,
R110). -/
inductive Unlinks (s : State) : Operation → Handle → AxisId → Record → (State → State) → Prop where
  | disarm (h : Handle) (k : AxisId) :
      Unlinks s (.disarm h k) h k { s.recordAt h with state := .staged } (fun t => t.finishMailbox .ok 0)
  | move (h : Handle) (k : AxisId) (p : Int) :
      Unlinks s (.moveUnlink h k p) h k { s.recordAt h with state := .moving, position := p }
        (fun t => t.occupy (.moveRelink h k 0))
  | retire (k : AxisId) (bank : Bank) (place count : Nat) (h : Handle) :
      Unlinks s (.retire k bank place count (some h)) h k { s.recordAt h with state := .staged }
        (fun t => t.occupy (.retire k bank place (count + 1) none))

/-- What a row of the engine, or the walk of a step with no row to run, can do. -/
inductive EngineRow (s : State) : State → Prop where
  | stays : EngineRow s s
  | begins (request : TableRequest) (free : s.engine.occupant = .none) (turn : s.engine.claim = some .command)
      (waiting : s.engine.mailbox = .waiting request) (t : State) (b : Begun (s.commandTaken request) t) : EngineRow s t
  | linkBegins (request : LinkRequest) (rest : List LinkRequest) (free : s.engine.occupant = .none)
      (turn : s.engine.claim = some .link) (oldest : s.engine.queue = request :: rest)
      (staged : (s.recordAt request.target).state = .staged)
      (fits : s.armChecks (s.recordAt request.target) = true) :
      EngineRow s ((s.linkTaken request).updEngine (fun g =>
        { g with occupant := .link request (s.recordAt request.target).axis 0 }))
  | linkRefused (request : LinkRequest) (rest : List LinkRequest) (free : s.engine.occupant = .none)
      (turn : s.engine.claim = some .link) (oldest : s.engine.queue = request :: rest) :
      EngineRow s ((s.linkTaken request).finishLink request.source true)
  | linked (h : Handle) (k : AxisId) (place : Nat)
      (work : s.engine.occupant = .mailbox (.arm h k place) ∨ s.engine.occupant = .mailbox (.moveRelink h k place))
      (still : (s.ax k).eval.state ≠ .seeking) : EngineRow s ((s.linkRecord k h).finishMailbox .ok 0)
  | linkedRequest (r : LinkRequest) (k : AxisId) (place : Nat) (work : s.engine.occupant = .link r k place)
      (still : (s.ax k).eval.state ≠ .seeking) :
      EngineRow s ((s.linkRecord k r.target).finishLink r.source false)
  | unlinked (operation : Operation) (h : Handle) (k : AxisId) (r : Record) (f : State → State)
      (work : s.engine.occupant = .mailbox operation) (unlinks : Unlinks s operation h k r f)
      (armed : (s.recordAt h).state = .armed) (taken : s.unlinkWaits k h = false) :
      EngineRow s (f (s.unlinkRecord k h r))
  | ended (code : ResultCode) (data : Nat) (busy : s.engine.occupant ≠ .none) : EngineRow s (s.finishMailbox code data)
  | goesOn (o : Occupant) (next : GoesOn s s.engine.occupant o) :
      EngineRow s (s.updEngine (fun g => { g with occupant := o }))

theorem EngineRow.occupy {s : State} {o : Occupant} (work : s.engine.occupant = o) (operation : Operation)
    (next : GoesOn s o (.mailbox operation)) : EngineRow s (s.occupy operation) :=
  .goesOn _ (work ▸ next)

theorem grant_row (s : State) : EngineRow s s.grant := by
  rcases grant_cases s with e | ⟨request, free, turn, waiting, e⟩ | ⟨request, rest, free, turn, oldest, e⟩ <;> rw [e]
  · exact .stays
  · rw [takeMailbox_eq]
    exact .begins request free turn waiting _ (beginCommand_begun _ _)
  · rw [takeLink_eq_checkLink]
    unfold State.checkLink
    dsimp only
    split
    · next checks => exact .linkBegins request rest free turn oldest checks.1 checks.2
    · exact .linkRefused request rest free turn oldest

theorem linkEvent_row (s : State) : EngineRow s s.linkEvent := by
  have still {k : AxisId} (h : ¬ s.seeking k = true) : (s.ax k).eval.state ≠ .seeking := mt (seeking_iff s k).mpr h
  unfold State.linkEvent
  split
  · next h k place work =>
    split
    · exact .stays
    · next n => exact .linked h k place (.inl work) (still n)
  · next h k place work =>
    split
    · exact .stays
    · next n => exact .linked h k place (.inr work) (still n)
  · next r k place work =>
    split
    · exact .stays
    · next n => exact .linkedRequest r k place work (still n)
  · exact .stays

theorem unlinkEvent_row (s : State) : EngineRow s s.unlinkEvent := by
  have busy {o : Operation} (work : s.engine.occupant = .mailbox o) : s.engine.occupant ≠ .none := by rw [work]; nofun
  unfold State.unlinkEvent
  split
  · next h k work =>
    split
    · exact .stays
    · next n =>
      unfold State.unlinkDisarm
      dsimp only
      split
      · next armed => exact .unlinked _ h k _ _ work (.disarm h k) armed (by simpa using n)
      · exact .ended _ _ (busy work)
  · next h k p work =>
    split
    · exact .stays
    · next n =>
      unfold State.unlinkMove
      dsimp only
      split
      · next armed => exact .unlinked _ h k _ _ work (.move h k p) armed (by simpa using n)
      · exact .ended _ _ (busy work)
  · next k bank place count h work =>
    split
    · exact .stays
    · next n =>
      unfold State.unlinkRetire
      dsimp only
      split
      · next armed => exact .unlinked _ h k _ _ work (.retire k bank place count h) armed (by simpa using n)
      · exact .occupy work _ (.retire ..)
  · exact .stays

/-- The record that the walk of RETIRE BANK meets stands in the list that it walks. -/
theorem nextOfBank_mem (s : State) (bank : Bank) {l : List Handle} {passed : Nat} {h : Handle}
    (e : s.nextOfBank bank l = some (passed, h)) : h ∈ l := by
  induction l generalizing passed with
  | nil => cases e
  | cons x xs ih =>
    unfold State.nextOfBank at e
    split at e
    · cases e; exact List.mem_cons_self
    · obtain ⟨⟨n, g⟩, found, same⟩ := Option.map_eq_some_iff.mp e
      cases same
      exact List.mem_cons_of_mem _ (ih found)

theorem retireCheck_row (s : State) : EngineRow s s.retireCheck := by
  unfold State.retireCheck
  split
  · next k bank place count work =>
    split
    · exact .stays
    · split
      · exact .stays
      · next passed h found =>
        split
        · exact .ended _ _ (by rw [work]; nofun)
        · exact .occupy work _ (.sends k bank place _ count h (List.mem_of_mem_drop (nextOfBank_mem s bank found)))
  · exact .stays

theorem retireEnd_row (s : State) : EngineRow s s.retireEnd := by
  unfold State.retireEnd
  split
  · next work =>
    split
    · exact .stays
    · split
      · exact .ended _ _ (by rw [work]; nofun)
      · exact .stays
  · exact .stays

theorem walkOn_row (s : State) : EngineRow s s.walkOn := by
  unfold State.walkOn
  split
  · next work =>
    split
    · exact .occupy work _ (.arm ..)
    · exact .stays
  · next work =>
    split
    · exact .occupy work _ (.relink ..)
    · exact .stays
  · next work =>
    split
    · exact .occupy work _ (.retire ..)
    · exact .stays
  · next r k place work =>
    split
    · exact .goesOn _ (work ▸ .link r k place _)
    · exact .stays
  · exact .stays

/-! ### Examinations and held fires -/

/-- What an examination on axis `k` can do (R63, R65). -/
inductive Examined (s : State) (k : AxisId) : State → Prop where
  | nothing : Examined s k s
  | passes (st : CrossingStep) (h : Handle) (rest : List Handle) (x : Examines s k st h rest) :
      Examined s k ((s.updAx k (Axis.setRun st rest)).updAx k Axis.stepGoesOn)
  | fires (st : CrossingStep) (h : Handle) (rest : List Handle) (x : Examines s k st h rest)
      (e : eligible (s.recordAt h) h (s.ax k).eval st s.qualifiers = true) :
      Examined s k (((s.updAx k (Axis.setRun st rest)).fire k h st.dir st.turn).updAx k Axis.stepGoesOn)

theorem examine_examined (s : State) (k : AxisId) : Examined s k (s.examine k) := by
  by_cases at_work : ∃ st h rest, Examines s k st h rest
  · obtain ⟨st, h, rest, x⟩ := at_work
    rw [examine_eq x]
    split
    · next e => exact .fires st h rest x e
    · exact .passes st h rest x
  · have idle : s.examine k = s := by
      unfold State.examine
      dsimp only
      split
      · next st tracking step =>
        split
        · rfl
        · next h rest run => exact absurd ⟨st, h, rest, tracking, step, run⟩ at_work
      · rfl
    rw [idle]
    exact .nothing

/-- What STALLED_ADDER_PLACE can do (R99). -/
inductive Placed (s : State) : State → Prop where
  | nothing : Placed s s
  | completes (k : AxisId) (rest : List AxisId) (f : HeldFire) (stalled : s.engine.stalled = k :: rest)
      (held : (s.ax k).eval.held = some f) (room : s.engine.queue.length < Config.linkQueueDepth) :
      Placed s ((s.updEngine (fun g => { g with stalled := rest })).completeHeld k f)

theorem placeStalled_placed (s : State) : Placed s s.placeStalled := by
  unfold State.placeStalled
  split
  · exact .nothing
  · next k rest stalled =>
    split
    · exact .nothing
    · next f held =>
      split
      · next room => exact .completes k rest f stalled held room
      · exact .nothing

/-! ### Changes that reach no record and no line -/

/-- The Record Store, the pending set and the lines are as they were. -/
structure StoreKept (s t : State) : Prop where
  records : t.records = s.records
  freePool : t.freePool = s.freePool
  pendingSet : t.pendingSet = s.pendingSet
  lines : t.lines = s.lines

theorem handOnIndex_eq (s : State) (k : AxisId) (f : InputFilter) : s.handOnIndex k f =
    if f.accepted = (s.ax k).front.inputI.accepted
      then s.setAx k { s.ax k with front := { (s.ax k).front with inputI := f } }
      else (s.setAx k { s.ax k with front := { (s.ax k).front with inputI := f } }).indexEdge k f.accepted := rfl

/-- What an index edge on axis `k` can do (R115, R117, R122, R124). -/
inductive Indexed (s : State) (k : AxisId) : State → Prop where
  | nothing : Indexed s k s
  | captures (v : CaptureSlot) : Indexed s k (s.updAx k (Axis.captureValue v))
  | homes : Indexed s k ((s.updAx k Axis.homeRebase).seekStart k (s.ax k).config.indexPreset 0)
  | tracks (mode : (s.ax k).config.indexMode = .track) :
      Indexed s k ((s.updAx k Axis.trackRebase).seekStart k (s.ax k).config.indexPreset (s.ax k).trackTurn)

theorem indexEdge_indexed (s : State) (k : AxisId) (l : Level) : Indexed s k (s.indexEdge k l) := by
  unfold State.indexEdge
  dsimp only
  split
  · split
    · exact .homes
    · split
      · exact .nothing
      · exact .captures _
      · next mode =>
        split
        · exact .nothing
        · exact .tracks mode
  · exact .nothing

theorem Indexed.store {s t : State} {k : AxisId} (x : Indexed s k t) : StoreKept s t := by
  cases x with
  | nothing => exact ⟨rfl, rfl, rfl, rfl⟩
  | captures v => exact ⟨rfl, rfl, rfl, rfl⟩
  | homes => exact ⟨rfl, rfl, rfl, rfl⟩
  | tracks mode => exact ⟨rfl, rfl, rfl, rfl⟩

theorem handOnIndex_store (s : State) (k : AxisId) (f : InputFilter) : StoreKept s (s.handOnIndex k f) := by
  rw [handOnIndex_eq]
  split
  · exact ⟨rfl, rfl, rfl, rfl⟩
  · obtain ⟨records, freePool, pendingSet, lines⟩ := (indexEdge_indexed
      (s.setAx k { s.ax k with front := { (s.ax k).front with inputI := f } }) k f.accepted).store
    exact ⟨records, freePool, pendingSet, lines⟩

theorem configure_store (s : State) (k : AxisId) (c : AxisConfig) : StoreKept s (s.configure k c) := by
  unfold State.configure
  dsimp only
  split <;> exact ⟨rfl, rfl, rfl, rfl⟩

/-- The mailbox takes a command: only the engine can differ. -/
theorem mailboxTake_eq (s : State) (request : TableRequest) : (s.mailboxTake request).1 = s ∨
    (s.mailboxTake request).1 = s.updEngine (fun g => Engine.arrived { g with mailbox := .waiting request }) := by
  unfold State.mailboxTake
  split
  · exact .inr rfl
  · exact .inr rfl
  · exact .inl rfl
  · exact .inl rfl

end Sys2Proof.Machine
end

section
/-! PROOFS. The law of the pending set through every change behind the port (R5, R127). -/

namespace Sys2Proof.Machine

theorem PendingLaw.begun {s t : State} (p : PendingLaw s) (b : Begun s t) : PendingLaw t := by
  cases b with
  | ended code data => exact p.finishMailbox code data
  | allocated h rest head =>
    have taken : PendingLaw { s with freePool := rest } := p.congr rfl rfl
    exact (taken.putRecord h _).finishMailbox _ _
  | staged h image r state given => exact (p.putRecord h r).finishMailbox _ _
  | released h state unlinked => exact (p.freeRecord h).finishMailbox _ _
  | arms h state fits => exact p.occupy _
  | disarms h state => exact p.occupy _
  | moves h q state fits => exact p.occupy _
  | retires k bank => exact p.occupy _

theorem PendingLaw.engineRow {s t : State} (p : PendingLaw s) (row : EngineRow s t) : PendingLaw t := by
  cases row with
  | stays => exact p
  | begins request free turn waiting t b => exact (p.updEngine _).begun b
  | linkBegins request rest free turn oldest staged fits => exact (p.updEngine _).updEngine _
  | linkRefused request rest free turn oldest => exact (p.updEngine _).finishLink _ _
  | linked h k place work still => exact (p.linkRecord k h).finishMailbox _ _
  | linkedRequest r k place work still => exact (p.linkRecord k _).finishLink _ _
  | unlinked operation h k r f work unlinks armed taken =>
    have q := p.unlinkRecord k h r
    cases unlinks with
    | disarm => exact q.finishMailbox _ _
    | move => exact q.occupy _
    | retire => exact q.occupy _
  | ended code data busy => exact p.finishMailbox code data
  | goesOn o next => exact p.updEngine _

theorem PendingLaw.examined {s t : State} {k : AxisId} (p : PendingLaw s) (x : Examined s k t) : PendingLaw t := by
  cases x with
  | nothing => exact p
  | passes st h rest x => exact (p.updAx k _).updAx k _
  | fires st h rest x e => exact ((p.updAx k _).fire k h _ _).updAx k _

theorem PendingLaw.placed {s t : State} (p : PendingLaw s) (x : Placed s t) : PendingLaw t := by
  cases x with
  | nothing => exact p
  | completes k rest f stalled held room =>
    exact ((((p.updEngine _).placeLink _ _).finishFire k _).updAx k _ |>.updAx k _).updAx k _

theorem PendingLaw.change {s t : State} (p : PendingLaw s) (c : Change s t) : PendingLaw t := by
  cases c with
  | idle => exact p
  | reset => exact .resetBlocks s
  | modes mask mode => exact p.congr rfl rfl
  | expire l => exact p.congr rfl rfl
  | tick => exact p.congr rfl rfl
  | acknowledge h pending => exact (p.putRecord h _).autoRelease h
  | quiet k f q => exact p.updAx k f
  | masks m0 m1 m2 m3 => exact (((p.updAx 0 _).updAx 1 _).updAx 2 _).updAx 3 _
  | pair k fa fb => exact p.updAx k _
  | index k fi =>
    have kept := handOnIndex_store s k fi
    exact p.congr kept.records kept.pendingSet
  | rate k => exact p.updAx k _
  | configure k given valid preset period allowed =>
    have kept := configure_store s k (configStored (s.ax k).config given)
    exact p.congr kept.records kept.pendingSet
  | setPosition k q fits range => exact p.congr rfl rfl
  | resync k => exact p.congr rfl rfl
  | take request => rcases mailboxTake_eq s request with e | e <;> rw [e]; exacts [p, p.updEngine _]
  | grant => exact p.engineRow (grant_row s)
  | link => exact p.engineRow (linkEvent_row s)
  | unlink => exact p.engineRow (unlinkEvent_row s)
  | retireCheck => exact p.engineRow (retireCheck_row s)
  | retireEnd => exact p.engineRow (retireEnd_row s)
  | walk => exact p.engineRow (walkOn_row s)
  | place => exact p.placed (placeStalled_placed s)
  | stepStart k => exact p.updAx k _
  | examine k => exact p.examined (examine_examined s k)
  | seekComplete k => exact p.updAx k _

/-- Settles O54: every change stores and frees records through `putRecord` and `freeRecord`, which keep the law. -/
theorem stepKeepsThePendingLaw : Obligations.StepKeepsThePendingLaw :=
  step_keeps (fun _ _ same p => p.congr same.records same.pendingSet) (fun _ _ c p => p.change c)

end Sys2Proof.Machine
end

section
/-! PROOFS. The law of the lag through every change behind the port (R52, R53, R54, R62, R77). -/

namespace Sys2Proof.Machine

/-! ### What the rows of the engine and a tick leave of an axis -/

theorem Begun.ax {s t : State} (b : Begun s t) (k : AxisId) : t.ax k = s.ax k := by
  cases b with
  | allocated h rest head => exact State.putRecord_ax { s with freePool := rest } h allocatedRecord k
  | staged h image r state given => exact State.putRecord_ax s h r k
  | released h state unlinked => exact State.freeRecord_ax s h k
  | ended => rfl
  | arms => rfl
  | disarms => rfl
  | moves => rfl
  | retires => rfl

theorem tick_ax (s : State) (k : AxisId) : s.tick.ax k = (s.ax k).tick := by
  simp [State.tick, State.ax, Vector.get_eq_getElem]

theorem tick_line (s : State) (l : LineId) : s.tick.line l = (s.line l).tick := by
  simp [State.tick, State.line, Vector.get_eq_getElem]

/-! ### Axes -/

theorem LagFine.quiet {a : Axis} {f : Axis → Axis} (q : QuietUpdate f) (p : LagFine a) : LagFine (f a) := by
  cases q with
  | emptySlot => exact p.congr rfl rfl rfl rfl rfl id
  | clearFlags clear => exact p.congr rfl rfl rfl rfl rfl id
  | mask mask => exact p.congr rfl rfl rfl rfl rfl id
  | start => exact LagFine.startRate (p.congr rfl rfl rfl rfl rfl id)
  | stop => exact LagFine.settleIfTracking (p.congr rfl rfl rfl rfl rfl id)
  | home => exact p.congr rfl rfl rfl rfl rfl id
  | bank bank => exact p.congr rfl rfl rfl rfl rfl id
  | pins change =>
    cases change <;> exact p.congr rfl rfl rfl rfl rfl id

theorem AxisRange.homeRebase {a : Axis} (r : AxisRange a) : AxisRange a.homeRebase where
  c := r.preset
  e := r.e
  preset := r.preset
  linear kind := ⟨rfl, (r.linear kind).2.1, nofun⟩
  rotary kind := by
    obtain ⟨lo, hi, c, e, preset⟩ := r.rotary kind
    exact ⟨lo, hi, preset, e, preset⟩

/-- Only a ROTARY axis is in TRACK, so the turn that a track rebase counts is never that of a LINEAR axis (R114). -/
theorem AxisRange.trackRebase {a : Axis} (r : AxisRange a) (mode : a.config.indexMode = .track) :
    AxisRange a.trackRebase := by
  have rebased : AxisRange { a with front := { a.front with c := a.config.indexPreset, liveTurn := a.trackTurn } } :=
    { c := r.preset
      e := r.e
      preset := r.preset
      linear := fun kind => absurd mode (r.linear kind).2.2
      rotary := fun kind => by
        obtain ⟨lo, hi, c, e, preset⟩ := r.rotary kind
        exact ⟨lo, hi, preset, e, preset⟩ }
  unfold Axis.trackRebase Axis.captureValue
  split <;> exact ⟨rebased.c, rebased.e, rebased.preset, rebased.linear, rebased.rotary⟩

theorem AxisRange.resynced {a : Axis} (r : AxisRange a) : AxisRange a.resynced := by
  unfold Axis.resynced Axis.startRate
  split
  · exact r
  · split <;> exact ⟨r.c, r.e, r.preset, r.linear, r.rotary⟩

/-! ### States -/

theorem trackRebase_config (a : Axis) : a.trackRebase.config = a.config := by
  unfold Axis.trackRebase Axis.captureValue
  split <;> rfl

theorem LagLaw.indexed {s t : State} {k : AxisId} (p : LagLaw s) (x : Indexed s k t) : LagLaw t := by
  have r := p.range k
  cases x with
  | nothing => exact p
  | captures v => exact p.updAx k _ (fun f => f.captureValue v)
  | homes => exact p.seek k _ _ _ r.homeRebase r.preset (fun kind => (r.rotary kind).2.2.2.2)
  | tracks mode =>
    refine p.seek k _ _ _ (r.trackRebase mode) r.preset (fun kind => ?_)
    rw [trackRebase_config] at kind ⊢
    exact (r.rotary kind).2.2.2.2

theorem LagLaw.handOnIndex {s : State} (p : LagLaw s) (k : AxisId) (f : InputFilter) : LagLaw (s.handOnIndex k f) := by
  have moved := p.setAx k { s.ax k with front := { (s.ax k).front with inputI := f } }
    ((p.fine k).congr rfl rfl rfl rfl rfl id)
  rw [handOnIndex_eq]
  split
  · exact moved
  · exact moved.indexed (indexEdge_indexed _ k _)

/-- What CONFIGURE AXIS leaves in force lies in its range (R41). -/
theorem configStored_ranges {old given : AxisConfig} (valid : configValid given = true) :
    ((configStored old given).kind = .linear → (configStored old given).indexMode ≠ .track) ∧
    ((configStored old given).kind = .rotary →
      Config.spanMin ≤ (configStored old given).span ∧ (configStored old given).span ≤ Config.spanMax ∧
      0 ≤ (configStored old given).indexPreset ∧ (configStored old given).indexPreset < (configStored old given).span) ∧
    (configStored old given).indexPreset = given.indexPreset ∧
    (configStored old given).ratePeriod = given.ratePeriod ∧ given.ratePeriod ≠ 0 := by
  obtain ⟨band, period, linear, rotary⟩ := (configValid_iff given).mp valid
  rw [configStored_eq]
  refine ⟨linear, fun kind => ?_, rfl, rfl, period⟩
  obtain ⟨⟨lo, hi⟩, quarter, presetLo, presetHi⟩ := rotary kind
  have kept : ¬ (given.kind = .linear ∧ (given.span < 1024 ∨ 1073741824 < given.span)) := by rw [kind]; nofun
  simp only [if_neg kept]
  exact ⟨lo, hi, presetLo, presetHi⟩

theorem configured_c (a : Axis) (new : AxisConfig) :
    (a.configured new).front.c = if kindOrSpanChanges a.config new then 0 else a.front.c := by
  simp only [Axis.configured, onChange, FrontEnd.newPlace, FrontEnd.newFilter, FrontEnd.newSource]
  split_ifs <;> rfl

theorem configured_liveTurn (a : Axis) (new : AxisConfig) :
    (a.configured new).front.liveTurn = if kindOrSpanChanges a.config new then 0 else a.front.liveTurn := by
  simp only [Axis.configured, onChange, FrontEnd.newPlace, FrontEnd.newFilter, FrontEnd.newSource]
  split_ifs <;> rfl

theorem configured_state (a : Axis) (new : AxisConfig) : (a.configured new).front.state = a.front.state := by
  simp only [Axis.configured, onChange, FrontEnd.newPlace, FrontEnd.newFilter, FrontEnd.newSource]
  split_ifs <;> rfl

theorem configured_rateTimer (a : Axis) (new : AxisConfig) : (a.configured new).front.rateTimer =
    if a.config.source ≠ new.source then none else a.front.rateTimer := by
  simp only [Axis.configured, onChange, FrontEnd.newPlace, FrontEnd.newFilter, FrontEnd.newSource, decide_eq_true_eq]
  split_ifs <;> rfl

/-- CONFIGURE AXIS leaves the evaluator as it was, the guard set apart (R43). -/
theorem configured_eval (a : Axis) (new : AxisConfig) :
    (a.configured new).eval = { a.eval with guard := if a.config.band ≠ new.band then [] else a.eval.guard } := by
  unfold Axis.configured
  dsimp only
  split_ifs <;> rfl

/-- A change of kind or span starts the axis again at 0 (R43); what its evaluator held is lost with the seek. -/
theorem LagFine.configured_place {a : Axis} {given : AxisConfig} (valid : configValid given = true)
    (preset : Config.positionMin ≤ given.indexPreset ∧ given.indexPreset ≤ Config.positionMax)
    (place : kindOrSpanChanges a.config (configStored a.config given) = true) :
    LagFine (Axis.seekTo 0 0 (a.configured (configStored a.config given))) := by
  obtain ⟨linear, rotary, same, -⟩ := configStored_ranges (old := a.config) valid
  have c := configured_c a (configStored a.config given)
  have turn := configured_liveTurn a (configStored a.config given)
  rw [place, if_pos rfl] at c turn
  have zero : Config.positionMin ≤ 0 ∧ 0 ≤ Config.positionMax := by decide
  refine ⟨⟨c.symm ▸ zero, zero, same ▸ preset, fun kind => ⟨turn, if_pos kind, linear kind⟩, fun kind => ?_⟩, ?_⟩
  · obtain ⟨lo, hi, preset⟩ := rotary kind
    have least : Config.spanMin = 1024 := rfl
    have start : (0 : Int) ≤ 0 ∧ (0 : Int) < (configStored a.config given).span := by omega
    exact ⟨lo, hi, c.symm ▸ start, start, preset⟩
  · rintro (h | h) <;> cases h

theorem lagOf_congr {old new : AxisConfig} (kind : old.kind = new.kind)
    (span : old.kind = .rotary → old.span = new.span) (c e : Int) : lagOf new c e = lagOf old c e := by
  unfold lagOf
  rw [← kind]
  split
  · rfl
  · next rotary => rw [span rotary]

/-- With kind and span as they were, C, E and the lag are as they were (R43). -/
theorem LagFine.configured_same {a : Axis} (p : LagFine a) {given : AxisConfig} (valid : configValid given = true)
    (preset : Config.positionMin ≤ given.indexPreset ∧ given.indexPreset ≤ Config.positionMax)
    (place : ¬ kindOrSpanChanges a.config (configStored a.config given) = true) :
    LagFine (a.configured (configStored a.config given)) := by
  obtain ⟨linear, rotary, same, -⟩ := configStored_ranges (old := a.config) valid
  have c := configured_c a (configStored a.config given)
  have turn := configured_liveTurn a (configStored a.config given)
  rw [if_neg place] at c turn
  rw [kindOrSpanChanges_iff] at place
  push Not at place
  obtain ⟨kind_same, span_same⟩ := place
  have eval := configured_eval a (configStored a.config given)
  have e : (a.configured (configStored a.config given)).eval.e = a.eval.e := by rw [eval]
  have evalTurn : (a.configured (configStored a.config given)).eval.evalTurn = a.eval.evalTurn := by rw [eval]
  have state : (a.configured (configStored a.config given)).eval.state = a.eval.state := by rw [eval]
  have lag : (a.configured (configStored a.config given)).lag = a.lag := by
    show lagOf (configStored a.config given) _ _ = lagOf a.config _ _
    rw [c, e, lagOf_congr kind_same span_same]
  refine ⟨⟨c.symm ▸ p.range.c, e.symm ▸ p.range.e, same ▸ preset, fun kind => ?_, fun kind => ?_⟩, ?_⟩
  · obtain ⟨live, crossing, -⟩ := p.range.linear (kind_same.trans kind)
    exact ⟨turn.trans live, evalTurn.trans crossing, linear kind⟩
  · obtain ⟨lo, hi, presetRange⟩ := rotary kind
    obtain ⟨-, -, count, crossing, -⟩ := p.range.rotary (kind_same.trans kind)
    rw [span_same (kind_same.trans kind)] at count crossing
    exact ⟨lo, hi, c.symm ▸ count, e.symm ▸ crossing, presetRange⟩
  · rw [state, lag]
    exact p.lag

theorem LagLaw.configure {s : State} (p : LagLaw s) (k : AxisId) {given : AxisConfig} (valid : configValid given = true)
    (preset : Config.positionMin ≤ given.indexPreset ∧ given.indexPreset ≤ Config.positionMax) :
    LagLaw (s.configure k (configStored (s.ax k).config given)) := by
  unfold State.configure
  dsimp only
  split
  · next place =>
    refine .of_fine (fun j => ?_)
    rw [seekStart_ax]
    split
    · rw [State.updAx_ax_same]
      exact .configured_place valid preset place
    · next other => rw [State.updAx_ax_ne _ _ _ _ other]; exact p.fine j
  · next place => exact p.updAx k _ (fun f => f.configured_same valid preset place)

theorem LagLaw.engineRow {s t : State} (p : LagLaw s) (row : EngineRow s t) : LagLaw t := by
  cases row with
  | stays => exact p
  | begins request free turn waiting t b => exact p.congr b.ax
  | linkBegins request rest free turn oldest staged fits => exact p.congr (fun _ => rfl)
  | linkRefused request rest free turn oldest => exact (p.updEngine _).finishLink _ _
  | linked h k place work still => exact (p.linkRecord k h).updEngine _
  | linkedRequest r k place work still => exact (p.linkRecord k _).finishLink _ _
  | unlinked operation h k r f work unlinks armed taken =>
    have q := p.unlinkRecord k h r
    cases unlinks with
    | disarm => exact q.updEngine _
    | move => exact q.updEngine _
    | retire => exact q.updEngine _
  | ended code data busy => exact p.updEngine _
  | goesOn o next => exact p.updEngine _

theorem LagFine.setRun {a : Axis} (f : LagFine a) (st : CrossingStep) (rest : List Handle) : LagFine (Axis.setRun st rest a) :=
  f.congr rfl rfl rfl rfl rfl id

theorem LagLaw.examined {s t : State} {k : AxisId} (p : LagLaw s) (x : Examined s k t) : LagLaw t := by
  have q (st : CrossingStep) (rest : List Handle) := p.updAx k (Axis.setRun st rest) (fun f => f.setRun st rest)
  cases x with
  | nothing => exact p
  | passes st h rest x => exact (q st rest).updAx k _ LagFine.stepGoesOn
  | fires st h rest x e =>
    refine ((q st rest).fire k h _ _ ?_).updAx k _ LagFine.stepGoesOn
    rw [State.updAx_ax_same]
    exact x.state

theorem LagLaw.placed {s t : State} (p : LagLaw s) (x : Placed s t) : LagLaw t := by
  cases x with
  | nothing => exact p
  | completes k rest f stalled held room =>
    have fired := ((p.updEngine (fun g => { g with stalled := rest })).placeLink f.source f.target).finishFire k f.source
    exact ((fired.updAx k _ LagFine.dropHeld).updAx k _ LagFine.stepGoesOn).updAx k _ LagFine.settleIfTracking

theorem LagLaw.setMask {s : State} (p : LagLaw s) (k : AxisId) (mask : Byte) : LagLaw (s.setMask k mask) :=
  p.updAx k _ (.quiet (.mask mask))

theorem LagLaw.change {s t : State} (p : LagLaw s) (c : Change s t) : LagLaw t := by
  cases c with
  | idle => exact p
  | reset => exact .of_fine (fun k => (resetBlocks_ax s k).symm ▸ .initial _ _ _)
  | modes mask mode => exact p.congr (fun _ => rfl)
  | expire l => exact p.congr (State.setLine_ax s l _)
  | tick => exact .of_fine (fun k => (tick_ax s k).symm ▸ (p.fine k).tick)
  | acknowledge h pending => exact (p.putRecord h _).autoRelease h
  | quiet k f q => exact p.updAx k f (.quiet q)
  | masks m0 m1 m2 m3 => exact (((p.setMask 0 m0).setMask 1 m1).setMask 2 m2).setMask 3 m3
  | pair k fa fb => exact p.updAx k _ (fun f => f.handOnPair fa fb)
  | index k fi => exact p.handOnIndex k fi
  | rate k => exact p.updAx k _ LagFine.rateExpire
  | configure k given valid preset period allowed => exact p.configure k valid preset
  | setPosition k q fits range =>
    have r := p.range k
    have rot (kind : (s.ax k).config.kind = .rotary) : 0 ≤ q ∧ q < (s.ax k).config.span := by
      rcases (inRange_iff _ _).mp fits with linear | fits
      · rw [linear] at kind; cases kind
      · exact fits
    exact p.seek k _ q 0
      ⟨range, r.e, r.preset, fun kind => ⟨rfl, (r.linear kind).2⟩, fun kind =>
        let ⟨lo, hi, _, e, preset⟩ := r.rotary kind
        ⟨lo, hi, rot kind, e, preset⟩⟩ range rot
  | resync k =>
    have r := p.range k
    have config : (s.ax k).resynced.config = (s.ax k).config := by
      unfold Axis.resynced Axis.startRate
      split_ifs <;> rfl
    exact p.seek k _ _ _ r.resynced r.c (fun kind => by
      rw [config] at kind ⊢
      exact (r.rotary kind).2.2.1)
  | take request => rcases mailboxTake_eq s request with e | e <;> rw [e]; exacts [p, p.updEngine _]
  | grant => exact p.engineRow (grant_row s)
  | link => exact p.engineRow (linkEvent_row s)
  | unlink => exact p.engineRow (unlinkEvent_row s)
  | retireCheck => exact p.engineRow (retireCheck_row s)
  | retireEnd => exact p.engineRow (retireEnd_row s)
  | walk => exact p.engineRow (walkOn_row s)
  | place => exact p.placed (placeStalled_placed s)
  | stepStart k => exact p.updAx k _ (fun f => f.stepStart _)
  | examine k => exact p.examined (examine_examined s k)
  | seekComplete k => exact p.updAx k _ (fun f => f.seekComplete _)

/-- Settles O58: the law is one of each axis by itself, and every change leaves each axis as it was or fine again. -/
theorem stepKeepsTheLagLaw : Obligations.StepKeepsTheLagLaw :=
  step_keeps (fun _ _ same p => p.congr same.ax) (fun _ _ c p => p.change c)

end Sys2Proof.Machine
end

section
/-! PROOFS. What a change behind the port does to one axis and to the engine, said once as a chain of the operations of
chapters 2 to 7: a property that each operation keeps is kept by every step. -/

namespace Sys2Proof.Machine

/-! ### Operations on one axis -/

/-- The operations that the rows make on one axis. -/
inductive AxisStep (a : Axis) : Axis → Prop where
  | quiet (f : Axis → Axis) (q : QuietUpdate f) : AxisStep a (f a)
  | pair (fa fb : InputFilter) : AxisStep a (Axis.handOnPair fa fb a)
  | inputI (fi : InputFilter) : AxisStep a { a with front := { a.front with inputI := fi } }
  | capture (v : CaptureSlot) : AxisStep a (Axis.captureValue v a)
  | homes : AxisStep a a.homeRebase
  | tracks : AxisStep a a.trackRebase
  | seeks (target : Int) (turn : Turn) : AxisStep a (Axis.seekTo target turn a)
  | rate : AxisStep a a.rateExpire
  | tick : AxisStep a a.tick
  | configure (new : AxisConfig) (period : 1 ≤ new.ratePeriod ∧ new.ratePeriod ≤ 65535)
      (halted : a.config.source ≠ new.source → a.front.state = .halted) : AxisStep a (a.configured new)
  | position (p : Int) : AxisStep a { a with front := { a.front with c := p, liveTurn := 0 } }
  | resync : AxisStep a a.resynced
  | run (st : CrossingStep) (rest : List Handle) : AxisStep a (Axis.setRun st rest a)
  | goesOn : AxisStep a a.stepGoesOn
  | bank : AxisStep a a.toggleBank
  | guards (h : Handle) (p : Int) : AxisStep a (Axis.guardEnter h p a)
  | holds (f : HeldFire) : AxisStep a { a with eval := { a.eval with state := .stalled, held := some f } }
  | dropHeld : AxisStep a a.dropHeld
  | settles : AxisStep a a.settleIfTracking
  | links (pos : Handle → Int) (p : Int) (h : Handle) : AxisStep a (Axis.linkIn pos p h a)
  | unlinks (h : Handle) : AxisStep a (Axis.unlinkOut h a)
  | stepStart (pos : Handle → Int) : AxisStep a (Axis.stepStart pos a)
  | seekComplete (pos : Handle → Int) : AxisStep a (Axis.seekComplete pos a)
  | reset : AxisStep a a.resetValues

/-! ### Operations on the engine -/

/-- The operations that the rows make on the engine. -/
inductive EngineStep (g : Engine) : Engine → Prop where
  | command (request : TableRequest) : EngineStep g (Engine.arrived { g with mailbox := .waiting request })
  | request (r : LinkRequest) (room : g.queue.length < Config.linkQueueDepth) :
      EngineStep g (Engine.arrived { g with queue := g.queue ++ [r] })
  | stalled (axes : List AxisId) : EngineStep g { g with stalled := axes }
  | occupant (o : Occupant) (busy : o = .none ↔ g.occupant = .none) : EngineStep g { g with occupant := o }
  | takesCommand (r : TableRequest) (turn : g.claim = some .command) :
      EngineStep g
        { g with occupant := .mailbox (.checking r.command), mailbox := .inProgress r, streak := 0, claim := none }
  | takesLink (r : LinkRequest) (turn : g.claim = some .link) :
      EngineStep g { g with occupant := .linkChecks r, streak := g.streakAtLink, claim := none }
  | ends (code : ResultCode) (data : Nat) : EngineStep g (Engine.freed { g with mailbox := g.mailbox.finish code data })
  | endsLink : EngineStep g (Engine.freed { g with queue := g.queue.tail })
  | reset : EngineStep g Engine.initial

/-! ### Chains -/

/-- Each axis and the engine have gone through such operations, one after another. -/
structure Reaches (s t : State) : Prop where
  ax : ∀ k, Relation.ReflTransGen AxisStep (s.ax k) (t.ax k)
  engine : Relation.ReflTransGen EngineStep s.engine t.engine

theorem Reaches.of_eq {s t : State} (ax : ∀ k, t.ax k = s.ax k) (engine : t.engine = s.engine) : Reaches s t :=
  ⟨fun k => ax k ▸ .refl, engine ▸ .refl⟩

theorem Reaches.refl (s : State) : Reaches s s := .of_eq (fun _ => rfl) rfl

theorem Reaches.trans {s t u : State} (p : Reaches s t) (q : Reaches t u) : Reaches s u :=
  ⟨fun k => (p.ax k).trans (q.ax k), p.engine.trans q.engine⟩

theorem Reaches.setAx {s t : State} (p : Reaches s t) (k : AxisId) (a : Axis) (one : AxisStep (t.ax k) a) :
    Reaches s (t.setAx k a) := by
  refine ⟨fun j => ?_, p.engine⟩
  rw [State.setAx_ax]
  split
  · next same => subst same; exact (p.ax j).tail one
  · exact p.ax j

theorem Reaches.updAx {s t : State} (p : Reaches s t) (k : AxisId) (f : Axis → Axis)
    (one : AxisStep (t.ax k) (f (t.ax k))) : Reaches s (t.updAx k f) := p.setAx k _ one

theorem Reaches.updEngine {s t : State} (p : Reaches s t) (f : Engine → Engine)
    (one : EngineStep t.engine (f t.engine)) : Reaches s (t.updEngine f) := ⟨p.ax, p.engine.tail one⟩

theorem Reaches.putRecord {s t : State} (p : Reaches s t) (h : Handle) (r : Record) : Reaches s (t.putRecord h r) :=
  p.trans (.of_eq (State.putRecord_ax t h r) rfl)

theorem Reaches.freeRecord {s t : State} (p : Reaches s t) (h : Handle) : Reaches s (t.freeRecord h) :=
  p.trans (.of_eq (State.freeRecord_ax t h) rfl)

theorem Reaches.autoRelease {s t : State} (p : Reaches s t) (h : Handle) : Reaches s (t.autoRelease h) :=
  have ⟨ax, _, engine, _⟩ := autoRelease_rest t h
  p.trans (.of_eq ax engine)

theorem Reaches.lineRequest {s t : State} (p : Reaches s t) (act : LineAction) : Reaches s (t.lineRequest act) :=
  p.trans (.of_eq (lineRequest_ax t act) (lineRequest_engine t act))

/-! ### Seeks, links and ends -/

/-- A move of a walk's place leaves the engine at work, or idle, as it was. -/
theorem movePlace_none (o : Occupant) (k : AxisId) (f g : Nat → Nat) : o.movePlace k f g = .none ↔ o = .none := by
  unfold Occupant.movePlace
  split
  · split <;> simp
  · split <;> simp
  · split <;> simp
  · split <;> simp
  · exact Iff.rfl

theorem Reaches.moves {s t : State} (p : Reaches s t) (k : AxisId) (f g : Nat → Nat) :
    Reaches s (t.updEngine (fun e => { e with occupant := e.occupant.movePlace k f g })) :=
  p.updEngine _ (.occupant _ (movePlace_none _ k f g))

theorem Reaches.seek {s t : State} (p : Reaches s t) (k : AxisId) (target : Int) (turn : Turn) :
    Reaches s (t.seekStart k target turn) := by
  have sought := p.updAx k _ (.seeks target turn)
  have left := sought.updEngine (fun g => { g with stalled := g.stalled.filter (fun j => decide (j ≠ k)) }) (.stalled _)
  exact left.moves k id (fun _ => 0)

theorem Reaches.linkRecord {s t : State} (p : Reaches s t) (k : AxisId) (h : Handle) : Reaches s (t.linkRecord k h) :=
  (p.updAx k _ (.links _ _ h)).putRecord h _

theorem Reaches.unlinkRecord {s t : State} (p : Reaches s t) (k : AxisId) (h : Handle) (r : Record) :
    Reaches s (t.unlinkRecord k h r) :=
  ((p.updAx k _ (.unlinks h)).moves k _ _).putRecord h r

theorem Reaches.finishMailbox {s t : State} (p : Reaches s t) (code : ResultCode) (data : Nat) :
    Reaches s (t.finishMailbox code data) := p.updEngine _ (.ends code data)

theorem Reaches.finishLink {s t : State} (p : Reaches s t) (source : Handle) (fault : Bool) :
    Reaches s (t.finishLink source fault) :=
  ((p.putRecord source _).updEngine _ .endsLink).autoRelease source

theorem Reaches.occupy {s t : State} (p : Reaches s t) (operation : Operation) (busy : t.engine.occupant ≠ .none) :
    Reaches s (t.occupy operation) :=
  p.updEngine _ (.occupant _ (iff_of_false nofun busy))

/-! ### Fires -/

theorem Reaches.guardFired {s t : State} (p : Reaches s t) (k : AxisId) (h : Handle) : Reaches s (t.guardFired k h) := by
  rcases guardFired_rest t k h with e | e <;> rw [e]
  · exact p
  · exact p.updAx k _ (.guards h _)

theorem Reaches.finishFire {s t : State} (p : Reaches s t) (k : AxisId) (h : Handle) : Reaches s (t.finishFire k h) := by
  unfold State.finishFire
  dsimp only
  split
  · exact p.guardFired k h
  · exact (p.unlinkRecord k h _).autoRelease h
  · exact (p.putRecord h _).guardFired k h

theorem Reaches.placeLink {s t : State} (p : Reaches s t) (source target : Handle)
    (room : t.engine.queue.length < Config.linkQueueDepth) : Reaches s (t.placeLink source target) :=
  (p.updEngine _ (.request _ room)).putRecord source _

theorem Reaches.holdFire {s t : State} (p : Reaches s t) (k : AxisId) (source target : Handle) :
    Reaches s (t.holdFire k source target) :=
  (p.updAx k _ (.holds _)).updEngine _ (.stalled _)

theorem Reaches.fire {s t : State} (p : Reaches s t) (k : AxisId) (h : Handle) (d : Dir) (turn : Turn) :
    Reaches s (t.fire k h d turn) := by
  have q := (p.lineRequest (t.recordAt h).action).putRecord h ((t.recordAt h).fired d turn)
  unfold State.fire
  dsimp only
  split
  · exact q.finishFire k h
  · exact (q.updAx k _ .bank).finishFire k h
  · split
    · next room => exact (q.placeLink h _ room).finishFire k h
    · exact q.holdFire k h _

theorem Examined.reaches {s t : State} {k : AxisId} (x : Examined s k t) : Reaches s t := by
  cases x with
  | nothing => exact .refl s
  | passes st h rest x => exact ((Reaches.refl s).updAx k _ (.run st rest)).updAx k _ .goesOn
  | fires st h rest x e => exact (((Reaches.refl s).updAx k _ (.run st rest)).fire k h _ _).updAx k _ .goesOn

theorem Placed.reaches {s t : State} (x : Placed s t) : Reaches s t := by
  cases x with
  | nothing => exact .refl s
  | completes k rest f stalled held room =>
    have placed := ((Reaches.refl s).updEngine (fun g => { g with stalled := rest }) (.stalled rest)).placeLink
      f.source f.target room
    have fired := placed.finishFire k f.source
    exact ((fired.updAx k _ .dropHeld).updAx k _ .goesOn).updAx k _ .settles

/-! ### The rows of the engine -/

/-- A command that has been taken is in progress until its checks end it. -/
theorem Begun.reaches {s t u : State} (p : Reaches u s) (busy : s.engine.occupant ≠ .none) (b : Begun s t) :
    Reaches u t := by
  cases b with
  | ended code data => exact p.finishMailbox code data
  | allocated h rest head =>
    have taken : Reaches u { s with freePool := rest } := p.trans (.of_eq (fun _ => rfl) rfl)
    exact (taken.putRecord h _).finishMailbox _ _
  | staged h image r state given => exact (p.putRecord h r).finishMailbox _ _
  | released h state unlinked => exact (p.freeRecord h).finishMailbox _ _
  | arms h state fits => exact p.occupy _ busy
  | disarms h state => exact p.occupy _ busy
  | moves h q state fits => exact p.occupy _ busy
  | retires k bank => exact p.occupy _ busy

theorem GoesOn.busy {s : State} {o o' : Occupant} (n : GoesOn s o o') : o' = .none ↔ o = .none := by
  cases n <;> exact iff_of_false nofun nofun

theorem EngineRow.reaches {s t : State} (row : EngineRow s t) : Reaches s t := by
  have p := Reaches.refl s
  cases row with
  | stays => exact p
  | begins request free turn waiting t b =>
    have busy : (s.commandTaken request).engine.occupant ≠ .none := fun idle => Occupant.noConfusion idle
    exact b.reaches (p.updEngine _ (.takesCommand request turn)) busy
  | linkBegins request rest free turn oldest staged fits =>
    exact (p.updEngine _ (.takesLink request turn)).updEngine _ (.occupant _ (iff_of_false nofun nofun))
  | linkRefused request rest free turn oldest => exact (p.updEngine _ (.takesLink request turn)).finishLink _ _
  | linked h k place work still => exact (p.linkRecord k h).finishMailbox _ _
  | linkedRequest r k place work still => exact (p.linkRecord k _).finishLink _ _
  | unlinked operation h k r f work unlinks armed taken =>
    have q := p.unlinkRecord k h r
    have busy : (s.unlinkRecord k h r).engine.occupant ≠ .none := by
      rw [(unlinkRecord_rest s k h r).2.2.2]
      intro idle
      have none : s.engine.occupant = .none := (movePlace_none ..).mp idle
      rw [work] at none
      cases none
    cases unlinks with
    | disarm => exact q.finishMailbox _ _
    | move => exact q.occupy _ busy
    | retire => exact q.occupy _ busy
  | ended code data busy => exact p.finishMailbox code data
  | goesOn o next => exact p.updEngine _ (.occupant o next.busy)

/-! ### Every change -/

theorem Indexed.reaches {s t u : State} {k : AxisId} (p : Reaches u s) (x : Indexed s k t) : Reaches u t := by
  cases x with
  | nothing => exact p
  | captures v => exact p.updAx k _ (.capture v)
  | homes => exact (p.updAx k _ .homes).seek k _ _
  | tracks mode => exact (p.updAx k _ .tracks).seek k _ _

theorem handOnIndex_reaches (s : State) (k : AxisId) (f : InputFilter) : Reaches s (s.handOnIndex k f) := by
  have moved := (Reaches.refl s).setAx k { s.ax k with front := { (s.ax k).front with inputI := f } } (.inputI f)
  rw [handOnIndex_eq]
  split
  · exact moved
  · exact (indexEdge_indexed _ k _).reaches moved

/-- The source changes only while the front end is HALTED (R42). -/
theorem configRefused_source {s : State} {k : AxisId} {new : AxisConfig} (allowed : s.configRefused k new = false)
    (other : (s.ax k).config.source ≠ new.source) : (s.ax k).front.state = .halted := by
  by_contra running
  simp [State.configRefused, other, running] at allowed

theorem configure_reaches (s : State) (k : AxisId) {given : AxisConfig} (valid : configValid given = true)
    (period : given.ratePeriod ≤ 65535) (allowed : s.configRefused k (configStored (s.ax k).config given) = false) :
    Reaches s (s.configure k (configStored (s.ax k).config given)) := by
  obtain ⟨-, -, -, same, positive⟩ := configStored_ranges (old := (s.ax k).config) valid
  have configured := (Reaches.refl s).updAx k _
    (.configure (configStored (s.ax k).config given) (same ▸ ⟨Nat.pos_of_ne_zero positive, period⟩)
      (configRefused_source allowed))
  unfold State.configure
  dsimp only
  split
  · exact configured.seek k _ _
  · exact configured

theorem Change.reaches {s t : State} (c : Change s t) : Reaches s t := by
  have p := Reaches.refl s
  cases c with
  | idle => exact p
  | reset =>
    exact ⟨fun k => .single (resetBlocks_ax s k ▸ .reset), .single (resetBlocks_engine s ▸ .reset)⟩
  | modes mask mode => exact .of_eq (fun _ => rfl) rfl
  | expire l => exact .of_eq (State.setLine_ax s l _) rfl
  | tick => exact ⟨fun k => .single (tick_ax s k ▸ .tick), .refl⟩
  | acknowledge h pending => exact (p.putRecord h _).autoRelease h
  | quiet k f q => exact p.updAx k f (.quiet f q)
  | masks m0 m1 m2 m3 =>
    exact (((p.updAx 0 _ (.quiet _ (.mask m0))).updAx 1 _ (.quiet _ (.mask m1))).updAx 2 _ (.quiet _ (.mask m2))).updAx
      3 _ (.quiet _ (.mask m3))
  | pair k fa fb => exact p.updAx k _ (.pair fa fb)
  | index k fi => exact handOnIndex_reaches s k fi
  | rate k => exact p.updAx k _ .rate
  | configure k given valid preset period allowed => exact configure_reaches s k valid period allowed
  | setPosition k q fits range => exact (p.updAx k _ (.position q)).seek k _ _
  | resync k => exact (p.updAx k _ .resync).seek k _ _
  | take request => rcases mailboxTake_eq s request with e | e <;> rw [e]; exacts [p, p.updEngine _ (.command request)]
  | grant => exact (grant_row s).reaches
  | link => exact (linkEvent_row s).reaches
  | unlink => exact (unlinkEvent_row s).reaches
  | retireCheck => exact (retireCheck_row s).reaches
  | retireEnd => exact (retireEnd_row s).reaches
  | walk => exact (walkOn_row s).reaches
  | place => exact (placeStalled_placed s).reaches
  | stepStart k => exact p.updAx k _ (.stepStart _)
  | examine k => exact (examine_examined s k).reaches
  | seekComplete k => exact p.updAx k _ (.seekComplete _)

end Sys2Proof.Machine
end

section
/-! PROOFS. The laws of timers (R51, R81), of the capacities (R69, R98) and of the arbiter (R100) through every change. -/

namespace Sys2Proof.Machine

/-! ### Pulse timers and pulse widths (R2, R81) -/

/-- A RUNNING pulse timer has a HIGH shadow and 1 to 65,535 µs to go (R81). -/
def Line.TimerFine (x : Line) : Prop := ∀ n, x.timer = some n → x.shadow = .high ∧ 1 ≤ n ∧ n ≤ 65535

/-- A pulse width lies in 1 to 65,535 (R2). -/
def LineAction.WidthFine (act : LineAction) : Prop := ∀ l w, act = .pulse l w → 1 ≤ w ∧ w ≤ 65535

/-- What the law of timers says of the lines and the records. -/
structure PulseLaw (s : State) : Prop where
  line : ∀ l, (s.line l).TimerFine
  width : ∀ h, (s.recordAt h).action.WidthFine

theorem Line.TimerFine.idle {x : Line} (none : x.timer = none) : x.TimerFine := fun n running => by
  rw [none] at running
  cases running

theorem Line.TimerFine.congr {x y : Line} (p : x.TimerFine) (shadow : y.shadow = x.shadow) (timer : y.timer = x.timer) :
    y.TimerFine := fun n running => by
  rw [shadow]
  exact p n (timer ▸ running)

theorem Line.TimerFine.takeExpiry {x : Line} (p : x.TimerFine) : x.takeExpiry.TimerFine := by
  unfold Line.takeExpiry
  split
  · exact .idle rfl
  · exact p

/-- A timer that a tick does not bring to 0 has 2 or more to go before it (R85). -/
theorem lowered_some {timer : Option Nat} {n : Nat} (early : ¬ reachesZero timer = true) (after : lowered timer = some n) :
    timer = some (n + 1) ∧ 1 ≤ n := by
  cases timer with
  | none => cases after
  | some m =>
    have more : ¬ m ≤ 1 := fun small => early (decide_eq_true small)
    have left : m - 1 = n := Option.some.inj after
    exact ⟨congrArg some (by omega), by omega⟩

theorem Line.TimerFine.tick {x : Line} (p : x.TimerFine) : x.tick.TimerFine := by
  unfold Line.tick
  split
  · exact p.congr rfl rfl
  · split
    · exact .idle rfl
    · next early =>
      intro n after
      obtain ⟨before, positive⟩ := lowered_some early after
      obtain ⟨high, -, bound⟩ := p _ before
      exact ⟨high, positive, by omega⟩

/-- STAGE takes a pulse width from two bytes, and refuses 0 (R4). -/
theorem stageAction_width {b6 w0 w1 : Byte} {act : LineAction} (e : stageAction b6 (u16 w0 w1) = some act) :
    act.WidthFine := by
  unfold stageAction at e
  intro l w pulse
  subst pulse
  split at e
  · split at e <;> cases e
  · cases e
  · cases e
  · cases e
  · split at e
    · cases e
    · next nonzero =>
      cases e
      have lo := w0.isLt
      have hi := w1.isLt
      unfold u16 at nonzero ⊢
      omega
  · cases e

theorem stageRecord_width {self : Handle} {r r' : Record} {image : List Byte} (e : stageRecord self r image = some r') :
    r'.action.WidthFine := by
  unfold stageRecord at e
  split at e
  · split at e
    · next action _ _ act _ =>
      cases e
      exact stageAction_width act
    · cases e
  · cases e

theorem PulseLaw.congr {s t : State} (p : PulseLaw s) (lines : ∀ l, t.line l = s.line l)
    (records : ∀ h, (t.recordAt h).action = (s.recordAt h).action) : PulseLaw t :=
  ⟨fun l => (lines l).symm ▸ p.line l, fun h => (records h).symm ▸ p.width h⟩

theorem PulseLaw.setLine {s : State} (p : PulseLaw s) (l : LineId) (x : Line) (fine : x.TimerFine) :
    PulseLaw (s.setLine l x) := by
  refine ⟨fun m => ?_, p.width⟩
  rw [State.setLine_line]
  split
  · exact fine
  · exact p.line m

theorem PulseLaw.putRecord {s : State} (p : PulseLaw s) (h : Handle) (r : Record) (fine : r.action.WidthFine) :
    PulseLaw (s.putRecord h r) := by
  refine ⟨p.line, fun g => ?_⟩
  rw [State.putRecord_recordAt]
  split
  · exact fine
  · exact p.width g

/-- A record stored again with another state or count keeps its action. -/
theorem PulseLaw.putSame {s : State} (p : PulseLaw s) (h : Handle) (r : Record)
    (same : r.action = (s.recordAt h).action) : PulseLaw (s.putRecord h r) := p.putRecord h r (same ▸ p.width h)

theorem LineAction.WidthFine.none : LineAction.none.WidthFine := nofun

theorem PulseLaw.freeRecord {s : State} (p : PulseLaw s) (h : Handle) : PulseLaw (s.freeRecord h) :=
  (p.putRecord h .cleared .none).congr (fun _ => rfl) (fun _ => rfl)

theorem PulseLaw.autoRelease {s : State} (p : PulseLaw s) (h : Handle) : PulseLaw (s.autoRelease h) := by
  rcases autoRelease_cases s h with ⟨-, e⟩ | ⟨-, e⟩ <;> rw [e]
  · exact p.freeRecord h
  · exact p

theorem PulseLaw.updAx {s : State} (p : PulseLaw s) (k : AxisId) (f : Axis → Axis) : PulseLaw (s.updAx k f) :=
  p.congr (fun _ => rfl) (fun _ => rfl)

theorem PulseLaw.updEngine {s : State} (p : PulseLaw s) (f : Engine → Engine) : PulseLaw (s.updEngine f) :=
  p.congr (fun _ => rfl) (fun _ => rfl)

theorem PulseLaw.linkRecord {s : State} (p : PulseLaw s) (k : AxisId) (h : Handle) : PulseLaw (s.linkRecord k h) :=
  (p.updAx k _).putSame h _ rfl

theorem PulseLaw.unlinkRecord {s : State} (p : PulseLaw s) (k : AxisId) (h : Handle) (r : Record)
    (same : r.action = (s.recordAt h).action) : PulseLaw (s.unlinkRecord k h r) :=
  ((p.updAx k _).updEngine _).putSame h r same

theorem PulseLaw.finishLink {s : State} (p : PulseLaw s) (source : Handle) (fault : Bool) :
    PulseLaw (s.finishLink source fault) :=
  ((p.putSame source _ (by rfl)).updEngine _).autoRelease source

theorem PulseLaw.placeLink {s : State} (p : PulseLaw s) (source target : Handle) :
    PulseLaw (s.placeLink source target) := (p.updEngine _).putSame source _ rfl

theorem PulseLaw.guardFired {s : State} (p : PulseLaw s) (k : AxisId) (h : Handle) : PulseLaw (s.guardFired k h) := by
  rcases guardFired_rest s k h with e | e <;> rw [e]
  · exact p
  · exact p.updAx k _

theorem PulseLaw.finishFire {s : State} (p : PulseLaw s) (k : AxisId) (h : Handle) : PulseLaw (s.finishFire k h) := by
  unfold State.finishFire
  dsimp only
  split
  · exact p.guardFired k h
  · exact (p.unlinkRecord k h _ (by rfl)).autoRelease h
  · exact (p.putSame h _ (by rfl)).guardFired k h

theorem PulseLaw.lineRequest {s : State} (p : PulseLaw s) (act : LineAction) (fine : act.WidthFine) :
    PulseLaw (s.lineRequest act) := by
  cases act with
  | none => exact p
  | set l => exact p.setLine l _ (.idle rfl)
  | clear l => exact p.setLine l _ (.idle rfl)
  | toggle l => exact p.setLine l _ (.idle rfl)
  | pulse l w =>
    refine p.setLine l _ (fun n running => ⟨rfl, ?_⟩)
    cases running
    exact fine l w rfl

theorem PulseLaw.fire {s : State} (p : PulseLaw s) (k : AxisId) (h : Handle) (d : Dir) (t : Turn) :
    PulseLaw (s.fire k h d t) := by
  have q := (p.lineRequest _ (p.width h)).putRecord h ((s.recordAt h).fired d t) (p.width h)
  unfold State.fire
  dsimp only
  split
  · exact q.finishFire k h
  · exact (q.updAx k _).finishFire k h
  · split
    · exact (q.placeLink h _).finishFire k h
    · exact (q.updAx k _).updEngine _

theorem PulseLaw.examined {s t : State} {k : AxisId} (p : PulseLaw s) (x : Examined s k t) : PulseLaw t := by
  cases x with
  | nothing => exact p
  | passes st h rest x => exact (p.updAx k _).updAx k _
  | fires st h rest x e => exact ((p.updAx k _).fire k h _ _).updAx k _

theorem PulseLaw.placed {s t : State} (p : PulseLaw s) (x : Placed s t) : PulseLaw t := by
  cases x with
  | nothing => exact p
  | completes k rest f stalled held room =>
    exact ((((p.updEngine _).placeLink _ _).finishFire k _).updAx k _ |>.updAx k _).updAx k _

theorem PulseLaw.begun {s t : State} (p : PulseLaw s) (b : Begun s t) : PulseLaw t := by
  cases b with
  | ended code data => exact p.updEngine _
  | allocated h rest head =>
    have taken : PulseLaw { s with freePool := rest } := p.congr (fun _ => rfl) (fun _ => rfl)
    exact (taken.putRecord h allocatedRecord .none).updEngine _
  | staged h image r state given => exact (p.putRecord h r (stageRecord_width given)).updEngine _
  | released h state unlinked => exact (p.freeRecord h).updEngine _
  | arms h state fits => exact p.updEngine _
  | disarms h state => exact p.updEngine _
  | moves h q state fits => exact p.updEngine _
  | retires k bank => exact p.updEngine _

theorem PulseLaw.engineRow {s t : State} (p : PulseLaw s) (row : EngineRow s t) : PulseLaw t := by
  cases row with
  | stays => exact p
  | begins request free turn waiting t b => exact (p.updEngine _).begun b
  | linkBegins request rest free turn oldest staged fits => exact (p.updEngine _).updEngine _
  | linkRefused request rest free turn oldest => exact (p.updEngine _).finishLink _ _
  | linked h k place work still => exact (p.linkRecord k h).updEngine _
  | linkedRequest r k place work still => exact (p.linkRecord k _).finishLink _ _
  | unlinked operation h k r f work unlinks armed taken =>
    cases unlinks with
    | disarm => exact (p.unlinkRecord k h _ (by rfl)).updEngine _
    | move => exact (p.unlinkRecord k h _ (by rfl)).updEngine _
    | retire => exact (p.unlinkRecord k h _ (by rfl)).updEngine _
  | ended code data busy => exact p.updEngine _
  | goesOn o next => exact p.updEngine _

theorem StoreKept.pulse {s t : State} (kept : StoreKept s t) (p : PulseLaw s) : PulseLaw t :=
  p.congr (fun _ => by simp only [State.line, kept.lines]) (fun _ => by simp only [State.recordAt, kept.records])

theorem PulseLaw.setModes {s : State} (p : PulseLaw s) (mask : Byte) (mode : LineId → LineMode) :
    PulseLaw (s.setModes mask mode) := by
  refine ⟨fun l => ?_, p.width⟩
  have e : (s.setModes mask mode).line l = if maskBit mask l.val then { s.line l with mode := mode l } else s.line l := by
    simp [State.setModes, State.line, Vector.get_eq_getElem]
  rw [e]
  split
  · exact (p.line l).congr rfl rfl
  · exact p.line l

theorem PulseLaw.change {s t : State} (p : PulseLaw s) (c : Change s t) : PulseLaw t := by
  cases c with
  | idle => exact p
  | reset => exact ⟨fun l => resetBlocks_line s l ▸ .idle rfl, fun h => resetBlocks_recordAt s h ▸ .none⟩
  | modes mask mode => exact p.setModes mask mode
  | expire l => exact p.setLine l _ (p.line l).takeExpiry
  | tick => exact ⟨fun l => tick_line s l ▸ (p.line l).tick, p.width⟩
  | acknowledge h pending => exact (p.putSame h _ (by rfl)).autoRelease h
  | quiet k f q => exact p.updAx k f
  | masks m0 m1 m2 m3 => exact (((p.updAx 0 _).updAx 1 _).updAx 2 _).updAx 3 _
  | pair k fa fb => exact p.updAx k _
  | index k fi => exact (handOnIndex_store s k fi).pulse p
  | rate k => exact p.updAx k _
  | configure k given valid preset period allowed => exact (configure_store s k _).pulse p
  | setPosition k q fits range => exact p.congr (fun _ => rfl) (fun _ => rfl)
  | resync k => exact p.congr (fun _ => rfl) (fun _ => rfl)
  | take request => rcases mailboxTake_eq s request with e | e <;> rw [e]; exacts [p, p.updEngine _]
  | grant => exact p.engineRow (grant_row s)
  | link => exact p.engineRow (linkEvent_row s)
  | unlink => exact p.engineRow (unlinkEvent_row s)
  | retireCheck => exact p.engineRow (retireCheck_row s)
  | retireEnd => exact p.engineRow (retireEnd_row s)
  | walk => exact p.engineRow (walkOn_row s)
  | place => exact p.placed (placeStalled_placed s)
  | stepStart k => exact p.updAx k _
  | examine k => exact p.examined (examine_examined s k)
  | seekComplete k => exact p.updAx k _

/-! ### The rate generator (R51) -/

/-- What the law of timers says of one axis. -/
structure RateFine (a : Axis) : Prop where
  period : 1 ≤ a.config.ratePeriod ∧ a.config.ratePeriod ≤ 65535
  rate : ∀ n, a.front.rateTimer = some n → 1 ≤ n ∧ n ≤ 65535
  running : a.front.rateTimer ≠ none ↔ a.front.state = .counting ∧ a.config.source = .rate

section RateFine
variable {a b : Axis}

theorem RateFine.congr (p : RateFine a) (config : b.config = a.config) (timer : b.front.rateTimer = a.front.rateTimer)
    (state : b.front.state = a.front.state) : RateFine b :=
  ⟨config ▸ p.period, timer ▸ p.rate, config ▸ timer ▸ state ▸ p.running⟩

/-- A front end that is not COUNTING, its generator IDLE. -/
theorem RateFine.stops (p : RateFine a) (config : b.config = a.config) (timer : b.front.rateTimer = none)
    (state : b.front.state ≠ .counting) : RateFine b :=
  ⟨config ▸ p.period, (by rw [timer]; nofun),
    iff_of_false (fun running => running timer) (fun counting => state counting.1)⟩

/-- A COUNTING front end whose generator starts with the period in force, if its source is RATE. -/
theorem RateFine.starts (p : RateFine a) (config : b.config = a.config) (state : b.front.state = .counting)
    (timer : b.front.rateTimer = if a.config.source = .rate then some a.config.ratePeriod else a.front.rateTimer) :
    RateFine b := by
  by_cases source : a.config.source = .rate
  · rw [if_pos source] at timer
    refine ⟨config ▸ p.period, fun n running => ?_, iff_of_true ?_ ⟨state, config ▸ source⟩⟩
    · rw [timer] at running
      cases running
      exact p.period
    · rw [timer]; nofun
  · rw [if_neg source] at timer
    have idle : a.front.rateTimer = none := by
      by_contra running
      exact source (p.running.mp running).2
    exact ⟨config ▸ p.period, timer ▸ p.rate,
      iff_of_false (fun running => running (timer.trans idle)) (fun c => source (config ▸ c.2))⟩

/-- A generator that runs starts again at the end of its period. -/
theorem RateFine.restarts (p : RateFine a) (running : a.front.rateTimer ≠ none) (ahead : Bool) :
    RateFine { a with front := { a.front with rateTimer := some a.config.ratePeriod, rateAhead := ahead } } :=
  p.starts rfl (p.running.mp running).1 (if_pos (p.running.mp running).2).symm

/-! Operations that leave the front end and the configuration. -/

theorem lagCheck_front (a : Axis) : a.lagCheck.config = a.config ∧ a.lagCheck.front = a.front := by
  unfold Axis.lagCheck
  split
  · exact ⟨rfl, rfl⟩
  · split
    · unfold Axis.lagFaultTracking
      split <;> exact ⟨rfl, rfl⟩
    · exact ⟨rfl, rfl⟩
    · exact ⟨rfl, rfl⟩
    · exact ⟨rfl, rfl⟩

theorem settleCheck_front (a : Axis) : a.settleCheck.config = a.config ∧ a.settleCheck.front = a.front := by
  rw [settleCheck_eq]
  exact ⟨rfl, rfl⟩

theorem settleIfTracking_front (a : Axis) :
    a.settleIfTracking.config = a.config ∧ a.settleIfTracking.front = a.front := by
  unfold Axis.settleIfTracking
  split
  · exact settleCheck_front a
  · exact ⟨rfl, rfl⟩

theorem stepGoesOn_front (a : Axis) : a.stepGoesOn.config = a.config ∧ a.stepGoesOn.front = a.front := by
  unfold Axis.stepGoesOn
  split
  · split <;> exact ⟨rfl, rfl⟩
  · exact ⟨rfl, rfl⟩

theorem guardEnter_front (a : Axis) (h : Handle) (p : Int) :
    (Axis.guardEnter h p a).config = a.config ∧ (Axis.guardEnter h p a).front = a.front := by
  unfold Axis.guardEnter
  dsimp only
  split <;> exact ⟨rfl, rfl⟩

theorem stepStart_front (a : Axis) (pos : Handle → Int) :
    (Axis.stepStart pos a).config = a.config ∧ (Axis.stepStart pos a).front = a.front := by
  unfold Axis.stepStart
  split
  · next d _ _ _ =>
    obtain ⟨config, front⟩ := settleCheck_front (a.beginStep pos d)
    rw [config, front]
    unfold Axis.beginStep
    dsimp only
    split <;> exact ⟨rfl, rfl⟩
  · exact ⟨rfl, rfl⟩

theorem seekComplete_front (a : Axis) (pos : Handle → Int) :
    (Axis.seekComplete pos a).config = a.config ∧ (Axis.seekComplete pos a).front = a.front := by
  unfold Axis.seekComplete
  split
  · dsimp only
    split
    · exact settleCheck_front _
    · exact ⟨rfl, rfl⟩
  · exact ⟨rfl, rfl⟩

theorem RateFine.kept (p : RateFine a) (kept : b.config = a.config ∧ b.front = a.front) : RateFine b :=
  p.congr kept.1 (congrArg FrontEnd.rateTimer kept.2) (congrArg FrontEnd.state kept.2)

theorem RateFine.captureValue (p : RateFine a) (v : CaptureSlot) : RateFine (Axis.captureValue v a) := by
  unfold Axis.captureValue
  split <;> exact p.congr rfl rfl rfl

/-- A range fault stops the generator with the front end (R52). -/
theorem RateFine.count (p : RateFine a) (d : Dir) : RateFine (a.count d) := by
  unfold Axis.count
  split
  · exact p.stops rfl rfl nofun
  · have moved (c : Int) (turn : Turn) : RateFine { a with front := { a.front with c := c, liveTurn := turn } } :=
      p.congr rfl rfl rfl
    exact (moved _ _).kept (lagCheck_front _)

/-- With source RATE the decoder makes nothing, so a phase error finds the generator IDLE (R48, R51). -/
theorem RateFine.phaseError (p : RateFine a) (source : a.config.source ≠ .rate) : RateFine a.phaseError := by
  have idle : a.front.rateTimer = none := by
    by_contra running
    exact source (p.running.mp running).2
  unfold Axis.phaseError
  split
  · exact p.stops rfl idle nofun
  · exact p.congr rfl rfl rfl

theorem RateFine.decoderEvent (p : RateFine a) : RateFine a.decoderEvent := by
  unfold Axis.decoderEvent
  dsimp only
  split
  · exact p.congr rfl rfl rfl
  · next d made => exact (p.count d).congr rfl rfl rfl
  · next made =>
    refine (p.phaseError (fun source => ?_)).congr rfl rfl rfl
    rw [source] at made
    split at made <;> cases made

theorem RateFine.handOnPair (p : RateFine a) (fa fb : InputFilter) : RateFine (Axis.handOnPair fa fb a) := by
  unfold Axis.handOnPair
  dsimp only
  split
  · exact p.congr rfl rfl rfl
  · exact RateFine.decoderEvent (p.congr rfl rfl rfl)

theorem RateFine.rateExpire (p : RateFine a) : RateFine a.rateExpire := by
  unfold Axis.rateExpire
  split
  · next due =>
    have running : a.front.rateTimer ≠ none := by
      intro idle
      rw [idle] at due
      simp [reachesZero] at due
    exact (p.restarts running true).count _
  · exact p

theorem RateFine.tick (p : RateFine a) : RateFine a.tick := by
  unfold Axis.tick
  split
  · exact p.congr rfl rfl rfl
  · split
    · next due =>
      have running : a.front.rateTimer ≠ none := by
        intro idle
        rw [idle] at due
        cases due
      exact (p.restarts running _).count _
    · next early =>
      refine ⟨p.period, fun n after => ?_, ?_⟩
      · obtain ⟨before, positive⟩ := lowered_some early after
        have bound := p.rate _ before
        omega
      · show lowered a.front.rateTimer ≠ none ↔ _
        rw [lowered, ne_eq, Option.map_eq_none_iff]
        exact p.running

theorem RateFine.started (p : RateFine a) : RateFine a.started := by
  unfold Axis.started Axis.startRate
  split
  · next source => exact p.starts rfl rfl (if_pos source).symm
  · next source => exact p.starts rfl rfl (if_neg source).symm

theorem RateFine.resynced (p : RateFine a) : RateFine a.resynced := by
  unfold Axis.resynced Axis.startRate
  split
  · exact p
  · split
    · next source => exact p.starts rfl rfl (if_pos source).symm
    · next source => exact p.starts rfl rfl (if_neg source).symm

theorem RateFine.quiet {f : Axis → Axis} (q : QuietUpdate f) (p : RateFine a) : RateFine (f a) := by
  cases q with
  | start => exact p.started
  | stop =>
    have halted : RateFine
        { a with front := { a.front with state := .halted, rateTimer := none }, eval := { a.eval with settle := true } } :=
      p.stops rfl rfl nofun
    exact halted.kept (settleIfTracking_front _)
  | pins change => cases change <;> exact p.congr rfl rfl rfl
  | emptySlot => exact p.congr rfl rfl rfl
  | clearFlags => exact p.congr rfl rfl rfl
  | mask => exact p.congr rfl rfl rfl
  | home => exact p.congr rfl rfl rfl
  | bank => exact p.congr rfl rfl rfl

/-- A source changes only in HALTED, and the generator is then IDLE before and after (R42, R43). -/
theorem RateFine.configured (p : RateFine a) (new : AxisConfig) (period : 1 ≤ new.ratePeriod ∧ new.ratePeriod ≤ 65535)
    (halted : a.config.source ≠ new.source → a.front.state = .halted) : RateFine (a.configured new) := by
  have state := configured_state a new
  have timer := configured_rateTimer a new
  by_cases source : a.config.source = new.source
  · rw [if_neg (not_not.mpr source)] at timer
    refine ⟨period, timer ▸ p.rate, ?_⟩
    rw [timer, state]
    exact p.running.trans (by rw [source]; rfl)
  · rw [if_pos source] at timer
    refine ⟨period, timer ▸ nofun, iff_of_false (fun running => running timer) ?_⟩
    rw [state, halted source]
    nofun

theorem AxisStep.rateFine (x : AxisStep a b) (p : RateFine a) : RateFine b := by
  cases x with
  | quiet f q => exact p.quiet q
  | pair fa fb => exact p.handOnPair fa fb
  | inputI fi => exact p.congr rfl rfl rfl
  | capture v => exact p.captureValue v
  | homes => exact ⟨p.period, p.rate, p.running⟩
  | tracks =>
    have moved : RateFine { a with front := { a.front with c := a.config.indexPreset, liveTurn := a.trackTurn } } :=
      p.congr rfl rfl rfl
    exact moved.captureValue _
  | seeks target turn => exact p.kept ⟨rfl, rfl⟩
  | rate => exact p.rateExpire
  | tick => exact p.tick
  | configure new period halted => exact p.configured new period halted
  | position q => exact p.congr rfl rfl rfl
  | resync => exact p.resynced
  | run st rest => exact p.kept ⟨rfl, rfl⟩
  | goesOn => exact p.kept (stepGoesOn_front a)
  | bank => exact p.kept ⟨rfl, rfl⟩
  | guards h q => exact p.kept (guardEnter_front a h q)
  | holds f => exact p.kept ⟨rfl, rfl⟩
  | dropHeld => exact p.kept ⟨rfl, rfl⟩
  | settles => exact p.kept (settleIfTracking_front a)
  | links pos q h => exact p.kept ⟨rfl, rfl⟩
  | unlinks h => exact p.kept ⟨rfl, rfl⟩
  | stepStart pos => exact p.kept (stepStart_front a pos)
  | seekComplete pos => exact p.kept (seekComplete_front a pos)
  | reset => exact ⟨(show 1 ≤ 1000 ∧ 1000 ≤ 65535 by decide), nofun, iff_of_false (fun running => running rfl) nofun⟩

end RateFine

/-! ### Guard sets (R69) -/

section Guard
variable {a b : Axis}

theorem guard_filter_length (a : Axis) (keep : GuardEntry → Bool) :
    (a.eval.guard.filter keep).length ≤ a.eval.guard.length := List.length_filter_le _ _

theorem guardEnter_guard {a : Axis} (p : a.eval.guard.length ≤ Config.guardCapacity) (h : Handle) (q : Int) :
    (Axis.guardEnter h q a).eval.guard.length ≤ Config.guardCapacity := by
  unfold Axis.guardEnter
  dsimp only
  split
  · next room =>
    show (a.eval.guard ++ _).length ≤ _
    rw [List.length_append]
    exact room
  · show (a.eval.guard.tail ++ _).length ≤ _
    rw [List.length_append, List.length_tail]
    have one : Config.guardCapacity = 8 := rfl
    simp only [List.length_singleton]
    omega

theorem lagCheck_guard (a : Axis) : a.lagCheck.eval.guard.length ≤ a.eval.guard.length := by
  unfold Axis.lagCheck
  split
  · exact le_refl _
  · split
    · unfold Axis.lagFaultTracking
      split
      · exact guard_filter_length a _
      · exact le_refl _
    · exact le_refl _
    · exact le_refl _
    · exact le_refl _

theorem count_guard (a : Axis) (d : Dir) : (a.count d).eval.guard.length ≤ a.eval.guard.length := by
  unfold Axis.count
  split
  · exact le_refl _
  · exact lagCheck_guard _

theorem handOnPair_guard (a : Axis) (fa fb : InputFilter) :
    (Axis.handOnPair fa fb a).eval.guard.length ≤ a.eval.guard.length := by
  unfold Axis.handOnPair
  dsimp only
  split
  · exact le_refl _
  · unfold Axis.decoderEvent
    dsimp only
    split
    · exact le_refl _
    · exact count_guard _ _
    · unfold Axis.phaseError
      split <;> exact le_refl _

theorem stepGoesOn_guard (a : Axis) : a.stepGoesOn.eval.guard.length ≤ a.eval.guard.length := by
  unfold Axis.stepGoesOn
  split
  · split
    · exact guard_filter_length a _
    · exact le_refl _
  · exact le_refl _

theorem settleCheck_guard (a : Axis) : a.settleCheck.eval.guard = a.eval.guard := by rw [settleCheck_eq]

theorem settleIfTracking_guard (a : Axis) : a.settleIfTracking.eval.guard = a.eval.guard := by
  unfold Axis.settleIfTracking
  split
  · exact settleCheck_guard a
  · rfl

theorem stepStart_guard (a : Axis) (pos : Handle → Int) :
    (Axis.stepStart pos a).eval.guard.length ≤ a.eval.guard.length := by
  unfold Axis.stepStart
  split
  · rw [settleCheck_guard]
    unfold Axis.beginStep
    dsimp only
    split
    · exact guard_filter_length a _
    · exact le_refl _
  · exact le_refl _

theorem AxisStep.guardFine (x : AxisStep a b) (p : a.eval.guard.length ≤ Config.guardCapacity) :
    b.eval.guard.length ≤ Config.guardCapacity := by
  cases x with
  | quiet f q =>
    cases q with
    | start =>
      unfold Axis.started Axis.startRate
      split <;> exact p
    | stop => exact (settleIfTracking_guard _).symm ▸ p
    | pins change => exact p
    | emptySlot => exact p
    | clearFlags => exact p
    | mask => exact p
    | home => exact p
    | bank => exact p
  | pair fa fb => exact (handOnPair_guard a fa fb).trans p
  | inputI fi => exact p
  | capture v => unfold Axis.captureValue; split <;> exact p
  | homes => exact p
  | tracks => unfold Axis.trackRebase Axis.captureValue; split <;> exact p
  | seeks target turn => exact Nat.zero_le _
  | rate =>
    unfold Axis.rateExpire
    split
    · exact (count_guard _ _).trans p
    · exact p
  | tick =>
    unfold Axis.tick
    split
    · exact p
    · split
      · exact (count_guard _ _).trans p
      · exact p
  | configure new period halted =>
    rw [configured_eval]
    show (if _ then [] else a.eval.guard : List GuardEntry).length ≤ _
    split
    · exact Nat.zero_le _
    · exact p
  | position q => exact p
  | resync => unfold Axis.resynced Axis.startRate; split_ifs <;> exact p
  | run st rest => exact p
  | goesOn => exact (stepGoesOn_guard a).trans p
  | bank => exact p
  | guards h q => exact guardEnter_guard p h q
  | holds f => exact p
  | dropHeld => exact p
  | settles => exact (settleIfTracking_guard a).symm ▸ p
  | links pos q h => exact p
  | unlinks h => exact (guard_filter_length a _).trans p
  | stepStart pos => exact (stepStart_guard a pos).trans p
  | seekComplete pos =>
    unfold Axis.seekComplete
    split
    · dsimp only
      split
      · exact (settleCheck_guard _).symm ▸ p
      · exact p
    · exact p
  | reset => exact Nat.zero_le _

end Guard

/-! ### The engine (R98, R100) -/

theorem EngineStep.queueFine {g g' : Engine} (x : EngineStep g g') (p : g.queue.length ≤ Config.linkQueueDepth) :
    g'.queue.length ≤ Config.linkQueueDepth := by
  cases x with
  | command request => rw [arrived_queue]; exact p
  | request r room =>
    rw [arrived_queue, List.length_append]
    exact room
  | stalled axes => exact p
  | occupant o busy => exact p
  | takesCommand r turn => exact p
  | takesLink r turn => exact p
  | ends code data => exact p
  | endsLink =>
    rw [freed_queue]
    exact (List.length_tail ▸ Nat.sub_le _ _).trans p
  | reset => exact Nat.zero_le _

/-- What the arbiter's decision says of the claimants that wait (R100). -/
theorem choice_none (g : Engine) : g.choice = none ↔ g.queue = [] ∧ ∀ c, g.mailbox ≠ .waiting c := by
  unfold Engine.choice
  split <;> simp_all
  split <;> simp

theorem choice_link {g : Engine} (e : g.choice = some .link) (rests : (∀ c, g.mailbox ≠ .waiting c) → g.streak = 0) :
    g.queue ≠ [] ∧ g.streak < Config.streakLimit := by
  unfold Engine.choice at e
  split at e
  · next queue _ =>
    split at e
    · next below => exact ⟨queue ▸ nofun, below⟩
    · cases e
  · next queue none_waits => exact ⟨queue ▸ nofun, (rests none_waits).symm ▸ (by decide)⟩
  · cases e
  · cases e

theorem choice_command {g : Engine} (e : g.choice = some .command) : ∃ c, g.mailbox = .waiting c := by
  unfold Engine.choice at e
  split at e
  · next waiting => exact ⟨_, waiting⟩
  · cases e
  · next waiting => exact ⟨_, waiting⟩
  · cases e

/-- The law of the arbiter looks at the engine alone. -/
theorem ArbiterLaw.congr {s t : State} (p : ArbiterLaw s) (e : t.engine = s.engine) : ArbiterLaw t := by
  obtain ⟨streak, rests, busy, idle, link, command⟩ := p
  exact ⟨e ▸ streak, e ▸ rests, e ▸ busy, e ▸ idle, e ▸ link, e ▸ command⟩

/-- An idle engine whose claim is the choice of the arbiter meets the law (R100). -/
theorem ArbiterLaw.of_choice {s : State} (free : s.engine.occupant = .none) (claim : s.engine.claim = s.engine.choice)
    (streak : s.engine.streak ≤ Config.streakLimit)
    (rests : (∀ c, s.engine.mailbox ≠ .waiting c) → s.engine.streak = 0) : ArbiterLaw s where
  streak := streak
  rests := rests
  busy work := absurd free work
  idle _ := claim ▸ choice_none s.engine
  link e := choice_link (claim ▸ e) rests
  command e := choice_command (claim ▸ e)

section Arbiter
variable {s : State} {g : Engine}

/-- An arrival: at an idle engine without a claim the arbiter decides, and in every other engine only more claimants wait. -/
theorem ArbiterLaw.arrival (p : ArbiterLaw s) (occupant : g.occupant = s.engine.occupant)
    (claim : g.claim = s.engine.claim) (streak : g.streak = s.engine.streak)
    (queue : s.engine.queue ≠ [] → g.queue ≠ [])
    (mailbox : (∃ c, s.engine.mailbox = .waiting c) → ∃ c, g.mailbox = .waiting c) :
    ArbiterLaw { s with engine := g.arrived } := by
  have rests : (∀ c, g.mailbox ≠ .waiting c) → g.streak = 0 := fun none_waits =>
    streak ▸ p.rests (fun c waiting =>
      have ⟨c', waits⟩ := mailbox ⟨c, waiting⟩
      none_waits c' waits)
  unfold Engine.arrived
  split
  · next free unclaimed => exact .of_choice free rfl (streak ▸ p.streak) rests
  · next decided =>
    have waited (none_claims : g.queue = [] ∧ ∀ c, g.mailbox ≠ .waiting c) :
        s.engine.queue = [] ∧ ∀ c, s.engine.mailbox ≠ .waiting c :=
      ⟨by_contra (fun some_queued => queue some_queued none_claims.1), fun c waiting =>
        have ⟨c', waits⟩ := mailbox ⟨c, waiting⟩
        none_claims.2 c' waits⟩
    exact
      { streak := streak ▸ p.streak
        rests := rests
        busy := fun work => claim.trans (p.busy (occupant ▸ work))
        idle := fun free => iff_of_false (decided free) (fun none_claims =>
          decided free (claim.trans ((p.idle (occupant ▸ free)).mpr (waited none_claims))))
        link := fun e =>
          have ⟨queued, below⟩ := p.link (claim ▸ e)
          ⟨queue queued, streak ▸ below⟩
        command := fun e => mailbox (p.command (claim ▸ e)) }

/-- The end of an operation: the occupant goes NONE, and the arbiter decides (R100). -/
theorem ArbiterLaw.freed (streak : g.streak ≤ Config.streakLimit)
    (rests : (∀ c, g.mailbox ≠ .waiting c) → g.streak = 0) : ArbiterLaw { s with engine := g.freed } :=
  .of_choice rfl rfl streak rests

theorem finish_waiting (m : Mailbox) (code : ResultCode) (data : Nat) (none_waits : ∀ c, m.finish code data ≠ .waiting c) :
    ∀ c, m ≠ .waiting c := by
  rintro c rfl
  exact none_waits c rfl

/-- A request is taken over a waiting command only below the limit of the streak (R100). -/
theorem streakAtLink_le (p : ArbiterLaw s) (turn : s.engine.claim = some .link) :
    s.engine.streakAtLink ≤ Config.streakLimit := by
  unfold Engine.streakAtLink
  split
  · exact (p.link turn).2
  · exact Nat.zero_le _

theorem ArbiterLaw.step (p : ArbiterLaw s) (x : EngineStep s.engine g) : ArbiterLaw { s with engine := g } := by
  cases x with
  | command request => exact p.arrival rfl rfl rfl id (fun _ => ⟨request, rfl⟩)
  | request r room => exact p.arrival rfl rfl rfl (fun _ => by simp) id
  | stalled axes => exact ⟨p.streak, p.rests, p.busy, p.idle, p.link, p.command⟩
  | occupant o busy =>
    exact ⟨p.streak, p.rests, fun work => p.busy (mt busy.mpr work), fun free => p.idle (busy.mp free), p.link, p.command⟩
  | takesCommand r turn =>
    exact ⟨Nat.zero_le _, fun _ => rfl, fun _ => rfl, nofun, nofun, nofun⟩
  | takesLink r turn =>
    refine ⟨streakAtLink_le p turn, fun none_waits => ?_, fun _ => rfl, nofun, nofun, nofun⟩
    show s.engine.streakAtLink = 0
    unfold Engine.streakAtLink
    split
    · next c waiting => exact absurd waiting (none_waits c)
    · rfl
  | ends code data =>
    exact .freed p.streak (fun none_waits => p.rests (finish_waiting _ code data none_waits))
  | endsLink => exact .freed p.streak p.rests
  | reset =>
    exact .of_choice rfl rfl (Nat.zero_le _) (fun _ => rfl)

end Arbiter

/-! ### The laws -/

theorem TimerLaw.pulse {s : State} (p : TimerLaw s) : PulseLaw s := ⟨p.line, p.width⟩

theorem TimerLaw.rateFine {s : State} (p : TimerLaw s) (k : AxisId) : RateFine (s.ax k) :=
  ⟨p.period k, p.rate k, p.running k⟩

theorem TimerLaw.of_parts {s : State} (p : PulseLaw s) (q : ∀ k, RateFine (s.ax k)) : TimerLaw s :=
  ⟨p.line, p.width, fun k => (q k).period, fun k => (q k).rate, fun k => (q k).running⟩

/-- A property that every operation on an axis keeps is kept by every change. -/
theorem Change.axis_keeps {s t : State} (c : Change s t) {P : Axis → Prop} (keeps : ∀ a b, AxisStep a b → P a → P b)
    (k : AxisId) (p : P (s.ax k)) : P (t.ax k) := by
  have chain := c.reaches.ax k
  generalize t.ax k = b at chain ⊢
  induction chain with
  | refl => exact p
  | tail _ one ih => exact keeps _ _ one ih

/-- A property that every operation on the engine keeps is kept by every change. -/
theorem Change.engine_keeps {s t : State} (c : Change s t) {P : Engine → Prop}
    (keeps : ∀ g g', EngineStep g g' → P g → P g') (p : P s.engine) : P t.engine := by
  have chain := c.reaches.engine
  generalize t.engine = g at chain ⊢
  induction chain with
  | refl => exact p
  | tail _ one ih => exact keeps _ _ one ih

theorem TimerLaw.change {s t : State} (p : TimerLaw s) (c : Change s t) : TimerLaw t :=
  .of_parts (p.pulse.change c) (fun k => c.axis_keeps (fun _ _ x q => x.rateFine q) k (p.rateFine k))

theorem CapacityLaw.change {s t : State} (p : CapacityLaw s) (c : Change s t) : CapacityLaw t :=
  ⟨c.engine_keeps (fun _ _ x q => x.queueFine q) p.queue,
    fun k => c.axis_keeps (fun _ _ x q => x.guardFine q) k (p.guard k)⟩

theorem ArbiterLaw.change {s t : State} (p : ArbiterLaw s) (c : Change s t) : ArbiterLaw t :=
  have law : ArbiterLaw { s with engine := t.engine } :=
    c.engine_keeps (P := fun g => ArbiterLaw { s with engine := g }) (fun _ _ x q => q.step x) p
  law.congr rfl

theorem SameBlocks.pulse {s t : State} (b : SameBlocks s t) (p : PulseLaw s) : PulseLaw t :=
  p.congr b.line (fun h => congrArg Record.action (b.recordAt h))

/-- Settles O55: every change is a chain of operations on the axes and on the engine, beside what it does to lines and records, and
each operation keeps its part of the laws. -/
theorem stepKeepsTimersCapacitiesAndArbiter : Obligations.StepKeepsTimersCapacitiesAndArbiter := by
  refine ⟨step_keeps (fun s t same p => ?timers) (fun _ _ c p => p.change c),
    step_keeps (fun s t same p => ?capacities) (fun _ _ c p => p.change c),
    step_keeps (fun s t same p => p.congr same.engine) (fun _ _ c p => p.change c)⟩
  case timers => exact .of_parts (same.pulse p.pulse) (fun k => same.ax k ▸ p.rateFine k)
  case capacities => exact ⟨same.engine ▸ p.queue, fun k => same.ax k ▸ p.guard k⟩

end Sys2Proof.Machine
end

section
/-! PROOFS. The law of stalls (R72, R75, R76, R99) through every change. -/

namespace Sys2Proof.Machine

/-! ### One axis -/

/-- What the law of stalls says of one axis. -/
structure HeldFine (a : Axis) : Prop where
  heldState : a.eval.held ≠ none → a.eval.state = .stalled ∨ a.eval.state = .faultedLag
  stalledHolds : a.eval.state = .stalled → a.eval.held ≠ none

/-- An operation on an axis that leaves its held fire, and a state that goes with it. -/
structure Holds (a b : Axis) : Prop where
  held : b.eval.held = a.eval.held
  fine : HeldFine a → HeldFine b

section Holds
variable {a b c : Axis}

theorem Holds.same (held : b.eval.held = a.eval.held) (state : b.eval.state = a.eval.state) : Holds a b :=
  ⟨held, fun p => ⟨held ▸ state ▸ p.heldState, held ▸ state ▸ p.stalledHolds⟩⟩

theorem Holds.eval (e : b.eval = a.eval) : Holds a b := .same (e ▸ rfl) (e ▸ rfl)

theorem Holds.refl (a : Axis) : Holds a a := .same rfl rfl

theorem Holds.trans (p : Holds a b) (q : Holds b c) : Holds a c := ⟨q.held.trans p.held, q.fine ∘ p.fine⟩

/-- An evaluator that holds no fire and does not go STALLED. -/
theorem Holds.free (held : b.eval.held = a.eval.held) (before : a.eval.state = .tracking ∨ a.eval.state = .seeking)
    (after : b.eval.state ≠ .stalled) : Holds a b := by
  refine ⟨held, fun p => ⟨fun holds => ?_, fun stalled => absurd stalled after⟩⟩
  rcases p.heldState (held ▸ holds) with e | e <;> rcases before with t | t <;> rw [t] at e <;> cases e

theorem Holds.settleCheck (a : Axis) : Holds a a.settleCheck := by
  rw [settleCheck_eq]
  exact .same rfl rfl

theorem Holds.settleIfTracking (a : Axis) : Holds a a.settleIfTracking := by
  unfold Axis.settleIfTracking
  split
  · exact .settleCheck a
  · exact .refl a

theorem Holds.stepGoesOn (a : Axis) : Holds a a.stepGoesOn := by
  unfold Axis.stepGoesOn
  split
  · split <;> exact .same rfl rfl
  · exact .refl a

theorem Holds.guardEnter (a : Axis) (h : Handle) (p : Int) : Holds a (Axis.guardEnter h p a) := by
  unfold Axis.guardEnter
  dsimp only
  split <;> exact .same rfl rfl

theorem Holds.captureValue (a : Axis) (v : CaptureSlot) : Holds a (Axis.captureValue v a) := by
  unfold Axis.captureValue
  split <;> exact .eval rfl

/-- A lag fault of a TRACKING evaluator finds no held fire, and one of a STALLED evaluator keeps it (R74, R75). -/
theorem Holds.lagCheck (a : Axis) : Holds a a.lagCheck := by
  unfold Axis.lagCheck
  split
  · exact .refl a
  · split
    · next tracking =>
      refine .free ?_ (.inl tracking) nofun
      unfold Axis.lagFaultTracking
      split <;> rfl
    · next stalled => exact ⟨rfl, fun _ => ⟨fun _ => .inr rfl, nofun⟩⟩
    · exact .refl a
    · exact .refl a

theorem Holds.count (a : Axis) (d : Dir) : Holds a (a.count d) := by
  unfold Axis.count
  split
  · exact .eval rfl
  · have moved (c : Int) (turn : Turn) : Holds a { a with front := { a.front with c := c, liveTurn := turn } } := .eval rfl
    exact (moved _ _).trans (.lagCheck _)

theorem Holds.handOnPair (a : Axis) (fa fb : InputFilter) : Holds a (Axis.handOnPair fa fb a) := by
  unfold Axis.handOnPair
  dsimp only
  split
  · exact .eval rfl
  · refine Holds.trans (b := { a with front := { a.front with inputA := fa, inputB := fb } }) (.eval rfl) ?_
    unfold Axis.decoderEvent
    dsimp only
    split
    · exact .eval rfl
    · exact (Holds.count _ _).trans (.eval rfl)
    · refine .eval ?_
      unfold Axis.phaseError
      split <;> rfl

theorem Holds.rateCount (a : Axis) : Holds a a.rateCount :=
  Holds.trans (b := { a with front := { a.front with rateTimer := some a.config.ratePeriod } }) (.eval rfl) (.count _ _)

theorem Holds.rateExpire (a : Axis) : Holds a a.rateExpire := by
  unfold Axis.rateExpire
  split
  · exact Holds.trans (b := { a with front := { a.front with rateAhead := true } }) (.eval rfl) (.rateCount _)
  · exact .refl a

theorem Holds.tick (a : Axis) : Holds a a.tick := by
  unfold Axis.tick
  split
  · exact .eval rfl
  · split
    · exact .rateCount a
    · exact .eval rfl

theorem Holds.configured (a : Axis) (new : AxisConfig) : Holds a (a.configured new) :=
  .same (by rw [configured_eval]) (by rw [configured_eval])

theorem Holds.resynced (a : Axis) : Holds a a.resynced := by
  unfold Axis.resynced Axis.startRate
  split_ifs <;> exact .eval rfl

theorem Holds.beginStep (a : Axis) (pos : Handle → Int) (d : Dir) : Holds a (a.beginStep pos d) := by
  unfold Axis.beginStep
  dsimp only
  split <;> exact .same rfl rfl

theorem Holds.stepStart (a : Axis) (pos : Handle → Int) : Holds a (Axis.stepStart pos a) := by
  unfold Axis.stepStart
  split
  · exact (Holds.beginStep a pos _).trans (.settleCheck _)
  · exact .refl a

theorem Holds.seekComplete (a : Axis) (pos : Handle → Int) : Holds a (Axis.seekComplete pos a) := by
  unfold Axis.seekComplete
  split
  · next seeking =>
    dsimp only
    split
    · have found (n : Nat) : Holds a { a with cursor := some n, eval := { a.eval with state := .tracking } } :=
        .free rfl (.inr seeking) nofun
      exact (found _).trans (.settleCheck _)
    · exact .free rfl (.inr seeking) nofun
  · exact .refl a

theorem Holds.quiet (a : Axis) {f : Axis → Axis} (q : QuietUpdate f) : Holds a (f a) := by
  cases q with
  | start =>
    unfold Axis.started Axis.startRate
    split <;> exact .same rfl rfl
  | stop =>
    exact Holds.trans (b := { a with
      front := { a.front with state := .halted, rateTimer := none }, eval := { a.eval with settle := true } })
      (.same rfl rfl) (.settleIfTracking _)
  | emptySlot => exact .eval rfl
  | clearFlags => exact .eval rfl
  | mask => exact .eval rfl
  | home => exact .eval rfl
  | bank => exact .same rfl rfl
  | pins => exact .eval rfl

end Holds

/-! ### The stalled adders -/

theorem StallLaw.heldFine {s : State} (p : StallLaw s) (k : AxisId) : HeldFine (s.ax k) :=
  ⟨p.heldState k, p.stalledHolds k⟩

theorem StallLaw.of_axes {s : State} (once : s.engine.stalled.Nodup)
    (member : ∀ k, k ∈ s.engine.stalled ↔ (s.ax k).eval.held ≠ none) (fine : ∀ k, HeldFine (s.ax k)) : StallLaw s :=
  ⟨once, member, fun k => (fine k).heldState, fun k => (fine k).stalledHolds⟩

/-- Every axis keeps its held fire, and the stalled adders are as they were. -/
theorem StallLaw.holds {s t : State} (p : StallLaw s) (stalled : t.engine.stalled = s.engine.stalled)
    (ax : ∀ k, Holds (s.ax k) (t.ax k)) : StallLaw t :=
  .of_axes (stalled ▸ p.once) (fun k => by rw [stalled, (ax k).held]; exact p.member k)
    (fun k => (ax k).fine (p.heldFine k))

theorem StallLaw.congr {s t : State} (p : StallLaw s) (stalled : t.engine.stalled = s.engine.stalled)
    (ax : ∀ k, t.ax k = s.ax k) : StallLaw t := p.holds stalled (fun k => ax k ▸ .refl _)

theorem StallLaw.updAx {s : State} (p : StallLaw s) (k : AxisId) (f : Axis → Axis) (one : Holds (s.ax k) (f (s.ax k))) :
    StallLaw (s.updAx k f) := by
  refine p.holds rfl (fun j => ?_)
  rw [State.updAx_ax]
  split
  · next same => exact same ▸ one
  · exact .refl _

theorem StallLaw.updEngine {s : State} (p : StallLaw s) (f : Engine → Engine)
    (stalled : (f s.engine).stalled = s.engine.stalled) : StallLaw (s.updEngine f) := p.congr stalled (fun _ => rfl)

theorem StallLaw.putRecord {s : State} (p : StallLaw s) (h : Handle) (r : Record) : StallLaw (s.putRecord h r) :=
  p.congr rfl (State.putRecord_ax s h r)

theorem StallLaw.autoRelease {s : State} (p : StallLaw s) (h : Handle) : StallLaw (s.autoRelease h) :=
  have ⟨ax, _, engine, _⟩ := autoRelease_rest s h
  p.congr (engine ▸ rfl) ax

/-- A seek drops the held fire, and the axis leaves the stalled adders (R76, R99). -/
theorem StallLaw.seek {s : State} (p : StallLaw s) (k : AxisId) (target : Int) (turn : Turn) :
    StallLaw (s.seekStart k target turn) := by
  have stalled : (s.seekStart k target turn).engine.stalled = s.engine.stalled.filter (fun j => decide (j ≠ k)) := rfl
  refine .of_axes (stalled ▸ p.once.filter _) (fun j => ?_) (fun j => ?_)
  · rw [stalled, List.mem_filter, seekStart_ax, p.member j]
    by_cases other : j = k <;> simp [other, Axis.seekTo]
  · rw [seekStart_ax]
    split
    · exact ⟨fun holds => absurd rfl holds, nofun⟩
    · exact p.heldFine j

/-- A TRACKING evaluator holds no fire, so it is not yet among the stalled adders (R72, R99). -/
theorem StallLaw.holdFire {s : State} (p : StallLaw s) (k : AxisId) (tracking : (s.ax k).eval.state = .tracking)
    (source target : Handle) : StallLaw (s.holdFire k source target) := by
  have free : (s.ax k).eval.held = none := by
    by_contra holds
    rcases p.heldState k holds with e | e <;> rw [tracking] at e <;> cases e
  have stalled : (s.holdFire k source target).engine.stalled = s.engine.stalled ++ [k] := rfl
  have ax (j : AxisId) : (s.holdFire k source target).ax j = if j = k
      then { s.ax k with eval := { (s.ax k).eval with state := .stalled, held := some { source := source, target := target } } }
      else s.ax j := by
    unfold State.holdFire
    rw [State.updEngine_ax, State.updAx_ax]
  refine .of_axes ?_ (fun j => ?_) (fun j => ?_)
  · have new : k ∉ s.engine.stalled := fun m => (p.member k).mp m free
    rw [stalled]
    exact p.once.append (List.nodup_singleton k) (by simpa using new)
  · rw [stalled, ax, List.mem_append, p.member j]
    by_cases other : j = k <;> simp [other]
  · rw [ax]
    split
    · exact ⟨fun _ => .inl rfl, nofun⟩
    · exact p.heldFine j

/-- The axis at the head of the stalled adders leaves them with its held fire (R72, R75, R99). -/
theorem StallLaw.release {s : State} (p : StallLaw s) {k : AxisId} {rest : List AxisId}
    (stalled : s.engine.stalled = k :: rest) :
    StallLaw ((s.updEngine (fun g => { g with stalled := rest })).updAx k Axis.dropHeld) := by
  have once := p.once
  rw [stalled, List.nodup_cons] at once
  refine .of_axes once.2 (fun j => ?_) (fun j => ?_)
  · have member := p.member j
    rw [stalled, List.mem_cons] at member
    show j ∈ rest ↔ _
    rw [State.updAx_ax]
    by_cases same : j = k
    · subst same
      simp [once.1, Axis.dropHeld]
    · simpa [same] using member
  · rw [State.updAx_ax]
    split
    · refine ⟨fun holds => absurd rfl holds, fun state => ?_⟩
      change (if (s.ax k).eval.state = .stalled then EvalState.tracking else (s.ax k).eval.state) = .stalled at state
      split at state
      · cases state
      · next other => exact absurd state other
    · exact p.heldFine j

/-! ### Fires -/

theorem StallLaw.unlinkRecord {s : State} (p : StallLaw s) (k : AxisId) (h : Handle) (r : Record) :
    StallLaw (s.unlinkRecord k h r) :=
  StallLaw.putRecord ((p.updAx k (Axis.unlinkOut h) (.same rfl rfl)).updEngine _ (by rfl)) h r

theorem StallLaw.linkRecord {s : State} (p : StallLaw s) (k : AxisId) (h : Handle) : StallLaw (s.linkRecord k h) :=
  (p.updAx k _ (.eval rfl)).putRecord h _

theorem StallLaw.guardFired {s : State} (p : StallLaw s) (k : AxisId) (h : Handle) : StallLaw (s.guardFired k h) := by
  rcases guardFired_rest s k h with e | e <;> rw [e]
  · exact p
  · exact p.updAx k _ (.guardEnter _ _ _)

theorem StallLaw.finishFire {s : State} (p : StallLaw s) (k : AxisId) (h : Handle) : StallLaw (s.finishFire k h) := by
  unfold State.finishFire
  dsimp only
  split
  · exact p.guardFired k h
  · exact (p.unlinkRecord k h _).autoRelease h
  · exact (p.putRecord h _).guardFired k h

theorem StallLaw.placeLink {s : State} (p : StallLaw s) (source target : Handle) : StallLaw (s.placeLink source target) :=
  StallLaw.putRecord
    (p.updEngine (fun g => Engine.arrived { g with queue := g.queue ++ [{ source := source, target := target }] })
      (arrived_stalled _)) source _

theorem StallLaw.fire {s : State} (p : StallLaw s) (k : AxisId) (tracking : (s.ax k).eval.state = .tracking) (h : Handle)
    (d : Dir) (t : Turn) : StallLaw (s.fire k h d t) := by
  have ax (j : AxisId) :
      ((s.lineRequest (s.recordAt h).action).putRecord h ((s.recordAt h).fired d t)).ax j = s.ax j := by
    rw [State.putRecord_ax, lineRequest_ax]
  have q : StallLaw ((s.lineRequest (s.recordAt h).action).putRecord h ((s.recordAt h).fired d t)) :=
    p.congr (by rw [State.putRecord_engine, lineRequest_engine]) ax
  unfold State.fire
  dsimp only
  split
  · exact q.finishFire k h
  · exact (q.updAx k _ (.same rfl rfl)).finishFire k h
  · split
    · exact (q.placeLink h _).finishFire k h
    · exact q.holdFire k ((ax k).symm ▸ tracking) h _

theorem StallLaw.examined {s t : State} {k : AxisId} (p : StallLaw s) (x : Examined s k t) : StallLaw t := by
  have run (st : CrossingStep) (rest : List Handle) := p.updAx k (Axis.setRun st rest) (.same rfl rfl)
  cases x with
  | nothing => exact p
  | passes st h rest x => exact (run st rest).updAx k _ (.stepGoesOn _)
  | fires st h rest x e =>
    have tracking : ((s.updAx k (Axis.setRun st rest)).ax k).eval.state = .tracking := by
      rw [State.updAx_ax_same]
      exact x.state
    exact ((run st rest).fire k tracking h _ _).updAx k _ (.stepGoesOn _)

theorem placeLink_updAx (s : State) (source target : Handle) (k : AxisId) (f : Axis → Axis) :
    (s.placeLink source target).updAx k f = (s.updAx k f).placeLink source target := rfl

theorem StallLaw.placed {s t : State} (p : StallLaw s) (x : Placed s t) : StallLaw t := by
  cases x with
  | nothing => exact p
  | completes k rest f stalled held room =>
    unfold State.completeHeld
    dsimp only
    rw [finishFire_dropHeld, placeLink_updAx]
    have fired := ((p.release stalled).placeLink f.source f.target).finishFire k f.source
    exact (fired.updAx k _ (.stepGoesOn _)).updAx k _ (.settleIfTracking _)

/-! ### The engine -/

theorem Begun.stalled {s t : State} (b : Begun s t) : t.engine.stalled = s.engine.stalled := by
  cases b <;> rfl

theorem StallLaw.finishLink {s : State} (p : StallLaw s) (source : Handle) (fault : Bool) :
    StallLaw (s.finishLink source fault) :=
  ((p.putRecord source _).updEngine _ (by rfl)).autoRelease source

theorem StallLaw.engineRow {s t : State} (p : StallLaw s) (row : EngineRow s t) : StallLaw t := by
  cases row with
  | stays => exact p
  | begins request free turn waiting t b => exact p.congr b.stalled b.ax
  | linkBegins request rest free turn oldest staged fits => exact p.congr rfl (fun _ => rfl)
  | linkRefused request rest free turn oldest => exact (p.updEngine _ (by rfl)).finishLink _ _
  | linked h k place work still => exact (p.linkRecord k h).updEngine _ (by rfl)
  | linkedRequest r k place work still => exact (p.linkRecord k _).finishLink _ _
  | unlinked operation h k r f work unlinks armed taken =>
    have q := p.unlinkRecord k h r
    cases unlinks with
    | disarm => exact q.updEngine _ (by rfl)
    | move => exact q.updEngine _ (by rfl)
    | retire => exact q.updEngine _ (by rfl)
  | ended code data busy => exact p.updEngine _ (by rfl)
  | goesOn o next => exact p.updEngine _ (by rfl)

/-! ### Every change -/

theorem StallLaw.indexed {s t : State} {k : AxisId} (p : StallLaw s) (x : Indexed s k t) : StallLaw t := by
  cases x with
  | nothing => exact p
  | captures v => exact p.updAx k _ (.captureValue _ v)
  | homes => exact (p.updAx k _ (.eval rfl)).seek k _ _
  | tracks mode =>
    refine StallLaw.seek (p.updAx k _ (.eval ?_)) k _ _
    unfold Axis.trackRebase Axis.captureValue
    split <;> rfl

theorem StallLaw.handOnIndex {s : State} (p : StallLaw s) (k : AxisId) (f : InputFilter) :
    StallLaw (s.handOnIndex k f) := by
  have moved := p.updAx k (fun a => { a with front := { a.front with inputI := f } }) (.eval rfl)
  rw [handOnIndex_eq]
  split
  · exact moved
  · exact moved.indexed (indexEdge_indexed _ k _)

theorem StallLaw.configure {s : State} (p : StallLaw s) (k : AxisId) (new : AxisConfig) : StallLaw (s.configure k new) := by
  have configured := p.updAx k _ (.configured _ new)
  unfold State.configure
  dsimp only
  split
  · exact configured.seek k _ _
  · exact configured

theorem StallLaw.setMask {s : State} (p : StallLaw s) (k : AxisId) (mask : Byte) : StallLaw (s.setMask k mask) :=
  p.updAx k _ (.eval rfl)

theorem StallLaw.change {s t : State} (p : StallLaw s) (c : Change s t) : StallLaw t := by
  cases c with
  | idle => exact p
  | reset =>
    refine .of_axes (by rw [resetBlocks_engine]; exact List.nodup_nil) (fun k => ?_) (fun k => ?_)
    · rw [resetBlocks_engine, resetBlocks_ax]
      exact iff_of_false nofun (fun holds => holds rfl)
    · rw [resetBlocks_ax]
      exact ⟨fun holds => absurd rfl holds, nofun⟩
  | modes mask mode => exact p.congr rfl (fun _ => rfl)
  | expire l => exact p.congr rfl (State.setLine_ax s l _)
  | tick => exact p.holds rfl (fun k => tick_ax s k ▸ .tick _)
  | acknowledge h pending => exact (p.putRecord h _).autoRelease h
  | quiet k f q => exact p.updAx k f (.quiet _ q)
  | masks m0 m1 m2 m3 => exact (((p.setMask 0 m0).setMask 1 m1).setMask 2 m2).setMask 3 m3
  | pair k fa fb => exact p.updAx k _ (.handOnPair _ fa fb)
  | index k fi => exact p.handOnIndex k fi
  | rate k => exact p.updAx k _ (.rateExpire _)
  | configure k given valid preset period allowed => exact p.configure k _
  | setPosition k q fits range => exact (p.updAx k _ (.eval rfl)).seek k _ _
  | resync k => exact (p.updAx k _ (.resynced _)).seek k _ _
  | take request =>
    rcases mailboxTake_eq s request with e | e <;> rw [e]
    · exact p
    · exact p.updEngine _ (arrived_stalled _)
  | grant => exact p.engineRow (grant_row s)
  | link => exact p.engineRow (linkEvent_row s)
  | unlink => exact p.engineRow (unlinkEvent_row s)
  | retireCheck => exact p.engineRow (retireCheck_row s)
  | retireEnd => exact p.engineRow (retireEnd_row s)
  | walk => exact p.engineRow (walkOn_row s)
  | place => exact p.placed (placeStalled_placed s)
  | stepStart k => exact p.updAx k _ (.stepStart _ _)
  | examine k => exact p.examined (examine_examined s k)
  | seekComplete k => exact p.updAx k _ (.seekComplete _ _)

/-- Settles O57: a fire is held and dropped together with the place of its axis among the stalled adders, and every other operation
leaves both. -/
theorem stepKeepsTheStallLaw : Obligations.StepKeepsTheStallLaw :=
  step_keeps (fun _ _ same p => p.congr (same.engine ▸ rfl) same.ax) (fun _ _ c p => p.change c)

end Sys2Proof.Machine
end

section
/-! PROOFS. The Record Store law (R8, R16, R21, R22, R27, R32, R69, R98) through every change, in states that meet the law of
stalls. -/

namespace Sys2Proof.Machine

/-! ### One axis and one record -/

section Axis
variable {r : Handle → Record} {k : AxisId} {a : Axis}

theorem ListFine.quiet {f : Axis → Axis} (q : QuietUpdate f) (p : ListFine r k a) : ListFine r k (f a) := by
  cases q with
  | start =>
    unfold Axis.started Axis.startRate
    split <;> exact p.same rfl rfl rfl Iff.rfl rfl rfl rfl rfl
  | stop =>
    have halted : ListFine r k { a with
        front := { a.front with state := .halted, rateTimer := none }, eval := { a.eval with settle := true } } :=
      p.same rfl rfl rfl Iff.rfl rfl rfl rfl rfl
    exact halted.settleIfTracking
  | bank bank => exact p.same rfl rfl rfl Iff.rfl rfl rfl rfl rfl
  | emptySlot => exact p.sameAll rfl rfl rfl rfl
  | clearFlags => exact p.sameAll rfl rfl rfl rfl
  | mask => exact p.sameAll rfl rfl rfl rfl
  | home => exact p.sameAll rfl rfl rfl rfl
  | pins => exact p.sameAll rfl rfl rfl rfl

theorem quiet_config {f : Axis → Axis} (q : QuietUpdate f) (a : Axis) : (f a).config = a.config := by
  cases q with
  | start =>
    unfold Axis.started Axis.startRate
    split <;> rfl
  | stop => exact (settleIfTracking_front _).1
  | emptySlot => rfl
  | clearFlags => rfl
  | mask => rfl
  | home => rfl
  | bank => rfl
  | pins => rfl

theorem ListFine.captureValue (p : ListFine r k a) (v : CaptureSlot) : ListFine r k (Axis.captureValue v a) := by
  unfold Axis.captureValue
  split <;> exact p.sameAll rfl rfl rfl rfl

theorem captureValue_config (a : Axis) (v : CaptureSlot) : (Axis.captureValue v a).config = a.config := by
  unfold Axis.captureValue
  split <;> rfl

/-- The index mode is no part of the range of the positions. -/
theorem ListFine.homeRebase (p : ListFine r k a) : ListFine r k a.homeRebase :=
  ⟨p.listOnce, p.list, p.sorted, p.inAxis, p.cursor, p.run, p.held, p.guardOnce, p.guard⟩

theorem ListFine.trackRebase (p : ListFine r k a) : ListFine r k a.trackRebase := by
  have moved : ListFine r k { a with front := { a.front with c := a.config.indexPreset, liveTurn := a.trackTurn } } :=
    p.sameAll rfl rfl rfl rfl
  exact moved.captureValue _

theorem ListFine.handOnPair (p : ListFine r k a) (fa fb : InputFilter) : ListFine r k (Axis.handOnPair fa fb a) := by
  have moved : ListFine r k { a with front := { a.front with inputA := fa, inputB := fb } } := p.sameAll rfl rfl rfl rfl
  unfold Axis.handOnPair
  dsimp only
  split
  · exact moved
  · exact moved.decoderEvent

theorem handOnPair_config (a : Axis) (fa fb : InputFilter) : (Axis.handOnPair fa fb a).config = a.config := by
  unfold Axis.handOnPair
  dsimp only
  split
  · rfl
  · exact decoderEvent_config _

theorem ListFine.rateCount (p : ListFine r k a) : ListFine r k a.rateCount := by
  have restarted : ListFine r k { a with front := { a.front with rateTimer := some a.config.ratePeriod } } :=
    p.sameAll rfl rfl rfl rfl
  exact restarted.count _

theorem ListFine.rateExpire (p : ListFine r k a) : ListFine r k a.rateExpire := by
  unfold Axis.rateExpire
  split
  · have ahead : ListFine r k { a with front := { a.front with rateAhead := true } } := p.sameAll rfl rfl rfl rfl
    exact ahead.rateCount
  · exact p

theorem rateExpire_config (a : Axis) : a.rateExpire.config = a.config := by
  unfold Axis.rateExpire
  split
  · exact count_config _ _
  · rfl

theorem ListFine.tick (p : ListFine r k a) : ListFine r k a.tick := by
  unfold Axis.tick
  split
  · exact p.sameAll rfl rfl rfl rfl
  · split
    · exact p.rateCount
    · exact p.sameAll rfl rfl rfl rfl

theorem tick_config (a : Axis) : a.tick.config = a.config := by
  unfold Axis.tick
  split
  · rfl
  · split
    · exact count_config _ _
    · rfl

theorem ListFine.resynced (p : ListFine r k a) : ListFine r k a.resynced := by
  unfold Axis.resynced Axis.startRate
  split_ifs <;> exact p.sameAll rfl rfl rfl rfl

theorem resynced_config (a : Axis) : a.resynced.config = a.config := by
  unfold Axis.resynced Axis.startRate
  split_ifs <;> rfl

/-- With its list empty, or its range as wide as it was, an axis owes the store nothing more under another configuration. -/
theorem ListFine.configured (p : ListFine r k a) (new : AxisConfig)
    (fits : ∀ h ∈ a.list, inRange a.config (r h).position = true → inRange new (r h).position = true) :
    ListFine r k (a.configured new) := by
  have eval := configured_eval a new
  have guard (g : GuardEntry) (m : g ∈ (a.configured new).eval.guard) : g ∈ a.eval.guard := by
    rw [eval] at m
    change g ∈ (if a.config.band ≠ new.band then [] else a.eval.guard) at m
    split at m
    · cases m
    · exact m
  refine ⟨p.listOnce, p.list, p.sorted, fun h m => fits h m (p.inAxis h m), ?_, fun st step => ?_, fun f held => ?_, ?_,
    fun g m => p.guard g (guard g m)⟩
  · rw [eval]; exact p.cursor
  · rw [eval] at step; exact p.run st step
  · rw [eval] at held
    obtain ⟨listed, unguarded, off⟩ := p.held f held
    exact ⟨listed, fun g m => unguarded g (guard g m), fun st step => off st (by rw [eval] at step; exact step)⟩
  · rw [eval]
    show ((if a.config.band ≠ new.band then [] else a.eval.guard).map GuardEntry.handle).Nodup
    split
    · exact List.nodup_nil
    · exact p.guardOnce

theorem ListFine.toggleBank (p : ListFine r k a) : ListFine r k a.toggleBank := p.same rfl rfl rfl Iff.rfl rfl rfl rfl rfl

/-- The step goes on with part of what was left of its run (R63). -/
theorem ListFine.setRun (p : ListFine r k a) {st : CrossingStep} (step : a.eval.step = some st) {rest : List Handle}
    (part : rest.Sublist st.run) : ListFine r k (Axis.setRun st rest a) := by
  refine ⟨p.listOnce, p.list, p.sorted, p.inAxis, p.cursor, fun st' step' => ?_, fun f held => ?_, p.guardOnce, p.guard⟩
  · cases step'
    exact ⟨(p.run st step).1.sublist part, fun h m => (p.run st step).2 h (part.subset m)⟩
  · obtain ⟨listed, unguarded, off⟩ := p.held f held
    refine ⟨listed, unguarded, fun st' step' => ?_⟩
    cases step'
    exact fun m => off st step (part.subset m)

/-- A fire is held for a record of the list that has left the run and stands in no guard set (R65, R72). -/
theorem ListFine.hold (p : ListFine r k a) (f : HeldFire) (listed : f.source ∈ a.list)
    (unguarded : ∀ g ∈ a.eval.guard, g.handle ≠ f.source)
    (off : ∀ st, a.eval.step = some st → f.source ∉ st.run) (still : a.eval.state ≠ .seeking) :
    ListFine r k { a with eval := { a.eval with state := .stalled, held := some f } } := by
  refine ⟨p.listOnce, p.list, p.sorted, p.inAxis, ?_, p.run, fun f' held => ?_, p.guardOnce, p.guard⟩
  · rw [p.cursor, if_neg still]
    rfl
  · cases held
    exact ⟨listed, unguarded, off⟩

end Axis

/-! ### Plain changes -/

/-- A change of one axis that leaves in range what was in range. -/
theorem StoreLaw.reconfigure {s : State} (p : StoreLaw s) (k : AxisId) (a : Axis)
    (range : ∀ q, inRange (s.ax k).config q = true → inRange a.config q = true) (fine : ListFine s.recordAt k a) :
    StoreLaw (s.setAx k a) := by
  refine (p.core.setAx k a fine).law (p.operation.keep ⟨fun _ e => e, fun _ _ => ⟨rfl, rfl, rfl⟩, fun _ e => ⟨e, rfl⟩,
    fun j q fits => ?_⟩ (.inl rfl))
  rw [State.setAx_ax]
  split
  · next same => exact range q (same ▸ fits)
  · exact fits

theorem StoreLaw.putQuiet {s : State} (p : StoreLaw s) (h : Handle) (r : Record) (was : (s.recordAt h).state ≠ .free)
    (state : r.state = (s.recordAt h).state) (axis : r.axis = (s.recordAt h).axis)
    (position : r.position = (s.recordAt h).position) (out : r.outstanding = (s.recordAt h).outstanding) :
    StoreLaw (s.putRecord h r) :=
  (p.core.putQuiet h r was state axis position out).law (p.operation.keep (.putQuiet h r state axis position) (.inl rfl))

theorem StoreLaw.autoRelease {s : State} (p : StoreLaw s) (h : Handle) : StoreLaw (s.autoRelease h) :=
  (p.core.autoRelease h).law (p.operation.keep (.auto h) (.inl (congrArg Engine.occupant (autoRelease_engine s h))))

/-- The acknowledgement of a record: one that is FREE is cleared already, and stays so (R8, R130). -/
theorem StoreLaw.acknowledge {s : State} (p : StoreLaw s) (h : Handle) : StoreLaw (s.acknowledge h) := by
  refine StoreLaw.autoRelease ?_ h
  by_cases free : (s.recordAt h).state = .free
  · have same : { s.recordAt h with unacked := 0, linkFault := false } = s.recordAt h := by
      rw [p.freeCleared h free]
      rfl
    refine p.congr (State.ext_recordAt (fun g => ?_)) rfl (State.putRecord_ax s h _) rfl rfl
    rw [State.putRecord_recordAt, same]
    split
    · next e => rw [e]
    · rfl
  · exact p.putQuiet h _ free rfl rfl rfl rfl

theorem StoreLaw.tick {s : State} (p : StoreLaw s) : StoreLaw s.tick := by
  have core : StoreCore s.tick := by
    refine .of_parts (p.core.poolFine.congr rfl rfl rfl) (fun k => ?_)
    rw [tick_ax]
    exact (p.core.axis k).tick
  refine core.law (p.operation.keep (.same rfl rfl (fun k => ?_)) (.inl rfl))
  rw [tick_ax, tick_config]
  exact ⟨rfl, rfl⟩

theorem StoreLaw.indexed {s t : State} {k : AxisId} (p : StoreLaw s) (x : Indexed s k t) : StoreLaw t := by
  cases x with
  | nothing => exact p
  | captures v => exact p.updAx k _ (captureValue_config _ v) (fun f => f.captureValue v)
  | homes => exact (p.setAx k (s.ax k).homeRebase ⟨rfl, rfl⟩ (p.core.axis k).homeRebase).seek k _ _
  | tracks mode => exact (p.updAx k _ (trackRebase_config _) ListFine.trackRebase).seek k _ _

theorem StoreLaw.handOnIndex {s : State} (p : StoreLaw s) (k : AxisId) (f : InputFilter) :
    StoreLaw (s.handOnIndex k f) := by
  have moved := p.updAx k (fun a => { a with front := { a.front with inputI := f } }) rfl
    (fun q => q.sameAll rfl rfl rfl rfl)
  rw [handOnIndex_eq]
  split
  · exact moved
  · exact moved.indexed (indexEdge_indexed _ k _)

/-! ### CONFIGURE AXIS (R42, R43) -/

/-- With kind and span as they were, the range is as it was. -/
theorem inRange_congr {old new : AxisConfig} (same : ¬ kindOrSpanChanges old new = true) (q : Int)
    (fits : inRange old q = true) : inRange new q = true := by
  rw [kindOrSpanChanges_iff] at same
  push Not at same
  obtain ⟨kind, span⟩ := same
  rw [inRange_iff] at fits ⊢
  by_cases linear : old.kind = .linear
  · exact .inl (kind ▸ linear)
  · have rotary : old.kind = .rotary := by
      cases e : old.kind with
      | linear => exact absurd e linear
      | rotary => rfl
    exact .inr (span rotary ▸ fits.resolve_left linear)

/-- A change of kind or span finds the list empty and no link on its way into it (R42), so no operation in progress relies on
the range that changes. -/
theorem OperationFits.configured {s : State} (p : StoreLaw s) {k : AxisId} (a : Axis) (empty : (s.ax k).list = [])
    (unlinked : s.engine.linksInto k = false) : OperationFits (s.setAx k a) := by
  have fits := p.operation
  have other {j : AxisId} (n : j ≠ k) : (s.setAx k a).ax j = s.ax j := State.setAx_ax_ne s k j a n
  unfold Engine.linksInto at unlinked
  unfold OperationFits at fits ⊢
  simp only [State.setAx_engine, State.setAx_recordAt]
  split
  case h_4 h j place work =>
    rw [work] at unlinked fits
    rw [other (of_decide_eq_false unlinked)]
    exact fits
  case h_5 h j place work =>
    rw [work] at unlinked fits
    rw [other (of_decide_eq_false unlinked)]
    exact fits
  case h_7 h j q work =>
    rw [work] at fits
    intro armed
    have n : j ≠ k := by
      rintro rfl
      have m := (p.list j h).mpr ⟨armed, (fits armed).1⟩
      rw [empty] at m
      cases m
    rw [other n]
    exact fits armed
  case h_10 r j place work =>
    rw [work] at unlinked fits
    rw [other (of_decide_eq_false unlinked)]
    exact fits
  case h_6 h j work => rw [work] at fits; exact fits
  case h_9 j bank place count h work => rw [work] at fits; exact fits
  all_goals trivial

theorem StoreLaw.configure {s : State} (p : StoreLaw s) (k : AxisId) (new : AxisConfig)
    (allowed : s.configRefused k new = false) : StoreLaw (s.configure k new) := by
  have fine := p.core.axis k
  unfold State.configure
  dsimp only
  split
  · next place =>
    unfold State.configRefused at allowed
    simp only [place, Bool.or_eq_false_iff, Bool.true_and, Bool.true_or, Bool.not_eq_false'] at allowed
    obtain ⟨⟨-, empty⟩, unlinked⟩ := allowed
    have empty : (s.ax k).list = [] := List.isEmpty_iff.mp empty
    have moved : StoreLaw (s.setAx k ((s.ax k).configured new)) :=
      (p.core.setAx k _ (fine.configured new (fun h m => by rw [empty] at m; cases m))).law (.configured p _ empty unlinked)
    exact moved.seek k _ _
  · next same => exact p.reconfigure k _ (inRange_congr same) (fine.configured new (fun h _ => inRange_congr same _))

end Sys2Proof.Machine
end

section
/-! PROOFS. The Record Store law through fires, held fires and the rows of the engine, and through every change (O59). -/

namespace Sys2Proof.Machine

/-! ### Fires (R65, R68, R72) -/

/-- A record of the list whose fire ends: it has left the run, stands in no guard set, and no fire is held (R65, R72). -/
structure Fires (a : Axis) (h : Handle) : Prop where
  listed : h ∈ a.list
  still : a.eval.state ≠ .seeking
  off : ∀ st, a.eval.step = some st → h ∉ st.run
  unguarded : ∀ g ∈ a.eval.guard, g.handle ≠ h
  unheld : a.eval.held = none

theorem StoreLaw.finishes {s : State} (p : StoreLaw s) {k : AxisId} {h : Handle} (x : Fires (s.ax k) h) :
    StoreLaw (s.finishFire k h) := p.finishFire k h x.listed x.still x.off x.unguarded x.unheld

theorem placeLink_ax (s : State) (source target : Handle) (k : AxisId) : (s.placeLink source target).ax k = s.ax k := rfl

theorem StoreLaw.lineRequest {s : State} (p : StoreLaw s) (act : LineAction) : StoreLaw (s.lineRequest act) :=
  p.congr (lineRequest_records s act) (lineRequest_freePool s act) (lineRequest_ax s act)
    (congrArg Engine.queue (lineRequest_engine s act)) (congrArg Engine.occupant (lineRequest_engine s act))

theorem StoreLaw.holdFire {s : State} (p : StoreLaw s) {k : AxisId} {h : Handle} (x : Fires (s.ax k) h) (target : Handle) :
    StoreLaw (s.holdFire k h target) := by
  have held := p.updAx k
    (fun a => { a with eval := { a.eval with state := .stalled, held := some { source := h, target := target } } }) (by rfl)
    (fun f => f.hold _ x.listed x.unguarded x.off x.still)
  exact held.updEngine (fun g => { g with stalled := g.stalled ++ [k] }) (by rfl) (.inl rfl)

theorem StoreLaw.fire {s : State} (p : StoreLaw s) {k : AxisId} {h : Handle} (x : Fires (s.ax k) h) (d : Dir) (t : Turn) :
    StoreLaw (s.fire k h d t) := by
  have armed := ((p.list k h).mp x.listed).1
  have ax : ((s.lineRequest (s.recordAt h).action).putRecord h ((s.recordAt h).fired d t)).ax k = s.ax k := by
    rw [State.putRecord_ax, lineRequest_ax]
  have q : StoreLaw ((s.lineRequest (s.recordAt h).action).putRecord h ((s.recordAt h).fired d t)) := by
    refine (p.lineRequest _).putQuiet h _ ?_ ?_ ?_ ?_ ?_ <;> rw [lineRequest_recordAt]
    · rw [armed]; nofun
    all_goals rfl
  have y : Fires (((s.lineRequest (s.recordAt h).action).putRecord h ((s.recordAt h).fired d t)).ax k) h := ax ▸ x
  unfold State.fire
  dsimp only
  split
  · exact q.finishes y
  · refine (q.updAx k Axis.toggleBank rfl ListFine.toggleBank).finishes ?_
    rw [State.updAx_ax_same]
    exact ⟨y.listed, y.still, y.off, y.unguarded, y.unheld⟩
  · split
    · refine (q.placeLink h _ ?_).finishes y
      rw [State.putRecord_recordAt, if_pos rfl]
      show (s.recordAt h).state ≠ _
      rw [armed]
      nofun
    · exact q.holdFire y _

/-! ### Examinations and held fires -/

theorem StallLaw.unheld {s : State} (p : StallLaw s) {k : AxisId} (tracking : (s.ax k).eval.state = .tracking) :
    (s.ax k).eval.held = none := by
  by_contra holds
  rcases p.heldState k holds with e | e <;> rw [tracking] at e <;> cases e

theorem StoreLaw.setRun {s : State} (p : StoreLaw s) {k : AxisId} {st : CrossingStep} {h : Handle} {rest : List Handle}
    (x : Examines s k st h rest) : StoreLaw (s.updAx k (Axis.setRun st rest)) :=
  p.updAx k _ (by rfl) (fun f => f.setRun x.step (x.run ▸ List.sublist_cons_self h rest))

/-- An eligible record at the head of the run fires once it has left the run (R63, R65). -/
theorem Examines.fires {s : State} (p : StoreLaw s) (q : StallLaw s) {k : AxisId} {st : CrossingStep} {h : Handle}
    {rest : List Handle} (x : Examines s k st h rest) (e : eligible (s.recordAt h) h (s.ax k).eval st s.qualifiers = true) :
    Fires (Axis.setRun st rest (s.ax k)) h := by
  obtain ⟨once, listed⟩ := p.run k st x.step
  rw [x.run] at once listed
  refine ⟨listed h List.mem_cons_self, ?_, fun st' step => ?_, ((eligible_iff _ _ _ _ _).mp e).guard, q.unheld x.state⟩
  · show (s.ax k).eval.state ≠ _
    rw [x.state]
    nofun
  · cases step
    exact (List.nodup_cons.mp once).1

theorem stepGoesOn_config (a : Axis) : a.stepGoesOn.config = a.config := by
  unfold Axis.stepGoesOn
  split
  · split <;> rfl
  · rfl

theorem StoreLaw.goesOn {s : State} (p : StoreLaw s) (k : AxisId) : StoreLaw (s.updAx k Axis.stepGoesOn) :=
  p.updAx k _ (stepGoesOn_config _) ListFine.stepGoesOn

theorem StoreLaw.examined {s t : State} {k : AxisId} (p : StoreLaw s) (q : StallLaw s) (x : Examined s k t) : StoreLaw t := by
  cases x with
  | nothing => exact p
  | passes st h rest x => exact (p.setRun x).goesOn k
  | fires st h rest x e =>
    refine StoreLaw.goesOn (StoreLaw.fire (p.setRun x) ?_ _ _) k
    rw [State.updAx_ax_same]
    exact x.fires p q e

theorem StoreLaw.placed {s t : State} (p : StoreLaw s) (q : StallLaw s) (x : Placed s t) : StoreLaw t := by
  cases x with
  | nothing => exact p
  | completes k rest f stalled held room =>
    obtain ⟨listed, unguarded, off⟩ := p.held k f held
    have left := (p.updEngine (fun g => { g with stalled := rest }) (by rfl) (.inl rfl)).updAx k Axis.dropHeld rfl
      ListFine.dropHeld
    have ready : Fires ((s.ax k).dropHeld) f.source := by
      refine ⟨listed, ?_, off, unguarded, rfl⟩
      show (if (s.ax k).eval.state = .stalled then EvalState.tracking else (s.ax k).eval.state) ≠ .seeking
      rcases q.heldState k (by rw [held]; nofun) with e | e <;> rw [e] <;> nofun
    have armed := ((p.list k f.source).mp listed).1
    unfold State.completeHeld
    dsimp only
    rw [finishFire_dropHeld, placeLink_updAx]
    have fired : StoreLaw ((((s.updEngine (fun g => { g with stalled := rest })).updAx k Axis.dropHeld).placeLink f.source
        f.target).finishFire k f.source) := by
      refine (left.placeLink f.source f.target ?_).finishes ?_
      · show (s.recordAt f.source).state ≠ _
        rw [armed]
        nofun
      · rw [placeLink_ax, State.updAx_ax_same]
        exact ready
    exact (fired.goesOn k).updAx k _ (settleIfTracking_front _).1 ListFine.settleIfTracking

/-! ### The engine -/

/-- A staged image leaves the state and the outstanding links of its record (R10). -/
theorem stageRecord_keeps {self : Handle} {r r' : Record} {image : List Byte} (e : stageRecord self r image = some r') :
    r'.state = r.state ∧ r'.outstanding = r.outstanding := by
  unfold stageRecord at e
  split at e
  · split at e
    · cases e
      exact ⟨rfl, rfl⟩
    · cases e
  · cases e

theorem StoreLaw.begun {s t : State} (p : StoreLaw s) (b : Begun s t) : StoreLaw t := by
  cases b with
  | ended code data => exact p.core.finished code data
  | allocated h rest head => exact (p.core.allocate h rest head _ (by decide) (by decide) rfl).finished _ _
  | staged h image r state given =>
    obtain ⟨same, out⟩ := stageRecord_keeps given
    rw [state] at same
    exact (p.core.putUnlisted h r (by rw [state]; nofun) (by rw [state]; nofun) (by rw [same]; nofun) (by rw [same]; nofun)
      out).finished _ _
  | released h state unlinked =>
    have off {x : RecordState} (n : x ≠ .staged) (n' : x ≠ .spent) : (s.recordAt h).state ≠ x := by
      rcases state with e | e <;> rw [e]
      exacts [n.symm, n'.symm]
    exact (p.core.freeRecord h (off nofun nofun) (off nofun nofun) unlinked).finished _ _
  | arms h state fits => exact p.core.occupied _ ⟨state, rfl, by
      unfold State.armChecks at fits
      exact (Bool.and_eq_true_iff.mp fits).1⟩
  | disarms h state => exact p.core.occupied _ (fun _ => rfl)
  | moves h q state fits => exact p.core.occupied _ (fun _ => ⟨rfl, fits⟩)
  | retires k bank => exact p.core.occupied _ trivial

/-- An operation that goes on relies on what it relied on before. -/
theorem OperationFits.goesOn {s : State} (p : StoreLaw s) {o : Occupant} (next : GoesOn s s.engine.occupant o) :
    OperationFits (s.updEngine (fun g => { g with occupant := o })) := by
  have fits := p.operation
  unfold OperationFits at fits
  generalize work : s.engine.occupant = w at fits next
  cases next with
  | arm h k place place' => exact fits
  | relink h k place place' => exact fits
  | link r k place place' => exact fits
  | retire k bank place place' count sent => trivial
  | sends k bank place place' count h listed => exact fun _ => ((p.list k h).mp listed).2

/-- A record that an operation links fits the axis that it was sent to (R105, R107, R111). -/
theorem StoreLaw.links {s : State} (p : StoreLaw s) {k : AxisId} {h : Handle}
    (state : (s.recordAt h).state = .staged ∨ (s.recordAt h).state = .moving) (axis : (s.recordAt h).axis = k)
    (fits : inRange (s.ax k).config (s.recordAt h).position = true) (still : (s.ax k).eval.state ≠ .seeking) :
    StoreCore (s.linkRecord k h) := by
  have off {x : RecordState} (n : x ≠ .staged) (n' : x ≠ .moving) : (s.recordAt h).state ≠ x := by
    rcases state with e | e <;> rw [e]
    exacts [n.symm, n'.symm]
  exact p.core.linkRecord k h (off nofun nofun) (off nofun nofun) axis fits still

/-- An unlink that waits no more finds its record off the run and its fire not held (R25). -/
theorem unlink_free {s : State} {k : AxisId} {h : Handle} (taken : s.unlinkWaits k h = false) :
    (s.ax k).eval.state ≠ .seeking ∧ (∀ st, (s.ax k).eval.step = some st → h ∉ st.run) ∧
      ∀ f, (s.ax k).eval.held = some f → f.source ≠ h := by
  unfold State.unlinkWaits Evaluator.inStep at taken
  simp only [Bool.or_eq_false_iff] at taken
  obtain ⟨still, run, held⟩ := taken
  refine ⟨fun e => absurd ((seeking_iff s k).mpr e) (by rw [still]; nofun), fun st step m => ?_, fun f holds e => ?_⟩
  · rw [step] at run
    simp only [List.contains_eq_mem, decide_eq_false_iff_not] at run
    exact run m
  · rw [holds] at held
    exact of_decide_eq_false held e

/-- The record of a MOVE, unlinked and at its new position, fits the relink (R107). -/
theorem OperationFits.relinks {s : State} {k : AxisId} {h : Handle} {r : Record} (state : r.state = .moving)
    (axis : r.axis = k) (place : inRange (s.ax k).config r.position = true) :
    OperationFits ((s.unlinkRecord k h r).occupy (.moveRelink h k 0)) := by
  show ((s.unlinkRecord k h r).recordAt h).state = .moving ∧ ((s.unlinkRecord k h r).recordAt h).axis = k ∧
    inRange ((s.unlinkRecord k h r).ax k).config ((s.unlinkRecord k h r).recordAt h).position = true
  rw [unlinkRecord_recordAt, unlinkRecord_ax]
  exact ⟨state, axis, place⟩

theorem StoreLaw.unlinked {s : State} (p : StoreLaw s) {operation : Operation} {h : Handle} {k : AxisId} {r : Record}
    {f : State → State} (work : s.engine.occupant = .mailbox operation) (unlinks : Unlinks s operation h k r f)
    (armed : (s.recordAt h).state = .armed) (taken : s.unlinkWaits k h = false) : StoreLaw (f (s.unlinkRecord k h r)) := by
  obtain ⟨still, off, unheld⟩ := unlink_free taken
  have fits := p.operation
  unfold OperationFits at fits
  rw [work] at fits
  have out (axis : (s.recordAt h).axis = k) (r : Record) (is : r.state ≠ .free) (is' : r.state ≠ .armed)
      (links : r.outstanding = (s.recordAt h).outstanding) : StoreCore (s.unlinkRecord k h r) :=
    p.core.unlinkRecord k h r ((p.list k h).mpr ⟨armed, axis⟩) is is' links still off unheld
  cases unlinks with
  | disarm => exact (out (fits armed) { s.recordAt h with state := .staged } nofun nofun rfl).finished _ _
  | move h k q =>
    obtain ⟨axis, place⟩ := fits armed
    exact (out axis { s.recordAt h with state := .moving, position := q } nofun nofun rfl).occupied _
      (.relinks rfl axis place)
  | retire => exact (out (fits armed) { s.recordAt h with state := .staged } nofun nofun rfl).occupied _ trivial

/-- A request that is done leaves an engine with nothing at work. -/
theorem StoreCore.requestDone {s : State} (q : StoreCore s) {request : LinkRequest} {rest : List LinkRequest}
    (oldest : s.engine.queue = request :: rest) (fault : Bool) : StoreLaw (s.finishLink request.source fault) := by
  refine (q.finishLink request rest oldest fault).law ?_
  have free : (s.finishLink request.source fault).engine.occupant = .none := by
    unfold State.finishLink
    dsimp only
    rw [autoRelease_engine]
    rfl
  unfold OperationFits
  rw [free]
  trivial

theorem StoreLaw.engineRow {s t : State} (p : StoreLaw s) (row : EngineRow s t) : StoreLaw t := by
  cases row with
  | stays => exact p
  | begins request free turn waiting t b =>
    have taken : StoreLaw (s.commandTaken request) :=
      (p.core.updEngine _ (by rfl)).law trivial
    exact taken.begun b
  | linkBegins request rest free turn oldest staged fits =>
    refine ((p.core.updEngine _ (by rfl)).updEngine _ (by rfl)).law ?_
    unfold State.armChecks at fits
    refine ⟨?_, staged, rfl, (Bool.and_eq_true_iff.mp fits).1⟩
    show s.engine.queue.head? = _
    rw [oldest]
    rfl
  | linkRefused request rest free turn oldest =>
    have core : StoreCore (s.linkTaken request) := p.core.updEngine _ (by rfl)
    exact core.requestDone (show s.engine.queue = _ from oldest) true
  | linked h k place work still =>
    have fits := p.operation
    unfold OperationFits at fits
    rcases work with work | work <;> rw [work] at fits <;> obtain ⟨state, axis, place⟩ := fits
    · exact (p.links (.inl state) axis place still).finished _ _
    · exact (p.links (.inr state) axis place still).finished _ _
  | linkedRequest r k place work still =>
    have fits := p.operation
    unfold OperationFits at fits
    rw [work] at fits
    obtain ⟨oldest, state, axis, place⟩ := fits
    obtain ⟨rest, oldest⟩ := List.head?_eq_some_iff.mp oldest
    exact (p.links (.inl state) axis place still).requestDone (show s.engine.queue = _ from oldest) false
  | unlinked operation h k r f work unlinks armed taken => exact p.unlinked work unlinks armed taken
  | ended code data busy => exact p.core.finished code data
  | goesOn o next => exact (p.core.updEngine _ (by rfl)).law (.goesOn p next)

/-! ### Every change -/

theorem StoreLaw.stepStart {s : State} (p : StoreLaw s) (q : StallLaw s) (k : AxisId) :
    StoreLaw (s.updAx k (Axis.stepStart s.posOf)) := by
  refine p.updAx k _ (stepStart_front _ _).1 (fun f => ?_)
  unfold Axis.stepStart
  split
  · next tracking _ _ => exact (f.beginStep (q.unheld tracking) tracking _).settleCheck
  · exact f

theorem StoreLaw.setMask {s : State} (p : StoreLaw s) (k : AxisId) (mask : Byte) : StoreLaw (s.setMask k mask) :=
  p.updAx k _ (by rfl) (fun f => f.quiet (.mask mask))

theorem StoreLaw.change {s t : State} (p : StoreLaw s) (q : StallLaw s) (c : Change s t) : StoreLaw t := by
  cases c with
  | idle => exact p
  | reset => exact (StoreCore.resetBlocks s).law trivial
  | modes mask mode => exact p.congr rfl rfl (fun _ => rfl) rfl rfl
  | expire l => exact p.congr rfl rfl (State.setLine_ax s l _) rfl rfl
  | tick => exact p.tick
  | acknowledge h pending => exact p.acknowledge h
  | quiet k f u => exact p.updAx k f (quiet_config u _) (ListFine.quiet u)
  | masks m0 m1 m2 m3 => exact (((p.setMask 0 m0).setMask 1 m1).setMask 2 m2).setMask 3 m3
  | pair k fa fb => exact p.updAx k _ (handOnPair_config _ fa fb) (fun f => f.handOnPair fa fb)
  | index k fi => exact p.handOnIndex k fi
  | rate k => exact p.updAx k _ (rateExpire_config _) ListFine.rateExpire
  | configure k given valid preset period allowed => exact p.configure k _ allowed
  | setPosition k x fits range =>
    exact (p.updAx k (fun a => { a with front := { a.front with c := x, liveTurn := 0 } }) (by rfl)
      (fun f => f.sameAll rfl rfl rfl rfl)).seek k _ _
  | resync k => exact (p.updAx k _ (resynced_config _) ListFine.resynced).seek k _ _
  | take request =>
    rcases mailboxTake_eq s request with e | e <;> rw [e]
    · exact p
    · exact p.updEngine _ (arrived_queue _) (.inl (arrived_occupant _))
  | grant => exact p.engineRow (grant_row s)
  | link => exact p.engineRow (linkEvent_row s)
  | unlink => exact p.engineRow (unlinkEvent_row s)
  | retireCheck => exact p.engineRow (retireCheck_row s)
  | retireEnd => exact p.engineRow (retireEnd_row s)
  | walk => exact p.engineRow (walkOn_row s)
  | place => exact p.placed q (placeStalled_placed s)
  | stepStart k => exact p.stepStart q k
  | examine k => exact p.examined q (examine_examined s k)
  | seekComplete k => exact p.updAx k _ (seekComplete_front _ _).1 ListFine.seekComplete

/-- Settles O59: every change keeps what the store and each list hold of each other, in states that meet the law of stalls, and
that law is kept too. -/
theorem stepKeepsTheStoreLaw : Obligations.StepKeepsTheStoreLaw := by
  intro s t store stalls e
  have both : StoreLaw t ∧ StallLaw t := step_keeps (P := fun s => StoreLaw s ∧ StallLaw s)
    (fun _ _ same ⟨p, q⟩ => ⟨p.congr same.records same.freePool same.ax (same.engine ▸ rfl) (same.engine ▸ rfl),
      q.congr (same.engine ▸ rfl) same.ax⟩)
    (fun _ _ c ⟨p, q⟩ => ⟨p.change q c, q.change c⟩) s t ⟨store, stalls⟩ e
  exact both.1

end Sys2Proof.Machine
end

section
/-! PROOFS. What a row leaves behind: the world's pins, the port and the model's own fields, said once for every row (`Ran`), and
the laws and statements that need no more: O1, O56, O60. -/

namespace Sys2Proof.Machine

/-! ### What a change behind the port leaves -/

section Rest
variable {s t : State}

theorem RestKept.updAx (p : RestKept s t) (k : AxisId) (f : Axis → Axis) : RestKept s (t.updAx k f) :=
  p.trans ⟨rfl, ⟨rfl, rfl⟩, ⟨rfl, rfl, rfl, rfl⟩, ⟨rfl, rfl⟩⟩

theorem RestKept.updEngine (p : RestKept s t) (f : Engine → Engine) : RestKept s (t.updEngine f) :=
  p.trans ⟨rfl, ⟨rfl, rfl⟩, ⟨rfl, rfl, rfl, rfl⟩, ⟨rfl, rfl⟩⟩

theorem RestKept.putRecord (p : RestKept s t) (h : Handle) (r : Record) : RestKept s (t.putRecord h r) :=
  p.trans ⟨rfl, ⟨rfl, rfl⟩, ⟨rfl, rfl, rfl, rfl⟩, ⟨rfl, rfl⟩⟩

theorem RestKept.autoRelease (p : RestKept s t) (h : Handle) : RestKept s (t.autoRelease h) :=
  have ⟨_, _, _, rest⟩ := autoRelease_rest t h
  p.trans rest

theorem RestKept.seek (p : RestKept s t) (k : AxisId) (target : Int) (turn : Turn) :
    RestKept s (t.seekStart k target turn) := (p.updAx k _).updEngine _

theorem RestKept.unlinkRecord (p : RestKept s t) (k : AxisId) (h : Handle) (r : Record) :
    RestKept s (t.unlinkRecord k h r) := p.trans (unlinkRecord_rest t k h r).1

theorem RestKept.guardFired (p : RestKept s t) (k : AxisId) (h : Handle) : RestKept s (t.guardFired k h) := by
  rcases guardFired_rest t k h with e | e <;> rw [e]
  · exact p
  · exact p.updAx k _

theorem RestKept.finishFire (p : RestKept s t) (k : AxisId) (h : Handle) : RestKept s (t.finishFire k h) := by
  unfold State.finishFire
  dsimp only
  split
  · exact p.guardFired k h
  · exact (p.unlinkRecord k h _).autoRelease h
  · exact (p.putRecord h _).guardFired k h

theorem RestKept.placeLink (p : RestKept s t) (source target : Handle) : RestKept s (t.placeLink source target) :=
  (p.updEngine _).putRecord source _

theorem RestKept.fire (p : RestKept s t) (k : AxisId) (h : Handle) (d : Dir) (turn : Turn) :
    RestKept s (t.fire k h d turn) := by
  have q := (p.trans (lineRequest_rest t (t.recordAt h).action)).putRecord h ((t.recordAt h).fired d turn)
  unfold State.fire
  dsimp only
  split
  · exact q.finishFire k h
  · exact (q.updAx k _).finishFire k h
  · split
    · exact (q.placeLink h _).finishFire k h
    · exact (q.updAx k _).updEngine _

theorem RestKept.finishLink (p : RestKept s t) (source : Handle) (fault : Bool) : RestKept s (t.finishLink source fault) :=
  ((p.putRecord source _).updEngine _).autoRelease source

theorem Begun.rest (b : Begun s t) : RestKept s t := by
  have p := RestKept.refl s
  cases b with
  | ended code data => exact p.updEngine _
  | allocated h rest head =>
    have taken : RestKept s { s with freePool := rest } := p.trans ⟨rfl, ⟨rfl, rfl⟩, ⟨rfl, rfl, rfl, rfl⟩, ⟨rfl, rfl⟩⟩
    exact (taken.putRecord h _).updEngine _
  | staged h image r state given => exact (p.putRecord h r).updEngine _
  | released h state unlinked => exact (freeRecord_rest s h).updEngine _
  | arms h state fits => exact p.updEngine _
  | disarms h state => exact p.updEngine _
  | moves h q state fits => exact p.updEngine _
  | retires k bank => exact p.updEngine _

theorem EngineRow.rest (row : EngineRow s t) : RestKept s t := by
  have p := RestKept.refl s
  cases row with
  | stays => exact p
  | begins request free turn waiting t b => exact RestKept.trans (t := s.commandTaken request) (p.updEngine _) b.rest
  | linkBegins request rest free turn oldest staged fits => exact (p.updEngine _).updEngine _
  | linkRefused request rest free turn oldest => exact RestKept.finishLink (t := s.linkTaken request) (p.updEngine _) _ _
  | linked h k place work still => exact ((p.updAx k _).putRecord h _).updEngine _
  | linkedRequest r k place work still =>
    exact RestKept.finishLink (t := s.linkRecord k r.target) ((p.updAx k _).putRecord _ _) _ _
  | unlinked operation h k r f work unlinks armed taken =>
    have q := p.unlinkRecord k h r
    cases unlinks with
    | disarm => exact q.updEngine _
    | move => exact q.updEngine _
    | retire => exact q.updEngine _
  | ended code data busy => exact p.updEngine _
  | goesOn o next => exact p.updEngine _

theorem Examined.rest {k : AxisId} (x : Examined s k t) : RestKept s t := by
  have p := RestKept.refl s
  cases x with
  | nothing => exact p
  | passes st h rest x => exact (p.updAx k _).updAx k _
  | fires st h rest x e => exact ((p.updAx k _).fire k h _ _).updAx k _

theorem Placed.rest (x : Placed s t) : RestKept s t := by
  cases x with
  | nothing => exact .refl s
  | completes k rest f stalled held room =>
    exact ((((((RestKept.refl s).updEngine _).placeLink _ _).finishFire k _).updAx k _).updAx k _).updAx k _

theorem Indexed.rest {k : AxisId} (x : Indexed s k t) : RestKept s t := by
  have p := RestKept.refl s
  cases x with
  | nothing => exact p
  | captures v => exact p.updAx k _
  | homes => exact (p.updAx k _).seek k _ _
  | tracks mode => exact (p.updAx k _).seek k _ _

theorem handOnIndex_rest (s : State) (k : AxisId) (f : InputFilter) : RestKept s (s.handOnIndex k f) := by
  have moved := (RestKept.refl s).updAx k (fun a => { a with front := { a.front with inputI := f } })
  rw [handOnIndex_eq]
  split
  · exact moved
  · exact moved.trans (indexEdge_indexed _ k _).rest

end Rest

/-! ### The owners of the port (H-4) -/

/-- What the owner of a host command can make of the state in its event. -/
inductive Owned (s : State) : State → Prop where
  | nothing : Owned s s
  | axis (k : AxisId) (f : Axis → Axis) : Owned s (s.updAx k f)
  | modes (mask : Byte) (mode : LineId → LineMode) : Owned s (s.setModes mask mode)
  | acknowledge (h : Handle) : Owned s (s.acknowledge h)
  | seeks (k : AxisId) (f : Axis → Axis) (target : Int) (turn : Turn) :
      Owned s ((s.updAx k f).seekStart k target turn)
  | enables (p d : Bool) (m0 m1 m2 m3 : Byte) :
      Owned s { (((s.setMask 0 m0).setMask 1 m1).setMask 2 m2).setMask 3 m3 with pendingEnable := p, doneEnable := d }
  | take (request : TableRequest) : Owned s (s.mailboxTake request).1
  | holdsReset : Owned s { s with port := { s.port with resetHeld := true } }

theorem Owned.withAxis {b : Byte} {s : State} {serve : AxisId → Served} (h : ∀ k, Owned s (serve k).1) :
    Owned s (Machine.withAxis b s serve).1 := by
  unfold Machine.withAxis
  split
  · exact h _
  · exact .nothing

theorem Owned.withHandleParam {lo hi : Byte} {s : State} {serve : Handle → Served} (h : ∀ k, Owned s (serve k).1) :
    Owned s (Machine.withHandleParam lo hi s serve).1 := by
  unfold Machine.withHandleParam
  split
  · exact h _
  · exact .nothing

theorem Owned.configure (s : State) (k : AxisId) (new : AxisConfig) : Owned s (s.configure k new) := by
  unfold State.configure
  dsimp only
  split
  · exact .seeks k _ 0 0
  · exact .axis k _

theorem Owned.toMailbox (tag : Byte) (command : TableCommand) (s : State) : Owned s (Machine.toMailbox tag command s).1 :=
  .take _

section Owners
variable (tag : Byte) (params : List Byte) (s : State)

theorem serveIdent_owned : Owned s (serveIdent params s).1 := by
  unfold serveIdent
  split <;> exact .nothing

theorem serveReadRecord_owned : Owned s (serveReadRecord params s).1 := by
  unfold serveReadRecord
  split
  · exact .withHandleParam (fun _ => .nothing)
  · exact .nothing

theorem serveReadAxis_owned : Owned s (serveReadAxis params s).1 := by
  unfold serveReadAxis
  split
  · exact .withAxis (fun _ => .nothing)
  · exact .nothing

theorem serveReadCapture_owned : Owned s (serveReadCapture params s).1 := by
  unfold serveReadCapture
  split
  · refine .withAxis (fun k => ?_)
    split
    · exact .nothing
    · dsimp only
      exact .axis k _
  · exact .nothing

theorem serveReadLines_owned : Owned s (serveReadLines params s).1 := by
  unfold serveReadLines
  split <;> exact .nothing

theorem serveNextPending_owned : Owned s (serveNextPending params s).1 := by
  unfold serveNextPending
  split
  · exact .nothing
  · exact .withHandleParam (fun _ => .nothing)
  · exact .nothing

theorem serveAck_owned : Owned s (serveAck params s).1 := by
  unfold serveAck
  split
  · refine .withHandleParam (fun h => ?_)
    dsimp only
    split
    · exact .acknowledge h
    · exact .nothing
  · exact .nothing

theorem serveAckAxis_owned : Owned s (serveAckAxis params s).1 := by
  unfold serveAckAxis
  split
  · refine .withAxis (fun k => ?_)
    dsimp only
    exact .axis k _
  · exact .nothing

theorem serveForceLine_owned : Owned s (serveForceLine params s).1 := by
  unfold serveForceLine
  split
  · split
    · exact .nothing
    · exact .modes _ _
  · exact .nothing

theorem serveReleaseLine_owned : Owned s (serveReleaseLine params s).1 := by
  unfold serveReleaseLine
  split
  · split
    · exact .nothing
    · exact .modes _ _
  · exact .nothing

theorem serveConfigureAxis_owned : Owned s (serveConfigureAxis params s).1 := by
  unfold serveConfigureAxis
  split
  · split
    · refine .withAxis (fun k => ?_)
      split
      · exact .nothing
      · split
        · dsimp only
          split
          · exact .nothing
          · exact .configure s k _
        · exact .nothing
    · exact .nothing
  · exact .nothing

theorem serveStart_owned : Owned s (serveStart params s).1 := by
  unfold serveStart
  split
  · refine .withAxis (fun k => ?_)
    split
    · exact .axis k _
    all_goals exact .nothing
  · exact .nothing

theorem serveStop_owned : Owned s (serveStop params s).1 := by
  unfold serveStop
  split
  · exact .withAxis (fun k => .axis k _)
  · exact .nothing

theorem serveSetPosition_owned : Owned s (serveSetPosition params s).1 := by
  unfold serveSetPosition
  split
  · refine .withAxis (fun k => ?_)
    dsimp only
    split
    · split
      · exact .seeks k _ _ 0
      · exact .nothing
    · exact .nothing
  · exact .nothing

theorem serveHome_owned : Owned s (serveHome params s).1 := by
  unfold serveHome
  split
  · refine .withAxis (fun k => ?_)
    split
    · dsimp only
      exact .axis k _
    · exact .nothing
  · exact .nothing

theorem serveResync_owned : Owned s (serveResync params s).1 := by
  unfold serveResync
  split
  · refine .withAxis (fun k => ?_)
    dsimp only
    split
    · exact .nothing
    · exact .seeks k _ _ _
  · exact .nothing

theorem serveSetBank_owned : Owned s (serveSetBank params s).1 := by
  unfold serveSetBank
  split
  · refine .withAxis (fun k => ?_)
    split
    · dsimp only
      exact .axis k _
    · exact .nothing
  · exact .nothing

theorem serveSetEnables_owned : Owned s (serveSetEnables params s).1 := by
  unfold serveSetEnables
  split
  · exact .enables _ _ _ _ _ _
  · exact .nothing

theorem serveGetResult_owned : Owned s (serveGetResult params s).1 := by
  unfold serveGetResult
  split <;> exact .nothing

theorem serveReset_owned : Owned s (serveReset params s).1 := by
  unfold serveReset
  split
  · exact .holdsReset
  · exact .nothing

theorem serveAllocate_owned : Owned s (serveAllocate tag params s).1 := by
  unfold serveAllocate
  split
  · exact .toMailbox ..
  · exact .nothing

theorem serveStage_owned : Owned s (serveStage tag params s).1 := by
  unfold serveStage
  split
  · split
    · exact .toMailbox ..
    · exact .nothing
  · exact .nothing

theorem serveArm_owned : Owned s (serveArm tag params s).1 := by
  unfold serveArm
  split
  · exact .toMailbox ..
  · exact .nothing

theorem serveDisarm_owned : Owned s (serveDisarm tag params s).1 := by
  unfold serveDisarm
  split
  · exact .toMailbox ..
  · exact .nothing

theorem serveMove_owned : Owned s (serveMove tag params s).1 := by
  unfold serveMove
  split
  · exact .toMailbox ..
  · exact .nothing

theorem serveRelease_owned : Owned s (serveRelease tag params s).1 := by
  unfold serveRelease
  split
  · exact .toMailbox ..
  · exact .nothing

theorem serveRetireBank_owned : Owned s (serveRetireBank tag params s).1 := by
  unfold serveRetireBank
  split
  · refine .withAxis (fun k => ?_)
    split
    · exact .toMailbox ..
    · exact .nothing
  · exact .nothing

end Owners

/-- Every owner of H-4 does one of these. -/
theorem owner_owned {code tag : Byte} {params : List Byte} {serve : State → Served}
    (o : ownerOf code tag params = some serve) (s : State) : Owned s (serve s).1 := by
  unfold ownerOf at o
  split at o <;> cases o
  · exact serveIdent_owned _ s
  · exact serveReadRecord_owned _ s
  · exact serveReadAxis_owned _ s
  · exact serveReadCapture_owned _ s
  · exact serveReadLines_owned _ s
  · exact serveNextPending_owned _ s
  · exact serveAck_owned _ s
  · exact serveAckAxis_owned _ s
  · exact serveForceLine_owned _ s
  · exact serveReleaseLine_owned _ s
  · exact serveConfigureAxis_owned _ s
  · exact serveStart_owned _ s
  · exact serveStop_owned _ s
  · exact serveSetPosition_owned _ s
  · exact serveHome_owned _ s
  · exact serveResync_owned _ s
  · exact serveSetBank_owned _ s
  · exact serveSetEnables_owned _ s
  · exact serveGetResult_owned _ s
  · exact serveReset_owned _ s
  · exact serveAllocate_owned _ _ s
  · exact serveStage_owned _ _ s
  · exact serveArm_owned _ _ s
  · exact serveDisarm_owned _ _ s
  · exact serveMove_owned _ _ s
  · exact serveRelease_owned _ _ s
  · exact serveRetireBank_owned _ _ s

/-- The world's pins and the queue of commands are as they were. -/
structure PinsKept (s t : State) : Prop where
  world : t.qualifiers = s.qualifiers ∧ t.ncs = s.ncs ∧ t.nreset = s.nreset ∧ t.supply = s.supply
  pending : t.pending = s.pending

theorem RestKept.pins {s t : State} (p : RestKept s t) : PinsKept s t := ⟨p.world, p.own.1⟩

theorem Owned.pins {s t : State} (o : Owned s t) : PinsKept s t := by
  cases o with
  | nothing => exact (RestKept.refl s).pins
  | axis k f => exact ((RestKept.refl s).updAx k f).pins
  | modes mask mode => exact ⟨⟨rfl, rfl, rfl, rfl⟩, rfl⟩
  | acknowledge h => exact (((RestKept.refl s).putRecord h _).autoRelease h).pins
  | seeks k f target turn => exact (((RestKept.refl s).updAx k f).seek k target turn).pins
  | enables p d m0 m1 m2 m3 => exact ⟨⟨rfl, rfl, rfl, rfl⟩, rfl⟩
  | take request =>
    rcases mailboxTake_eq s request with e | e <;> rw [e]
    · exact (RestKept.refl s).pins
    · exact ((RestKept.refl s).updEngine _).pins
  | holdsReset => exact ⟨⟨rfl, rfl, rfl, rfl⟩, rfl⟩

/-- An owner changes nothing of the port but to hold an accepted RESET (R154). -/
theorem Owned.port {s t : State} (o : Owned s t) :
    t.port = s.port ∨ t.port = { s.port with resetHeld := true } := by
  cases o with
  | nothing => exact .inl rfl
  | axis k f => exact .inl rfl
  | modes mask mode => exact .inl rfl
  | acknowledge h => exact .inl (((RestKept.refl s).putRecord h _).autoRelease h).port
  | seeks k f target turn => exact .inl rfl
  | enables p d m0 m1 m2 m3 => exact .inl rfl
  | take request =>
    rcases mailboxTake_eq s request with e | e <;> rw [e]
    · exact .inl rfl
    · exact .inl rfl
  | holdsReset => exact .inr rfl

/-! ### The rows -/

/-- What an event of the front end or the evaluator of axis `k` can do. -/
inductive AxisRow (s : State) (k : AxisId) : State → Prop where
  | axis (f : Axis → Axis) : AxisRow s k (s.updAx k f)
  | index (fi : InputFilter) : AxisRow s k (s.handOnIndex k fi)
  | examine : AxisRow s k (s.examine k)

theorem exec_axisRow {i : Instr} {k : AxisId} {s t : State} (row : axisOfRow i = some k) (e : exec i s = .next t) :
    AxisRow s k t := by
  cases i <;> cases row
  case stepStart => cases e; exact .axis _
  case examineRecord => cases e; exact .examine
  case seekComplete => cases e; exact .axis _
  case rateExpiry => cases e; exact .axis _
  case axisInputChange change =>
    cases e
    show AxisRow s k (if s.inReset then _ else s.inputChange k change)
    split
    · exact .axis _
    · cases change with
      | a l => exact .axis _
      | b l => exact .axis _
      | ab la lb => exact .axis _
      | index l => exact .index _
  case filterTimeout input =>
    cases e
    cases input with
    | a => exact .axis _
    | b => exact .axis _
    | ab => exact .axis _
    | index => exact .index _

theorem AxisRow.rest {s t : State} {k : AxisId} (x : AxisRow s k t) : RestKept s t := by
  cases x with
  | axis f => exact (RestKept.refl s).updAx k f
  | index fi => exact handOnIndex_rest s k fi
  | examine => exact (examine_examined s k).rest

/-- What the host's bytes and requests can do (R139 to R144). -/
inductive Heard (s : State) : State → Prop where
  | nothing : Heard s s
  | ignored (idle : s.port.phase = .idle) (ignoring : s.port.ignoring = true) :
      Heard s { s with port := { s.port with sdo := .driven 0 } }
  | drained (draining : s.port.phase = .draining) : Heard s { s with port := { s.port with sdo := .driven 0 } }
  | takes (receiving : s.port.phase = .receiving) (byte : Byte) : Heard s { s with port := s.port.take byte }
  | receives (receiving : s.port.phase = .receiving) (bytes : List Byte) : Heard s (s.receivedAll bytes)
  | answers (receiving : s.port.phase = .receiving) (p : Port) (driven : p.sdo ≠ .highZ) (t : State)
      (o : Owned { s with port := p } t) (tag : Byte) (reply : Reply) : Heard s (t.answer tag reply)
  | filler (awaiting : s.port.phase = .awaiting) : Heard s { s with port := s.port.sendFiller }
  | reply (replying : s.port.phase = .replying) : Heard s { s with port := s.port.sendReply }

theorem Heard.refuses {s : State} (receiving : s.port.phase = .receiving) (p : Port) (driven : p.sdo ≠ .highZ) (tag : Byte)
    (reply : Reply) : Heard s ({ s with port := p }.answer tag reply) :=
  .answers receiving p driven _ .nothing tag reply

/-- A request that has been received whole is served, or refused with no effect. -/
theorem Heard.served {s : State} (receiving : s.port.phase = .receiving) (bytes : List Byte) {t : State}
    (o : Owned (s.receivedAll bytes) t) (tag : Byte) (reply : Reply) : Heard s (t.answer tag reply) :=
  .answers receiving (s.receivedAll bytes).port (fun e => Sdo.noConfusion e) t o tag reply

theorem canComplete_receiving {p : Port} {bytes : List Byte} (c : p.canComplete bytes = true) : p.phase = .receiving :=
  of_decide_eq_true (Bool.and_eq_true_iff.mp c).1

theorem takeRequest_heard {s : State} (receiving : s.port.phase = .receiving) (p : Port) (driven : p.sdo ≠ .highZ)
    (code tag : Byte) (params : List Byte) : Heard s (takeRequest code tag params { s with port := p }) := by
  unfold takeRequest
  split
  · next serve o => exact .answers receiving p driven _ (owner_owned o _) tag _
  · exact .refuses receiving p driven tag _

theorem hostCommand_heard {code tag : Byte} {params : List Byte} {serve : State → Served}
    (o : ownerOf code tag params = some serve) (s : State) : Heard s (hostCommand code tag params serve s) := by
  unfold hostCommand
  split
  · next c =>
    split
    · exact .served (canComplete_receiving c) _ (owner_owned o _) tag _
    · exact .served (canComplete_receiving c) _ .nothing tag _
  · exact .nothing

theorem hostRequest_heard (code tag : Byte) (params : List Byte) (crc : Byte) (s : State) :
    Heard s (hostRequest code tag params crc s) := by
  unfold hostRequest
  split
  · next c =>
    have receiving := canComplete_receiving c
    split
    · unfold closeRequest
      split
      · exact takeRequest_heard receiving (s.receivedAll _).port (fun e => Sdo.noConfusion e) code tag params
      · exact .served receiving _ .nothing tag _
    · exact .served receiving _ .nothing tag _
  · exact .nothing

theorem byteComplete_heard (byte : Byte) (s : State) : Heard s (s.byteComplete byte) := by
  unfold State.byteComplete
  split
  · next idle =>
    split
    · next ignoring => exact .ignored idle ignoring
    · exact .nothing
  · next receiving =>
    unfold State.receiveByte
    split
    · dsimp only
      split
      · exact .refuses receiving (s.port.take byte) (fun e => Sdo.noConfusion e) _ _
      · exact .takes receiving byte
    · split
      · dsimp only
        split
        · exact takeRequest_heard receiving { s.port with sdo := .driven 0 } nofun _ _ _
        · exact .refuses receiving { s.port with sdo := .driven 0 } nofun _ _
      · exact .takes receiving byte
    · exact .takes receiving byte
  · next awaiting => exact .filler awaiting
  · next replying => exact .reply replying
  · next draining => exact .drained draining

/-- What a row can do. -/
inductive Ran (s : State) : Instr → State → Prop where
  | heard (i : Instr) (t : State) (x : Heard s t) : Ran s i t
  | select : Ran s .transactionStart s.selectPort
  | deselect : Ran s .deselect s.deselectPort
  | power (i : Instr) (nreset : Level) (supply : Supply) :
      Ran s i { s with nreset := nreset, supply := supply }.resetBlocks
  | rises (below : s.supply = .below) : Ran s .supplyRise { s with supply := .hold }
  | complete : Ran s .resetComplete { s with port := { s.port with resetting := false } }
  | qualifier (q : QualId) (level : Level) :
      Ran s (.qualifierInputChange q level) { s with qualifiers := s.qualifiers.set q.val level q.isLt }
  | expires (l : LineId) : Ran s (.pulseExpiry l) (s.setLine l (s.line l).takeExpiry)
  | ticks : Ran s .timeBaseTick s.tick
  | axis (i : Instr) (k : AxisId) (t : State) (x : AxisRow s k t) : Ran s i t
  | places : Ran s .stalledAdderPlace s.placeStalled
  | grants : Ran s .arbiterGrant s.grant
  | links : Ran s .linkEvent s.linkEvent
  | unlinks : Ran s .unlinkEvent s.unlinkEvent
  | checks : Ran s .retireBankCheck s.retireCheck
  | walks : Ran s .retireBankWalkEnd s.retireEnd

theorem exec_ran {i : Instr} {s t : State} (e : exec i s = .next t) : Ran s i t := by
  have heard {u : State} (x : Heard s u) (h : Host.Outcome.next u = (.next t : Host.Outcome State Fault Refusal)) :
      Ran s i t := by cases h; exact .heard i _ x
  cases i with
  | ident tag params => exact heard (hostCommand_heard (code := 0x01) rfl s) e
  | readRecord tag params => exact heard (hostCommand_heard (code := 0x02) rfl s) e
  | readAxis tag params => exact heard (hostCommand_heard (code := 0x03) rfl s) e
  | readCapture tag params => exact heard (hostCommand_heard (code := 0x04) rfl s) e
  | readLines tag params => exact heard (hostCommand_heard (code := 0x05) rfl s) e
  | nextPending tag params => exact heard (hostCommand_heard (code := 0x06) rfl s) e
  | ack tag params => exact heard (hostCommand_heard (code := 0x07) rfl s) e
  | ackAxis tag params => exact heard (hostCommand_heard (code := 0x08) rfl s) e
  | forceLine tag params => exact heard (hostCommand_heard (code := 0x09) rfl s) e
  | releaseLine tag params => exact heard (hostCommand_heard (code := 0x0A) rfl s) e
  | configureAxis tag params => exact heard (hostCommand_heard (code := 0x10) rfl s) e
  | start tag params => exact heard (hostCommand_heard (code := 0x11) rfl s) e
  | stop tag params => exact heard (hostCommand_heard (code := 0x12) rfl s) e
  | setPosition tag params => exact heard (hostCommand_heard (code := 0x13) rfl s) e
  | home tag params => exact heard (hostCommand_heard (code := 0x14) rfl s) e
  | resync tag params => exact heard (hostCommand_heard (code := 0x15) rfl s) e
  | setBank tag params => exact heard (hostCommand_heard (code := 0x16) rfl s) e
  | setEnables tag params => exact heard (hostCommand_heard (code := 0x17) rfl s) e
  | getResult tag params => exact heard (hostCommand_heard (code := 0x18) rfl s) e
  | reset tag params => exact heard (hostCommand_heard (code := 0x1F) rfl s) e
  | allocate tag params => exact heard (hostCommand_heard (code := 0x20) rfl s) e
  | stage tag params => exact heard (hostCommand_heard (code := 0x21) rfl s) e
  | arm tag params => exact heard (hostCommand_heard (code := 0x22) rfl s) e
  | disarm tag params => exact heard (hostCommand_heard (code := 0x23) rfl s) e
  | move tag params => exact heard (hostCommand_heard (code := 0x24) rfl s) e
  | release tag params => exact heard (hostCommand_heard (code := 0x25) rfl s) e
  | retireBank tag params => exact heard (hostCommand_heard (code := 0x26) rfl s) e
  | frameError code tag params crc => exact heard (hostRequest_heard ..) e
  | unknown code tag params => exact heard (hostRequest_heard ..) e
  | badLength code tag length =>
    refine heard (u := if s.port.canComplete [code, tag, length] then
      if Config.paramLimit < length.toNat then s.refuseLength code tag length else s.receivedAll [code, tag, length]
      else s) ?_ e
    split
    · next c =>
      split
      · exact .served (canComplete_receiving c) _ .nothing tag _
      · exact .receives (canComplete_receiving c) _
    · exact .nothing
  | spiByteComplete byte => exact heard (byteComplete_heard byte s) e
  | transactionStart => cases e; exact .select
  | deselect => cases e; exact .deselect
  | nresetAssert => cases e; exact .power _ .low s.supply
  | nresetRelease =>
    cases e
    show Ran s _ (if s.nreset = .low then { s with nreset := .high }.resetBlocks else s)
    split
    · exact .power _ .high s.supply
    · exact .heard _ _ .nothing
  | supplyDrop => cases e; exact .power _ s.nreset .below
  | supplyRise =>
    cases e
    show Ran s _ (if s.supply = .below then { s with supply := .hold } else s)
    split
    · next below => exact .rises below
    · exact .heard _ _ .nothing
  | supplyHoldEnd =>
    cases e
    show Ran s _ (if s.supply = .hold then { s with supply := .up }.resetBlocks else s)
    split
    · exact .power _ s.nreset .up
    · exact .heard _ _ .nothing
  | resetComplete => cases e; exact .complete
  | qualifierInputChange q level => cases e; exact .qualifier q level
  | pulseExpiry l => cases e; exact .expires l
  | timeBaseTick => cases e; exact .ticks
  | axisInputChange k change => exact .axis _ k t (exec_axisRow rfl e)
  | filterTimeout k input => exact .axis _ k t (exec_axisRow rfl e)
  | rateExpiry k => exact .axis _ k t (exec_axisRow rfl e)
  | stepStart k => exact .axis _ k t (exec_axisRow rfl e)
  | examineRecord k => exact .axis _ k t (exec_axisRow rfl e)
  | seekComplete k => exact .axis _ k t (exec_axisRow rfl e)
  | stalledAdderPlace => cases e; exact .places
  | arbiterGrant => cases e; exact .grants
  | linkEvent => cases e; exact .links
  | unlinkEvent => cases e; exact .unlinks
  | retireBankCheck => cases e; exact .checks
  | retireBankWalkEnd => cases e; exact .walks

end Sys2Proof.Machine
end

section
/-! PROOFS. The law of the port through every row (O56), the queue and the step (O1), and the reach of an axis' events (O60). -/

namespace Sys2Proof.Machine

/-! ### The law of the port -/

theorem PortLaw.congr {s t : State} (p : PortLaw s) (port : t.port = s.port) (ncs : t.ncs = s.ncs)
    (inReset : t.inReset = s.inReset) : PortLaw t :=
  ⟨by rw [port, ncs, inReset]; exact p.idle, port ▸ p.driven, port ▸ p.crc, port ▸ p.reply, port ▸ p.filler, port ▸ p.held⟩

theorem PinsKept.inReset {s t : State} (p : PinsKept s t) : t.inReset = s.inReset := by
  obtain ⟨-, -, nreset, supply⟩ := p.world
  unfold State.inReset
  rw [nreset, supply]

theorem PortLaw.rest {s t : State} (p : PortLaw s) (kept : RestKept s t) : PortLaw t :=
  p.congr kept.port kept.world.2.1 kept.pins.inReset

/-- A port that is IDLE, ignores nothing, drives nothing and holds no RESET. -/
theorem PortLaw.idlePort {s : State} (port : ∃ resetting, s.port = { Port.initial with resetting := resetting }) :
    PortLaw s := by
  obtain ⟨resetting, port⟩ := port
  refine ⟨fun _ => ?_, ?_, ?_, ?_, ?_, ?_⟩ <;> rw [port]
  · exact ⟨rfl, rfl⟩
  · exact iff_of_true rfl ⟨rfl, rfl⟩
  · nofun
  · rintro (e | e) <;> cases e
  · exact Nat.zero_le 8
  · nofun

/-- Within a transaction nCS is low and the part is not held in reset. -/
theorem PortLaw.selected {s : State} (p : PortLaw s) (busy : s.port.phase ≠ .idle ∨ s.port.ignoring = true) :
    ¬ (s.ncs = .high ∨ s.inReset = true) := by
  intro outside
  obtain ⟨idle, quiet⟩ := p.idle outside
  rcases busy with b | b
  · exact b idle
  · rw [quiet] at b
    cases b

theorem PortLaw.drives {s : State} (p : PortLaw s) (busy : s.port.phase ≠ .idle ∨ s.port.ignoring = true) :
    s.port.sdo ≠ .highZ := by
  intro quiet
  obtain ⟨idle, ignoring⟩ := p.driven.mp quiet
  rcases busy with b | b
  · exact b idle
  · rw [ignoring] at b
    cases b

/-- A port in a transaction, with SDO driven. -/
theorem PortLaw.transaction {t : State} (inside : ¬ (t.ncs = .high ∨ t.inReset = true)) (busy : t.port.phase ≠ .idle)
    (driven : t.port.sdo ≠ .highZ) (crc : t.port.phase = .receiving → t.port.crc = crc8 t.port.received)
    (reply : t.port.phase = .awaiting ∨ t.port.phase = .replying → t.port.toSend ≠ []) (filler : t.port.filler ≤ 8)
    (held : t.port.resetHeld = true → t.port.phase ≠ .receiving) : PortLaw t :=
  ⟨fun outside => absurd outside inside, iff_of_false driven (fun e => busy e.1), crc, reply, filler,
    fun e => ⟨busy, held e⟩⟩

/-- The pins that the port looks at are as they were, so a transaction goes on. -/
theorem PortLaw.inside {s t : State} (p : PortLaw s) (busy : s.port.phase ≠ .idle ∨ s.port.ignoring = true)
    (pins : PinsKept s t) : ¬ (t.ncs = .high ∨ t.inReset = true) := by
  rw [pins.world.2.1, pins.inReset]
  exact p.selected busy

theorem PinsKept.port (s : State) (p : Port) : PinsKept s { s with port := p } := ⟨⟨rfl, rfl, rfl, rfl⟩, rfl⟩

theorem PinsKept.trans {s t u : State} (a : PinsKept s t) (b : PinsKept t u) : PinsKept s u :=
  ⟨⟨b.world.1.trans a.world.1, b.world.2.1.trans a.world.2.1, b.world.2.2.1.trans a.world.2.2.1,
    b.world.2.2.2.trans a.world.2.2.2⟩, b.pending.trans a.pending⟩

theorem PinsKept.answer {s t : State} (p : PinsKept s t) (tag : Byte) (reply : Reply) : PinsKept s (t.answer tag reply) :=
  ⟨p.world, p.pending⟩

theorem busy_of_eq {s : State} {phase : PortPhase} (e : s.port.phase = phase) (busy : phase ≠ .idle) :
    s.port.phase ≠ .idle := e ▸ busy

/-- The running CRC takes one byte at a time (R142). -/
theorem crc8_append (bytes : List Byte) (byte : Byte) : crc8 (bytes ++ [byte]) = crcByte (crc8 bytes) byte := by
  unfold crc8
  rw [List.foldl_append]
  rfl

theorem PortLaw.take {s : State} (p : PortLaw s) (receiving : s.port.phase = .receiving) (byte : Byte) :
    PortLaw { s with port := s.port.take byte } := by
  have busy := busy_of_eq receiving nofun
  refine .transaction (p.inside (.inl busy) (.port s _)) busy (fun e => Sdo.noConfusion e) (fun _ => ?_) p.reply p.filler
    (fun held => (p.held held).2)
  show crcByte s.port.crc byte = crc8 (s.port.received ++ [byte])
  rw [crc8_append, p.crc receiving]

/-- An answer leaves SDO as it was, and puts a reply behind at most 8 filler bytes (R144). -/
theorem PortLaw.answer {s t : State} (p : PortLaw s) (receiving : s.port.phase = .receiving) (pins : PinsKept s t)
    (driven : t.port.sdo ≠ .highZ) (tag : Byte) (reply : Reply) : PortLaw (t.answer tag reply) := by
  refine .transaction (p.inside (.inl (busy_of_eq receiving nofun)) (pins.answer tag reply)) nofun driven nofun (fun _ => ?_) ?_ (fun _ => nofun)
  · show replyFrame tag reply ≠ []
    unfold replyFrame
    exact List.append_ne_nil_of_right_ne_nil _ nofun
  · show 1 + (Config.extraFiller t.draws).val ≤ 8
    omega

theorem PortLaw.sendFiller {s : State} (p : PortLaw s) (awaiting : s.port.phase = .awaiting) :
    PortLaw { s with port := s.port.sendFiller } := by
  have inside := p.inside (.inl (busy_of_eq awaiting nofun)) (.port s s.port.sendFiller)
  have reply := p.reply (.inl awaiting)
  have room := p.filler
  unfold Port.sendFiller at inside ⊢
  split at inside
  · next n filler =>
    rw [filler] at room
    exact .transaction inside (busy_of_eq awaiting nofun) nofun (fun e => by rw [awaiting] at e; cases e) (fun _ => reply)
      (Nat.le_of_succ_le room) (fun held => (p.held held).2)
  · exact .transaction inside nofun nofun nofun (fun _ => reply) p.filler (fun _ => nofun)

theorem PortLaw.sendReply {s : State} (p : PortLaw s) (replying : s.port.phase = .replying) :
    PortLaw { s with port := s.port.sendReply } := by
  have inside := p.inside (.inl (busy_of_eq replying nofun)) (.port s s.port.sendReply)
  have drained (e : PortPhase.draining = .awaiting ∨ PortPhase.draining = .replying) (bytes : List Byte) : bytes ≠ [] := by
    rcases e with e | e <;> cases e
  unfold Port.sendReply at inside ⊢
  split at inside
  · exact .transaction inside nofun nofun nofun (fun e => drained e _) p.filler (fun _ => nofun)
  · exact .transaction inside nofun nofun nofun (fun e => drained e _) p.filler (fun _ => nofun)
  · next b rest more send =>
    refine .transaction inside (busy_of_eq replying nofun) nofun (fun e => by rw [replying] at e; cases e)
      (fun _ none => ?_) p.filler (fun held => (p.held held).2)
    exact more (none : rest = [])

theorem PortLaw.heard {s t : State} (p : PortLaw s) (x : Heard s t) : PortLaw t := by
  cases x with
  | nothing => exact p
  | ignored idle ignoring =>
    refine ⟨fun outside => absurd outside (p.selected (.inr ignoring)), iff_of_false nofun (fun e => ?_), p.crc, p.reply,
      p.filler, p.held⟩
    exact Bool.noConfusion (ignoring.symm.trans e.2)
  | drained draining =>
    exact .transaction (p.inside (.inl (busy_of_eq draining nofun)) (.port s _)) (busy_of_eq draining nofun) nofun p.crc
      p.reply p.filler (fun held => (p.held held).2)
  | takes receiving byte => exact p.take receiving byte
  | receives receiving bytes =>
    exact .transaction (p.inside (.inl (busy_of_eq receiving nofun)) (.port s _)) (busy_of_eq receiving nofun)
      (fun e => Sdo.noConfusion e) (fun _ => rfl) p.reply p.filler (fun held => (p.held held).2)
  | answers receiving q driven t o tag reply =>
    refine p.answer receiving (.trans (.port s q) o.pins) ?_ tag reply
    rcases o.port with e | e <;> rw [e] <;> exact driven
  | filler awaiting => exact p.sendFiller awaiting
  | reply replying => exact p.sendReply replying

theorem PortLaw.select {s : State} (p : PortLaw s) : PortLaw s.selectPort := by
  unfold State.selectPort
  split
  · exact p
  · next high =>
    have high : s.ncs = .high := by
      cases e : s.ncs with
      | low => exact absurd e high
      | high => rfl
    obtain ⟨idle, quiet⟩ := p.idle (.inl high)
    split
    · next reset => exact ⟨fun _ => p.idle (.inr reset), p.driven, p.crc, p.reply, p.filler, p.held⟩
    · next out =>
      have inside (u : State) (low : u.ncs = .low) (same : u.inReset = s.inReset) :
          ¬ (u.ncs = .high ∨ u.inReset = true) := by
        rw [low, same]
        rintro (e | e)
        · cases e
        · exact out e
      split
      · exact ⟨fun outside => absurd outside (inside _ rfl rfl), iff_of_false nofun (fun e => Bool.noConfusion e.2), p.crc,
          p.reply, p.filler, p.held⟩
      · exact .transaction (inside _ rfl rfl) nofun nofun (fun _ => rfl) (fun e => by rcases e with e | e <;> cases e)
          (Nat.zero_le 8) nofun

theorem PortLaw.deselect {s : State} (p : PortLaw s) : PortLaw s.deselectPort := by
  unfold State.deselectPort
  split
  · exact p
  · split
    · exact .idlePort ⟨true, rfl⟩
    · exact .idlePort ⟨s.port.resetting, rfl⟩

theorem setLine_rest (s : State) (l : LineId) (x : Line) : RestKept s (s.setLine l x) :=
  ⟨rfl, ⟨rfl, rfl⟩, ⟨rfl, rfl, rfl, rfl⟩, ⟨rfl, rfl⟩⟩

theorem tick_rest (s : State) : RestKept s s.tick := ⟨rfl, ⟨rfl, rfl⟩, ⟨rfl, rfl, rfl, rfl⟩, ⟨rfl, rfl⟩⟩

theorem PortLaw.ran {s t : State} {i : Instr} (p : PortLaw s) (x : Ran s i t) : PortLaw t := by
  cases x with
  | heard _ _ x => exact p.heard x
  | select => exact p.select
  | deselect => exact p.deselect
  | power _ nreset supply => exact .idlePort ⟨false, rfl⟩
  | rises below =>
    have held : s.inReset = true := by
      unfold State.inReset
      rw [below, Bool.or_eq_true]
      exact .inr rfl
    exact ⟨fun _ => p.idle (.inr held), p.driven, p.crc, p.reply, p.filler, p.held⟩
  | complete => exact ⟨p.idle, p.driven, p.crc, p.reply, p.filler, p.held⟩
  | qualifier q level => exact p.congr rfl rfl rfl
  | expires l => exact p.rest (setLine_rest s l _)
  | ticks => exact p.rest (tick_rest s)
  | axis _ k _ x => exact p.rest x.rest
  | places => exact p.rest (placeStalled_placed s).rest
  | grants => exact p.rest (grant_row s).rest
  | links => exact p.rest (linkEvent_row s).rest
  | unlinks => exact p.rest (unlinkEvent_row s).rest
  | checks => exact p.rest (retireCheck_row s).rest
  | walks => exact p.rest (retireEnd_row s).rest

/-- Settles O56: only a row of the port, of nCS or of the reset pins changes the port, and each of them leaves it IDLE or in a
transaction with SDO driven. -/
theorem stepKeepsThePortLaw : Obligations.StepKeepsThePortLaw := by
  intro s t p e
  unfold step at e
  split at e
  · cases e
    exact p.rest (walkOn_row s).rest
  · next c rest _ =>
    have taken : PortLaw { s with pending := rest } := p.congr rfl rfl rfl
    exact taken.ran (exec_ran e)

/-! ### The queue and the step -/

theorem Heard.pending {s t : State} (x : Heard s t) : t.pending = s.pending := by
  cases x with
  | nothing => rfl
  | ignored idle ignoring => rfl
  | drained draining => rfl
  | takes receiving byte => rfl
  | receives receiving bytes => rfl
  | answers receiving p driven t o tag reply => exact o.pins.pending
  | filler awaiting => rfl
  | reply replying => rfl

theorem selectPort_pending (s : State) : s.selectPort.pending = s.pending := by
  unfold State.selectPort
  split_ifs <;> rfl

theorem deselectPort_pending (s : State) : s.deselectPort.pending = s.pending := by
  unfold State.deselectPort
  split_ifs <;> rfl

theorem Ran.pending {s t : State} {i : Instr} (x : Ran s i t) : t.pending = s.pending := by
  cases x with
  | heard _ _ x => exact x.pending
  | select => exact selectPort_pending s
  | deselect => exact deselectPort_pending s
  | power _ nreset supply => rfl
  | rises below => rfl
  | complete => rfl
  | qualifier q level => rfl
  | expires l => rfl
  | ticks => rfl
  | axis _ k _ x => exact x.rest.own.1
  | places => exact (placeStalled_placed s).rest.own.1
  | grants => exact (grant_row s).rest.own.1
  | links => exact (linkEvent_row s).rest.own.1
  | unlinks => exact (unlinkEvent_row s).rest.own.1
  | checks => exact (retireCheck_row s).rest.own.1
  | walks => exact (retireEnd_row s).rest.own.1

theorem step_walks {s : State} (none : s.pending = []) : step s = .next s.walkOn := by
  unfold step
  rw [none]

/-- A walk before a link passes one record at or below the position of its record, or stays (R26). -/
theorem walkOn_link {s : State} {h : Handle} {k : AxisId} {place : Nat} {next : Occupant}
    (work : (s.engine.occupant = .mailbox (.arm h k place) ∧ next = .mailbox (.arm h k (place + 1))) ∨
      (s.engine.occupant = .mailbox (.moveRelink h k place) ∧ next = .mailbox (.moveRelink h k (place + 1))) ∨
      (∃ r, s.engine.occupant = .link r k place ∧ h = r.target ∧ next = .link r k (place + 1))) :
    s.walkOn = if s.passesLink k place h then { s with engine := { s.engine with occupant := next } } else s := by
  unfold State.walkOn
  rcases work with ⟨work, rfl⟩ | ⟨work, rfl⟩ | ⟨r, work, rfl, rfl⟩ <;> rw [work] <;> rfl

theorem walkOn_retire {s : State} {k : AxisId} {bank : Bank} {place count : Nat}
    (work : s.engine.occupant = .mailbox (.retire k bank place count none)) :
    s.walkOn = if s.passesRetire k place bank then
      { s with engine := { s.engine with occupant := .mailbox (.retire k bank (place + 1) count none) } } else s := by
  unfold State.walkOn
  rw [work]
  rfl

theorem walkOn_idle {s : State} (arm : ∀ h k place, s.engine.occupant ≠ .mailbox (.arm h k place))
    (relink : ∀ h k place, s.engine.occupant ≠ .mailbox (.moveRelink h k place))
    (retire : ∀ k bank place count, s.engine.occupant ≠ .mailbox (.retire k bank place count none))
    (link : ∀ r k place, s.engine.occupant ≠ .link r k place) : s.walkOn = s := by
  unfold State.walkOn
  split
  · next work => exact absurd work (arm _ _ _)
  · next work => exact absurd work (relink _ _ _)
  · next work => exact absurd work (retire _ _ _ _)
  · next work => exact absurd work (link _ _ _)
  · rfl

/-- Settles O1: a row touches the queue nowhere, and the walk of a step with no row to run passes a record exactly where the walk's
place says. -/
theorem stepRunsTheFrontCommand : Obligations.StepRunsTheFrontCommand := by
  refine ⟨fun c rest s e => ?_, fun c s => ?_, fun s none => ?_⟩
  · unfold step
    rw [e]
  · obtain ⟨t, e, -⟩ := exec_change c s
    exact ⟨t, e, (exec_ran e).pending⟩
  · rw [step_walks none]
    refine ⟨fun h k place next work => ?_, fun k bank place count work => ?_, fun arm relink retire link => ?_⟩
    · rw [walkOn_link work]
      exact ⟨fun passes => by rw [if_pos ((passesLink_iff s k place h).mpr passes)],
        fun stays => by rw [if_neg (mt (passesLink_iff s k place h).mp stays)]⟩
    · rw [walkOn_retire work]
      exact ⟨fun passes => by rw [if_pos ((passesRetire_iff s k place bank).mpr passes)],
        fun stays => by rw [if_neg (mt (passesRetire_iff s k place bank).mp stays)]⟩
    · rw [walkOn_idle arm relink retire link]

/-! ### The reach of an axis' events -/

/-- No other axis, and nothing of the mailbox, is changed. -/
structure OnlyAxis (k : AxisId) (s t : State) : Prop where
  others : ∀ j, j ≠ k → t.ax j = s.ax j
  mailbox : t.engine.mailbox = s.engine.mailbox

section OnlyAxis
variable {k : AxisId} {s t : State}

theorem OnlyAxis.refl (s : State) : OnlyAxis k s s := ⟨fun _ _ => rfl, rfl⟩

theorem OnlyAxis.trans {u : State} (a : OnlyAxis k s t) (b : OnlyAxis k t u) : OnlyAxis k s u :=
  ⟨fun j n => (b.others j n).trans (a.others j n), b.mailbox.trans a.mailbox⟩

theorem OnlyAxis.of_eq (ax : ∀ j, t.ax j = s.ax j) (engine : t.engine = s.engine) : OnlyAxis k s t :=
  ⟨fun j _ => ax j, engine ▸ rfl⟩

theorem OnlyAxis.updAx (p : OnlyAxis k s t) (f : Axis → Axis) : OnlyAxis k s (t.updAx k f) :=
  p.trans ⟨fun j n => State.updAx_ax_ne t k j f n, rfl⟩

theorem OnlyAxis.updEngine (p : OnlyAxis k s t) (f : Engine → Engine) (same : (f t.engine).mailbox = t.engine.mailbox) :
    OnlyAxis k s (t.updEngine f) := p.trans ⟨fun _ _ => rfl, same⟩

theorem OnlyAxis.putRecord (p : OnlyAxis k s t) (h : Handle) (r : Record) : OnlyAxis k s (t.putRecord h r) :=
  p.trans (.of_eq (State.putRecord_ax t h r) rfl)

theorem OnlyAxis.autoRelease (p : OnlyAxis k s t) (h : Handle) : OnlyAxis k s (t.autoRelease h) :=
  have ⟨ax, _, engine, _⟩ := autoRelease_rest t h
  p.trans (.of_eq ax engine)

theorem OnlyAxis.seek (p : OnlyAxis k s t) (target : Int) (turn : Turn) : OnlyAxis k s (t.seekStart k target turn) :=
  (p.updAx _).updEngine _ rfl

theorem OnlyAxis.unlinkRecord (p : OnlyAxis k s t) (h : Handle) (r : Record) : OnlyAxis k s (t.unlinkRecord k h r) :=
  ((p.updAx _).updEngine _ (by rfl)).putRecord h r

theorem OnlyAxis.guardFired (p : OnlyAxis k s t) (h : Handle) : OnlyAxis k s (t.guardFired k h) := by
  rcases guardFired_rest t k h with e | e <;> rw [e]
  · exact p
  · exact p.updAx _

theorem OnlyAxis.finishFire (p : OnlyAxis k s t) (h : Handle) : OnlyAxis k s (t.finishFire k h) := by
  unfold State.finishFire
  dsimp only
  split
  · exact p.guardFired h
  · exact (p.unlinkRecord h _).autoRelease h
  · exact (p.putRecord h _).guardFired h

theorem OnlyAxis.placeLink (p : OnlyAxis k s t) (source target : Handle) : OnlyAxis k s (t.placeLink source target) := by
  have arrived := p.updEngine (fun g => Engine.arrived { g with queue := g.queue ++ [{ source := source, target := target }] })
    (arrived_mailbox _)
  exact arrived.putRecord source _

theorem OnlyAxis.fire (p : OnlyAxis k s t) (h : Handle) (d : Dir) (turn : Turn) : OnlyAxis k s (t.fire k h d turn) := by
  have q := (p.trans (.of_eq (lineRequest_ax t (t.recordAt h).action) (lineRequest_engine t _))).putRecord h
    ((t.recordAt h).fired d turn)
  unfold State.fire
  dsimp only
  split
  · exact q.finishFire h
  · exact (q.updAx _).finishFire h
  · split
    · exact (q.placeLink h _).finishFire h
    · exact (q.updAx _).updEngine _ (by rfl)

theorem Indexed.only (x : Indexed s k t) : OnlyAxis k s t := by
  have p : OnlyAxis k s s := .refl s
  cases x with
  | nothing => exact p
  | captures v => exact p.updAx _
  | homes => exact (p.updAx _).seek _ _
  | tracks mode => exact (p.updAx _).seek _ _

theorem Examined.only (x : Examined s k t) : OnlyAxis k s t := by
  have p : OnlyAxis k s s := .refl s
  cases x with
  | nothing => exact p
  | passes st h rest x => exact (p.updAx _).updAx _
  | fires st h rest x e => exact ((p.updAx _).fire h _ _).updAx _

theorem AxisRow.only (x : AxisRow s k t) : OnlyAxis k s t := by
  have p : OnlyAxis k s s := .refl s
  cases x with
  | axis f => exact p.updAx f
  | index fi =>
    have moved := p.updAx (fun a => { a with front := { a.front with inputI := fi } })
    rw [handOnIndex_eq]
    split
    · exact moved
    · exact moved.trans (indexEdge_indexed _ k _).only
  | examine => exact (examine_examined s k).only

end OnlyAxis

/-- Settles O60: an axis' event updates its own axis alone, and reaches records, lines and the link queue, but neither the mailbox
nor the port. -/
theorem axisEventsStayOnTheirAxis : Obligations.AxisEventsStayOnTheirAxis := by
  refine ⟨fun s t i k row e => ?_, fun s k a => ?_⟩
  · have x := exec_axisRow row e
    exact ⟨x.only.others, x.only.mailbox, x.rest⟩
  · exact ⟨State.setAx_ax_same s k a, fun j n => State.setAx_ax_ne s k j a n, rfl⟩

end Sys2Proof.Machine
end

section
/-! PROOFS. The port: a request and its row are one event (O8), the bytes of a reply (O6, O7), nCS (O3), and the reset pins (O21, O22,
O53). -/

namespace Sys2Proof.Machine

/-! ### A request and its row -/

/-- The row of a command in H-4 is a request with a good CRC byte. -/
theorem hostCommand_eq_hostRequest {code tag : Byte} {params : List Byte} {serve : State → Served}
    (o : ownerOf code tag params = some serve) (s : State) :
    hostCommand code tag params serve s = hostRequest code tag params (crc8 (requestBytes code tag params)) s := by
  unfold hostCommand hostRequest closeRequest takeRequest
  rw [if_pos rfl, o]

theorem exec_request {i : Instr} {code tag crc : Byte} {params : List Byte}
    (row : requestOf i = some (code, tag, params, crc)) (s : State) :
    exec i s = .next (hostRequest code tag params crc s) := by
  cases i <;> cases row
  case frameError => rfl
  case unknown => rfl
  all_goals exact congrArg Host.Outcome.next (hostCommand_eq_hostRequest rfl s)

section Request
variable {s : State} {code tag crc : Byte} {params got : List Byte}

theorem ofNat_length (few : params.length ≤ 32) : (BitVec.ofNat 8 params.length).toNat = params.length := by
  rw [BitVec.toNat_ofNat]
  omega

theorem take_receiving {p : Port} (r : ReceivingPort p got) (b : Byte) : ReceivingPort (p.take b) (got ++ [b]) := by
  obtain ⟨receiving, received, running⟩ := r
  refine ⟨receiving, congrArg (· ++ [b]) received, ?_⟩
  rw [crc8_append, ← running]
  rfl

/-- A byte of a request that is not its last is taken, and no more (R139, R141). -/
theorem byteComplete_takes (few : params.length ≤ 32) (r : ReceivingPort s.port got) {b : Byte} {rest : List Byte}
    (bytes : requestBytes code tag params = got ++ b :: rest) : s.byteComplete b = { s with port := s.port.take b } := by
  obtain ⟨receiving, received, -⟩ := r
  unfold State.byteComplete State.receiveByte
  rw [receiving, received]
  unfold requestBytes at bytes
  rcases got with _ | ⟨x, _ | ⟨y, _ | ⟨z, more⟩⟩⟩
  · rfl
  · rfl
  · obtain ⟨-, -, rfl, -⟩ : code = x ∧ tag = y ∧ BitVec.ofNat 8 params.length = b ∧ params = rest := by
      simpa using bytes
    dsimp only
    rw [if_neg]
    rw [ofNat_length few]
    exact Nat.not_lt.mpr few
  · obtain ⟨-, -, rfl, rfl⟩ : code = x ∧ tag = y ∧ BitVec.ofNat 8 params.length = z ∧ params = more ++ b :: rest := by
      simpa using bytes
    dsimp only
    rw [if_neg]
    rw [ofNat_length few, List.length_append, List.length_cons]
    omega

/-- The byte behind the last parameter is the CRC byte, and closes the request (R142). -/
theorem byteComplete_closes (few : params.length ≤ 32) (r : ReceivingPort s.port (requestBytes code tag params))
    (crc : Byte) : s.byteComplete crc = closeRequest code tag params crc (s.heard code tag params) := by
  obtain ⟨receiving, received, running⟩ := r
  have heard : s.heard code tag params = { s with port := { s.port with sdo := .driven 0 } } := by
    unfold State.heard State.receivedAll
    rw [← running, ← received]
  unfold State.byteComplete State.receiveByte closeRequest
  rw [receiving, heard]
  have split : s.port.received = code :: tag :: BitVec.ofNat 8 params.length :: params := received
  rw [split]
  dsimp only
  rw [if_pos (ofNat_length few).symm, running]

/-- What the request of a row makes of the state does not depend on how much of it has come. -/
theorem hostRequest_take (few : params.length ≤ 32) (r : ReceivingPort s.port got) {b : Byte} {rest : List Byte}
    (bytes : requestBytes code tag params = got ++ b :: rest) (crc : Byte) :
    hostRequest code tag params crc { s with port := s.port.take b } = hostRequest code tag params crc s := by
  have now : Ready s code tag params := ⟨r.1, r.2.1 ▸ ⟨b :: rest, bytes.symm⟩⟩
  have next : Ready { s with port := s.port.take b } code tag params := by
    obtain ⟨receiving, received, -⟩ := take_receiving r b
    exact ⟨receiving, received ▸ ⟨rest, by rw [bytes, List.append_assoc]; rfl⟩⟩
  rw [hostRequest_of_ready crc now few, hostRequest_of_ready crc next few]
  rfl

theorem clockBytes_request (few : params.length ≤ 32) (rest : List Byte) :
    ∀ (s : State) (got : List Byte), ReceivingPort s.port got → requestBytes code tag params ++ [crc] = got ++ rest →
      rest ≠ [] → clockBytes rest s = .next (hostRequest code tag params crc s) := by
  induction rest with
  | nil => exact fun _ _ _ _ none => absurd rfl none
  | cons b rest ih =>
    intro s got r bytes _
    rcases List.eq_nil_or_concat' rest with rfl | ⟨more, last, rfl⟩
    · obtain ⟨rfl, same⟩ := List.append_inj' bytes rfl
      cases same
      have ready : Ready s code tag params := ⟨r.1, r.2.1 ▸ List.prefix_rfl⟩
      rw [hostRequest_of_ready crc ready few, ← byteComplete_closes few r crc]
      rfl
    · have bytes' : requestBytes code tag params ++ [crc] = (got ++ b :: more) ++ [last] := by
        rw [bytes]
        simp
      obtain ⟨request, same⟩ := List.append_inj' bytes' rfl
      cases same
      show clockBytes (more ++ [crc]) (s.byteComplete b) = _
      rw [byteComplete_takes few r request, ← hostRequest_take few r request crc]
      refine ih { s with port := s.port.take b } (got ++ [b]) (take_receiving r b) ?_ (by simp)
      rw [bytes, List.append_assoc]
      rfl

end Request

theorem wellFormed_few {i : Instr} {code tag crc : Byte} {params : List Byte} (fits : i.wellFormed = true)
    (row : requestOf i = some (code, tag, params, crc)) : params.length ≤ 32 := by
  have few : paramsFit params = true := by
    cases i <;> cases row
    case frameError => exact (Bool.and_eq_true_iff.mp fits).1
    case unknown => exact (Bool.and_eq_true_iff.mp fits).1
    all_goals exact fits
  exact of_decide_eq_true few

/-- A byte before the length byte is taken, and no more (R141). -/
theorem byteComplete_opens {s : State} (receiving : s.port.phase = .receiving) (few : s.port.received.length < 2) (b : Byte) :
    s.byteComplete b = { s with port := s.port.take b } := by
  unfold State.byteComplete State.receiveByte
  rw [receiving]
  rcases received : s.port.received with _ | ⟨x, _ | ⟨y, more⟩⟩
  · rfl
  · rfl
  · rw [received] at few
    exact absurd few (by simp)

theorem take_eq_receivedAll {s : State} {got : List Byte} (r : ReceivingPort s.port got) (b : Byte) :
    { s with port := s.port.take b } = s.receivedAll (got ++ [b]) := by
  obtain ⟨-, received, running⟩ := take_receiving r b
  unfold State.receivedAll
  rw [← running, ← received]
  rfl

theorem receiving_receivedAll {s : State} (receiving : s.port.phase = .receiving) (bytes : List Byte) :
    ReceivingPort (s.receivedAll bytes).port bytes := ⟨receiving, rfl, rfl⟩

/-- The length byte is the third byte of a request; one above 32 ends it (R141). -/
theorem clockBytes_badLength {code tag length : Byte} (long : 32 < length.toNat) {got rest : List Byte} {s : State}
    (r : ReceivingPort s.port got) (bytes : [code, tag, length] = got ++ rest) (more : rest ≠ []) :
    clockBytes rest s = exec (.badLength code tag length) s := by
  have last (u : State) (r : ReceivingPort u.port [code, tag]) :
      u.byteComplete length = u.refuseLength code tag length := by
    have taken := take_eq_receivedAll r length
    obtain ⟨receiving, received, -⟩ := r
    unfold State.byteComplete State.receiveByte State.refuseLength
    rw [receiving, received]
    dsimp only
    rw [if_pos (show Config.paramLimit < length.toNat from long), taken]
    rfl
  have second (u : State) (r : ReceivingPort u.port [code]) : u.byteComplete tag = u.receivedAll [code, tag] := by
    rw [byteComplete_opens r.1 (by rw [r.2.1]; simp), take_eq_receivedAll r]
    rfl
  have first (u : State) (r : ReceivingPort u.port []) : u.byteComplete code = u.receivedAll [code] := by
    rw [byteComplete_opens r.1 (by rw [r.2.1]; simp), take_eq_receivedAll r]
    rfl
  have row : exec (.badLength code tag length) s = .next (s.refuseLength code tag length) := by
    have c : s.port.canComplete [code, tag, length] = true := by
      unfold Port.canComplete
      rw [Bool.and_eq_true, List.isPrefixOf_iff_prefix, r.2.1]
      exact ⟨decide_eq_true r.1, ⟨rest, bytes.symm⟩⟩
    show Host.Outcome.next (if s.port.canComplete [code, tag, length] then _ else s) = _
    rw [if_pos c]
    exact congrArg Host.Outcome.next (if_pos long)
  rw [row]
  rcases got with _ | ⟨x, _ | ⟨y, _ | ⟨z, got⟩⟩⟩
  · obtain rfl : [code, tag, length] = rest := bytes
    show clockBytes [tag, length] (s.byteComplete code) = _
    rw [first s r]
    show clockBytes [length] ((s.receivedAll [code]).byteComplete tag) = _
    rw [second _ (receiving_receivedAll r.1 _)]
    exact congrArg Host.Outcome.next (last _ (receiving_receivedAll r.1 _))
  · obtain ⟨rfl, rfl⟩ : code = x ∧ [tag, length] = rest := by simpa using bytes
    show clockBytes [length] (s.byteComplete tag) = _
    rw [second s r]
    exact congrArg Host.Outcome.next (last _ (receiving_receivedAll r.1 _))
  · obtain ⟨rfl, rfl, rfl⟩ : code = x ∧ tag = y ∧ [length] = rest := by simpa using bytes
    exact congrArg Host.Outcome.next (last s r)
  · obtain ⟨-, -, -, -, none⟩ : code = x ∧ tag = y ∧ length = z ∧ got = [] ∧ rest = [] := by simpa using bytes
    exact absurd none more

/-- Settles O8: each byte but the last is taken into the request, and the CRC byte closes it with the bytes that the row names. -/
theorem requestBytesAreTheRow : Obligations.RequestBytesAreTheRow := by
  refine ⟨fun i s code tag crc params got rest fits row r bytes more => ?_,
    fun s code tag length got rest long r bytes more => clockBytes_badLength long r bytes more⟩
  rw [exec_request row]
  exact clockBytes_request (wellFormed_few fits row) rest s got r bytes more

/-! ### The bytes of a reply -/

section Reply
variable {s : State} (b : Byte)

theorem byteComplete_ignored (idle : s.port.phase = .idle) (ignoring : s.port.ignoring = true) :
    s.byteComplete b = { s with port := { s.port with sdo := .driven 0 } } := by
  unfold State.byteComplete
  rw [idle]
  exact if_pos ignoring

theorem byteComplete_idle (idle : s.port.phase = .idle) (quiet : s.port.ignoring = false) : s.byteComplete b = s := by
  unfold State.byteComplete
  rw [idle]
  exact if_neg (by rw [quiet]; nofun)

theorem byteComplete_awaiting (awaiting : s.port.phase = .awaiting) :
    s.byteComplete b = { s with port := s.port.sendFiller } := by
  unfold State.byteComplete
  rw [awaiting]

theorem byteComplete_replying (replying : s.port.phase = .replying) :
    s.byteComplete b = { s with port := s.port.sendReply } := by
  unfold State.byteComplete
  rw [replying]

theorem byteComplete_filler {n : Nat} (awaiting : s.port.phase = .awaiting) (filler : s.port.filler = n + 1) :
    s.byteComplete b = { s with port := { s.port with filler := n, sdo := .driven 0 } } := by
  rw [byteComplete_awaiting b awaiting]
  unfold Port.sendFiller
  split
  · next m left => cases filler.symm.trans left; rfl
  · next none => cases filler.symm.trans none

theorem byteComplete_marker (awaiting : s.port.phase = .awaiting) (filler : s.port.filler = 0) :
    s.byteComplete b = { s with port := { s.port with phase := .replying, sdo := .driven 0x5A } } := by
  rw [byteComplete_awaiting b awaiting]
  unfold Port.sendFiller
  split
  · next m left => cases filler.symm.trans left
  · rfl

theorem byteComplete_reply {x y : Byte} {rest : List Byte} (replying : s.port.phase = .replying)
    (more : s.port.toSend = x :: y :: rest) :
    s.byteComplete b = { s with port := { s.port with toSend := y :: rest, sdo := .driven x } } := by
  rw [byteComplete_replying b replying]
  unfold Port.sendReply
  split
  · next send => cases more.symm.trans send
  · next send => cases more.symm.trans send
  · next send => cases more.symm.trans send; rfl

theorem byteComplete_lastReply {x : Byte} (replying : s.port.phase = .replying) (last : s.port.toSend = [x]) :
    s.byteComplete b = { s with port := { s.port with phase := .draining, toSend := [], sdo := .driven x } } := by
  rw [byteComplete_replying b replying]
  unfold Port.sendReply
  split
  · next send => cases last.symm.trans send
  · next send => cases last.symm.trans send; rfl
  · next more send => cases last.symm.trans send; exact absurd rfl more

theorem byteComplete_drained (draining : s.port.phase = .draining) :
    s.byteComplete b = { s with port := { s.port with sdo := .driven 0 } } := by
  unfold State.byteComplete
  rw [draining]

end Reply

/-- Settles O6: the phase, and what is left to send in it, say what a byte does. -/
theorem byteInEachPhase : Obligations.ByteInEachPhase := by
  intro s b
  have row {t : State} (e : s.byteComplete b = t) : exec (.spiByteComplete b) s = .next t :=
    congrArg Host.Outcome.next e
  exact ⟨fun idle quiet => row (byteComplete_idle b idle quiet), fun idle ignoring => row (byteComplete_ignored b idle ignoring),
    fun receiving few => row (byteComplete_opens receiving few b), fun n awaiting filler => row (byteComplete_filler b awaiting filler),
    fun awaiting none => row (byteComplete_marker b awaiting none),
    fun x y rest replying more => row (byteComplete_reply b replying more),
    fun x replying last => row (byteComplete_lastReply b replying last), fun draining => row (byteComplete_drained b draining)⟩

/-- `s` with the port at `p` sends `bytes` on SDO while `given` is clocked, and is DRAINING then; nothing but the port changes. -/
structure Sends (s : State) (given : List Byte) (bytes : List Byte) : Prop where
  sent : (sentFor given s).1 = bytes.map .driven
  drained : (sentFor given s).2.port.phase = .draining
  only : ∃ p, (sentFor given s).2 = { s with port := p }

theorem Sends.cons {s : State} {b x : Byte} {given bytes : List Byte} {p : Port} (now : s.byteComplete b = { s with port := p })
    (sdo : p.sdo = .driven x) (rest : Sends { s with port := p } given bytes) : Sends s (b :: given) (x :: bytes) := by
  obtain ⟨sent, drained, q, only⟩ := rest
  refine ⟨?_, ?_, q, ?_⟩
  · show (s.byteComplete b).port.sdo :: (sentFor given (s.byteComplete b)).1 = _
    rw [now, sent, List.map_cons]
    exact congrArg (· :: _) sdo
  · show (sentFor given (s.byteComplete b)).2.port.phase = _
    rw [now]
    exact drained
  · show (sentFor given (s.byteComplete b)).2 = _
    rw [now, only]

theorem sends_drained (given : List Byte) : ∀ s : State, s.port.phase = .draining →
    Sends s given (List.replicate given.length 0) := by
  induction given with
  | nil => exact fun s draining => ⟨rfl, draining, s.port, rfl⟩
  | cons b rest ih => exact fun s draining => (ih { s with port := { s.port with sdo := .driven 0 } } draining).cons (byteComplete_drained b draining) rfl

theorem sends_reply (toSend : List Byte) : ∀ (s : State) (given : List Byte) (extra : Nat), s.port.phase = .replying →
    s.port.toSend = toSend → toSend ≠ [] → given.length = toSend.length + extra →
    Sends s given (toSend ++ List.replicate extra 0) := by
  induction toSend with
  | nil => exact fun _ _ _ _ _ none => absurd rfl none
  | cons x toSend ih =>
    intro s given extra replying send _ size
    obtain ⟨b, rest, rfl⟩ : ∃ b rest, given = b :: rest := List.exists_cons_of_length_pos (by rw [size]; simp)
    rcases toSend with _ | ⟨y, more⟩
    · have rest_size : rest.length = extra := by
        simp only [List.length_cons, List.length_nil] at size
        omega
      rw [← rest_size]
      exact (sends_drained rest { s with port := { s.port with phase := .draining, toSend := [], sdo := .driven x } } rfl).cons
        (byteComplete_lastReply b replying send) rfl
    · have rest_size : rest.length = (y :: more).length + extra := by
        simp only [List.length_cons] at size ⊢
        omega
      exact (ih { s with port := { s.port with toSend := y :: more, sdo := .driven x } } rest extra replying rfl nofun
        rest_size).cons (byteComplete_reply b replying send) rfl

theorem sends_filler (n : Nat) : ∀ (s : State) (given : List Byte) (extra : Nat), s.port.phase = .awaiting →
    s.port.filler = n → s.port.toSend ≠ [] → given.length = n + 1 + s.port.toSend.length + extra →
    Sends s given (List.replicate n 0 ++ 0x5A :: s.port.toSend ++ List.replicate extra 0) := by
  induction n with
  | zero =>
    intro s given extra awaiting filler more size
    obtain ⟨b, rest, rfl⟩ : ∃ b rest, given = b :: rest := List.exists_cons_of_length_pos (by omega)
    have rest_size : rest.length = s.port.toSend.length + extra := by
      rw [List.length_cons] at size
      omega
    exact (sends_reply s.port.toSend { s with port := { s.port with phase := .replying, sdo := .driven 0x5A } } rest extra rfl
      rfl more rest_size).cons (byteComplete_marker b awaiting filler) rfl
  | succ n ih =>
    intro s given extra awaiting filler more size
    obtain ⟨b, rest, rfl⟩ : ∃ b rest, given = b :: rest := List.exists_cons_of_length_pos (by omega)
    have rest_size : rest.length = n + 1 + s.port.toSend.length + extra := by
      rw [List.length_cons] at size
      omega
    exact (ih { s with port := { s.port with filler := n, sdo := .driven 0 } } rest extra awaiting rfl more
      rest_size).cons (byteComplete_filler b awaiting filler) rfl

/-- Settles O7, by induction on the filler left, on the bytes to send and on the bytes clocked after them. -/
theorem replyIsSentInOrder : Obligations.ReplyIsSentInOrder := by
  intro s given extra awaiting more size
  obtain ⟨sent, drained, p, only⟩ := sends_filler s.port.filler s given extra awaiting rfl more size
  refine ⟨?_, drained, ?_⟩
  · rw [sent]
    simp
  · rw [only]

/-! ### nCS (R139, R145, R154, R155) -/

/-- Settles O3: an edge of nCS finds the other level, and the reset pins and the held RESET say what it starts or ends. -/
theorem transactionStartAndDeselect : Obligations.TransactionStartAndDeselect := by
  refine ⟨fun s high => ?_, fun s low => ?_⟩
  · have edge : ¬ s.ncs = .low := by rw [high]; nofun
    have row : exec .transactionStart s = .next s.selectPort := rfl
    rw [row]
    unfold State.selectPort
    rw [if_neg edge]
    refine ⟨fun out idle => ?_, fun out resetting => ?_, fun held => ?_⟩
    · rw [if_neg (by rw [out]; nofun), if_neg (by rw [idle]; nofun)]
      rfl
    · rw [if_neg (by rw [out]; nofun), if_pos resetting]
    · rw [if_pos held]
  · have edge : ¬ s.ncs = .high := by rw [low]; nofun
    have row : exec .deselect s = .next s.deselectPort := rfl
    rw [row]
    unfold State.deselectPort
    rw [if_neg edge]
    refine ⟨fun idle => ?_, fun held => ?_⟩
    · rw [if_neg (by rw [idle]; nofun)]
      rfl
    · rw [if_pos held]
      have world : WorldKept s { s with ncs := .high }.resetBlocks := by
        obtain ⟨pinA, pinB, pinI, qualifiers, pending, draws⟩ := resetBlocks_world { s with ncs := .high }
        exact ⟨pinA, pinB, pinI, qualifiers, pending, draws⟩
      exact ⟨_, rfl, (resetBlocks_values { s with ncs := .high }).withPort _, world.withPort _, rfl, rfl, rfl, rfl⟩

/-! ### Reset (R154 to R157) -/

/-- Settles O21: the owner of RESET only notes it; the effect waits for the rise of nCS. -/
theorem resetCommand : Obligations.ResetCommand := by
  refine fun s => ⟨fun tag r => answers_of ?_, rfl⟩
  exact congrArg Host.Outcome.next (hostCommand_of_ready (serveReset []) r (by decide))

/-- A change of the reset pins that resets every block. -/
theorem resetBlocks_pins (s : State) (nreset : Level) (supply : Supply) :
    ResetValues { s with nreset := nreset, supply := supply }.resetBlocks ∧
      WorldKept s { s with nreset := nreset, supply := supply }.resetBlocks := by
  obtain ⟨pinA, pinB, pinI, qualifiers, pending, draws⟩ :=
    resetBlocks_world { s with nreset := nreset, supply := supply }
  exact ⟨resetBlocks_values _, pinA, pinB, pinI, qualifiers, pending, draws⟩

/-- Settles O22: each of these rows sets one pin, and the reset that comes with it leaves every block at its reset values. -/
theorem resetPinAndSupply : Obligations.ResetPinAndSupply := by
  refine ⟨fun s => ⟨?_, fun low => ?_⟩, fun s => ⟨?_, fun below => ?_, fun hold => ?_⟩⟩
  · obtain ⟨values, world⟩ := resetBlocks_pins s .low s.supply
    exact ⟨_, rfl, values, world, rfl, rfl, rfl, rfl⟩
  · obtain ⟨values, world⟩ := resetBlocks_pins s .high s.supply
    exact ⟨_, congrArg Host.Outcome.next (if_pos low), values, world, rfl, rfl, rfl, rfl⟩
  · obtain ⟨values, world⟩ := resetBlocks_pins s s.nreset .below
    refine ⟨_, rfl, values, world, rfl, rfl, rfl, rfl, ?_⟩
    exact Bool.or_eq_true_iff.mpr (.inr rfl)
  · exact congrArg Host.Outcome.next (if_pos below)
  · obtain ⟨values, world⟩ := resetBlocks_pins s s.nreset .up
    refine ⟨_, congrArg Host.Outcome.next (if_pos hold), values, world, rfl, rfl, rfl, rfl, ?_⟩
    show (decide (s.nreset = .low) || decide (Supply.up ≠ .up)) = true ↔ _
    simp

/-- A reset leaves the state after reset as it is. -/
theorem reset_resetBlocks : State.reset.resetBlocks = State.reset := by
  have axes : State.reset.resetBlocks.axes = State.reset.axes :=
    State.ext_ax (fun k => by rw [resetBlocks_ax, reset_ax]; rfl)
  calc State.reset.resetBlocks = { State.reset with axes := State.reset.resetBlocks.axes } := rfl
    _ = State.reset := by rw [axes]

theorem reset_timerLaw : TimerLaw State.reset := by
  refine ⟨fun l n run => ?_, fun h l w act => ?_, fun k => ?_, fun k n run => ?_, fun k => ?_⟩
  · rw [reset_line] at run; cases run
  · rw [reset_recordAt] at act; cases act
  · rw [reset_ax]; decide
  · rw [reset_ax] at run; cases run
  · rw [reset_ax]; decide

theorem reset_arbiterLaw : ArbiterLaw State.reset :=
  ⟨by decide, fun _ => rfl, fun busy => absurd rfl busy, fun _ => iff_of_true rfl ⟨rfl, nofun⟩, nofun, nofun⟩

theorem reset_stallLaw : StallLaw State.reset := by
  refine .of_axes List.nodup_nil (fun k => ?_) (fun k => ?_) <;> rw [reset_ax]
  · exact iff_of_false nofun (fun holds => holds rfl)
  · exact ⟨fun holds => absurd rfl holds, nofun⟩

/-- Settles O53: the blocks' reset values meet the laws one by one; those of the records and lists are what every reset leaves. -/
theorem resetMeetsTheLaws : Obligations.ResetMeetsTheLaws := by
  have capacity : CapacityLaw State.reset := ⟨Nat.zero_le _, fun k => by rw [reset_ax]; exact Nat.zero_le _⟩
  have lag : LagLaw State.reset := .of_fine (fun k => by rw [reset_ax]; exact .initial ..)
  have store : StoreLaw State.reset := by
    rw [← reset_resetBlocks]
    exact (StoreCore.resetBlocks State.reset).law trivial
  have pending : PendingLaw State.reset := by
    rw [← reset_resetBlocks]
    exact .resetBlocks State.reset
  exact ⟨reset_values, rfl, rfl, pending, reset_timerLaw, capacity, reset_arbiterLaw, reset_stallLaw, lag, store,
    .idlePort ⟨false, rfl⟩⟩

end Sys2Proof.Machine
end

section
/-! PROOFS. The frames of H-3 and the refusals of the port (O4, O5). -/

namespace Sys2Proof.Machine

/-! ### Fields of more than one byte (R141) -/

theorem le16_bytes {n : Nat} (small : n < 65536) :
    (BitVec.ofNat 8 n).toNat + 256 * (BitVec.ofNat 8 (n / 256)).toNat = n := by
  simp only [BitVec.toNat_ofNat]
  omega

theorem u16_le16 {n : Nat} (small : n < 65536) : u16 (BitVec.ofNat 8 n) (BitVec.ofNat 8 (n / 256)) = n := le16_bytes small

theorem u32_le32 {n : Nat} (small : n < 4294967296) :
    u32 (BitVec.ofNat 8 n) (BitVec.ofNat 8 (n / 256)) (BitVec.ofNat 8 (n / 65536)) (BitVec.ofNat 8 (n / 16777216)) = n := by
  unfold u32
  simp only [BitVec.toNat_ofNat]
  omega

theorem u32_eq (b0 b1 b2 b3 : Byte) :
    u32 b0 b1 b2 b3 = b0.toNat + 256 * b1.toNat + 65536 * b2.toNat + 16777216 * b3.toNat := by
  unfold u32
  omega

/-- A signed field is its two's complement (R141). -/
theorem ofInt_toNat {n : Int} (lo : -2147483648 ≤ n) (hi : n ≤ 2147483647) :
    ((BitVec.ofInt 32 n).toNat : Int) = if n < 0 then n + 4294967296 else n := by
  rw [BitVec.toNat_ofInt]
  split <;> omega

theorem i32_leInt32 {n : Int} (lo : -2147483648 ≤ n) (hi : n ≤ 2147483647) {b0 b1 b2 b3 : Byte}
    (same : u32 b0 b1 b2 b3 = (BitVec.ofInt 32 n).toNat) : i32 b0 b1 b2 b3 = n := by
  unfold i32
  rw [same, BitVec.ofNat_toNat, BitVec.setWidth_eq, BitVec.toInt_ofInt]
  exact Int.bmod_eq_of_le (by omega) (by omega)

/-! ### The CRC (R142) -/

/-- One shift of the CRC as a doubling: the bit shifted out is the one worth 128. -/
theorem crcShift_eq (c : Byte) :
    crcShift c = BitVec.ofNat 8 (2 * c.toNat) ^^^ (if 128 ≤ c.toNat then 0x07 else 0x00) := by
  have double : c <<< 1 = BitVec.ofNat 8 (2 * c.toNat) := by
    apply BitVec.eq_of_toNat_eq
    rw [BitVec.toNat_shiftLeft, BitVec.toNat_ofNat, Nat.shiftLeft_eq]
    omega
  have top : c.msb = decide (128 ≤ c.toNat) := BitVec.msb_eq_decide c
  unfold crcShift
  rw [top, double]
  by_cases high : 128 ≤ c.toNat <;> simp [high]

/-! ### Codes outside H-4 (R143) -/

theorem listed_of_toNat {code : Byte} {n : Nat} (number : code.toNat = n) (listed : BitVec.ofNat 8 n ∈ commandCodes) :
    code ∈ commandCodes := by
  rw [← number, BitVec.ofNat_toNat, BitVec.setWidth_eq] at listed
  exact listed

theorem ownerOf_unlisted {code : Byte} (unlisted : code ∉ commandCodes) (tag : Byte) (params : List Byte) :
    ownerOf code tag params = none := by
  unfold ownerOf
  split
  case h_28 => rfl
  all_goals
    next number => exact absurd (listed_of_toNat number (by decide)) unlisted

/-! ### Refused frames -/

theorem answers_badLength {s : State} {code tag length : Byte} (receiving : s.port.phase = .receiving)
    (opening : s.port.received <+: [code, tag, length]) (long : 32 < length.toNat) :
    Answers (.badLength code tag length) s (s.receivedAll [code, tag, length]) tag (bare .frameError) := by
  have c : s.port.canComplete [code, tag, length] = true := by
    unfold Port.canComplete
    rw [Bool.and_eq_true, List.isPrefixOf_iff_prefix]
    exact ⟨decide_eq_true receiving, opening⟩
  refine answers_of ?_
  show Host.Outcome.next (if s.port.canComplete [code, tag, length] then _ else s) = _
  rw [if_pos c]
  exact congrArg Host.Outcome.next (if_pos long)

theorem answers_frameError {s : State} {code tag crc : Byte} {params : List Byte} (r : Ready s code tag params)
    (few : params.length ≤ 32) (bad : crc ≠ crc8 (requestBytes code tag params)) :
    Answers (.frameError code tag params crc) s (s.heard code tag params) tag (bare .frameError) := by
  refine answers_of (congrArg Host.Outcome.next ?_)
  rw [hostRequest_of_ready crc r few]
  exact if_neg bad

theorem answers_unknown {s : State} {code tag : Byte} {params : List Byte} (r : Ready s code tag params)
    (few : params.length ≤ 32) (unlisted : code ∉ commandCodes) :
    Answers (.unknown code tag params) s (s.heard code tag params) tag (bare .unknown) := by
  refine answers_of (congrArg Host.Outcome.next ?_)
  rw [hostRequest_of_ready _ r few]
  unfold closeRequest takeRequest
  rw [if_pos rfl, ownerOf_unlisted unlisted]

/-- Settles O4: each refused frame is answered before any owner sees it; the byte formats are sums of their bytes. -/
theorem refusedFrames : Obligations.RefusedFrames := by
  refine fun s => ⟨fun code tag length receiving opening long => answers_badLength receiving opening long,
    fun code tag params crc r few bad => answers_frameError r few bad,
    fun code tag params r few unlisted => answers_unknown r few unlisted, ?_, fun n small => ?_, fun n small => ?_,
    fun n lo hi => ?_⟩
  · have step : crcByte = fun c b => Nat.repeat (fun c : Byte => BitVec.ofNat 8 (2 * c.toNat) ^^^
        (if 128 ≤ c.toNat then 0x07 else 0x00)) 8 (c ^^^ b) := by
      have shift : crcShift = fun c : Byte => BitVec.ofNat 8 (2 * c.toNat) ^^^ (if 128 ≤ c.toNat then 0x07 else 0x00) :=
        funext crcShift_eq
      rw [← shift]
      rfl
    refine ⟨fun _ _ _ => rfl, fun bytes => ?_, fun tag reply => ?_⟩
    · unfold crc8
      rw [step]
      rfl
    · unfold replyFrame crc8
      rw [step]
      cases reply.code <;> rfl
  · exact ⟨_, _, rfl, le16_bytes small, u16_le16 small⟩
  · have same := u32_le32 small
    exact ⟨_, _, _, _, rfl, by rw [← u32_eq, same], same⟩
  · have same := u32_le32 (BitVec.ofInt 32 n).isLt
    refine ⟨_, _, _, _, rfl, ?_, i32_leInt32 lo hi same⟩
    rw [← ofInt_toNat lo hi]
    exact_mod_cast (u32_eq ..).symm.trans same

/-! ### Bad arguments (R143) -/

/-- Parameters that the port refuses for a row of H-4: a length outside the table, or an axis, a bank or a handle out of range. -/
def HostRow.Refuses (r : HostRow) (params : List Byte) : Prop :=
  params.length ∉ r.lengths ∨
    (r.axisFirst = true ∧ ∃ ax rest, params = ax :: rest ∧ 3 < ax.toNat) ∨
    (r.bankSecond = true ∧ ∃ ax b, params = [ax, b] ∧ 1 < b.toNat) ∨
    (r.handleFirst = true ∧ ∃ lo hi, params = [lo, hi] ∧ (u16 lo hi = 0 ∨ 1024 < u16 lo hi))

section Refuses
variable {r : HostRow} {params : List Byte}

/-- A row whose parameters the port does not look into refuses their length alone. -/
theorem HostRow.Refuses.size (bad : r.Refuses params) (axis : r.axisFirst = false) (bank : r.bankSecond = false)
    (handle : r.handleFirst = false) : params.length ∉ r.lengths := by
  unfold HostRow.Refuses at bad
  rw [axis, bank, handle] at bad
  rcases bad with size | ⟨no, _⟩ | ⟨no, _⟩ | ⟨no, _⟩
  exacts [size, (nomatch no), (nomatch no), (nomatch no)]

theorem HostRow.Refuses.axis {ax : Byte} {rest : List Byte} (bad : r.Refuses (ax :: rest))
    (size : (ax :: rest).length ∈ r.lengths) (bank : r.bankSecond = false) (handle : r.handleFirst = false) :
    3 < ax.toNat := by
  unfold HostRow.Refuses at bad
  rw [bank, handle] at bad
  rcases bad with wrong | ⟨_, _, _, same, out⟩ | ⟨no, _⟩ | ⟨no, _⟩
  · exact absurd size wrong
  · cases same; exact out
  exacts [(nomatch no), (nomatch no)]

theorem HostRow.Refuses.axisOrBank {ax b : Byte} (bad : r.Refuses [ax, b]) (size : 2 ∈ r.lengths)
    (handle : r.handleFirst = false) : 3 < ax.toNat ∨ 1 < b.toNat := by
  unfold HostRow.Refuses at bad
  rw [handle] at bad
  rcases bad with wrong | ⟨_, _, _, same, out⟩ | ⟨_, _, _, same, out⟩ | ⟨no, _⟩
  · exact absurd size wrong
  · cases same; exact .inl out
  · cases same; exact .inr out
  · exact (nomatch no)

theorem HostRow.Refuses.handle {lo hi : Byte} (bad : r.Refuses [lo, hi]) (size : 2 ∈ r.lengths)
    (axis : r.axisFirst = false) (bank : r.bankSecond = false) : u16 lo hi = 0 ∨ 1024 < u16 lo hi := by
  unfold HostRow.Refuses at bad
  rw [axis, bank] at bad
  rcases bad with wrong | ⟨no, _⟩ | ⟨no, _⟩ | ⟨_, _, _, same, out⟩
  · exact absurd size wrong
  · exact (nomatch no)
  · exact (nomatch no)
  · cases same; exact out

end Refuses

/-- A check of the axis, or of a bank behind it, that the parameters fail. -/
theorem withAxis_refuses {ax : Byte} {s : State} {serve : AxisId → Served}
    (bad : 3 < ax.toNat ∨ ∀ k, serve k = (s, badArg)) : withAxis ax s serve = (s, badArg) := by
  rcases bad with out | refuses
  · exact withAxis_none out s serve
  · unfold withAxis
    split
    · exact refuses _
    · rfl

theorem row_request {r : HostRow} (m : r ∈ hostRows) (tag : Byte) (params : List Byte) :
    requestOf (r.row tag params) = some (r.code, tag, params, crc8 (requestBytes r.code tag params)) := by
  simp only [hostRows, List.mem_append, List.mem_cons, List.not_mem_nil, or_false] at m
  rcases m with (rfl | rfl | rfl | rfl | rfl | rfl | rfl | rfl | rfl | rfl | rfl | rfl | rfl | rfl) |
    (rfl | rfl | rfl | rfl | rfl | rfl | rfl | rfl | rfl | rfl | rfl | rfl | rfl) <;> rfl

/-- The owner refuses the parameters, with no effect. -/
def Declines (o : Option (State → Served)) : Prop := ∃ serve, o = some serve ∧ ∀ s, serve s = (s, badArg)

theorem Declines.of {o : Option (State → Served)} (serve : State → Served) (owner : o = some serve)
    (refuses : ∀ s, serve s = (s, badArg)) : Declines o := ⟨serve, owner, refuses⟩

/-! Each owner on parameters that the port refuses. -/

section Owners
variable {row : Byte → List Byte → Instr} {params : List Byte}

theorem serveIdent_refuses (bad : (HostRow.mk 0x01 row [0] false false false).Refuses params) (s : State) :
    serveIdent params s = (s, badArg) := by
  unfold serveIdent
  split
  · exact absurd (.head _) (bad.size rfl rfl rfl)
  · rfl

theorem serveReadRecord_refuses (bad : (HostRow.mk 0x02 row [2] false false true).Refuses params) (s : State) :
    serveReadRecord params s = (s, badArg) := by
  unfold serveReadRecord
  split
  · exact withHandleParam_none (bad.handle (.head _) rfl rfl) s _
  · rfl

theorem serveReadAxis_refuses (bad : (HostRow.mk 0x03 row [1] true false false).Refuses params) (s : State) :
    serveReadAxis params s = (s, badArg) := by
  unfold serveReadAxis
  split
  · exact withAxis_none (bad.axis (.head _) rfl rfl) s _
  · rfl

theorem serveReadCapture_refuses (bad : (HostRow.mk 0x04 row [1] true false false).Refuses params) (s : State) :
    serveReadCapture params s = (s, badArg) := by
  unfold serveReadCapture
  split
  · exact withAxis_none (bad.axis (.head _) rfl rfl) s _
  · rfl

theorem serveReadLines_refuses (bad : (HostRow.mk 0x05 row [0] false false false).Refuses params) (s : State) :
    serveReadLines params s = (s, badArg) := by
  unfold serveReadLines
  split
  · exact absurd (.head _) (bad.size rfl rfl rfl)
  · rfl

theorem serveNextPending_refuses (bad : (HostRow.mk 0x06 row [0, 2] false false true).Refuses params) (s : State) :
    serveNextPending params s = (s, badArg) := by
  unfold serveNextPending
  split
  · unfold HostRow.Refuses at bad
    simp at bad
  · exact withHandleParam_none (bad.handle (.tail _ (.head _)) rfl rfl) s _
  · rfl

theorem serveAck_refuses (bad : (HostRow.mk 0x07 row [2] false false true).Refuses params) (s : State) :
    serveAck params s = (s, badArg) := by
  unfold serveAck
  split
  · exact withHandleParam_none (bad.handle (.head _) rfl rfl) s _
  · rfl

theorem serveAckAxis_refuses (bad : (HostRow.mk 0x08 row [2] true false false).Refuses params) (s : State) :
    serveAckAxis params s = (s, badArg) := by
  unfold serveAckAxis
  split
  · exact withAxis_none (bad.axis (.head _) rfl rfl) s _
  · rfl

theorem serveForceLine_refuses (bad : (HostRow.mk 0x09 row [2] false false false).Refuses params) (s : State) :
    serveForceLine params s = (s, badArg) := by
  unfold serveForceLine
  split
  · exact absurd (.head _) (bad.size rfl rfl rfl)
  · rfl

theorem serveReleaseLine_refuses (bad : (HostRow.mk 0x0A row [1] false false false).Refuses params) (s : State) :
    serveReleaseLine params s = (s, badArg) := by
  unfold serveReleaseLine
  split
  · exact absurd (.head _) (bad.size rfl rfl rfl)
  · rfl

theorem serveConfigureAxis_refuses (bad : (HostRow.mk 0x10 row [20] true false false).Refuses params) (s : State) :
    serveConfigureAxis params s = (s, badArg) := by
  unfold serveConfigureAxis
  split
  · next ax rest =>
    split
    · next size => exact withAxis_none (bad.axis (by rw [List.length_cons, size]; exact .head _) rfl rfl) s _
    · rfl
  · rfl

theorem serveStart_refuses (bad : (HostRow.mk 0x11 row [1] true false false).Refuses params) (s : State) :
    serveStart params s = (s, badArg) := by
  unfold serveStart
  split
  · exact withAxis_none (bad.axis (.head _) rfl rfl) s _
  · rfl

theorem serveStop_refuses (bad : (HostRow.mk 0x12 row [1] true false false).Refuses params) (s : State) :
    serveStop params s = (s, badArg) := by
  unfold serveStop
  split
  · exact withAxis_none (bad.axis (.head _) rfl rfl) s _
  · rfl

theorem serveSetPosition_refuses (bad : (HostRow.mk 0x13 row [5] true false false).Refuses params) (s : State) :
    serveSetPosition params s = (s, badArg) := by
  unfold serveSetPosition
  split
  · exact withAxis_none (bad.axis (.head _) rfl rfl) s _
  · rfl

theorem serveHome_refuses (bad : (HostRow.mk 0x14 row [1] true false false).Refuses params) (s : State) :
    serveHome params s = (s, badArg) := by
  unfold serveHome
  split
  · exact withAxis_none (bad.axis (.head _) rfl rfl) s _
  · rfl

theorem serveResync_refuses (bad : (HostRow.mk 0x15 row [1] true false false).Refuses params) (s : State) :
    serveResync params s = (s, badArg) := by
  unfold serveResync
  split
  · exact withAxis_none (bad.axis (.head _) rfl rfl) s _
  · rfl

theorem serveSetBank_refuses (bad : (HostRow.mk 0x16 row [2] true true false).Refuses params) (s : State) :
    serveSetBank params s = (s, badArg) := by
  unfold serveSetBank
  split
  · refine withAxis_refuses ((bad.axisOrBank (.head _) rfl).imp_right (fun out k => ?_))
    rw [bankOf_eq_none out]
  · rfl

theorem serveSetEnables_refuses (bad : (HostRow.mk 0x17 row [6] false false false).Refuses params) (s : State) :
    serveSetEnables params s = (s, badArg) := by
  unfold serveSetEnables
  split
  · exact absurd (.head _) (bad.size rfl rfl rfl)
  · rfl

theorem serveGetResult_refuses (bad : (HostRow.mk 0x18 row [0] false false false).Refuses params) (s : State) :
    serveGetResult params s = (s, badArg) := by
  unfold serveGetResult
  split
  · exact absurd (.head _) (bad.size rfl rfl rfl)
  · rfl

theorem serveReset_refuses (bad : (HostRow.mk 0x1F row [0] false false false).Refuses params) (s : State) :
    serveReset params s = (s, badArg) := by
  unfold serveReset
  split
  · exact absurd (.head _) (bad.size rfl rfl rfl)
  · rfl

theorem serveAllocate_refuses (tag : Byte) (bad : (HostRow.mk 0x20 row [0] false false false).Refuses params) (s : State) :
    serveAllocate tag params s = (s, badArg) := by
  unfold serveAllocate
  split
  · exact absurd (.head _) (bad.size rfl rfl rfl)
  · rfl

theorem serveStage_refuses (tag : Byte) (bad : (HostRow.mk 0x21 row [19] false false false).Refuses params) (s : State) :
    serveStage tag params s = (s, badArg) := by
  unfold serveStage
  split
  · next lo hi image =>
    rw [if_neg]
    exact fun size => bad.size rfl rfl rfl (by rw [List.length_cons, List.length_cons, size]; exact .head _)
  · rfl

theorem serveArm_refuses (tag : Byte) (bad : (HostRow.mk 0x22 row [2] false false false).Refuses params) (s : State) :
    serveArm tag params s = (s, badArg) := by
  unfold serveArm
  split
  · exact absurd (.head _) (bad.size rfl rfl rfl)
  · rfl

theorem serveDisarm_refuses (tag : Byte) (bad : (HostRow.mk 0x23 row [2] false false false).Refuses params) (s : State) :
    serveDisarm tag params s = (s, badArg) := by
  unfold serveDisarm
  split
  · exact absurd (.head _) (bad.size rfl rfl rfl)
  · rfl

theorem serveMove_refuses (tag : Byte) (bad : (HostRow.mk 0x24 row [6] false false false).Refuses params) (s : State) :
    serveMove tag params s = (s, badArg) := by
  unfold serveMove
  split
  · exact absurd (.head _) (bad.size rfl rfl rfl)
  · rfl

theorem serveRelease_refuses (tag : Byte) (bad : (HostRow.mk 0x25 row [2] false false false).Refuses params) (s : State) :
    serveRelease tag params s = (s, badArg) := by
  unfold serveRelease
  split
  · exact absurd (.head _) (bad.size rfl rfl rfl)
  · rfl

theorem serveRetireBank_refuses (tag : Byte) (bad : (HostRow.mk 0x26 row [2] true true false).Refuses params) (s : State) :
    serveRetireBank tag params s = (s, badArg) := by
  unfold serveRetireBank
  split
  · refine withAxis_refuses ((bad.axisOrBank (.head _) rfl).imp_right (fun out k => ?_))
    rw [bankOf_eq_none out]
  · rfl

end Owners

theorem row_declines {r : HostRow} (m : r ∈ hostRows) (tag : Byte) {params : List Byte} (bad : r.Refuses params) :
    Declines (ownerOf r.code tag params) := by
  simp only [hostRows, List.mem_append, List.mem_cons, List.not_mem_nil, or_false] at m
  rcases m with (rfl | rfl | rfl | rfl | rfl | rfl | rfl | rfl | rfl | rfl | rfl | rfl | rfl | rfl) |
    (rfl | rfl | rfl | rfl | rfl | rfl | rfl | rfl | rfl | rfl | rfl | rfl | rfl)
  · exact .of _ rfl (serveIdent_refuses bad)
  · exact .of _ rfl (serveReadRecord_refuses bad)
  · exact .of _ rfl (serveReadAxis_refuses bad)
  · exact .of _ rfl (serveReadCapture_refuses bad)
  · exact .of _ rfl (serveReadLines_refuses bad)
  · exact .of _ rfl (serveNextPending_refuses bad)
  · exact .of _ rfl (serveAck_refuses bad)
  · exact .of _ rfl (serveAckAxis_refuses bad)
  · exact .of _ rfl (serveForceLine_refuses bad)
  · exact .of _ rfl (serveReleaseLine_refuses bad)
  · exact .of _ rfl (serveConfigureAxis_refuses bad)
  · exact .of _ rfl (serveStart_refuses bad)
  · exact .of _ rfl (serveStop_refuses bad)
  · exact .of _ rfl (serveSetPosition_refuses bad)
  · exact .of _ rfl (serveHome_refuses bad)
  · exact .of _ rfl (serveResync_refuses bad)
  · exact .of _ rfl (serveSetBank_refuses bad)
  · exact .of _ rfl (serveSetEnables_refuses bad)
  · exact .of _ rfl (serveGetResult_refuses bad)
  · exact .of _ rfl (serveReset_refuses bad)
  · exact .of _ rfl (serveAllocate_refuses tag bad)
  · exact .of _ rfl (serveStage_refuses tag bad)
  · exact .of _ rfl (serveArm_refuses tag bad)
  · exact .of _ rfl (serveDisarm_refuses tag bad)
  · exact .of _ rfl (serveMove_refuses tag bad)
  · exact .of _ rfl (serveRelease_refuses tag bad)
  · exact .of _ rfl (serveRetireBank_refuses tag bad)

/-- Settles O5: whatever the row, a good CRC hands the request to its owner, and the owner declines it. -/
theorem portRefusesBadArguments : Obligations.PortRefusesBadArguments := by
  intro s r m tag params ready few bad
  obtain ⟨serve, owner, refuses⟩ := row_declines m tag bad
  refine answers_of ?_
  rw [exec_request (row_request m tag params), hostRequest_of_ready _ ready few]
  unfold closeRequest takeRequest
  rw [if_pos rfl, owner]
  exact congrArg (fun x => Host.Outcome.next (State.served tag x)) (refuses _)

end Sys2Proof.Machine
end

section
/-! PROOFS. Rows whose event cannot happen (O2), and the reads of the port (O10, O14 to O17, O19). -/

namespace Sys2Proof.Machine

/-! ### Rows without their event (Log 1, Log 2) -/

section Idle
variable {s : State}

theorem hostRequest_idle {code tag crc : Byte} {params : List Byte} {i : Instr}
    (row : requestOf i = some (code, tag, params, crc)) (out : ¬ Ready s code tag params) : exec i s = .next s := by
  rw [exec_request row, hostRequest_of_not_ready crc out]

theorem badLength_idle {code tag length : Byte}
    (out : ¬ (s.port.phase = .receiving ∧ s.port.received <+: [code, tag, length])) :
    exec (.badLength code tag length) s = .next s := by
  refine congrArg Host.Outcome.next (if_neg fun c => out ?_)
  unfold Port.canComplete at c
  rw [Bool.and_eq_true, List.isPrefixOf_iff_prefix] at c
  exact ⟨of_decide_eq_true c.1, c.2⟩

theorem grant_idle (out : s.engine.occupant ≠ .none ∨ s.engine.claim = none) : s.grant = s := by
  rcases grant_cases s with e | ⟨request, free, turn, _⟩ | ⟨request, rest, free, turn, _⟩
  · exact e
  all_goals
    rcases out with busy | undecided
    · exact absurd free busy
    · rw [undecided] at turn; cases turn

theorem linkEvent_idle (arm : ∀ h k place, s.engine.occupant ≠ .mailbox (.arm h k place))
    (relink : ∀ h k place, s.engine.occupant ≠ .mailbox (.moveRelink h k place))
    (link : ∀ r k place, s.engine.occupant ≠ .link r k place) : s.linkEvent = s := by
  unfold State.linkEvent
  split
  · next work => exact absurd work (arm _ _ _)
  · next work => exact absurd work (relink _ _ _)
  · next work => exact absurd work (link _ _ _)
  · rfl

theorem unlinkEvent_idle (disarm : ∀ h k, s.engine.occupant ≠ .mailbox (.disarm h k))
    (move : ∀ h k p, s.engine.occupant ≠ .mailbox (.moveUnlink h k p))
    (retire : ∀ k bank place count h, s.engine.occupant ≠ .mailbox (.retire k bank place count (some h))) :
    s.unlinkEvent = s := by
  unfold State.unlinkEvent
  split
  · next work => exact absurd work (disarm _ _)
  · next work => exact absurd work (move _ _ _)
  · next work => exact absurd work (retire _ _ _ _ _)
  · rfl

theorem retireCheck_idle (out : ∀ k bank place count, s.engine.occupant ≠ .mailbox (.retire k bank place count none)) :
    s.retireCheck = s := by
  unfold State.retireCheck
  split
  · next work => exact absurd work (out _ _ _ _)
  · rfl

theorem retireEnd_idle (out : ∀ k bank place count, s.engine.occupant ≠ .mailbox (.retire k bank place count none)) :
    s.retireEnd = s := by
  unfold State.retireEnd
  split
  · next work => exact absurd work (out _ _ _ _)
  · rfl

theorem placeStalled_idle (out : s.engine.stalled = [] ∨ 8 ≤ s.engine.queue.length) : s.placeStalled = s := by
  unfold State.placeStalled
  split
  · rfl
  · next k rest stalled =>
    split
    · rfl
    · rcases out with none | full
      · rw [none] at stalled; cases stalled
      · exact if_neg (Nat.not_lt.mpr full)

theorem placeStalled_unheld {k : AxisId} {rest : List AxisId} (stalled : s.engine.stalled = k :: rest)
    (unheld : (s.ax k).eval.held = none) : s.placeStalled = s := by
  unfold State.placeStalled
  rw [stalled]
  dsimp only
  rw [unheld]

/-- An axis' update that changes nothing. -/
theorem updAx_idle {k : AxisId} {f : Axis → Axis} (same : f (s.ax k) = s.ax k) : s.updAx k f = s := by
  rw [State.updAx_eq, same, State.setAx_self]

theorem stepDir_none {a : Axis} (level : a.lag = 0) : a.stepDir = none := by
  unfold Axis.stepDir
  rw [level]
  rfl

theorem stepStart_idle {a : Axis} (pos : Handle → Int)
    (out : a.eval.state ≠ .tracking ∨ a.eval.step ≠ none ∨ a.lag = 0) : Axis.stepStart pos a = a := by
  unfold Axis.stepStart
  split
  · next tracking idle dir =>
    rcases out with off | busy | level
    · exact absurd tracking off
    · exact absurd idle busy
    · rw [stepDir_none level] at dir; cases dir
  · rfl

theorem examine_idle {k : AxisId} (out : (s.ax k).eval.state ≠ .tracking ∨ (s.ax k).eval.step = none ∨
    (∃ st, (s.ax k).eval.step = some st ∧ st.run = [])) : s.examine k = s := by
  unfold State.examine
  dsimp only
  split
  · next st tracking step =>
    split
    · rfl
    · next run =>
      rcases out with off | idle | ⟨st', same, done⟩
      · exact absurd tracking off
      · rw [idle] at step; cases step
      · cases step.symm.trans same
        rw [done] at run; cases run
  · rfl

theorem seekComplete_idle {a : Axis} (pos : Handle → Int) (out : a.eval.state ≠ .seeking) : Axis.seekComplete pos a = a := by
  unfold Axis.seekComplete
  split
  · next seeking => exact absurd seeking out
  · rfl

/-- A timer that is IDLE, has more than 1 µs to go, or has taken this tick ahead does not run out (Log 6). -/
theorem ahead_idle {timer : Option Nat} {ahead : Bool} (out : timer = none ∨ (∃ n, timer = some (n + 2)) ∨ ahead = true) :
    (!ahead && reachesZero timer) = false := by
  rcases out with rfl | ⟨n, rfl⟩ | rfl
  · exact Bool.and_false _
  · rw [Bool.and_eq_false_iff]
    exact .inr (show decide (n + 2 ≤ 1) = false from decide_eq_false (by omega))
  · rfl

theorem rateExpire_idle {a : Axis} (out : a.front.rateTimer = none ∨ (∃ n, a.front.rateTimer = some (n + 2)) ∨
    a.front.rateAhead = true) : a.rateExpire = a := by
  unfold Axis.rateExpire
  rw [ahead_idle out]
  rfl

theorem takeExpiry_idle {l : Line} (out : l.timer = none ∨ (∃ n, l.timer = some (n + 2)) ∨ l.ahead = true) :
    l.takeExpiry = l := by
  unfold Line.takeExpiry
  rw [ahead_idle out]
  rfl

theorem handOnPair_idle (a : Axis) : Axis.handOnPair a.front.inputA a.front.inputB a = a :=
  Axis.handOnPair_same a a.front.inputA a.front.inputB rfl rfl

theorem handOnIndex_idle (k : AxisId) : s.handOnIndex k (s.ax k).front.inputI = s := by
  rw [handOnIndex_same s k _ rfl]
  exact State.setAx_self s k

theorem timeout_idle {f : InputFilter} (out : f.timing = none) : f.timeout = f := by
  unfold InputFilter.timeout
  rw [out]
  rfl

theorem change_idle (f : InputFilter) (w : FilterWidth) : f.change w f.pin = f := if_pos rfl

end Idle

/-- A pin at the level that it has (Log 1): in reset its level is stored again, and outside reset its filter sees no change. -/
theorem axisInputChange_idle (s : State) (k : AxisId) (change : InputChange)
    (stored : (s.ax k).front.pinChange change = (s.ax k).front) (filtered : s.inputChange k change = s) :
    exec (.axisInputChange k change) s = .next s := by
  refine congrArg Host.Outcome.next ?_
  show (if s.inReset then s.updAx k (fun a => { a with front := a.front.pinChange change }) else s.inputChange k change) = s
  split
  · refine updAx_idle ?_
    rw [stored]
  · exact filtered

theorem pinChange_idle (s : State) (k : AxisId) :
    exec (.axisInputChange k (.a (s.ax k).front.inputA.pin)) s = .next s ∧
      exec (.axisInputChange k (.b (s.ax k).front.inputB.pin)) s = .next s ∧
      exec (.axisInputChange k (.ab (s.ax k).front.inputA.pin (s.ax k).front.inputB.pin)) s = .next s ∧
      exec (.axisInputChange k (.index (s.ax k).front.inputI.pin)) s = .next s := by
  refine ⟨axisInputChange_idle s k _ rfl ?_, axisInputChange_idle s k _ rfl ?_, axisInputChange_idle s k _ rfl ?_,
    axisInputChange_idle s k _ rfl ?_⟩ <;> unfold State.inputChange <;> dsimp only <;> simp only [change_idle]
  · exact updAx_idle (handOnPair_idle _)
  · exact updAx_idle (handOnPair_idle _)
  · exact updAx_idle (handOnPair_idle _)
  · exact handOnIndex_idle k

theorem filterTimeout_idle (s : State) (k : AxisId) :
    ((s.ax k).front.inputA.timing = none → exec (.filterTimeout k .a) s = .next s) ∧
      ((s.ax k).front.inputB.timing = none → exec (.filterTimeout k .b) s = .next s) ∧
      ((s.ax k).front.inputA.timing = none → (s.ax k).front.inputB.timing = none →
        exec (.filterTimeout k .ab) s = .next s) ∧
      ((s.ax k).front.inputI.timing = none → exec (.filterTimeout k .index) s = .next s) := by
  have row {input : FilterInput} (e : s.filterExpires k input = s) : exec (.filterTimeout k input) s = .next s :=
    congrArg Host.Outcome.next e
  refine ⟨fun a => row ?_, fun b => row ?_, fun a b => row ?_, fun i => row ?_⟩ <;> unfold State.filterExpires <;> dsimp only
  · rw [timeout_idle a]
    exact updAx_idle (handOnPair_idle _)
  · rw [timeout_idle b]
    exact updAx_idle (handOnPair_idle _)
  · rw [timeout_idle a, timeout_idle b]
    exact updAx_idle (handOnPair_idle _)
  · rw [timeout_idle i]
    exact handOnIndex_idle k

theorem qualifier_idle (s : State) (q : QualId) : exec (.qualifierInputChange q (s.qualifiers.get q)) s = .next s := by
  have same : s.qualifiers.set q.val (s.qualifiers.get q) q.isLt = s.qualifiers := Vector.set_getElem_self q.isLt
  show Host.Outcome.next { s with qualifiers := s.qualifiers.set q.val (s.qualifiers.get q) q.isLt } = _
  rw [same]

theorem resetComplete_idle {s : State} (done : s.port.resetting = false) : exec .resetComplete s = .next s := by
  show Host.Outcome.next { s with port := { s.port with resetting := false } } = _
  rw [← done]

/-- Settles O2: each row looks for its event first, and without it answers the state that it was given. -/
theorem rowsWithoutTheirEventChangeNothing : Obligations.RowsWithoutTheirEventChangeNothing := by
  intro s
  have row {t u : State} (e : t = u) : (Host.Outcome.next t : Host.Outcome State Fault Refusal) = .next u := congrArg _ e
  refine ⟨fun i code tag params crc named out => hostRequest_idle named out, fun code tag length out => badLength_idle out,
    fun low => row (if_pos low), fun high => row (if_pos high), fun out => row (grant_idle out),
    fun arm relink link => row (linkEvent_idle arm relink link),
    fun disarm move retire => row (unlinkEvent_idle disarm move retire),
    fun out => ⟨row (retireCheck_idle out), row (retireEnd_idle out)⟩, fun out => row (placeStalled_idle out),
    fun k rest stalled unheld => row (placeStalled_unheld stalled unheld),
    fun k out => row (updAx_idle (stepStart_idle s.posOf out)), fun k out => row (examine_idle out),
    fun k out => row (updAx_idle (seekComplete_idle s.posOf out)), fun k out => row (updAx_idle (rateExpire_idle out)),
    fun l out => row ?_, filterTimeout_idle s, pinChange_idle s, qualifier_idle s, resetComplete_idle,
    fun high => row (if_neg ?_), fun out => row (if_neg out), fun out => row (if_neg out)⟩
  · rw [takeExpiry_idle out]
    exact State.setLine_self s l
  · rw [high]
    nofun

end Sys2Proof.Machine
end

section
/-! PROOFS. The reads and acknowledgements of the port (O10, O14 to O17, O19). -/

namespace Sys2Proof.Machine

/-- A request that has come whole is answered as its owner serves the state that has heard it. -/
theorem answers_served {i : Instr} {s t : State} {code tag : Byte} {params : List Byte} {serve : State → Served}
    {reply : Reply} (row : requestOf i = some (code, tag, params, crc8 (requestBytes code tag params)))
    (owner : ownerOf code tag params = some serve) (r : Ready s code tag params) (few : params.length ≤ 32)
    (e : serve (s.heard code tag params) = (t, reply)) : Answers i s t tag reply := by
  refine answers_of ?_
  rw [exec_request row, ← hostCommand_eq_hostRequest owner, hostCommand_of_ready serve r few, e]
  rfl

/-! ### READ RECORD and READ AXIS -/

theorem recordImage_parts (r : Record) : recordImage r =
    byte1 (recordStateCode r.state) ++ (byte1 (r.axis.val + 4 * r.bank.val + 8 * directionCode r.direction +
        32 * keepCode r.keep + 64 * boolCode r.notify) ++ leInt32 r.position) ++
      (byte1 (actionByte r.action) ++ le16 (actionWidth r.action)) ++ le16 r.budget ++
      (byte1 (qualifierByte r) ++ le16 (followTarget r.followOn)) ++ leTurn (r.turnQualifier.getD 0) ++
      (byte1 (dynamicByte r) ++ byte1 r.outstanding) ++
      (match r.lastFire with
        | some f => leInt32 f.position ++ leTurn f.turn
        | none => [0, 0, 0, 0, 0, 0]) := by
  simp only [recordImage, List.append_assoc] <;> rfl

theorem axisData_parts (a : Axis) : axisData a =
    (byte1 (frontCode a.front.state) ++ byte1 (kindCode a.config.kind)) ++ le32 a.config.span ++
      (byte1 (sourceCode a.config.source) ++ (byte1 (boolCode a.config.strict) ++ byte1 (filterCode a.config.filter))) ++
      le16 a.config.band ++ le16 a.config.ratePeriod ++
      (byte1 (dirCode a.config.rateDirection) ++ (byte1 (edgeCode a.config.indexEdge) ++
        (byte1 (modeCode a.config.indexMode) ++ byte1 (boolCode a.front.homeRequest)))) ++
      leInt32 a.config.indexPreset ++ leInt32 a.front.c ++ leTurn a.front.liveTurn ++ slotData a.front.slot ++
      (byte1 (evalCode a.eval.state) ++ leInt32 a.eval.e) ++ leTurn a.eval.evalTurn ++ leInt32 (clipLag a.lag) ++
      (byte1 a.eval.bank.val ++ byte1 a.eval.guard.length) ++ le16 (heldNumber a.eval) ++
      (byte1 (boolCode a.eval.settle) ++ le16 a.list.length) ++ le16 (a.cursor.getD 0xFFFF) ++ [a.flags, a.mask] := by
  unfold axisData configData
  simp only [List.append_assoc]

theorem clipLag_eq (n : Int) :
    clipLag n = if n < -2147483648 then -2147483648 else if 2147483647 < n then 2147483647 else n := by
  have lo : Config.positionMin = -2147483648 := rfl
  have hi : Config.positionMax = 2147483647 := rfl
  unfold clipLag
  rw [lo, hi]
  split_ifs <;> omega

theorem serveReadRecord_handle {lo hi : Byte} {h : Handle} (named : u16 lo hi = handleNumber h) (s : State) :
    serveReadRecord [lo, hi] s = (s, okWith (recordImage (s.recordAt h))) :=
  withHandleParam_some named s _

theorem serveReadAxis_axis {ax : Byte} {k : AxisId} (named : ax.toNat = k.val) (s : State) :
    serveReadAxis [ax] s = (s, okWith (axisData (s.ax k))) := withAxis_some named s _

/-- Settles O10: the bytes are the model's, regrouped as H-3 and R150 list them, and compared field by field. -/
theorem readRecordAndReadAxis : Obligations.ReadRecordAndReadAxis := by
  refine ⟨fun s tag lo hi h named ready => ?_, fun s tag ax k named ready => ?_⟩
  · intro r flag image
    have same : recordImage r = image := by
      rw [recordImage_parts]
      refine congrArg₂ (· ++ ·) (congrArg₂ (· ++ ·) (congrArg₂ (· ++ ·) (congrArg₂ (· ++ ·) (congrArg₂ (· ++ ·)
        (congrArg₂ (· ++ ·) (congrArg₂ List.cons ?_ (congrArg₂ List.cons ?_ rfl)) ?_) rfl)
        (congrArg₂ List.cons ?_ ?_)) ?_) (congrArg₂ List.cons ?_ rfl)) ?_
      · cases r.state <;> rfl
      · cases r.direction <;> cases r.keep <;> cases r.notify <;> rfl
      · cases r.action <;> simp [byte1, le16, actionByte, actionWidth]
      · refine congrArg (BitVec.ofNat 8) (congrArg₂ (· + ·) (congrArg₂ (· + ·) ?_ rfl) ?_)
        · cases r.followOn <;> rfl
        · rcases r.gate with _ | ⟨input, level⟩
          · rfl
          · cases level <;> rfl
      · cases r.followOn <;> rfl
      · cases r.turnQualifier <;> rfl
      · refine congrArg (BitVec.ofNat 8) (congrArg₂ (· + ·) rfl ?_)
        rcases r.lastFire with _ | ⟨position, turn, direction⟩
        · rfl
        · cases direction <;> rfl
      · cases r.lastFire <;> rfl
    have length : image.length = 24 := by rw [← same]; exact recordImage_length r
    refine ⟨?_, length, fun cleared => ?_⟩
    · rw [← same]
      exact answers_served rfl rfl ready (by simp) (serveReadRecord_handle named _)
    · rw [← same, cleared]
      decide
  · intro a flag bytes
    have same : axisData a = bytes := by
      rw [axisData_parts]
      refine congrArg₂ (· ++ ·) (congrArg₂ (· ++ ·) (congrArg₂ (· ++ ·) (congrArg₂ (· ++ ·) (congrArg₂ (· ++ ·)
        (congrArg₂ (· ++ ·) (congrArg₂ (· ++ ·) (congrArg₂ (· ++ ·) (congrArg₂ (· ++ ·) (congrArg₂ (· ++ ·)
        (congrArg₂ (· ++ ·) (congrArg₂ (· ++ ·) (congrArg₂ (· ++ ·) (congrArg₂ (· ++ ·) (congrArg₂ (· ++ ·)
        (congrArg₂ (· ++ ·) (congrArg₂ (· ++ ·) ?_ rfl) ?_) rfl) rfl) ?_) rfl) rfl) rfl) ?_) ?_) rfl) ?_) rfl) ?_) ?_) ?_) rfl
      · cases a.front.state <;> cases a.config.kind <;> rfl
      · cases a.config.source <;> cases a.config.strict <;> cases a.config.filter <;> rfl
      · cases a.config.rateDirection <;> cases a.config.indexEdge <;> cases a.config.indexMode <;>
          cases a.front.homeRequest <;> rfl
      · cases a.front.slot <;> rfl
      · cases a.eval.state <;> rfl
      · rw [clipLag_eq]
      · unfold heldNumber
        cases a.eval.held <;> rfl
      · cases a.eval.settle <;> rfl
      · cases a.cursor <;> rfl
    refine ⟨?_, by rw [← same]; exact axisData_length a⟩
    rw [← same]
    exact answers_served rfl rfl ready (by simp) (serveReadAxis_axis named _)

/-! ### READ CAPTURE -/

theorem serveReadCapture_empty {s : State} {ax : Byte} {k : AxisId} (named : ax.toNat = k.val)
    (empty : (s.ax k).front.slot = .empty) : serveReadCapture [ax] s = (s, bare .empty) := by
  refine (withAxis_some named s _).trans ?_
  rw [empty]

theorem serveReadCapture_full {s : State} {ax : Byte} {k : AxisId} (named : ax.toNat = k.val)
    (full : (s.ax k).front.slot ≠ .empty) : serveReadCapture [ax] s =
      (s.updAx k (fun a => { a with front := { a.front with slot := .empty } }), okWith (slotData (s.ax k).front.slot)) := by
  refine (withAxis_some named s _).trans ?_
  split
  · next empty => exact absurd empty full
  · rfl

/-- Settles O14: the slot as it stands is the reply, and a full one is emptied in the same event. -/
theorem readCapture : Obligations.ReadCapture := by
  intro s tag ax k named ready emptied
  have full {slot : CaptureSlot} (stands : (s.ax k).front.slot = slot) (some : slot ≠ .empty) {data : List Byte}
      (shown : slotData slot = data) : Answers (.readCapture tag [ax]) s emptied tag { code := .ok, data := data } := by
    refine answers_served rfl rfl ready (by simp)
      ((serveReadCapture_full (s := s.heard 0x04 tag [ax]) named (stands ▸ some)).trans ?_)
    rw [← shown, ← stands]
    rfl
  exact ⟨fun empty => answers_served rfl rfl ready (by simp) (serveReadCapture_empty named empty),
    fun c turn stands => full stands nofun rfl, fun v stands => full stands nofun rfl⟩

/-! ### READ LINES and the Q pins -/

theorem lineData_eq (l : Line) : lineData l =
    BitVec.ofNat 8 ((match l.mode with
      | .released => 4 * levelCode l.shadow + 8 * levelCode l.shadow
      | .forced level => 1 + 2 * levelCode level + 4 * levelCode l.shadow + 8 * levelCode level) +
      16 * boolCode l.timer.isSome) :: le16 (l.timer.getD 0) := by
  unfold lineData lineStatus Line.pin
  cases l.mode <;> simp [byte1]

theorem levelCode_eq (l : Level) : levelCode l = if l = .high then 1 else 0 := by cases l <;> rfl

theorem lines_flatMap (s : State) : s.lines.toList.flatMap lineData =
    lineData (s.line 0) ++ lineData (s.line 1) ++ lineData (s.line 2) ++ lineData (s.line 3) ++ lineData (s.line 4) ++
      lineData (s.line 5) ++ lineData (s.line 6) ++ lineData (s.line 7) := by
  rw [toList_eq_map]
  simp [State.line, List.finRange_succ]

/-- Settles O15: the bytes of the eight lines in turn, and the Q levels as they stand. -/
theorem readLinesAndQualifierInputs : Obligations.ReadLinesAndQualifierInputs := by
  refine fun s => ⟨fun tag ready => ?_, fun q level => ⟨_, rfl, ?_, fun p other => ?_, rfl⟩⟩
  · intro high line
    have code (l : Level) : levelCode l = high l := levelCode_eq l
    have each (l : Line) : lineData l = line l := by
      rw [lineData_eq]
      refine congrArg₂ List.cons (congrArg (BitVec.ofNat 8) (congrArg₂ (· + ·) ?_ ?_)) ?_
      · simp only [code] <;> cases l.mode <;> rfl
      · cases l.timer <;> rfl
      · cases l.timer <;> rfl
    refine answers_served (serve := serveReadLines []) rfl rfl ready (by simp) ?_
    show (_, okWith (s.lines.toList.flatMap lineData ++ byte1 (qualifierBits s.qualifiers))) = _
    rw [lines_flatMap]
    simp only [each]
    unfold qualifierBits
    simp only [code]
    rfl
  · exact Vector.getElem_set_self q.isLt
  · exact Vector.getElem_set_ne q.isLt p.isLt (fun same => other (Fin.ext same.symm))

/-! ### NEXT PENDING -/

/-- The start handle of NEXT PENDING: the one that it names, or handle 1 (R129). -/
theorem serveNextPending_start {params : List Byte} {start : Nat}
    (named : (params = [] ∧ start = 1) ∨
      (∃ lo hi, params = [lo, hi] ∧ u16 lo hi = start ∧ 1 ≤ start ∧ start ≤ 1024)) :
    ∃ g : Handle, g.val + 1 = start ∧ ∀ s, serveNextPending params s = (s, s.nextPendingReply g) := by
  rcases named with ⟨rfl, rfl⟩ | ⟨lo, hi, rfl, number, least, most⟩
  · exact ⟨0, rfl, fun s => rfl⟩
  · have same : (start - 1) + 1 = start := Nat.sub_add_cancel least
    refine ⟨⟨start - 1, by omega⟩, same, fun s => ?_⟩
    refine withHandleParam_some ?_ s _
    rw [number]
    exact same.symm

theorem nextPendingReply_some {s : State} {start h : Handle} (found : s.lowestPending start = some h) :
    s.nextPendingReply start = okWith (pendingData h (s.recordAt h) ++ s.attentionSummary) := by
  unfold State.nextPendingReply
  rw [found]

theorem nextPendingReply_none {s : State} {start : Handle} (none : s.lowestPending start = none) :
    s.nextPendingReply start = { code := .empty, data := s.attentionSummary } := by
  unfold State.nextPendingReply
  rw [none]

theorem pendingData_parts (h : Handle) (r : Record) : pendingData h r =
    le16 (handleNumber h) ++ (byte1 (recordStateCode r.state) ++ (byte1 r.axis.val ++ (byte1 r.unacked ++
      byte1 (boolCode r.linkFault)))) ++
    (byte1 (boolCode r.lastFire.isSome) ++
      match r.lastFire with
      | some f => leInt32 f.position ++ leTurn f.turn ++ byte1 (dirCode f.direction)
      | none => [0, 0, 0, 0, 0, 0, 0]) := by
  unfold pendingData
  simp only [List.append_assoc] <;> rfl

theorem boolCode_attention (a : Axis) : boolCode a.attention = if a.flags &&& a.mask = 0 then 0 else 1 := by
  unfold Axis.attention boolCode
  by_cases none : a.flags &&& a.mask = 0 <;> simp [none]

/-- Settles O16: under the law of the pending set, the first member at or above the start is the lowest pending record there. -/
theorem nextPending : Obligations.NextPending := by
  intro s tag params start law ready named attention summary shown
  obtain ⟨g, number, serves⟩ := serveNextPending_start named
  have few : params.length ≤ 32 := by
    rcases named with ⟨rfl, -⟩ | ⟨lo, hi, rfl, -⟩ <;> simp
  have summarised : s.attentionSummary = summary := by
    have axes : s.attentionAxes = attention 0 + 2 * attention 1 + 4 * attention 2 + 8 * attention 3 := by
      unfold State.attentionAxes
      simp only [boolCode_attention]
      rfl
    unfold State.attentionSummary
    rw [axes]
    simp only [List.append_assoc]
    refine congrArg₂ (· ++ ·) rfl (congrArg₂ List.cons ?_ (congrArg₂ List.cons ?_ (congrArg₂ List.cons ?_ rfl)))
    · cases s.pendingEnable <;> rfl
    · cases s.doneEnable <;> rfl
    · cases s.engine.mailbox <;> rfl
  have record (h : Handle) (r : Record) : pendingData h r = shown h r := by
    rw [pendingData_parts]
    refine congrArg₂ (· ++ ·) (congrArg₂ (· ++ ·) rfl (congrArg₂ List.cons ?_ (congrArg₂ List.cons rfl
      (congrArg₂ List.cons rfl (congrArg₂ List.cons ?_ rfl))))) ?_
    · cases r.state <;> rfl
    · cases r.linkFault <;> rfl
    · rcases r.lastFire with _ | ⟨position, turn, direction⟩
      · rfl
      · cases direction <;> rfl
  have below (h : Handle) : start ≤ h.val + 1 ↔ g ≤ h := by
    rw [← number, Fin.le_def]
    omega
  refine ⟨fun h pending above lowest => ?_, fun none => ?_⟩
  · have found : s.lowestPending g = some h :=
      find_lowest law.ordered g h ((law.member h).mpr pending) ((below h).mp above)
        (fun x m low => lowest x ((law.member x).mp m) ((below x).mpr low))
    refine answers_served rfl rfl ready few ((serves _).trans (congrArg (Prod.mk _) ?_))
    rw [← record, ← summarised]
    exact nextPendingReply_some (s := s.heard 0x06 tag params) found
  · have found : s.lowestPending g = Option.none := by
      refine List.find?_eq_none.mpr (fun x m low => ?_)
      have above := (below x).mpr (of_decide_eq_true low)
      exact absurd (none x ((law.member x).mp m)) (Nat.not_lt.mpr above)
    refine answers_served rfl rfl ready few ((serves _).trans (congrArg (Prod.mk _) ?_))
    rw [← summarised]
    exact nextPendingReply_none (s := s.heard 0x06 tag params) found

/-! ### ACK -/

theorem flag_byte (b : Bool) : BitVec.ofNat 8 (boolCode b) = if b then 1 else 0 := by cases b <;> rfl

theorem serveAck_handle {lo hi : Byte} {h : Handle} (named : u16 lo hi = handleNumber h) (s : State) :
    serveAck [lo, hi] s = if s.pendingSet.contains h
      then (s.acknowledge h, okWith (byte1 (s.recordAt h).unacked ++ byte1 (boolCode (s.recordAt h).linkFault)))
      else (s, bare .notPending) := withHandleParam_some named s _

/-- With its count and its link fault cleared, a record is freed unless it is not SPENT, to be kept, or still linked (R18). -/
theorem acked_autoReleases (r : Record) : ({ r with unacked := 0, linkFault := false } : Record).autoReleases = true ↔
    r.state = .spent ∧ r.keep = .auto ∧ r.outstanding = 0 := by
  rw [autoReleases_iff]
  exact ⟨fun ⟨spent, auto, _, out⟩ => ⟨spent, auto, out⟩, fun ⟨spent, auto, out⟩ => ⟨spent, auto, rfl, out⟩⟩

theorem acknowledge_eq (s : State) (h : Handle) : s.acknowledge h =
    if (s.recordAt h).state = .spent ∧ (s.recordAt h).keep = .auto ∧ (s.recordAt h).outstanding = 0
      then (s.putRecord h { s.recordAt h with unacked := 0, linkFault := false }).freeRecord h
      else s.putRecord h { s.recordAt h with unacked := 0, linkFault := false } := by
  unfold State.acknowledge State.autoRelease
  rw [State.putRecord_recordAt_same]
  exact if_congr (acked_autoReleases _) rfl rfl

/-- Settles O17: the pending set says whether the record is acknowledged, and the conditions of auto-release whether it is freed. -/
theorem ackOfARecord : Obligations.AckOfARecord := by
  intro s tag lo hi h law named ready r acked reply
  have member : s.pendingSet.contains h = r.isPending := by
    rw [Bool.eq_iff_iff, List.contains_iff_mem]
    exact law.member h
  have acks {t : State} (pending : r.isPending = true) (freed : (s.heard 0x07 tag [lo, hi]).acknowledge h = t) :
      Answers (.ack tag [lo, hi]) s t tag reply := by
    refine answers_served rfl rfl ready (by simp)
      (((serveAck_handle named (s.heard 0x07 tag [lo, hi])).trans (if_pos (member.trans pending))).trans ?_)
    rw [freed]
    refine congrArg (Prod.mk t) (congrArg (Reply.mk .ok) (congrArg₂ List.cons rfl (congrArg₂ List.cons ?_ rfl)))
    exact flag_byte r.linkFault
  refine ⟨fun clear => ?_, fun pending spent auto out => acks pending ?_, fun pending kept => acks pending ?_⟩
  · refine answers_served rfl rfl ready (by simp) ((serveAck_handle named _).trans (if_neg ?_))
    show ¬ s.pendingSet.contains h = true
    rw [member, clear]
    nofun
  · rw [acknowledge_eq]
    exact if_pos ⟨spent, auto, out⟩
  · rw [acknowledge_eq]
    refine if_neg (fun ⟨spent, auto, out⟩ => ?_)
    rcases kept with other | keep | linked
    · exact other spent
    · exact Keep.noConfusion (auto.symm.trans keep)
    · exact absurd out (Nat.ne_of_gt linked)

/-! ### SET ENABLES and nATTN -/

theorem nattn_low (s : State) :
    s.nattn = .low ↔ s.pendingSource = true ∨ s.axisSource = true ∨ s.doneSource = true := by
  unfold State.nattn
  rw [← or_assoc, ← Bool.or_eq_true, ← Bool.or_eq_true]
  split
  · next holds => exact iff_of_true rfl holds
  · next none => exact iff_of_false nofun none

theorem mailboxDone_iff (m : Mailbox) : mailboxDone m = true ↔ ∃ r, m = .done r := by
  cases m <;> simp [mailboxDone]

/-- SET ENABLES behind the port (R135). -/
def State.withEnables (s : State) (p d : Bool) (m0 m1 m2 m3 : Byte) : State :=
  { (((s.setMask 0 m0).setMask 1 m1).setMask 2 m2).setMask 3 m3 with pendingEnable := p, doneEnable := d }

theorem withEnables_ax (s : State) (p d : Bool) (m0 m1 m2 m3 : Byte) :
    (s.withEnables p d m0 m1 m2 m3).ax 0 = { s.ax 0 with mask := m0 } ∧
      (s.withEnables p d m0 m1 m2 m3).ax 1 = { s.ax 1 with mask := m1 } ∧
      (s.withEnables p d m0 m1 m2 m3).ax 2 = { s.ax 2 with mask := m2 } ∧
      (s.withEnables p d m0 m1 m2 m3).ax 3 = { s.ax 3 with mask := m3 } := by
  have ax (k : AxisId) : (s.withEnables p d m0 m1 m2 m3).ax k =
      ((((s.setMask 0 m0).setMask 1 m1).setMask 2 m2).setMask 3 m3).ax k := rfl
  simp only [ax, State.setMask]
  simp

/-- Settles O19: SET ENABLES stores six values, and nATTN is the disjunction of its three sources. -/
theorem enablesAndAttention : Obligations.EnablesAndAttention := by
  refine fun s => ⟨fun tag p d m0 m1 m2 m3 ready => ?_, ?_⟩
  · obtain ⟨ax0, ax1, ax2, ax3⟩ :=
      withEnables_ax (s.heard 0x17 tag [p, d, m0, m1, m2, m3]) (decide (p ≠ 0)) (decide (d ≠ 0)) m0 m1 m2 m3
    exact ⟨(s.heard 0x17 tag [p, d, m0, m1, m2, m3]).withEnables (decide (p ≠ 0)) (decide (d ≠ 0)) m0 m1 m2 m3,
      answers_served rfl rfl ready (by simp) rfl, ax0, ax1, ax2, ax3, decide_eq_true_iff, decide_eq_true_iff, rfl⟩
  · rw [nattn_low, axisSource_iff]
    refine or_congr ?_ (or_congr (exists_congr fun k => attention_iff _) ?_)
    · unfold State.pendingSource
      simp
    · unfold State.doneSource
      rw [Bool.and_eq_true, mailboxDone_iff]

end Sys2Proof.Machine
end

section
/-! PROOFS. The record image and the configuration bytes, there and back (O11 to O13). -/

namespace Sys2Proof.Machine

/-! ### Bit fields of a byte -/

theorem bits_ofNat (n lo k : Nat) : bits (BitVec.ofNat 8 n) lo k = n % 256 / 2 ^ lo % 2 ^ k := by
  unfold bits
  rw [BitVec.toNat_ofNat]

theorem boolCode_le (b : Bool) : boolCode b ≤ 1 := by cases b <;> decide

theorem keepCode_le (k : Keep) : keepCode k ≤ 1 := by cases k <;> decide

theorem directionCode_le (d : Direction) : directionCode d ≤ 3 := by cases d <;> decide

theorem levelCode_le (l : Level) : levelCode l ≤ 1 := by cases l <;> decide

theorem followCode_le (f : FollowOn) : followCode f ≤ 2 := by cases f <;> simp [followCode]

theorem stageDirection_of_bits {b : Byte} {d : Direction} (set : d ≠ .unset) (e : bits b 3 2 = directionCode d) :
    stageDirection b = some d := by
  unfold stageDirection
  rw [e]
  cases d with
  | unset => exact absurd rfl set
  | up => rfl
  | down => rfl
  | both => rfl

/-! ### Byte 1: axis, bank, direction, keep and notify -/

section
variable (r : Record)

/-- Byte 1 of the image of a record (H-3). -/
def placeByte : Byte :=
  BitVec.ofNat 8
    (r.axis.val + 4 * r.bank.val + 8 * directionCode r.direction + 32 * keepCode r.keep + 64 * boolCode r.notify)

theorem placeByte_axis : Fin.ofNat 4 (bits (placeByte r) 0 2) = r.axis := by
  refine Fin.ext ?_
  rw [Fin.val_ofNat, placeByte, bits_ofNat]
  have axis := r.axis.isLt
  omega

theorem placeByte_bank : Fin.ofNat 2 (bits (placeByte r) 2 1) = r.bank := by
  refine Fin.ext ?_
  rw [Fin.val_ofNat, placeByte, bits_ofNat]
  have axis := r.axis.isLt
  have bank := r.bank.isLt
  omega

theorem placeByte_direction (set : r.direction ≠ .unset) : stageDirection (placeByte r) = some r.direction := by
  refine stageDirection_of_bits set ?_
  rw [placeByte, bits_ofNat]
  have axis := r.axis.isLt
  have bank := r.bank.isLt
  have direction := directionCode_le r.direction
  have keep := keepCode_le r.keep
  have notify := boolCode_le r.notify
  omega

theorem placeByte_keep : (if bits (placeByte r) 5 1 = 1 then Keep.keep else .auto) = r.keep := by
  have e : bits (placeByte r) 5 1 = keepCode r.keep := by
    rw [placeByte, bits_ofNat]
    have axis := r.axis.isLt
    have bank := r.bank.isLt
    have direction := directionCode_le r.direction
    have keep := keepCode_le r.keep
    have notify := boolCode_le r.notify
    omega
  rw [e]
  cases r.keep <;> rfl

theorem placeByte_notify : decide (bits (placeByte r) 6 1 = 1) = r.notify := by
  have e : bits (placeByte r) 6 1 = boolCode r.notify := by
    rw [placeByte, bits_ofNat]
    have axis := r.axis.isLt
    have bank := r.bank.isLt
    have direction := directionCode_le r.direction
    have keep := keepCode_le r.keep
    have notify := boolCode_le r.notify
    omega
  rw [e]
  cases r.notify <;> rfl

/-! ### Byte 11: follow-on, turn qualifier and gate -/

/-- What byte 11 carries above its bit 2: the gate's presence bit, input and level. -/
def gateCode (g : Option Gate) : Nat :=
  match g with
  | some g => 1 + 2 * g.input.val + 8 * levelCode g.level
  | none => 0

theorem gateCode_le (g : Option Gate) : gateCode g ≤ 15 := by
  rcases g with _ | g
  · exact Nat.zero_le _
  · have input := g.input.isLt
    have level := levelCode_le g.level
    simp only [gateCode]
    omega

theorem qualifierByte_eq :
    qualifierByte r = followCode r.followOn + 4 * boolCode r.turnQualifier.isSome + 8 * gateCode r.gate := by
  unfold qualifierByte gateCode
  cases r.gate with
  | none => rfl
  | some g => simp only []; omega

theorem qualifierByte_bits :
    bits (BitVec.ofNat 8 (qualifierByte r)) 0 2 = followCode r.followOn ∧
      bits (BitVec.ofNat 8 (qualifierByte r)) 2 1 = boolCode r.turnQualifier.isSome ∧
      ∀ lo k, bits (BitVec.ofNat 8 (qualifierByte r)) (3 + lo) k = gateCode r.gate / 2 ^ lo % 2 ^ k := by
  have follow := followCode_le r.followOn
  have turn := boolCode_le r.turnQualifier.isSome
  have gate := gateCode_le r.gate
  rw [qualifierByte_eq]
  refine ⟨?_, ?_, fun lo k => ?_⟩
  · rw [bits_ofNat]
    omega
  · rw [bits_ofNat]
    omega
  · rw [bits_ofNat, Nat.pow_add, ← Nat.div_div_eq_div_mul]
    congr 2
    omega

theorem qualifierByte_gate : stageGate (BitVec.ofNat 8 (qualifierByte r)) = r.gate := by
  obtain ⟨-, -, above⟩ := qualifierByte_bits r
  unfold stageGate
  rw [above 0 1, above 1 2, above 3 1]
  rcases r.gate with _ | ⟨input, level⟩
  · rfl
  · have code := levelCode_le level
    have here : gateCode (some ⟨input, level⟩) = 1 + 2 * input.val + 8 * levelCode level := rfl
    have input_lt := input.isLt
    rw [here, if_pos (by omega)]
    refine congrArg some ?_
    have levels : (1 + 2 * input.val + 8 * levelCode level) / 2 ^ 3 % 2 ^ 1 = levelCode level := by omega
    have inputs : Fin.ofNat 4 ((1 + 2 * input.val + 8 * levelCode level) / 2 ^ 1 % 2 ^ 2) = input :=
      Fin.ext (by rw [Fin.val_ofNat]; omega)
    rw [levels, inputs]
    cases level <;> rfl

theorem qualifierByte_turn :
    (if bits (BitVec.ofNat 8 (qualifierByte r)) 2 1 = 1 then
        some (BitVec.ofNat 16 (u16 (BitVec.ofNat 8 (r.turnQualifier.getD 0).toNat)
          (BitVec.ofNat 8 ((r.turnQualifier.getD 0).toNat / 256))))
      else none) = r.turnQualifier := by
  obtain ⟨-, turn, -⟩ := qualifierByte_bits r
  rw [turn, u16_le16 (r.turnQualifier.getD 0).isLt, BitVec.ofNat_toNat, BitVec.setWidth_eq]
  cases r.turnQualifier <;> rfl

end

theorem stageFollowOn_back {self : Handle} {b : Byte} {f : FollowOn} (e : bits b 0 2 = followCode f)
    (other : ∀ t, f = .link t → t ≠ self) : stageFollowOn self b (followTarget f) = some f := by
  unfold stageFollowOn
  rw [e]
  cases f with
  | none => rfl
  | switch => rfl
  | link t =>
    simp only [followCode, followTarget, handleOf_handleNumber]
    exact if_neg (other t rfl)

/-! ### Byte 6: the line action -/

theorem actionLine_back (l : LineId) {n : Nat} (e : n % 256 / 2 ^ 3 % 2 ^ 3 = l.val) :
    stageLine (BitVec.ofNat 8 n) = l := by
  refine Fin.ext ?_
  have below := l.isLt
  rw [stageLine, Fin.val_ofNat, bits_ofNat, e]
  omega

theorem stageAction_back {a : LineAction} (wide : ∀ l w, a = .pulse l w → 1 ≤ w ∧ w ≤ 65535) :
    stageAction (BitVec.ofNat 8 (actionByte a)) (actionWidth a) = some a := by
  unfold stageAction
  cases a with
  | none => rfl
  | set l =>
    have below := l.isLt
    rw [actionLine_back l (by simp only [actionByte]; omega), bits_ofNat,
      show actionByte (.set l) % 256 / 2 ^ 0 % 2 ^ 3 = 1 by simp only [actionByte]; omega]
    rfl
  | clear l =>
    have below := l.isLt
    rw [actionLine_back l (by simp only [actionByte]; omega), bits_ofNat,
      show actionByte (.clear l) % 256 / 2 ^ 0 % 2 ^ 3 = 2 by simp only [actionByte]; omega]
    rfl
  | toggle l =>
    have below := l.isLt
    rw [actionLine_back l (by simp only [actionByte]; omega), bits_ofNat,
      show actionByte (.toggle l) % 256 / 2 ^ 0 % 2 ^ 3 = 3 by simp only [actionByte]; omega]
    rfl
  | pulse l w =>
    have below := l.isLt
    obtain ⟨some_width, -⟩ := wide l w rfl
    rw [actionLine_back l (by simp only [actionByte]; omega), bits_ofNat,
      show actionByte (.pulse l w) % 256 / 2 ^ 0 % 2 ^ 3 = 4 by simp only [actionByte]; omega]
    exact if_neg (show w ≠ 0 by omega)

theorem actionWidth_lt {a : LineAction} (wide : ∀ l w, a = .pulse l w → 1 ≤ w ∧ w ≤ 65535) : actionWidth a < 65536 := by
  cases a with
  | pulse l w => exact Nat.lt_succ_of_le (wide l w rfl).2
  | none | set | clear | toggle => exact Nat.zero_lt_succ _

theorem followTarget_lt (f : FollowOn) : followTarget f < 65536 := by
  cases f with
  | link t => have := t.isLt; simp only [followTarget, handleNumber]; omega
  | none | switch => exact Nat.zero_lt_succ _

/-! ### The whole image -/

theorem recordImage_staged (r : Record) : ∃ b0 b16, (recordImage r).take 17 =
    [b0, placeByte r] ++ leInt32 r.position ++ byte1 (actionByte r.action) ++ le16 (actionWidth r.action) ++
      le16 r.budget ++ byte1 (qualifierByte r) ++ le16 (followTarget r.followOn) ++
      leTurn (r.turnQualifier.getD 0) ++ [b16] := ⟨_, _, rfl⟩

/-- What an image stages once its direction, action and follow-on are read. -/
theorem stageRecord_of {self : Handle} {old : Record} {b0 b1 p0 p1 p2 p3 b6 w0 w1 n0 n1 b11 t0 t1 q0 q1 b16 : Byte}
    {d : Direction} {a : LineAction} {f : FollowOn} (direction : stageDirection b1 = some d)
    (action : stageAction b6 (u16 w0 w1) = some a) (follow : stageFollowOn self b11 (u16 t0 t1) = some f) :
    stageRecord self old [b0, b1, p0, p1, p2, p3, b6, w0, w1, n0, n1, b11, t0, t1, q0, q1, b16] = some
      { old with
        axis := Fin.ofNat 4 (bits b1 0 2)
        bank := Fin.ofNat 2 (bits b1 2 1)
        direction := d
        keep := if bits b1 5 1 = 1 then .keep else .auto
        notify := decide (bits b1 6 1 = 1)
        position := i32 p0 p1 p2 p3
        action := a
        budget := u16 n0 n1
        followOn := f
        turnQualifier := if bits b11 2 1 = 1 then some (BitVec.ofNat 16 (u16 q0 q1)) else none
        gate := stageGate b11
        lastFire := none } := by
  simp only [stageRecord, direction, action, follow]

/-- Settles O11: each field is read back from the byte that shows it. -/
theorem recordImageRoundTrip : Obligations.RecordImageRoundTrip := by
  intro self r old set low high budget wide other
  obtain ⟨b0, b16, e⟩ := recordImage_staged r
  rw [e]
  have action : stageAction (BitVec.ofNat 8 (actionByte r.action)) (u16 (BitVec.ofNat 8 (actionWidth r.action))
      (BitVec.ofNat 8 (actionWidth r.action / 256))) = some r.action := by
    rw [u16_le16 (actionWidth_lt wide)]
    exact stageAction_back wide
  have follow : stageFollowOn self (BitVec.ofNat 8 (qualifierByte r)) (u16 (BitVec.ofNat 8 (followTarget r.followOn))
      (BitVec.ofNat 8 (followTarget r.followOn / 256))) = some r.followOn := by
    rw [u16_le16 (followTarget_lt r.followOn)]
    exact stageFollowOn_back (qualifierByte_bits r).1 other
  refine (stageRecord_of (placeByte_direction r set) action follow).trans ?_
  rw [placeByte_axis, placeByte_bank, placeByte_keep, placeByte_notify, qualifierByte_gate, qualifierByte_turn,
    u16_le16 (Nat.lt_succ_of_le budget), i32_leInt32 low high (u32_le32 (BitVec.isLt _))]

/-! ### What STAGE refuses -/

theorem stageDirection_none (b : Byte) : stageDirection b = none ↔ b.toNat / 8 % 4 = 0 := by
  have e : bits b 3 2 = b.toNat / 8 % 4 := rfl
  have below : b.toNat / 8 % 4 < 4 := Nat.mod_lt _ (by omega)
  unfold stageDirection
  rw [e]
  generalize b.toNat / 8 % 4 = n at below ⊢
  interval_cases n <;> simp

theorem stageAction_none (b : Byte) (width : Nat) : stageAction b width = none ↔
    5 ≤ b.toNat % 8 ∨ (b.toNat % 8 = 0 ∧ b.toNat / 8 % 8 ≠ 0) ∨ (b.toNat % 8 = 4 ∧ width = 0) := by
  have kind : bits b 0 3 = b.toNat % 8 := congrArg (· % 8) (Nat.div_one _)
  have line : bits b 3 3 = b.toNat / 8 % 8 := rfl
  have below : b.toNat % 8 < 8 := Nat.mod_lt _ (by omega)
  unfold stageAction
  rw [kind, line]
  generalize b.toNat % 8 = n at below ⊢
  interval_cases n <;> simp

theorem handleOf_none (n : Nat) : handleOf n = none ↔ n = 0 ∨ 1024 < n := by
  unfold handleOf
  split_ifs with inside
  · simp
    omega
  · simp
    omega

theorem handleOf_some {n : Nat} {h : Handle} : handleOf n = some h ↔ n = handleNumber h := by
  refine ⟨fun e => ?_, fun e => e ▸ handleOf_handleNumber h⟩
  unfold handleOf at e
  split_ifs at e with inside
  · have val : n - 1 = h.val := congrArg Fin.val (Option.some.inj e)
    unfold handleNumber
    omega

theorem stageFollowOn_none (self : Handle) (b : Byte) (n : Nat) : stageFollowOn self b n = none ↔
    b.toNat % 4 = 3 ∨ (b.toNat % 4 = 2 ∧ (n = 0 ∨ 1024 < n)) ∨ (b.toNat % 4 = 2 ∧ n = handleNumber self) := by
  have kind : bits b 0 2 = b.toNat % 4 := congrArg (· % 4) (Nat.div_one _)
  have below : b.toNat % 4 < 4 := Nat.mod_lt _ (by omega)
  rw [← and_or_left, ← handleOf_none, ← handleOf_some]
  unfold stageFollowOn
  rw [kind]
  generalize b.toNat % 4 = k at below ⊢
  cases handleOf n <;> interval_cases k <;> simp

theorem u16_zero (lo hi : Byte) : u16 lo hi = 0 ↔ lo = 0 ∧ hi = 0 := by
  unfold u16
  rw [← BitVec.toNat_inj, ← BitVec.toNat_inj]
  simp

theorem stageRecord_none {self : Handle} {r : Record} {b0 b1 p0 p1 p2 p3 b6 w0 w1 n0 n1 b11 t0 t1 q0 q1 b16 : Byte} :
    stageRecord self r [b0, b1, p0, p1, p2, p3, b6, w0, w1, n0, n1, b11, t0, t1, q0, q1, b16] = none ↔
      stageDirection b1 = none ∨ stageAction b6 (u16 w0 w1) = none ∨ stageFollowOn self b11 (u16 t0 t1) = none := by
  unfold stageRecord
  cases direction : stageDirection b1 with
  | none => simp [direction]
  | some d =>
    cases action : stageAction b6 (u16 w0 w1) with
    | none => simp [direction, action]
    | some a => cases follow : stageFollowOn self b11 (u16 t0 t1) <;> simp [direction, action, follow]

/-- Settles O12: the three fields that STAGE reads, each with the conditions under which it is refused. -/
theorem stageRefusesExactly : Obligations.StageRefusesExactly := by
  intro self r b0 b1 p0 p1 p2 p3 b6 w0 w1 n0 n1 b11 t0 t1 q0 q1 b16
  rw [stageRecord_none, stageDirection_none, stageAction_none, stageFollowOn_none, u16_zero]
  unfold u16
  tauto

/-! ### The configuration bytes -/

theorem kindOf_code (k : Kind) : kindOf (BitVec.ofNat 8 (kindCode k)) = some k := by cases k <;> rfl

theorem sourceOf_code (c : Source) : sourceOf (BitVec.ofNat 8 (sourceCode c)) = some c := by cases c <;> rfl

theorem strictOf_code (b : Bool) : strictOf (BitVec.ofNat 8 (boolCode b)) = some b := by cases b <;> rfl

theorem filterOf_code (w : FilterWidth) : filterOf (BitVec.ofNat 8 (filterCode w)) = some w := by cases w <;> rfl

theorem dirOf_code (d : Dir) : dirOf (BitVec.ofNat 8 (dirCode d)) = some d := by cases d <;> rfl

theorem edgeOf_code (e : IndexEdge) : edgeOf (BitVec.ofNat 8 (edgeCode e)) = some e := by cases e <;> rfl

theorem modeOf_code (m : IndexMode) : modeOf (BitVec.ofNat 8 (modeCode m)) = some m := by cases m <;> rfl

/-- Settles O13: each code is that of its value, and each number is its bytes. -/
theorem configurationRoundTrip : Obligations.ConfigurationRoundTrip := by
  intro c span band period low high
  simp only [configOf, configData, byte1, le32, le16, leInt32, List.cons_append, List.nil_append, kindOf_code,
    sourceOf_code, strictOf_code, filterOf_code, dirOf_code, edgeOf_code, modeOf_code, Option.bind_eq_bind,
    Option.bind_some]
  rw [u32_le32 span, u16_le16 (Nat.lt_succ_of_le band), u16_le16 (Nat.lt_succ_of_le period),
    i32_leInt32 low high (u32_le32 (BitVec.isLt _))]
  rfl

end Sys2Proof.Machine
end

section
/-! PROOFS. The lines, the time base, and the host commands to an axis (O23, O25 to O28). -/

namespace Sys2Proof.Machine

/-! ### FORCE LINE and RELEASE LINE -/

theorem setModes_line (s : State) (mask : Byte) (mode : LineId → LineMode) (l : LineId) :
    (s.setModes mask mode).line l = if mask.getLsbD l.val then { s.line l with mode := mode l } else s.line l := by
  simp [State.setModes, State.line, Vector.get_eq_getElem, maskBit]

/-- Settles O23: both commands set modes by their mask, and refuse the mask that names no line. -/
theorem forceAndReleaseLine : Obligations.ForceAndReleaseLine := by
  refine fun s tag mask => ⟨fun levels ready named => ⟨_, answers_served rfl rfl ready (by simp) (if_neg named), rfl, ?_⟩,
    fun levels ready none => answers_served rfl rfl ready (by simp) (if_pos none),
    fun ready named => ⟨_, answers_served rfl rfl ready (by simp) (if_neg named), rfl, ?_⟩,
    fun ready none => answers_served rfl rfl ready (by simp) (if_pos none)⟩
  · exact setModes_line _ mask _
  · exact setModes_line _ mask _

/-! ### Expiries and the tick -/

section Ticks
variable {x : Line} {a : Axis} {n : Nat}

theorem Line.tick_ahead (ahead : x.ahead = true) : x.tick = { x with ahead := false } := if_pos ahead

theorem Line.tick_idle (fresh : x.ahead = false) (idle : x.timer = none) : x.tick = x := by
  obtain ⟨shadow, mode, timer, taken⟩ := x
  cases fresh
  cases idle
  rfl

theorem Line.tick_lowered (fresh : x.ahead = false) (runs : x.timer = some n) (more : 2 ≤ n) :
    x.tick = { x with timer := some (n - 1) } := by
  have left : ¬ n ≤ 1 := by omega
  simp [Line.tick, fresh, runs, reachesZero, lowered, left]

theorem Line.tick_expires (fresh : x.ahead = false) (runs : x.timer = some n) (last : n ≤ 1) :
    x.tick = { x with shadow := .low, timer := none } := by
  simp [Line.tick, fresh, runs, reachesZero, last, Line.expire]

theorem Line.takeExpiry_expires (fresh : x.ahead = false) (runs : x.timer = some 1) :
    x.takeExpiry = { shadow := .low, mode := x.mode, timer := none, ahead := true } := by
  simp [Line.takeExpiry, fresh, runs, reachesZero, Line.expire]

theorem Axis.tick_ahead (ahead : a.front.rateAhead = true) :
    a.tick = { a with front := { a.front with rateAhead := false } } := if_pos ahead

theorem Axis.tick_idle (fresh : a.front.rateAhead = false) (idle : a.front.rateTimer = none) : a.tick = a := by
  unfold Axis.tick
  rw [fresh, idle]
  exact congrArg (fun timer => { a with front := { a.front with rateTimer := timer } }) idle.symm

theorem Axis.tick_lowered (fresh : a.front.rateAhead = false) (runs : a.front.rateTimer = some n) (more : 2 ≤ n) :
    a.tick = { a with front := { a.front with rateTimer := some (n - 1) } } := by
  have left : ¬ n ≤ 1 := by omega
  simp [Axis.tick, fresh, runs, reachesZero, lowered, left]

theorem Axis.tick_expires (fresh : a.front.rateAhead = false) (runs : a.front.rateTimer = some n) (last : n ≤ 1) :
    a.tick = a.rateCount := by
  simp [Axis.tick, fresh, runs, reachesZero, last]

theorem Axis.rateExpire_expires (fresh : a.front.rateAhead = false) (runs : a.front.rateTimer = some 1) :
    a.rateExpire = Axis.rateCount { a with front := { a.front with rateAhead := true } } := by
  simp [Axis.rateExpire, fresh, runs, reachesZero]

end Ticks

/-! ### An expiry and a line request that meet (R86) -/

section Meeting
variable {s : State} {l : LineId} {x : Line} {act : LineAction}

/-- What a request that sets its line to `x` gives when it comes before the tick. -/
theorem lineRequest_tick (request : s.lineRequest act = s.setLine l x) : (s.lineRequest act).tick.line l = x.tick := by
  rw [tick_line, request, State.setLine_line_same]

variable (runs : (s.line l).timer = some 1) (fresh : (s.line l).ahead = false)
include runs fresh

theorem expired_line : s.tick.line l = { s.line l with shadow := .low, timer := none } := by
  rw [tick_line]
  exact Line.tick_expires fresh runs (le_refl 1)

theorem expired_set :
    (s.tick.lineRequest (.set l)).line l = { s.line l with shadow := .high, timer := none } ∧
      (s.lineRequest (.set l)).tick.line l = { s.line l with shadow := .high, timer := none } := by
  refine ⟨?_, (lineRequest_tick rfl).trans (Line.tick_idle fresh rfl)⟩
  refine (s.tick.setLine_line_same l _).trans ?_
  rw [expired_line runs fresh]

theorem expired_clear :
    (s.tick.lineRequest (.clear l)).line l = { s.line l with shadow := .low, timer := none } ∧
      (s.lineRequest (.clear l)).tick.line l = { s.line l with shadow := .low, timer := none } := by
  refine ⟨?_, (lineRequest_tick rfl).trans (Line.tick_idle fresh rfl)⟩
  refine (s.tick.setLine_line_same l _).trans ?_
  rw [expired_line runs fresh]

theorem expired_toggle (high : (s.line l).shadow = .high) :
    (s.tick.lineRequest (.toggle l)).line l = { s.line l with shadow := .high, timer := none } ∧
      (s.lineRequest (.toggle l)).tick.line l = { s.line l with shadow := .low, timer := none } := by
  refine ⟨?_, (lineRequest_tick (lineRequest_toggle_high high)).trans (Line.tick_idle fresh rfl)⟩
  have low : (s.tick.line l).shadow = .low := by rw [expired_line runs fresh]
  rw [lineRequest_toggle_low low, State.setLine_line_same, expired_line runs fresh]

theorem expired_pulse (width : Nat) :
    (s.tick.lineRequest (.pulse l width)).line l = { s.line l with shadow := .high, timer := some width } ∧
      (2 ≤ width → (s.lineRequest (.pulse l width)).tick.line l =
        { s.line l with shadow := .high, timer := some (width - 1) }) ∧
      (width ≤ 1 → (s.lineRequest (.pulse l width)).tick.line l = { s.line l with shadow := .low, timer := none }) := by
  refine ⟨?_, fun more => (lineRequest_tick rfl).trans
      (Line.tick_lowered (x := { s.line l with shadow := .high, timer := some width }) fresh rfl more),
    fun last => (lineRequest_tick rfl).trans
      (Line.tick_expires (x := { s.line l with shadow := .high, timer := some width }) fresh rfl last)⟩
  refine (s.tick.setLine_line_same l _).trans ?_
  rw [expired_line runs fresh]

end Meeting

/-- Settles O25: a tick reaches each line and each axis by itself, and an expiry row is that tick taken at one of them. -/
theorem expiriesAndTick : Obligations.ExpiriesAndTick := by
  refine ⟨fun s => ⟨fun l runs fresh => ?_, fun k runs fresh => ?_, s.tick, rfl, ?_, ?_, ?_, ?_, ?_, ?_, ?_, ?_, rfl⟩,
    fun s l act e q runs fresh high ticked last => ?_⟩
  · exact congrArg (fun x => Host.Outcome.next (s.setLine l x)) (Line.takeExpiry_expires fresh runs)
  · exact congrArg (fun a => Host.Outcome.next (s.setAx k a)) (Axis.rateExpire_expires fresh runs)
  · exact fun l ahead => (tick_line s l).trans (Line.tick_ahead ahead)
  · exact fun l fresh idle => (tick_line s l).trans (Line.tick_idle fresh idle)
  · exact fun l n fresh runs more => (tick_line s l).trans (Line.tick_lowered fresh runs more)
  · exact fun l n fresh runs last => (tick_line s l).trans (Line.tick_expires fresh runs last)
  · exact fun k ahead => (tick_ax s k).trans (Axis.tick_ahead ahead)
  · exact fun k fresh idle => (tick_ax s k).trans (Axis.tick_idle fresh idle)
  · exact fun k n fresh runs more => (tick_ax s k).trans (Axis.tick_lowered fresh runs more)
  · exact fun k n fresh runs last => (tick_ax s k).trans (Axis.tick_expires fresh runs last)
  · cases Host.Outcome.next.inj ticked
    cases Host.Outcome.next.inj last
    refine ⟨?_, ?_, ?_, ?_⟩
    · rintro rfl
      exact expired_set runs fresh
    · rintro rfl
      exact expired_clear runs fresh
    · rintro rfl
      exact expired_toggle runs fresh high
    · rintro width rfl
      exact expired_pulse runs fresh width

/-! ### START, STOP, HOME and SET BANK -/

section Axes
variable {s : State} {ax : Byte} {k : AxisId} (named : ax.toNat = k.val)
include named

theorem serveStart_halted (halted : (s.ax k).front.state = .halted) :
    serveStart [ax] s = (s.updAx k Axis.started, bare .ok) := by
  refine (withAxis_some named s _).trans ?_
  rw [halted]

theorem serveStart_counting (counting : (s.ax k).front.state = .counting) : serveStart [ax] s = (s, bare .ok) := by
  refine (withAxis_some named s _).trans ?_
  rw [counting]

theorem serveStart_faulted (faulted : (s.ax k).front.state = .faultedPhase ∨ (s.ax k).front.state = .faultedRange) :
    serveStart [ax] s = (s, bare .axisState) := by
  refine (withAxis_some named s _).trans ?_
  rcases faulted with e | e <;> rw [e]

theorem serveStop_axis : serveStop [ax] s = (s.updAx k Axis.stopped, bare .ok) := withAxis_some named s _

theorem serveHome_axis : serveHome [ax] s = if (s.ax k).front.state = .counting then
    (s.updAx k (fun a => { a with front := { a.front with homeRequest := true } }), bare .ok) else (s, bare .axisState) :=
  withAxis_some named s _

theorem serveSetBank_axis {b : Byte} {bank : Bank} (e : b.toNat = bank.val) : serveSetBank [ax, b] s =
    (s.updAx k (fun a => { a with eval := { a.eval with bank := bank } }), bare .ok) := by
  refine (withAxis_some named s _).trans ?_
  rw [bankOf_eq_some e]

theorem serveSetPosition_axis {p0 p1 p2 p3 : Byte} : serveSetPosition [ax, p0, p1, p2, p3] s =
    if inRange (s.ax k).config (i32 p0 p1 p2 p3) then
      if (s.ax k).front.state = .halted then
        ((s.updAx k (fun a => { a with front := { a.front with c := i32 p0 p1 p2 p3, liveTurn := 0 } })).seekStart k
          (i32 p0 p1 p2 p3) 0, bare .ok)
      else (s, bare .axisState)
    else (s, badArg) := withAxis_some named s _

theorem serveResync_axis : serveResync [ax] s = if (s.ax k).front.state = .halted then (s, bare .axisState) else
    ((s.updAx k Axis.resynced).seekStart k (s.ax k).front.c (s.ax k).front.liveTurn, bare .ok) :=
  withAxis_some named s _

end Axes

theorem Axis.startRate_eq (a : Axis) : a.startRate = { a with front := { a.front with
    rateTimer := if a.config.source = .rate then some a.config.ratePeriod else a.front.rateTimer } } := by
  unfold Axis.startRate
  split <;> rfl

theorem Axis.started_eq (a : Axis) : a.started = { a with
    front := { a.front with
      state := .counting
      rateTimer := if a.config.source = .rate then some a.config.ratePeriod else a.front.rateTimer }
    eval := { a.eval with settle := false } } := Axis.startRate_eq _

theorem Axis.stopped_settled {a : Axis} (tracks : a.eval.state = .tracking) (there : a.eval.e = a.front.c) :
    a.stopped = { a with
      front := { a.front with state := .halted, rateTimer := none }
      eval := { a.eval with settle := false }
      flags := a.flags ||| 0x80 } := by
  simp [Axis.stopped, Axis.settleIfTracking, Axis.settleCheck, tracks, there, Axis.setFlag, flagBit]

theorem Axis.stopped_unsettled {a : Axis} (away : a.eval.state ≠ .tracking ∨ a.eval.e ≠ a.front.c) :
    a.stopped = { a with
      front := { a.front with state := .halted, rateTimer := none }
      eval := { a.eval with settle := true } } := by
  unfold Axis.stopped Axis.settleIfTracking Axis.settleCheck
  rcases away with other | away
  · exact if_neg other
  · split
    · exact if_neg (by simp [away])
    · rfl

theorem Axis.resynced_eq (a : Axis) : a.resynced = { a with front := { a.front with
    state := .counting
    rateTimer := if a.front.state ≠ .counting ∧ a.config.source = .rate then some a.config.ratePeriod
      else a.front.rateTimer } } := by
  unfold Axis.resynced
  by_cases counting : a.front.state = .counting
  · rw [if_pos counting, if_neg (fun both => both.1 counting), ← counting]
  · rw [if_neg counting, Axis.startRate_eq]
    simp [counting]

/-- Settles O26: each command, in each state of the front end. -/
theorem startStopHomeAndSetBank : Obligations.StartStopHomeAndSetBank := by
  intro s tag ax k named a
  refine ⟨fun ready halted => ?_, fun ready counting => ?_, fun ready faulted => ?_, fun ready tracks there => ?_,
    fun ready away => ?_, fun ready counting => ?_, fun ready other => ?_, fun b bank e ready => ?_⟩
  · rw [← Axis.started_eq]
    exact answers_served rfl rfl ready (by simp) (serveStart_halted named halted)
  · exact answers_served rfl rfl ready (by simp) (serveStart_counting named counting)
  · exact answers_served rfl rfl ready (by simp) (serveStart_faulted named faulted)
  · rw [← Axis.stopped_settled tracks there]
    exact answers_served rfl rfl ready (by simp) (serveStop_axis named)
  · rw [← Axis.stopped_unsettled away]
    exact answers_served rfl rfl ready (by simp) (serveStop_axis named)
  · exact answers_served rfl rfl ready (by simp) ((serveHome_axis named).trans (if_pos counting))
  · exact answers_served rfl rfl ready (by simp) ((serveHome_axis named).trans (if_neg other))
  · exact answers_served rfl rfl ready (by simp) (serveSetBank_axis named e)

/-! ### SET POSITION and RESYNC -/

/-- Settles O27: the checks in the order of the model, and the seek as one update of the axis and the engine. -/
theorem setPositionAndResync : Obligations.SetPositionAndResync := by
  refine ⟨fun s tag ax p0 p1 p2 p3 k named ready => ?_, fun s tag ax k named ready => ?_⟩
  · intro a p fits
    have range : inRange a.config p = true ↔ fits := inRange_iff a.config p
    refine ⟨fun outside => ?_, fun inside moving => ?_, fun inside halted => ?_⟩
    · exact answers_served rfl rfl ready (by simp) ((serveSetPosition_axis named).trans (if_neg (mt range.mp outside)))
    · exact answers_served rfl rfl ready (by simp)
        ((serveSetPosition_axis named).trans ((if_pos (range.mpr inside)).trans (if_neg moving)))
    · refine answers_served rfl rfl ready (by simp)
        ((serveSetPosition_axis named).trans ((if_pos (range.mpr inside)).trans ((if_pos halted).trans ?_)))
      exact congrArg (·, _) (seekStart_eq _ k _ p 0 0 (ite_self 0).symm)
  · intro a
    refine ⟨fun halted => ?_, fun moving => ?_⟩
    · exact answers_served rfl rfl ready (by simp) ((serveResync_axis named).trans (if_pos halted))
    · refine answers_served rfl rfl ready (by simp) ((serveResync_axis named).trans ((if_neg moving).trans ?_))
      rw [← Axis.resynced_eq]
      refine congrArg (·, _) (seekStart_eq _ k _ a.front.c a.front.liveTurn _ ?_)
      rw [Axis.resynced_eq]
      rfl

/-! ### CONFIGURE AXIS -/

section Configure
variable {s : State} {ax : Byte} {rest : List Byte} {k : AxisId} (named : ax.toNat = k.val) (whole : rest.length = 19)
include named whole

theorem serveConfigureAxis_unread (unread : configOf rest = none) : serveConfigureAxis (ax :: rest) s = (s, badArg) := by
  refine (if_pos whole).trans ((withAxis_some named s _).trans ?_)
  rw [unread]

theorem serveConfigureAxis_read {c : AxisConfig} (read : configOf rest = some c) : serveConfigureAxis (ax :: rest) s =
    if configValid c then
      if s.configRefused k (configStored (s.ax k).config c) then (s, bare .axisState)
      else (s.configure k (configStored (s.ax k).config c), bare .ok)
    else (s, badArg) := by
  refine (if_pos whole).trans ((withAxis_some named s _).trans ?_)
  rw [read]

end Configure

/-- The argument checks of R41, told as what makes them fail. -/
theorem configValid_fails (c : AxisConfig) : ¬ configValid c = true ↔
    4095 < c.band ∨ c.ratePeriod = 0 ∨ (c.kind = .linear ∧ c.indexMode = .track) ∨
      (c.kind = .rotary ∧ (c.span < 1024 ∨ 1073741824 < c.span ∨ c.span / 4 < c.band ∨
        c.indexPreset < 0 ∨ (c.span : Int) ≤ c.indexPreset)) := by
  rw [configValid_iff]
  cases c.kind with
  | linear =>
    simp only [reduceCtorEq, false_and, or_false, true_and, forall_const, false_imp_iff, and_true, not_and_or, not_not,
      not_le]
  | rotary =>
    simp only [reduceCtorEq, false_and, false_or, true_and, forall_const, false_imp_iff, not_and_or, not_not, not_le,
      not_lt, or_assoc]

/-- Settles O28: the bytes, then the arguments, then the state of the axis and of the engine. -/
theorem configureAxisChecks : Obligations.ConfigureAxisChecks := by
  intro s tag ax rest k named whole ready
  have few : (ax :: rest).length ≤ 32 := by simp [whole]
  refine ⟨fun unread => answers_served rfl rfl ready few (serveConfigureAxis_unread named whole unread),
    fun c read => ?_⟩
  intro old badArguments place linksInto badState
  have arguments : ¬ configValid c = true ↔ badArguments := configValid_fails c
  have refused : s.configRefused k (configStored old c) = true ↔ badState :=
    configRefused_iff s k c
  have read_at := serveConfigureAxis_read (s := s.heard 0x10 tag (ax :: rest)) named whole read
  refine ⟨fun bad => ?_, fun fine bad => ?_, fun fine ok => ?_⟩
  · exact answers_served rfl rfl ready few (read_at.trans (if_neg (arguments.mpr bad)))
  · have valid : configValid c = true := not_not.mp (mt arguments.mp fine)
    exact answers_served rfl rfl ready few (read_at.trans ((if_pos valid).trans (if_pos (refused.mpr bad))))
  · have valid : configValid c = true := not_not.mp (mt arguments.mp fine)
    refine answers_served rfl rfl ready few
      (read_at.trans ((if_pos valid).trans ((if_neg (mt refused.mp ok)).trans ?_)))
    rw [configStored_eq]
    rfl

end Sys2Proof.Machine
end

section
/-! PROOFS. What CONFIGURE AXIS changes, the filters, counts, and index edges (O29, O30, O33 to O35). -/

namespace Sys2Proof.Machine

/-! ### What CONFIGURE AXIS changes -/

section OnChange
variable (p : Prop) [Decidable p] (f : FrontEnd)

theorem onChange_source : onChange (decide p) FrontEnd.newSource f = { f with
    storedA := if p then f.inputA.accepted else f.storedA
    storedB := if p then f.inputB.accepted else f.storedB
    rateTimer := if p then none else f.rateTimer } := by
  by_cases moved : p <;> simp [onChange, moved, FrontEnd.newSource]

theorem onChange_mode : onChange (decide p) (fun f => { f with homeRequest := false }) f =
    { f with homeRequest := if p then false else f.homeRequest } := by
  by_cases moved : p <;> simp [onChange, moved]

theorem onChange_place : onChange (decide p) FrontEnd.newPlace f = { f with
    c := if p then 0 else f.c
    liveTurn := if p then 0 else f.liveTurn
    homeRequest := if p then false else f.homeRequest
    slot := if p then .empty else f.slot } := by
  by_cases moved : p <;> simp [onChange, moved, FrontEnd.newPlace]

/-- A filter as a change of width leaves it: a timing in progress starts again. -/
def InputFilter.retimed (width : FilterWidth) (g : InputFilter) : InputFilter :=
  { g with timing := if p ∧ g.timing ≠ none then some width else g.timing }

theorem InputFilter.restart_eq (width : FilterWidth) (g : InputFilter) (changed : p) :
    g.restart width = InputFilter.retimed p width g := by
  unfold InputFilter.restart InputFilter.retimed
  cases timed : g.timing <;> simp [changed]

theorem onChange_filter (width : FilterWidth) : onChange (decide p) (FrontEnd.newFilter width) f = { f with
    inputA := InputFilter.retimed p width f.inputA
    inputB := InputFilter.retimed p width f.inputB
    inputI := InputFilter.retimed p width f.inputI } := by
  by_cases changed : p
  · simp only [onChange, decide_eq_true changed, if_true, FrontEnd.newFilter, InputFilter.restart_eq p width _ changed]
  · simp [onChange, changed, InputFilter.retimed]

end OnChange

/-- The front end as an accepted CONFIGURE AXIS leaves it (R43, R116). -/
theorem Axis.configured_front (new : AxisConfig) (a : Axis) (p : Prop) [Decidable p]
    (place : kindOrSpanChanges a.config new = decide p) : (a.configured new).front =
    { state := a.front.state
      c := if p then 0 else a.front.c
      liveTurn := if p then 0 else a.front.liveTurn
      storedA := if a.config.source ≠ new.source then a.front.inputA.accepted else a.front.storedA
      storedB := if a.config.source ≠ new.source then a.front.inputB.accepted else a.front.storedB
      rateTimer := if a.config.source ≠ new.source then none else a.front.rateTimer
      rateAhead := a.front.rateAhead
      inputA := InputFilter.retimed (a.config.filter ≠ new.filter) new.filter a.front.inputA
      inputB := InputFilter.retimed (a.config.filter ≠ new.filter) new.filter a.front.inputB
      inputI := InputFilter.retimed (a.config.filter ≠ new.filter) new.filter a.front.inputI
      homeRequest := if p ∨ a.config.indexMode ≠ new.indexMode then false else a.front.homeRequest
      slot := if p then .empty else a.front.slot } := by
  have request : (if p ∨ a.config.indexMode ≠ new.indexMode then false else a.front.homeRequest) =
      if p then false else if a.config.indexMode ≠ new.indexMode then false else a.front.homeRequest := by
    split_ifs <;> tauto
  rw [request]
  unfold Axis.configured
  simp only [place, onChange_source, onChange_filter, onChange_mode, onChange_place]

theorem Axis.configured_bank_settle (new : AxisConfig) (a : Axis) :
    (a.configured new).eval.bank = a.eval.bank ∧ (a.configured new).eval.settle = a.eval.settle := by
  unfold Axis.configured
  dsimp only
  split <;> exact ⟨rfl, rfl⟩

/-- Settles O29: the four fields that CONFIGURE AXIS compares, each with what follows from its change. -/
theorem configureAxisChanges : Obligations.ConfigureAxisChanges := by
  intro s k new a place sourceMoved retime front
  have changes : kindOrSpanChanges a.config new = decide place := by
    rw [Bool.eq_iff_iff, decide_eq_true_iff]
    exact kindOrSpanChanges_iff a.config new
  have fronts : (a.configured new).front = front := Axis.configured_front new a place changes
  have unmoved (same : ¬ place) : s.configure k new = s.setAx k (a.configured new) :=
    if_neg (by rw [show kindOrSpanChanges (s.ax k).config new = decide place from changes, decide_eq_true_iff]; exact same)
  refine ⟨fun same band => ?_, fun same band => ?_, fun moved => ?_⟩
  · rw [unmoved same, ← fronts]
    exact congrArg (fun v => s.setAx k { a.configured new with eval := v }) (if_neg (not_not.mpr band))
  · rw [unmoved same, ← fronts]
    exact congrArg (fun v => s.setAx k { a.configured new with eval := v }) (if_pos band)
  · have ordered : s.configure k new = (s.setAx k (a.configured new)).seekStart k 0 0 :=
      if_pos (changes.trans (decide_eq_true moved))
    rw [ordered, seekStart_eq _ k _ 0 0 0 (ite_self 0).symm, ← fronts]
    refine congrArg (fun x => (s.setAx k x).updEngine (fun g => g.atSeek k)) ?_
    obtain ⟨bank, settle⟩ := Axis.configured_bank_settle new a
    unfold Axis.sought
    rw [bank, settle]
    rfl

/-! ### The filters of A, B and I -/

theorem exec_pinChange {s : State} (held : s.inReset = true) (k : AxisId) (change : InputChange) :
    exec (.axisInputChange k change) s =
      .next (s.setAx k { s.ax k with front := (s.ax k).front.pinChange change }) :=
  congrArg Host.Outcome.next (if_pos held)

/-- Settles O30: a filter that keeps its accepted level is stored, and in reset only the pins are. -/
theorem inputFilters : Obligations.InputFilters := by
  intro s k a
  refine ⟨fun i fa fb row sameA sameB => ?_, fun i f row same => ?_, fun held l m => ⟨?_, ?_, ?_, ?_⟩⟩
  · rw [row.exec_eq, Axis.handOnPair_same _ fa fb sameA sameB]
  · rw [row.exec_eq, handOnIndex_same s k f same]
  · exact exec_pinChange held k (.a l)
  · exact exec_pinChange held k (.b l)
  · exact exec_pinChange held k (.ab l m)
  · exact exec_pinChange held k (.index l)

/-! ### One count event -/

/-- The end of a LINEAR axis in a direction, in numbers (R52). -/
theorem linearEnd_eq (d : Dir) : linearEnd d = if d = .up then 2147483647 else -2147483648 := by cases d <;> rfl

/-! C and the live turn one count on, in the words of R52 and R53. -/

section Advance
variable (cfg : AxisConfig) (c : Int) (turn : Turn) (wraps : Prop) [Decidable wraps]

theorem advance_up (e : wraps ↔ cfg.kind = .rotary ∧ c = (cfg.span : Int) - 1) : advance cfg .up c turn =
    (if wraps then 0 else c + 1, if wraps then turn + 1 else turn) := by
  unfold advance
  cases kind : cfg.kind with
  | linear =>
    have never : ¬ wraps := by simp [e, kind]
    simp [never]
  | rotary =>
    have edge : wraps ↔ c = (cfg.span : Int) - 1 := by simp [e, kind]
    by_cases there : c = (cfg.span : Int) - 1 <;> simp [edge, there]

theorem advance_down (e : wraps ↔ cfg.kind = .rotary ∧ c = 0) : advance cfg .down c turn =
    (if wraps then (cfg.span : Int) - 1 else c - 1, if wraps then turn - 1 else turn) := by
  unfold advance
  cases kind : cfg.kind with
  | linear =>
    have never : ¬ wraps := by simp [e, kind]
    simp [never]
  | rotary =>
    have edge : wraps ↔ c = 0 := by simp [e, kind]
    by_cases there : c = 0 <;> simp [edge, there]

end Advance

section LagOutcomes
variable {b : Axis}

theorem Axis.lagCheck_deaf (other : b.eval.state = .seeking ∨ b.eval.state = .faultedLag) : b.lagCheck = b := by
  unfold Axis.lagCheck
  split
  · rfl
  · rcases other with e | e <;> rw [e]

theorem Axis.lagCheck_tracking (out : ¬ (-255 ≤ b.lag ∧ b.lag ≤ 255)) (tracks : b.eval.state = .tracking) :
    b.lagCheck = { b with
      eval := { b.eval with
        state := .faultedLag
        step := none
        guard := if b.eval.step = none then b.eval.guard else b.eval.guard.filter (staysGuarded b.config b.eval.e) }
      flags := b.flags ||| 0x10 } := by
  refine (if_neg (mt b.lagWithin_iff.mp out)).trans ?_
  rw [tracks]
  unfold Axis.lagFaultTracking Axis.endStep
  rw [Axis.releaseChecks_eq]
  obtain ⟨config, front, ⟨state, e, turn, bank, step, held, guard, settle⟩, list, cursor, flags, mask⟩ := b
  cases step <;> rfl

theorem Axis.lagCheck_stalled (out : ¬ (-255 ≤ b.lag ∧ b.lag ≤ 255)) (stalled : b.eval.state = .stalled) :
    b.lagCheck = { b with
      eval := { b.eval with state := .faultedLag, step := b.eval.step.map (fun st => { st with run := [] }) }
      flags := b.flags ||| 0x10 } := by
  refine (if_neg (mt b.lagWithin_iff.mp out)).trans ?_
  rw [stalled]
  rfl

end LagOutcomes

/-- Settles O33: a count is a range fault at the end of a LINEAR axis, and elsewhere one place on with the lag check there. -/
theorem countEventAndLag : Obligations.CountEventAndLag := by
  refine ⟨fun a d => ⟨fun linear atEnd => ?_, fun inside => ?_⟩, fun a => ⟨fun linear => ?_, fun rotary span => ?_⟩⟩
  · exact if_pos ⟨linear, atEnd.trans (linearEnd_eq d).symm⟩
  · intro wraps c turn b
    have moved : a.count d = b.lagCheck := by
      have stays : ¬ (a.config.kind = .linear ∧ a.front.c = linearEnd d) := by
        rintro ⟨linear, atEnd⟩
        rcases inside with rotary | away
        · rw [linear] at rotary
          cases rotary
        · exact away (atEnd.trans (linearEnd_eq d))
      refine (if_neg stays).trans ?_
      unfold Axis.moveCount
      cases d with
      | up => rw [advance_up a.config a.front.c a.front.liveTurn wraps Iff.rfl]
      | down => rw [advance_down a.config a.front.c a.front.liveTurn wraps Iff.rfl]
    refine ⟨fun within => ?_, fun other => ?_, fun out tracks => ?_, fun out stalled => ?_⟩
    · rw [moved, Axis.lagCheck_within b within]
    · rw [moved, Axis.lagCheck_deaf (b := b) other]
    · rw [moved, Axis.lagCheck_tracking (b := b) out tracks]
    · rw [moved, Axis.lagCheck_stalled (b := b) out stalled]
  · unfold Axis.lag lagOf
    rw [linear]
  · unfold Axis.lag lagOf
    rw [rotary]
    exact centre_spec span _

/-! ### Index edges -/

section IndexEdges
variable {s : State} {k : AxisId} {l : Level} {b : Axis}

theorem indexEdge_unqualified (un : ¬ (b.front.state = .counting ∧ l = edgeLevel b.config.indexEdge)) :
    (s.setAx k b).indexEdge k l = s.setAx k b := by
  refine if_neg ?_
  rw [State.setAx_ax_same]
  exact mt (b.edgeQualified_iff l).mp un

variable (qualified : b.front.state = .counting ∧ l = edgeLevel b.config.indexEdge)
include qualified

theorem indexEdge_home (armed : b.front.homeRequest = true) : (s.setAx k b).indexEdge k l =
    (s.setAx k (b.homeRebase.sought b.config.indexPreset 0)).updEngine (fun g => g.atSeek k) := by
  unfold State.indexEdge
  simp only [State.setAx_ax_same, (b.edgeQualified_iff l).mpr qualified, armed, if_true, State.setAx_updAx]
  exact seekStart_eq s k _ _ 0 0 (ite_self 0).symm

theorem indexEdge_mode (unarmed : b.front.homeRequest = false) : (s.setAx k b).indexEdge k l =
    match b.config.indexMode with
    | .off => s.setAx k b
    | .capture => s.setAx k (b.captureValue (.position b.front.c b.front.liveTurn))
    | .track =>
      if b.front.c = b.config.indexPreset then s.setAx k b
      else (s.setAx k b.trackRebase).seekStart k b.config.indexPreset b.trackTurn := by
  unfold State.indexEdge
  simp only [State.setAx_ax_same, (b.edgeQualified_iff l).mpr qualified, unarmed, if_true, State.setAx_updAx]
  cases b.config.indexMode <;> rfl

end IndexEdges

theorem Axis.captureValue_empty {a : Axis} (empty : a.front.slot = .empty) (value : CaptureSlot) :
    a.captureValue value = { a with front := { a.front with slot := value }, flags := a.flags ||| 0x02 } := by
  unfold Axis.captureValue
  rw [empty]
  rfl

theorem Axis.captureValue_full {a : Axis} (full : a.front.slot ≠ .empty) (value : CaptureSlot) :
    a.captureValue value = { a with flags := a.flags ||| 0x04 } := by
  unfold Axis.captureValue
  split
  · next empty => exact absurd empty full
  · rfl

/-- Settles O34: the edge of a row that is not home's nor a track's. -/
theorem indexCapture : Obligations.IndexCapture := by
  intro s k l i row a qualified
  rw [row.exec_eq]
  refine ⟨fun un => ?_, fun q unarmed off => ?_, fun q unarmed capture empty => ?_, fun q unarmed capture full => ?_⟩
  · exact congrArg _ (indexEdge_unqualified (b := a.withIndex l) un)
  · refine congrArg _ ((indexEdge_mode (b := a.withIndex l) q unarmed).trans ?_)
    rw [show (a.withIndex l).config.indexMode = .off from off]
  · refine congrArg _ ((indexEdge_mode (b := a.withIndex l) q unarmed).trans ?_)
    rw [show (a.withIndex l).config.indexMode = .capture from capture]
    exact congrArg (s.setAx k) (Axis.captureValue_empty (a := a.withIndex l) empty _)
  · refine congrArg _ ((indexEdge_mode (b := a.withIndex l) q unarmed).trans ?_)
    rw [show (a.withIndex l).config.indexMode = .capture from capture]
    exact congrArg (s.setAx k) (Axis.captureValue_full (a := a.withIndex l) full _)

/-- The track rebase with its slip, the slot taken or missed (R117, R124). -/
theorem Axis.trackRebase_eq {a : Axis} {slip : Int} (e : a.slip = slip) : a.trackRebase = { a with
    front := { a.front with
      c := a.config.indexPreset, liveTurn := a.trackTurn
      slot := if a.front.slot = .empty then .slip slip else a.front.slot }
    flags := a.flags ||| (if a.front.slot = .empty then 0x02 else 0x04) } := by
  unfold Axis.trackRebase
  rw [e]
  by_cases empty : a.front.slot = .empty
  · rw [if_pos empty, if_pos empty]
    exact Axis.captureValue_empty (a := { a with front := { a.front with
      c := a.config.indexPreset, liveTurn := a.trackTurn } }) empty _
  · rw [if_neg empty, if_neg empty]
    exact Axis.captureValue_full (a := { a with front := { a.front with
      c := a.config.indexPreset, liveTurn := a.trackTurn } }) empty _

/-- Settles O35: the home edge, the track edge at the preset, and the track edge away from it. -/
theorem indexRebase : Obligations.IndexRebase := by
  intro s k l i row counting edge a preset
  have qualified : (a.withIndex l).front.state = .counting ∧ l = edgeLevel (a.withIndex l).config.indexEdge :=
    ⟨counting, edge⟩
  rw [row.exec_eq]
  refine ⟨fun armed => ?_, fun unarmed track there => ?_,
    fun slip unarmed track rotary away turns low high => ?_⟩
  · exact congrArg _ (indexEdge_home qualified armed)
  · refine congrArg _ ((indexEdge_mode qualified unarmed).trans ?_)
    rw [show (a.withIndex l).config.indexMode = .track from track]
    exact if_pos there
  · intro turn
    obtain ⟨m, slip_eq⟩ := turns
    have slipped : (a.withIndex l).slip = slip := centre_unique _ slip m slip_eq low high
    have turned : (a.withIndex l).trackTurn = turn := by
      unfold Axis.trackTurn
      rw [slipped]
      rfl
    have kind : (a.withIndex l).trackRebase.config.kind = .rotary := by
      rw [Axis.trackRebase_eq slipped]
      exact rotary
    refine congrArg _ ((indexEdge_mode qualified unarmed).trans ?_)
    rw [show (a.withIndex l).config.indexMode = .track from track]
    refine (if_neg away).trans ((seekStart_eq s k _ _ _ turn ?_).trans ?_)
    · rw [kind, turned]
      rfl
    · rw [Axis.trackRebase_eq slipped, turned]
      rfl

end Sys2Proof.Machine
end

section
/-! PROOFS. The mailbox and the arbiter (O36, O37). -/

namespace Sys2Proof.Machine

/-! ### Table commands at the mailbox -/

/-- Every table command reaches the mailbox, and is answered as the mailbox takes it (R95, R147). -/
theorem TableRow.answers {s t : State} {i : Instr} {code tag : Byte} {params : List Byte} {command : TableCommand}
    {reply : Reply} (row : TableRow i code tag params command) (ready : Ready s code tag params)
    (e : toMailbox tag command (s.heard code tag params) = (t, reply)) : Answers i s t tag reply := by
  cases row with
  | allocate => exact answers_served rfl rfl ready (by simp) e
  | stage tag lo hi image size => exact answers_served rfl rfl ready (by simp [size]) ((if_pos size).trans e)
  | arm => exact answers_served rfl rfl ready (by simp) e
  | disarm => exact answers_served rfl rfl ready (by simp) e
  | move => exact answers_served rfl rfl ready (by simp) e
  | release => exact answers_served rfl rfl ready (by simp) e
  | retireBank tag ax b k bank axis number =>
    refine answers_served rfl rfl ready (by simp) ((withAxis_some axis _ _).trans ?_)
    rw [bankOf_eq_some number]
    exact e

theorem toMailbox_accepted {s : State} (takes : s.engine.mailbox = .empty ∨ ∃ r, s.engine.mailbox = .done r) (tag : Byte)
    (command : TableCommand) : toMailbox tag command s =
      ({ s with engine := Engine.withArrival { s.engine with mailbox := .waiting { tag := tag, command := command } } },
        bare .accepted) := by
  have taken : s.mailboxTake { tag := tag, command := command } =
      (s.updEngine (fun g => Engine.arrived { g with mailbox := .waiting { tag := tag, command := command } }), true) := by
    unfold State.mailboxTake
    rcases takes with e | ⟨r, e⟩ <;> rw [e]
  unfold toMailbox
  rw [taken]
  exact congrArg (fun g => ({ s with engine := g }, bare .accepted)) (arrived_eq _)

theorem toMailbox_busy {s : State} (busy : ∃ c, s.engine.mailbox = .waiting c ∨ s.engine.mailbox = .inProgress c)
    (tag : Byte) (command : TableCommand) : toMailbox tag command s = (s, bare .busy) := by
  have kept : s.mailboxTake { tag := tag, command := command } = (s, false) := by
    unfold State.mailboxTake
    obtain ⟨c, e | e⟩ := busy <;> rw [e]
  unfold toMailbox
  rw [kept]
  rfl

/-- Settles O36: the row is the mailbox's answer, whichever command it carries. -/
theorem tableCommandReachesMailbox : Obligations.TableCommandReachesMailbox := fun s _ code tag params command row ready =>
  ⟨fun takes => row.answers ready (toMailbox_accepted (s := s.heard code tag params) takes tag command),
    fun busy => row.answers ready (toMailbox_busy (s := s.heard code tag params) busy tag command)⟩

/-! ### The grant of a command -/

/-- A command that has been taken leaves queue and streak to the arbiter, and is in progress or has its result. -/
structure Commanded (s t : State) (request : TableRequest) : Prop where
  queue : t.engine.queue = s.engine.queue
  streak : t.engine.streak = s.engine.streak
  mailbox : t.engine.mailbox = .inProgress request ∨
    ∃ code data, t.engine.mailbox = .done { code := code, tag := request.tag, data := data }

section
variable {s t : State} {request : TableRequest} (going : s.engine.mailbox = .inProgress request)
include going

theorem Commanded.ends (t : State) (same : t.engine = s.engine) (code : ResultCode) (data : Nat) :
    Commanded s (t.finishMailbox code data) request := by
  rw [finishMailbox_inProgress (same ▸ going)]
  exact ⟨congrArg (fun g => g.queue) same, congrArg (fun g => g.streak) same, .inr ⟨code, data, rfl⟩⟩

theorem Begun.commanded (b : Begun s t) : Commanded s t request := by
  cases b with
  | ended code data => exact .ends going s rfl code data
  | allocated h rest head => exact .ends going ({ s with freePool := rest }.putRecord h allocatedRecord) rfl _ _
  | staged h image r state given => exact .ends going (State.putRecord _ _ _) rfl _ _
  | released h state unlinked => exact .ends going (s.freeRecord h) rfl _ _
  | arms h state fits => exact ⟨rfl, rfl, .inl going⟩
  | disarms h state => exact ⟨rfl, rfl, .inl going⟩
  | moves h p state fits => exact ⟨rfl, rfl, .inl going⟩
  | retires k bank => exact ⟨rfl, rfl, .inl going⟩

end

/-! ### The decision stands (R100) -/

/-- A decision that an idle engine has made stands. -/
def DecisionStands (g g' : Engine) : Prop :=
  g.occupant = .none → g.claim ≠ none → g'.occupant = .none ∧ g'.claim = g.claim

theorem DecisionStands.trans {g g' g'' : Engine} (p : DecisionStands g g') (q : DecisionStands g' g'') :
    DecisionStands g g'' := fun free decided => by
  obtain ⟨free', same⟩ := p free decided
  obtain ⟨free'', same'⟩ := q free' (same ▸ decided)
  exact ⟨free'', same'.trans same⟩

theorem DecisionStands.of_eq {g g' : Engine} (e : g' = g) : DecisionStands g g' := by
  subst e
  exact fun free _ => ⟨free, rfl⟩

/-- Whatever arrives finds the decision made. -/
theorem DecisionStands.arrived {g g' : Engine} (occupant : g'.occupant = g.occupant) (claim : g'.claim = g.claim) :
    DecisionStands g g'.arrived := fun free decided => by
  rcases arrived_cases g' with e | ⟨_, undecided, _⟩
  · rw [e]
    exact ⟨occupant.trans free, claim⟩
  · exact absurd (claim.symm.trans undecided) decided

theorem DecisionStands.moved (g : Engine) (k : AxisId) (f f' : Nat → Nat) :
    DecisionStands g { g with occupant := g.occupant.movePlace k f f' } :=
  fun free _ => ⟨(movePlace_none ..).mpr free, rfl⟩

theorem DecisionStands.sought (g : Engine) (k : AxisId) (axes : List AxisId) :
    DecisionStands g { g with stalled := axes, occupant := g.occupant.soughtList k } :=
  fun free _ => ⟨(movePlace_none ..).mpr free, rfl⟩

theorem DecisionStands.busy {g g' : Engine} (busy : g.occupant ≠ .none) : DecisionStands g g' :=
  fun free _ => absurd free busy

/-- The decision in `s` stands in `t`. -/
def Stands (s t : State) : Prop := DecisionStands s.engine t.engine

section Fires
variable (s : State) (k : AxisId) (h : Handle)

theorem guardFired_stands : Stands s (s.guardFired k h) := by
  rcases guardFired_rest s k h with e | e <;> rw [e] <;> exact .of_eq rfl

theorem autoRelease_stands : Stands s (s.autoRelease h) := .of_eq (autoRelease_rest s h).2.2.1

theorem finishFire_stands : Stands s (s.finishFire k h) := by
  unfold State.finishFire
  dsimp only
  split
  · exact guardFired_stands s k h
  · refine DecisionStands.trans (g' := (s.unlinkRecord k h
      { s.recordAt h with budget := 0, state := .spent }).engine) ?_ (autoRelease_stands _ h)
    exact .moved s.engine k _ _
  · exact guardFired_stands (s.putRecord h _) k h

theorem placeLink_stands (source target : Handle) : Stands s (s.placeLink source target) := .arrived rfl rfl

theorem fire_stands (d : Dir) (turn : Turn) : Stands s (s.fire k h d turn) := by
  have shown : Stands s ((s.lineRequest (s.recordAt h).action).putRecord h ((s.recordAt h).fired d turn)) :=
    .of_eq (lineRequest_engine s _)
  unfold State.fire
  dsimp only
  generalize (s.lineRequest (s.recordAt h).action).putRecord h ((s.recordAt h).fired d turn) = t at shown ⊢
  split
  · exact shown.trans (finishFire_stands t k h)
  · exact shown.trans (finishFire_stands (t.updAx k Axis.toggleBank) k h)
  · split
    · exact shown.trans ((placeLink_stands t h _).trans (finishFire_stands _ k h))
    · exact shown.trans (fun free _ => ⟨free, rfl⟩)

end Fires

section Changes
variable {s t : State} {k : AxisId}

theorem Examined.stands (x : Examined s k t) : Stands s t := by
  cases x with
  | nothing => exact .of_eq rfl
  | passes => exact .of_eq rfl
  | fires st h rest x e => exact fire_stands (s.updAx k (Axis.setRun st rest)) k h st.dir st.turn

theorem Placed.stands (x : Placed s t) : Stands s t := by
  cases x with
  | nothing => exact .of_eq rfl
  | completes k rest f stalled held room =>
    have placed : Stands s ((s.updEngine (fun g => { g with stalled := rest })).placeLink f.source f.target) :=
      .arrived rfl rfl
    exact placed.trans (finishFire_stands _ k f.source)

theorem Indexed.stands (x : Indexed s k t) : Stands s t := by
  cases x with
  | nothing => exact .of_eq rfl
  | captures v => exact .of_eq rfl
  | homes => exact .sought s.engine k _
  | tracks mode => exact .sought s.engine k _

theorem AxisRow.stands (x : AxisRow s k t) : Stands s t := by
  cases x with
  | axis f => exact .of_eq rfl
  | index fi =>
    rw [handOnIndex_eq]
    split
    · exact .of_eq rfl
    · exact (indexEdge_indexed (s.setAx k _) k _).stands
  | examine => exact (examine_examined s k).stands

theorem Owned.stands (o : Owned s t) : Stands s t := by
  cases o with
  | nothing => exact .of_eq rfl
  | axis k f => exact .of_eq rfl
  | modes mask mode => exact .of_eq rfl
  | acknowledge h => exact autoRelease_stands (s.putRecord h _) h
  | seeks k f target turn => exact .sought s.engine k _
  | enables p d m0 m1 m2 m3 => exact .of_eq rfl
  | take request =>
    rcases mailboxTake_eq s request with e | e <;> rw [e]
    · exact .of_eq rfl
    · exact .arrived rfl rfl
  | holdsReset => exact .of_eq rfl

theorem Heard.stands (x : Heard s t) : Stands s t := by
  cases x with
  | answers receiving p driven t o tag reply => exact o.stands
  | nothing | ignored | drained | takes | receives | filler | reply => exact .of_eq rfl

theorem selectPort_engine (s : State) : s.selectPort.engine = s.engine := by
  unfold State.selectPort
  split
  · rfl
  · split
    · rfl
    · split <;> rfl

theorem deselectPort_engine (s : State) : s.deselectPort.engine = s.engine ∨ s.deselectPort.engine = Engine.initial := by
  unfold State.deselectPort
  split
  · exact .inl rfl
  · split
    · exact .inr (resetBlocks_engine { s with ncs := .high })
    · exact .inl rfl

theorem linkEvent_stands (s : State) : Stands s s.linkEvent := fun free _ => by
  rw [linkEvent_idle (fun h k place work => nomatch free.symm.trans work)
    (fun h k place work => nomatch free.symm.trans work) (fun r k place work => nomatch free.symm.trans work)]
  exact ⟨free, rfl⟩

theorem unlinkEvent_stands (s : State) : Stands s s.unlinkEvent := fun free _ => by
  rw [unlinkEvent_idle (fun h k work => nomatch free.symm.trans work) (fun h k p work => nomatch free.symm.trans work)
    (fun k bank place count h work => nomatch free.symm.trans work)]
  exact ⟨free, rfl⟩

theorem retireCheck_stands (s : State) : Stands s s.retireCheck := fun free _ => by
  rw [retireCheck_idle (fun k bank place count work => nomatch free.symm.trans work)]
  exact ⟨free, rfl⟩

theorem retireEnd_stands (s : State) : Stands s s.retireEnd := fun free _ => by
  rw [retireEnd_idle (fun k bank place count work => nomatch free.symm.trans work)]
  exact ⟨free, rfl⟩

/-- No row but the grant and the resets ends a decision (R100). -/
theorem Ran.stands {i : Instr} (x : Ran s i t) (other : i ≠ .arbiterGrant) : Stands s t ∨ t.engine = Engine.initial := by
  cases x with
  | heard i t x => exact .inl x.stands
  | select => exact .inl (.of_eq (selectPort_engine s))
  | deselect => exact (deselectPort_engine s).imp_left .of_eq
  | power i nreset supply => exact .inr (resetBlocks_engine _)
  | rises | complete | qualifier | expires | ticks => exact .inl (.of_eq rfl)
  | axis i k t x => exact .inl x.stands
  | places => exact .inl (placeStalled_placed s).stands
  | grants => exact absurd rfl other
  | links => exact .inl (linkEvent_stands s)
  | unlinks => exact .inl (unlinkEvent_stands s)
  | checks => exact .inl (retireCheck_stands s)
  | walks => exact .inl (retireEnd_stands s)

end Changes

/-! ### The grant -/

section Grants
variable {s : State}

/-- The grant of a command: the queue as it was, the streak 0, the command in progress or ended (R96, R100). -/
theorem grant_command {tag : Byte} {command : TableCommand} (m : MailboxTurn s tag command) :
    s.grant.engine.queue = s.engine.queue ∧ s.grant.engine.streak = 0 ∧
      (s.grant.engine.mailbox = .inProgress { tag := tag, command := command } ∨
        ∃ code data, s.grant.engine.mailbox = .done { code := code, tag := tag, data := data }) := by
  rw [grant_mailbox m, takeMailbox_eq]
  obtain ⟨queue, streak, mailbox⟩ :=
    (beginCommand_begun (s.commandTaken { tag := tag, command := command }) command).commanded rfl
  exact ⟨queue, streak, mailbox⟩

theorem streakAfterLink_eq (g : Engine) : g.streakAfterLink =
    match g.mailbox with
    | .waiting _ => g.streak + 1
    | _ => 0 := by
  unfold Engine.streakAfterLink Engine.commandWaits
  cases g.mailbox <;> rfl

/-- The grant of a link request: the mailbox as it was, the streak counted, the request walked to or refused (R100). -/
theorem grant_request {request : LinkRequest} {rest : List LinkRequest} (l : LinkTurn s request rest) :
    s.grant.engine.mailbox = s.engine.mailbox ∧ s.grant.engine.streak = s.engine.streakAfterLink ∧
      ((s.grant.engine.queue = request :: rest ∧ ∃ k, s.grant.engine.occupant = .link request k 0) ∨
        (s.grant.engine.queue = rest ∧ s.grant.engine.occupant = .none)) := by
  rw [grant_link l, takeLink_eq]
  split
  · exact ⟨rfl, rfl, .inl ⟨l.oldest, _, rfl⟩⟩
  · rw [finishLink_fault]
    exact ⟨rfl, rfl, .inr ⟨congrArg List.tail l.oldest, rfl⟩⟩

end Grants

theorem choice_takes_link {g : Engine} (asked : g.queue ≠ []) (turn : (∀ c, g.mailbox ≠ .waiting c) ∨ g.streak < 4) :
    g.choice = some .link := by
  unfold Engine.choice
  split
  · next waiting =>
    rcases turn with none | below
    · exact absurd waiting (none _)
    · exact if_pos below
  · rfl
  · next empty _ => exact absurd empty asked
  · next empty _ => exact absurd empty asked

theorem choice_takes_command {g : Engine} {c : TableRequest} (waits : g.mailbox = .waiting c)
    (turn : g.queue = [] ∨ 4 ≤ g.streak) : g.choice = some .command := by
  unfold Engine.choice
  rw [waits]
  rcases turn with empty | full
  · rw [empty]
  · cases g.queue with
    | nil => rfl
    | cons r rest => exact if_neg (Nat.not_lt.mpr full)

/-- Settles O37: the choice by its cases, the two grants, and the decision that stands until one of them. -/
theorem arbiterChoice : Obligations.ArbiterChoice := by
  refine ⟨fun g => ⟨choice_takes_link, fun c => choice_takes_command, fun empty none => (choice_none g).mpr ⟨empty, none⟩⟩,
    fun s => ⟨fun tag command m => ⟨_, rfl, grant_command m⟩, fun request rest l => ⟨_, rfl, ?_⟩⟩,
    fun s t i free decided other e => ((exec_ran e).stands other).imp_left fun stands => stands free decided⟩
  obtain ⟨mailbox, streak, queue⟩ := grant_request l
  exact ⟨mailbox, streak.trans (streakAfterLink_eq _), queue⟩

end Sys2Proof.Machine
end

section
/-! PROOFS. Commands and link requests at their grant (O38 to O40). -/

namespace Sys2Proof.Machine

/-! ### The grant of a command -/

section Commands
variable {s : State} {tag : Byte} {command : TableCommand} (m : MailboxTurn s tag command)
include m

theorem grant_begins : exec .arbiterGrant s =
    .next ((s.commandTaken { tag := tag, command := command }).beginCommand command) :=
  congrArg Host.Outcome.next ((grant_mailbox m).trans (takeMailbox_eq s _))

/-- A command whose checks end it at its grant. -/
theorem grant_ends {code : ResultCode} {data : Nat}
    (e : (s.commandTaken { tag := tag, command := command }).beginCommand command =
      (s.commandTaken { tag := tag, command := command }).finishMailbox code data) :
    exec .arbiterGrant s = .next { s with engine := s.engine.endedWith tag code data } := by
  rw [grant_begins m, e]
  exact congrArg Host.Outcome.next (finish_taken s tag command code data)

/-- A command that ends at its grant with record `h` stored. -/
theorem grant_stores {code : ResultCode} {data : Nat} {h : Handle} {r : Record}
    (e : (s.commandTaken { tag := tag, command := command }).beginCommand command =
      ((s.commandTaken { tag := tag, command := command }).putRecord h r).finishMailbox code data) :
    exec .arbiterGrant s = .next ({ s with engine := s.engine.endedWith tag code data }.putRecord h r) := by
  rw [grant_begins m, e]
  exact congrArg (fun t => Host.Outcome.next (State.putRecord t h r)) (finish_taken s tag command code data)

/-- A command that passes its checks and holds the engine. -/
theorem grant_goesOn {operation : Operation}
    (e : (s.commandTaken { tag := tag, command := command }).beginCommand command =
      (s.commandTaken { tag := tag, command := command }).occupy operation) :
    exec .arbiterGrant s = .next { s with engine := s.engine.goesOnWith tag command operation } := by
  rw [grant_begins m, e]
  exact congrArg Host.Outcome.next (occupy_taken s tag command operation)

end Commands

/-! ### The operations, by what their checks find -/

section Operations
variable (s : State)

theorem withHandle_number (h : Handle) (op : Handle → State) : s.withHandle (handleNumber h) op = op h := by
  unfold State.withHandle
  rw [handleOf_handleNumber]

theorem withHandle_bad {n : Nat} (bad : n = 0 ∨ 1024 < n) (op : Handle → State) :
    s.withHandle n op = s.finishMailbox .badHandle 0 := by
  unfold State.withHandle
  rw [handleOf_eq_none bad]

variable {s} {h : Handle}

theorem opAllocate_empty (empty : s.freePool = []) : s.opAllocate = s.finishMailbox .noRecord 0 := by
  unfold State.opAllocate
  rw [empty]

theorem opAllocate_head {rest : List Handle} (head : s.freePool = h :: rest) : s.opAllocate =
    ({ s with freePool := rest }.putRecord h allocatedRecord).finishMailbox .ok (handleNumber h) := by
  unfold State.opAllocate
  rw [head]

theorem opStage_wrongState {image : List Byte}
    (wrong : (s.recordAt h).state ≠ .staged ∨ (s.recordAt h).isPending = true) :
    s.opStage h image = s.finishMailbox .wrongState 0 := by
  refine if_neg fun ready => ?_
  rcases wrong with other | pending
  · exact other ready.1
  · exact Bool.noConfusion (pending.symm.trans ready.2)

section Ready
variable {image : List Byte} (staged : (s.recordAt h).state = .staged) (quiet : (s.recordAt h).isPending = false)
include staged quiet

theorem opStage_badField (bad : stageRecord h (s.recordAt h) image = none) :
    s.opStage h image = s.finishMailbox .badField 0 := by
  refine (if_pos ⟨staged, quiet⟩).trans ?_
  rw [bad]

theorem opStage_stores {r : Record} (given : stageRecord h (s.recordAt h) image = some r) :
    s.opStage h image = (s.putRecord h r).finishMailbox .ok 0 := by
  refine (if_pos ⟨staged, quiet⟩).trans ?_
  rw [given]

end Ready

theorem opRelease_wrongState (wrong : (s.recordAt h).state ≠ .staged ∧ (s.recordAt h).state ≠ .spent) :
    s.opRelease h = s.finishMailbox .wrongState 0 := if_neg (not_or.mpr wrong)

theorem opRelease_outstanding (right : (s.recordAt h).state = .staged ∨ (s.recordAt h).state = .spent)
    (links : (s.recordAt h).outstanding ≠ 0) : s.opRelease h = s.finishMailbox .linkOutstanding 0 :=
  (if_pos right).trans (if_neg links)

theorem opRelease_frees (right : (s.recordAt h).state = .staged ∨ (s.recordAt h).state = .spent)
    (unlinked : (s.recordAt h).outstanding = 0) : s.opRelease h = (s.freeRecord h).finishMailbox .ok 0 :=
  (if_pos right).trans (if_pos unlinked)

theorem opArm_wrongState (wrong : (s.recordAt h).state ≠ .staged) : s.opArm h = s.finishMailbox .wrongState 0 :=
  if_neg wrong

theorem opArm_outOfRange (staged : (s.recordAt h).state = .staged) (out : ¬ s.armChecks (s.recordAt h) = true) :
    s.opArm h = s.finishMailbox .outOfRange 0 := (if_pos staged).trans (if_neg out)

theorem opArm_walks (staged : (s.recordAt h).state = .staged) (fits : s.armChecks (s.recordAt h) = true) :
    s.opArm h = s.occupy (.arm h (s.recordAt h).axis 0) := (if_pos staged).trans (if_pos fits)

theorem opMove_wrongState {p : Int} (wrong : (s.recordAt h).state ≠ .armed) :
    s.opMove h p = s.finishMailbox .wrongState 0 := if_neg wrong

theorem opMove_outOfRange {p : Int} (armed : (s.recordAt h).state = .armed)
    (out : ¬ inRange (s.ax (s.recordAt h).axis).config p = true) : s.opMove h p = s.finishMailbox .outOfRange 0 :=
  (if_pos armed).trans (if_neg out)

theorem opMove_unlinks {p : Int} (armed : (s.recordAt h).state = .armed)
    (fits : inRange (s.ax (s.recordAt h).axis).config p = true) :
    s.opMove h p = s.occupy (.moveUnlink h (s.recordAt h).axis p) := (if_pos armed).trans (if_pos fits)

end Operations

/-! ### ALLOCATE, STAGE and RELEASE -/

theorem putRecord_frame (s : State) (h : Handle) (r : Record) : s.putRecord h r =
    { s with records := (s.putRecord h r).records, pendingSet := (s.putRecord h r).pendingSet } := rfl

/-- Settles O38: the three commands that end at their grant, and what it is to store and to free a record. -/
theorem allocateStageAndRelease : Obligations.AllocateStageAndRelease := by
  refine ⟨fun s tag m => ⟨fun empty => grant_ends m (opAllocate_empty empty), fun h rest head => ?_⟩, fun s tag h => ?_,
    fun s h r => ⟨State.putRecord_recordAt_same s h r, OnlyRecord.putRecord s h r, putRecord_frame s h r, rfl⟩⟩
  · rw [grant_begins m]
    refine congrArg Host.Outcome.next ((opAllocate_head (s := s.commandTaken _) head).trans ?_)
    exact congrArg (fun t => ({ t with freePool := rest } : State).putRecord h allocatedRecord)
      (finish_taken s tag .allocate .ok (handleNumber h))
  · intro r
    refine ⟨fun image m => ⟨fun wrong => ?_, fun staged quiet bad => ?_, fun r' staged quiet given => ?_⟩,
      fun m => ⟨fun wrong => ?_, fun right links => ?_, fun right unlinked => ?_⟩⟩
    · exact grant_ends m ((withHandle_number _ h _).trans (opStage_wrongState wrong))
    · exact grant_ends m ((withHandle_number _ h _).trans (opStage_badField staged quiet bad))
    · exact grant_stores m ((withHandle_number _ h _).trans (opStage_stores (s := s.commandTaken _) staged quiet given))
    · exact grant_ends m ((withHandle_number _ h _).trans (opRelease_wrongState wrong))
    · exact grant_ends m ((withHandle_number _ h _).trans (opRelease_outstanding right links))
    · rw [grant_begins m]
      refine congrArg Host.Outcome.next ((withHandle_number _ h _).trans 
        ((opRelease_frees (s := s.commandTaken _) right unlinked).trans ?_))
      exact congrArg (fun t => State.freeRecord t h) (finish_taken s tag (.release (handleNumber h)) .ok 0)

/-! ### ARM, DISARM, MOVE and RETIRE BANK -/

/-- Settles O39: the checks of each command, in their order. -/
theorem listCommandsAtTheirGrant : Obligations.ListCommandsAtTheirGrant := by
  intro s tag
  refine ⟨fun n command bad names m => ?_, fun h m => ?_, fun h m => ?_, fun h p m => ?_, fun k bank m => ?_⟩
  · rcases names with ⟨image, rfl⟩ | rfl | rfl | ⟨p, rfl⟩ | rfl <;> exact grant_ends m (withHandle_bad _ bad _)
  · have begins := withHandle_number (s.commandTaken { tag := tag, command := .arm (handleNumber h) }) h
      (s.commandTaken { tag := tag, command := .arm (handleNumber h) }).opArm
    have checks := armChecks_iff s (s.recordAt h)
    exact ⟨fun wrong => grant_ends m (begins.trans (opArm_wrongState wrong)),
      fun staged out => grant_ends m (begins.trans (opArm_outOfRange staged (mt checks.mp out))),
      fun staged fits => grant_goesOn m (begins.trans (opArm_walks staged (checks.mpr fits)))⟩
  · have begins := withHandle_number (s.commandTaken { tag := tag, command := .disarm (handleNumber h) }) h
      (s.commandTaken { tag := tag, command := .disarm (handleNumber h) }).opDisarm
    exact ⟨fun wrong => grant_ends m (begins.trans (if_neg wrong)),
      fun armed => grant_goesOn m (begins.trans (if_pos armed))⟩
  · intro r fits
    have begins := withHandle_number (s.commandTaken { tag := tag, command := .move (handleNumber h) p }) h
      (fun g => (s.commandTaken { tag := tag, command := .move (handleNumber h) p }).opMove g p)
    have range := inRange_iff (s.ax (s.recordAt h).axis).config p
    exact ⟨fun wrong => grant_ends m (begins.trans (opMove_wrongState wrong)),
      fun armed out => grant_ends m (begins.trans (opMove_outOfRange armed (mt range.mp out))),
      fun armed inside => grant_goesOn m (begins.trans (opMove_unlinks armed (range.mpr inside)))⟩
  · exact ⟨fun active => grant_ends m (if_pos active), fun other => grant_goesOn m (if_neg other)⟩

/-! ### A link request at its grant -/

/-- Settles O40: the request walks to a target that ARM would take, and ends with the link fault otherwise. -/
theorem linkRequestAtItsGrant : Obligations.LinkRequestAtItsGrant := by
  intro s request rest l target source armable
  have checks : (target.state = .staged ∧ s.armChecks target = true) ↔ armable :=
    and_congr_right fun _ => armChecks_iff s target
  have granted : exec .arbiterGrant s = .next (s.takeLink request) := congrArg Host.Outcome.next (grant_link l)
  rw [granted, takeLink_eq]
  refine ⟨fun passes => congrArg Host.Outcome.next (if_pos (checks.mpr passes)), fun fails => ?_⟩
  refine congrArg Host.Outcome.next ((if_neg (mt checks.mp fails)).trans ?_)
  have tail : s.engine.queue.tail = rest := congrArg List.tail l.oldest
  rw [finishLink_fault, ← tail]
  rfl

end Sys2Proof.Machine
end

section
/-! PROOFS. Link and unlink events, and the walk of RETIRE BANK (O41 to O45). -/

namespace Sys2Proof.Machine

/-! ### Links -/

section Links
variable (s : State) (k : AxisId) (h : Handle)

theorem linkRecord_linkedInto :
    LinkedInto s.posOf (s.posOf h) h (s.ax k).list ((s.linkRecord k h).ax k).list := by
  rw [linkRecord_ax]
  exact insertAfter_links s.posOf (s.posOf h) h (s.ax k).list

theorem linkRecord_ax_frame : (s.linkRecord k h).ax k = { s.ax k with
    list := ((s.linkRecord k h).ax k).list
    cursor := (s.ax k).cursor.map (fun n => if s.posOf h ≤ (s.ax k).eval.e then n + 1 else n) } := by
  rw [linkRecord_ax]

end Links

section LinkEvents
variable {s : State} {h : Handle} {k : AxisId} {place : Nat}

theorem linkEvent_command
    (work : s.engine.occupant = .mailbox (.arm h k place) ∨ s.engine.occupant = .mailbox (.moveRelink h k place)) :
    s.linkEvent = if s.seeking k then s else (s.linkRecord k h).finishMailbox .ok 0 := by
  unfold State.linkEvent
  rcases work with e | e <;> rw [e]

theorem linkEvent_request {r : LinkRequest} (work : s.engine.occupant = .link r k place) :
    s.linkEvent = if s.seeking k then s else (s.linkRecord k r.target).finishLink r.source false := by
  unfold State.linkEvent
  rw [work]

end LinkEvents

/-- Settles O41: the record is linked, and the command ends in the same event. -/
theorem linkEvent : Obligations.LinkEvent := by
  intro s h k place request work going
  have event := linkEvent_command work
  refine ⟨fun seeking => congrArg Host.Outcome.next (event.trans (if_pos ((seeking_iff s k).mpr seeking))), fun still => ?_⟩
  refine ⟨(s.linkRecord k h).finishMailbox .ok 0,
    congrArg Host.Outcome.next (event.trans (if_neg (mt (seeking_iff s k).mp still))), linkRecord_recordAt s k h,
    (linkRecord_only s k h).congr rfl rfl rfl rfl, linkRecord_linkedInto s k h, linkRecord_ax_frame s k h,
    fun j other => linkRecord_ax_other s k j h other, ?_, rfl, rfl, (linkRecord_rest s k h).1.updEngine _⟩
  exact congrArg State.engine (finishMailbox_inProgress (s := s.linkRecord k h) going .ok 0)

/-! ### The end of a link request -/

/-- The end of a request that was granted: its source has one link less, and is freed if nothing is left of it (R18, R111). -/
theorem finishLink_done (s : State) (source : Handle) : s.finishLink source false =
    ((s.putRecord source { s.recordAt source with outstanding := (s.recordAt source).outstanding - 1 }).updEngine
      (fun g => Engine.idleAgain { g with queue := g.queue.tail })).autoRelease source := by
  unfold State.finishLink
  dsimp only
  rw [Bool.or_false]
  simp only [freed_eq]

/-- A source with one link less is released exactly when it was at its last link and all else was done (R18). -/
theorem autoReleases_lowered (r : Record) :
    ({ r with outstanding := r.outstanding - 1 } : Record).autoReleases = true ↔
      r.state = .spent ∧ r.keep = .auto ∧ r.isPending = false ∧ r.outstanding ≤ 1 := by
  rw [autoReleases_iff]
  refine and_congr_right fun _ => and_congr_right fun _ => and_congr_right fun _ => ?_
  show r.outstanding - 1 = 0 ↔ r.outstanding ≤ 1
  omega

section Done
variable (s : State) (source : Handle)

theorem finishLink_done_only : OnlyRecord s (s.finishLink source false) source := by
  rw [finishLink_done]
  have lowered : OnlyRecord s ((s.putRecord source
      { s.recordAt source with outstanding := (s.recordAt source).outstanding - 1 }).updEngine
        (fun g => Engine.idleAgain { g with queue := g.queue.tail })) source :=
    (OnlyRecord.putRecord s source _).congr rfl rfl rfl rfl
  exact lowered.trans (autoRelease_only _ source lowered.own)

theorem finishLink_done_rest : (∀ k, (s.finishLink source false).ax k = s.ax k) ∧
    (s.finishLink source false).lines = s.lines ∧
    (s.finishLink source false).engine = Engine.idleAgain { s.engine with queue := s.engine.queue.tail } ∧
    RestKept s (s.finishLink source false) := by
  rw [finishLink_done]
  obtain ⟨ax, lines, engine, rest⟩ := autoRelease_rest ((s.putRecord source
    { s.recordAt source with outstanding := (s.recordAt source).outstanding - 1 }).updEngine
      (fun g => Engine.idleAgain { g with queue := g.queue.tail })) source
  exact ⟨ax, lines, engine, (((RestKept.refl s).putRecord source _).updEngine _).trans rest⟩

/-- The source as the end of its request leaves it, and whether it is freed. -/
theorem finishLink_done_source : let r := s.recordAt source
    let freed := r.state = .spent ∧ r.keep = .auto ∧ r.isPending = false ∧ r.outstanding ≤ 1
    (¬ freed → (s.finishLink source false).recordAt source = { r with outstanding := r.outstanding - 1 } ∧
      (s.finishLink source false).freePool = s.freePool) ∧
    (freed → (s.finishLink source false).recordAt source = Record.cleared ∧
      (s.finishLink source false).freePool = s.freePool ++ [source]) := by
  intro r freed
  rw [finishLink_done]
  have stored : ((s.putRecord source { r with outstanding := r.outstanding - 1 }).updEngine
      (fun g => Engine.idleAgain { g with queue := g.queue.tail })).recordAt source =
        { r with outstanding := r.outstanding - 1 } := State.putRecord_recordAt_same s source _
  have releases := autoReleases_lowered r
  rcases autoRelease_cases ((s.putRecord source { r with outstanding := r.outstanding - 1 }).updEngine
      (fun g => Engine.idleAgain { g with queue := g.queue.tail })) source with ⟨yes, e⟩ | ⟨no, e⟩
  · rw [stored] at yes
    refine ⟨fun kept => absurd (releases.mp yes) kept, fun _ => ?_⟩
    rw [e]
    exact ⟨(freeRecord_recordAt _ source source).trans (if_pos rfl), rfl⟩
  · rw [stored] at no
    refine ⟨fun _ => ?_, fun all => absurd (no.symm.trans (releases.mpr all)) Bool.false_ne_true⟩
    rw [e]
    exact ⟨stored, rfl⟩

end Done

/-- Settles O42: the target is linked and the request ends in the same event, two records changed and no more. -/
theorem linkEventOfARequest : Obligations.LinkEventOfARequest := by
  intro s r k place work apart source freed
  have event := linkEvent_request work
  refine ⟨fun seeking => congrArg Host.Outcome.next (event.trans (if_pos ((seeking_iff s k).mpr seeking))), fun still => ?_⟩
  have target := linkRecord_only s k r.target
  have ended := finishLink_done_only (s.linkRecord k r.target) r.source
  obtain ⟨ax, lines, engine, rest⟩ := finishLink_done_rest (s.linkRecord k r.target) r.source
  obtain ⟨kept, released⟩ := finishLink_done_source (s.linkRecord k r.target) r.source
  rw [target.records r.source apart] at kept released
  have target_kept := ended.records r.target apart.symm
  refine ⟨_, congrArg Host.Outcome.next (event.trans (if_neg (mt (seeking_iff s k).mp still))),
    target_kept.trans (linkRecord_recordAt s k r.target), kept, released, fun g source_ne target_ne => ?_, fun g which => ?_,
    ?_, ?_, fun j other => (ax j).trans (linkRecord_ax_other s k j _ other), engine, lines,
    (linkRecord_rest s k r.target).1.trans rest⟩
  · exact ⟨(ended.records g source_ne).trans (target.records g target_ne),
      (ended.members g source_ne).trans (target.members g target_ne)⟩
  · rcases which with rfl | rfl
    · exact ended.own
    · rw [target_kept]
      exact (ended.members _ apart.symm).trans target.own
  · rw [ax k]
    exact linkRecord_linkedInto s k r.target
  · rw [ax k]
    exact linkRecord_ax_frame s k r.target

/-! ### Unlinks -/

/-- Record `h` has left list `k`, its side of the cursor and the guard set, and nothing else of the part but the engine has
changed. -/
def LeftList (s t : State) (h : Handle) (k : AxisId) : Prop :=
  OnlyRecord s t h ∧
  t.ax k = { s.ax k with
    list := (s.ax k).list.erase h
    cursor := (s.ax k).cursor.map (fun n => if (s.ax k).list.idxOf h < n then n - 1 else n)
    eval := { (s.ax k).eval with guard := (s.ax k).eval.guard.filter (fun g => decide (g.handle ≠ h)) } } ∧
  (∀ j, j ≠ k → t.ax j = s.ax j) ∧ t.lines = s.lines ∧ t.freePool = s.freePool ∧ RestKept s t

theorem unlinkRecord_left (s : State) (k : AxisId) (h : Handle) (r : Record) (f : Engine → Engine) :
    LeftList s ((s.unlinkRecord k h r).updEngine f) h k :=
  ⟨(unlinkRecord_only s k h r).congr rfl rfl rfl rfl, unlinkRecord_ax s k h r,
    fun j other => unlinkRecord_ax_other s k j h r other, rfl, rfl, (unlinkRecord_rest s k h r).1.updEngine f⟩

section UnlinkEvents
variable {s : State} {h : Handle} {k : AxisId}

theorem unlinkEvent_disarm (work : s.engine.occupant = .mailbox (.disarm h k)) :
    s.unlinkEvent = if s.unlinkWaits k h then s else s.unlinkDisarm h k := by
  unfold State.unlinkEvent
  rw [work]

theorem unlinkEvent_move {p : Int} (work : s.engine.occupant = .mailbox (.moveUnlink h k p)) :
    s.unlinkEvent = if s.unlinkWaits k h then s else s.unlinkMove h k p := by
  unfold State.unlinkEvent
  rw [work]

theorem unlinkEvent_retire {bank : Bank} {place count : Nat}
    (work : s.engine.occupant = .mailbox (.retire k bank place count (some h))) :
    s.unlinkEvent = if s.unlinkWaits k h then s else s.unlinkRetire k bank place count h := by
  unfold State.unlinkEvent
  rw [work]

end UnlinkEvents

/-- Settles O43: the three operations wait alike, and each ends or goes on without the record. -/
theorem unlinkEventWaitsAndRefuses : Obligations.UnlinkEventWaitsAndRefuses := by
  intro s h k operation sent work inStep
  have waits : s.unlinkWaits k h = true ↔ (s.ax k).eval.state = .seeking ∨ inStep := unlinkWaits_iff s k h
  refine ⟨fun held => congrArg Host.Outcome.next ?_, fun still out gone => ?_⟩
  · rcases sent with rfl | ⟨p, rfl⟩ | ⟨bank, place, count, rfl⟩
    · exact (unlinkEvent_disarm work).trans (if_pos (waits.mpr held))
    · exact (unlinkEvent_move work).trans (if_pos (waits.mpr held))
    · exact (unlinkEvent_retire work).trans (if_pos (waits.mpr held))
  · have taken : ¬ s.unlinkWaits k h = true := mt waits.mp (not_or.mpr ⟨still, out⟩)
    refine ⟨fun request named going => congrArg Host.Outcome.next ?_, fun bank place count e => congrArg Host.Outcome.next ?_⟩
    · refine Eq.trans ?_ (finishMailbox_inProgress going .wrongState 0)
      rcases named with rfl | ⟨p, rfl⟩
      · exact (unlinkEvent_disarm work).trans ((if_neg taken).trans (if_neg gone))
      · exact (unlinkEvent_move work).trans ((if_neg taken).trans (if_neg gone))
    · subst e
      exact (unlinkEvent_retire work).trans ((if_neg taken).trans (if_neg gone))

/-- Settles O44: the record leaves its list, and the operation goes on or ends in the same event. -/
theorem unlinkEventTakesTheRecord : Obligations.UnlinkEventTakesTheRecord := by
  intro s h k operation work still armed notInRun notHeld left
  have taken : ¬ s.unlinkWaits k h = true := by
    rw [unlinkWaits_iff]
    rintro (seeking | ⟨st, step, inRun⟩ | ⟨f, held, own⟩)
    · exact still seeking
    · exact notInRun st step inRun
    · exact notHeld f held own
  have leaves (r : Record) (f : Engine → Engine) : left ((s.unlinkRecord k h r).updEngine f) := unlinkRecord_left s k h r f
  refine ⟨fun request e going => ?_, fun p e => ?_, fun bank place count e => ?_⟩ <;> subst e
  · refine ⟨_, congrArg Host.Outcome.next ((unlinkEvent_disarm work).trans ((if_neg taken).trans (if_pos armed))),
      leaves _ _, unlinkRecord_recordAt s k h _, ?_⟩
    exact congrArg State.engine (finishMailbox_inProgress (s := s.unlinkRecord k h _) going .ok 0)
  · exact ⟨_, congrArg Host.Outcome.next ((unlinkEvent_move work).trans ((if_neg taken).trans (if_pos armed))),
      leaves _ _, unlinkRecord_recordAt s k h _, rfl⟩
  · exact ⟨_, congrArg Host.Outcome.next ((unlinkEvent_retire work).trans ((if_neg taken).trans (if_pos armed))),
      leaves _ _, unlinkRecord_recordAt s k h _, rfl⟩

/-! ### The walk of RETIRE BANK -/

section RetireWalk
variable {s : State} {k : AxisId} {bank : Bank} {place count : Nat}
variable (work : s.engine.occupant = .mailbox (.retire k bank place count none))
include work

theorem retireCheck_walk : s.retireCheck = if s.seeking k then s else
    match s.nextOfBank bank ((s.ax k).list.drop place) with
    | none => s
    | some (passed, h) =>
      if (s.ax k).eval.bank = bank then s.finishMailbox .partialRetire count
      else s.occupy (.retire k bank (place + passed) count (some h)) := by
  unfold State.retireCheck
  rw [work] <;> rfl

theorem retireEnd_walk : s.retireEnd = if s.seeking k then s else
    match s.nextOfBank bank ((s.ax k).list.drop place) with
    | none => s.finishMailbox .ok count
    | some _ => s := by
  unfold State.retireEnd
  rw [work] <;> rfl

end RetireWalk

/-- Settles O45: a held walk, a walk that meets a record of the bank, and one that meets none. -/
theorem retireBankWalk : Obligations.RetireBankWalk := by
  intro s k bank place count request work going
  have check := retireCheck_walk work
  have finish := retireEnd_walk work
  refine ⟨fun seeking => ?_, fun still => ⟨fun passed h rest list others own => ?_, fun others => ?_⟩⟩
  · have held : s.seeking k = true := (seeking_iff s k).mpr seeking
    exact ⟨congrArg Host.Outcome.next (check.trans (if_pos held)), congrArg Host.Outcome.next (finish.trans (if_pos held))⟩
  · have free : ¬ s.seeking k = true := mt (seeking_iff s k).mp still
    have next : s.nextOfBank bank ((s.ax k).list.drop place) = some (passed.length, h) := by
      rw [list]
      exact nextOfBank_some s bank passed rest h others own
    rw [next] at check finish
    refine ⟨fun active => ?_, fun inactive => ?_, congrArg Host.Outcome.next (finish.trans (if_neg free))⟩
    · exact congrArg Host.Outcome.next ((check.trans ((if_neg free).trans (if_pos active))).trans
        (finishMailbox_inProgress going .partialRetire count))
    · exact congrArg Host.Outcome.next (check.trans ((if_neg free).trans (if_neg inactive)))
  · have free : ¬ s.seeking k = true := mt (seeking_iff s k).mp still
    rw [nextOfBank_none s bank _ others] at check finish
    exact ⟨congrArg Host.Outcome.next (check.trans (if_neg free)),
      congrArg Host.Outcome.next ((finish.trans (if_neg free)).trans (finishMailbox_inProgress going .ok count))⟩

end Sys2Proof.Machine
end

section
/-! PROOFS. Step starts, passed records, and the end of a seek (O46, O47, O52). -/

namespace Sys2Proof.Machine

/-! ### One place on, and the cursor with it (R28, R29, R30) -/

section Places
variable {cfg : AxisConfig} {e : Int} (turn : Turn)

theorem advance_up_inside (inside : cfg.kind = .linear ∨ e ≠ (cfg.span : Int) - 1) :
    advance cfg .up e turn = (e + 1, turn) := by
  unfold advance
  cases kind : cfg.kind with
  | linear => rfl
  | rotary => exact if_neg (inside.resolve_left (by simp [kind]))

theorem advance_up_round (rotary : cfg.kind = .rotary) (edge : e = (cfg.span : Int) - 1) :
    advance cfg .up e turn = (0, turn + 1) := by
  unfold advance
  rw [rotary]
  exact if_pos edge

theorem advance_down_inside (inside : cfg.kind = .linear ∨ e ≠ 0) : advance cfg .down e turn = (e - 1, turn) := by
  unfold advance
  cases kind : cfg.kind with
  | linear => rfl
  | rotary => exact if_neg (inside.resolve_left (by simp [kind]))

theorem advance_down_round (rotary : cfg.kind = .rotary) (edge : e = 0) :
    advance cfg .down e turn = ((cfg.span : Int) - 1, turn - 1) := by
  unfold advance
  rw [rotary]
  exact if_pos edge

variable (listLen len lower : Nat)

theorem stepCursor_up_inside (inside : cfg.kind = .linear ∨ e ≠ (cfg.span : Int) - 1) :
    stepCursor cfg .up e listLen len lower = lower + len := by
  unfold stepCursor
  cases kind : cfg.kind with
  | linear => rfl
  | rotary => exact if_neg (inside.resolve_left (by simp [kind]))

theorem stepCursor_up_round (rotary : cfg.kind = .rotary) (edge : e = (cfg.span : Int) - 1) :
    stepCursor cfg .up e listLen len lower = len := by
  unfold stepCursor
  rw [rotary]
  exact if_pos edge

theorem stepCursor_down_inside (inside : cfg.kind = .linear ∨ e ≠ 0) :
    stepCursor cfg .down e listLen len lower = lower - len := by
  unfold stepCursor
  cases kind : cfg.kind with
  | linear => rfl
  | rotary => exact if_neg (inside.resolve_left (by simp [kind]))

theorem stepCursor_down_round (rotary : cfg.kind = .rotary) (edge : e = 0) :
    stepCursor cfg .down e listLen len lower = listLen := by
  unfold stepCursor
  rw [rotary]
  exact if_pos edge

end Places

/-! ### The step start -/

/-- The axis after the start of a step to `e`, with `run` to examine and the cursor moved by `lower` (R28, R63, R71, R79). -/
def Axis.stepped (a : Axis) (d : Dir) (e : Int) (turn crossing : Turn) (run : List Handle) (lower : Nat → Nat) : Axis :=
  { a with
    cursor := a.cursor.map lower
    eval := { a.eval with
      e := e
      evalTurn := turn
      step := if run = [] then none else some { dir := d, turn := crossing, run := run }
      guard := if run = [] then a.eval.guard.filter (staysGuarded a.config e) else a.eval.guard
      settle := if e = a.front.c then false else a.eval.settle }
    flags := if a.eval.settle = true ∧ e = a.front.c then a.flags ||| 0x80 else a.flags }

/-- A step started by hand, and ended at once when its run is empty. -/
theorem Axis.endStep_ifEmpty (a : Axis) (st : CrossingStep) (step : a.eval.step = some st) :
    (if st.run.isEmpty then a.endStep else a) = { a with
      eval := { a.eval with
        step := if st.run = [] then none else some st
        guard := if st.run = [] then a.eval.guard.filter (staysGuarded a.config a.eval.e) else a.eval.guard } } := by
  obtain ⟨d, turn, run⟩ := st
  cases run with
  | nil => simp [Axis.endStep, Axis.releaseChecks_eq]
  | cons x xs => simp [← step]

theorem Axis.stepStart_stepped {pos : Handle → Int} {a : Axis} {d : Dir} {e : Int} {turn crossing : Turn}
    {run : List Handle} {lower : Nat → Nat} (tracking : a.eval.state = .tracking) (idle : a.eval.step = none)
    (dir : a.stepDir = some d) (place : advance a.config d a.eval.e a.eval.evalTurn = (e, turn))
    (crosses : crossingTurn a.config d a.eval.e a.eval.evalTurn = crossing)
    (fixed : runOrder d (a.list.filter (fun h => decide (pos h = crossedPosition a.config d a.eval.e a.eval.evalTurn))) = run)
    (cursor : ∀ n, stepCursor a.config d a.eval.e a.list.length run.length n = lower n) :
    Axis.stepStart pos a = a.stepped d e turn crossing run lower := by
  have starts : Axis.stepStart pos a = (a.beginStep pos d).settleCheck := by
    unfold Axis.stepStart
    rw [tracking, idle, dir]
  have moved : stepCursor a.config d a.eval.e a.list.length run.length = lower := funext cursor
  have begun : a.beginStep pos d = { a with
      cursor := a.cursor.map lower
      eval := { a.eval with
        e := e
        evalTurn := turn
        step := if run = [] then none else some { dir := d, turn := crossing, run := run }
        guard := if run = [] then a.eval.guard.filter (staysGuarded a.config e) else a.eval.guard } } := by
    unfold Axis.beginStep
    dsimp only
    rw [fixed, place, crosses, moved]
    exact Axis.endStep_ifEmpty { a with
      cursor := a.cursor.map lower
      eval := { a.eval with e := e, evalTurn := turn, step := some { dir := d, turn := crossing, run := run } } } _ rfl
  rw [starts, begun, settleCheck_eq]
  rfl

section Directions
variable {a : Axis}

theorem Axis.stepDir_up (ahead : 0 < a.lag) : a.stepDir = some .up := if_pos ahead

theorem Axis.stepDir_down (behind : a.lag < 0) : a.stepDir = some .down :=
  (if_neg (by omega)).trans (if_pos behind)

theorem crossedPosition_up {cfg : AxisConfig} {e e' : Int} {turn turn' : Turn}
    (place : advance cfg .up e turn = (e', turn')) :
    crossedPosition cfg .up e turn = e' ∧ crossingTurn cfg .up e turn = turn' :=
  ⟨congrArg Prod.fst place, congrArg Prod.snd place⟩

end Directions

/-- Settles O46: the four steps, up and down, inside the range and round the span. -/
theorem stepStart : Obligations.StepStart := by
  intro s k tracking idle a stepped standing
  have row {d : Dir} {e : Int} {turn crossing : Turn} {run : List Handle} {lower : Nat → Nat}
      (same : Axis.stepStart s.posOf a = a.stepped d e turn crossing run lower) :
      exec (.stepStart k) s = .next (stepped d e turn crossing run lower) :=
    congrArg (fun x => Host.Outcome.next (s.setAx k x)) same
  refine ⟨fun ahead inside => row ?_, fun ahead rotary edge => row ?_, fun behind inside => row ?_,
    fun behind rotary edge => row ?_⟩
  · have place := advance_up_inside a.eval.evalTurn inside
    obtain ⟨crossed, crossing⟩ := crossedPosition_up place
    refine Axis.stepStart_stepped tracking idle (Axis.stepDir_up ahead) place crossing ?_
      fun n => stepCursor_up_inside _ _ n inside
    rw [crossed]
    rfl
  · have place := advance_up_round a.eval.evalTurn rotary edge
    obtain ⟨crossed, crossing⟩ := crossedPosition_up place
    refine Axis.stepStart_stepped tracking idle (Axis.stepDir_up ahead) place crossing ?_
      fun n => stepCursor_up_round _ _ n rotary edge
    rw [crossed]
    rfl
  · refine Axis.stepStart_stepped tracking idle (Axis.stepDir_down behind) (advance_down_inside _ inside) rfl rfl
      fun n => ?_
    rw [stepCursor_down_inside _ _ n inside, List.length_reverse]
  · have there : a.eval.e = 0 := edge
    refine Axis.stepStart_stepped tracking idle (Axis.stepDir_down behind) (advance_down_round _ rotary edge) rfl ?_
      fun n => stepCursor_down_round _ _ n rotary edge
    show (a.list.filter (fun h => decide (s.posOf h = a.eval.e))).reverse = _
    rw [there]

/-! ### The end of a seek -/

theorem Axis.seekComplete_seeking {pos : Handle → Int} {a : Axis} (seeking : a.eval.state = .seeking) :
    Axis.seekComplete pos a = if a.lagWithin then
      Axis.settleCheck { a with
        cursor := some (a.list.filter (fun h => decide (pos h ≤ a.eval.e))).length
        eval := { a.eval with state := .tracking } }
    else { a with
      cursor := some (a.list.filter (fun h => decide (pos h ≤ a.eval.e))).length
      eval := { a.eval with state := .faultedLag }
      flags := a.flags ||| 0x10 } := by
  unfold Axis.seekComplete
  rw [seeking]
  rfl

/-- Settles O52: the cursor is counted afresh, and the lag as it stands decides. -/
theorem seekComplete : Obligations.SeekComplete := by
  intro s k seeking a cursor
  have completes := Axis.seekComplete_seeking (pos := s.posOf) seeking
  have row {x : Axis} (same : Axis.seekComplete s.posOf a = x) : exec (.seekComplete k) s = .next (s.setAx k x) :=
    congrArg (fun x => Host.Outcome.next (s.setAx k x)) same
  refine ⟨fun within => row ?_, fun out => row ?_⟩
  · refine completes.trans ((if_pos (a.lagWithin_iff.mpr within)).trans ?_)
    rw [settleCheck_eq]
  · refine completes.trans (if_neg fun within => ?_)
    have bounds := a.lagWithin_iff.mp within
    omega

/-! ### Records that pass -/

theorem exec_examine (s : State) (k : AxisId) : exec (.examineRecord k) s = .next (s.examine k) := rfl

/-- Settles O47: the run loses the record, and the step ends when it was the last. -/
theorem ineligibleRecordPasses : Obligations.IneligibleRecordPasses := by
  intro s k st h rest x free ineligible a
  rw [exec_examine, examine_eq x, if_neg (mt (eligible_iff a st h (s.recordAt h) s.qualifiers).mp ineligible),
    State.updAx_updAx, State.updAx_eq]
  exact congrArg (fun b => Host.Outcome.next (s.setAx k b))
    (stepGoesOn_eq (Axis.setRun st rest a) { st with run := rest } rfl free)

end Sys2Proof.Machine
end

section
/-! PROOFS. Fires: whole, exhausting, held, and completed (O48 to O51). -/

namespace Sys2Proof.Machine

/-! ### The end of a fire -/

/-- Record `h` of list `k` has used up its budget: it has left the list, its side of the cursor and the guard set, and is SPENT,
or FREE where auto-release holds (R15, R18, R24). -/
structure Exhausted (s : State) (k : AxisId) (h : Handle) (spent : Record) (t : State) : Prop where
  kept : ¬ spent.autoReleases = true → t.recordAt h = spent ∧ t.freePool = s.freePool
  freed : spent.autoReleases = true → t.recordAt h = Record.cleared ∧ t.freePool = s.freePool ++ [h]
  only : OnlyRecord s t h
  axis : t.ax k = { s.ax k with
    list := (s.ax k).list.erase h
    cursor := (s.ax k).cursor.map (fun n => if (s.ax k).list.idxOf h < n then n - 1 else n)
    eval := { (s.ax k).eval with guard := (s.ax k).eval.guard.filter (fun g => decide (g.handle ≠ h)) } }
  others : ∀ j, j ≠ k → t.ax j = s.ax j
  lines : t.lines = s.lines
  engine : t.engine =
    { s.engine with occupant := s.engine.occupant.afterRemoval k ((s.ax k).list.idxOf h) }
  rest : RestKept s t

theorem unlinkRecord_exhausted (s : State) (k : AxisId) (h : Handle) (spent : Record) :
    Exhausted s k h spent ((s.unlinkRecord k h spent).autoRelease h) := by
  obtain ⟨rest, lines, freePool, engine⟩ := unlinkRecord_rest s k h spent
  obtain ⟨ax, lines', engine', rest'⟩ := autoRelease_rest (s.unlinkRecord k h spent) h
  have only := unlinkRecord_only s k h spent
  have stored := unlinkRecord_recordAt s k h spent
  have cases := autoRelease_cases (s.unlinkRecord k h spent) h
  rw [stored] at cases
  refine
    { kept := fun no => ?_
      freed := fun yes => ?_
      only := only.trans (autoRelease_only _ h only.own)
      axis := (ax k).trans (unlinkRecord_ax s k h spent)
      others := fun j other => (ax j).trans (unlinkRecord_ax_other s k j h spent other)
      lines := lines'.trans lines
      engine := (engine'.trans engine).trans (by rw [unlinked_eq])
      rest := rest.trans rest' }
  · rcases cases with ⟨yes, _⟩ | ⟨_, e⟩
    · exact absurd yes no
    · rw [e]
      exact ⟨stored, freePool⟩
  · rcases cases with ⟨_, e⟩ | ⟨no, _⟩
    · rw [e]
      exact ⟨(freeRecord_recordAt _ h h).trans (if_pos rfl), congrArg (· ++ [h]) freePool⟩
    · exact absurd (no.symm.trans yes) Bool.false_ne_true

theorem finishFire_exhausted {s : State} {k : AxisId} {h : Handle} (last : (s.recordAt h).budget = 1) :
    Exhausted s k h { s.recordAt h with budget := 0, state := .spent } (s.finishFire k h) := by
  rw [finishFire_exhausts s k h last]
  exact unlinkRecord_exhausted s k h _

/-! ### The parts of a fire before its budget -/

theorem afterLink_budget (r : Record) : r.afterLink.budget = r.budget := by
  unfold Record.afterLink
  split <;> rfl

theorem afterLink_state (r : Record) : r.afterLink.state = r.state := by
  unfold Record.afterLink
  split <;> rfl

theorem afterLink_position (r : Record) : r.afterLink.position = r.position := by
  unfold Record.afterLink
  split <;> rfl

theorem withArrival_occupant (g : Engine) : g.withArrival.occupant = g.occupant := by
  rw [← arrived_eq]
  exact arrived_occupant g

theorem afterFire_occupant (g : Engine) (h : Handle) (r : Record) : (g.afterFire h r).occupant = g.occupant := by
  unfold Engine.afterFire
  split
  · exact withArrival_occupant _
  · rfl

/-- Parts 1 to 4 of the fire of record `h` have happened: line request, last fire, notification and follow-on (R66, R67). -/
structure Fired (s : State) (k : AxisId) (st : CrossingStep) (h : Handle) (t : State) : Prop where
  record : t.recordAt h = ((s.recordAt h).afterFire st).afterLink
  only : OnlyRecord s t h
  axis : t.ax k = { s.ax k with
    eval := { (s.ax k).eval with bank := bankAfter (s.ax k).eval.bank (s.recordAt h) } }
  others : ∀ j, j ≠ k → t.ax j = s.ax j
  lines : t.lines = (s.lineRequest (s.recordAt h).action).lines
  engine : t.engine = s.engine.afterFire h (s.recordAt h)
  freePool : t.freePool = s.freePool
  rest : RestKept s t

/-- Parts 1 to 3 of a fire: the line request, then the record with its last fire and its notification (R66). -/
def State.noted (s : State) (st : CrossingStep) (h : Handle) : State :=
  (s.lineRequest (s.recordAt h).action).putRecord h ((s.recordAt h).afterFire st)

section Noted
variable (s : State) (st : CrossingStep) (h : Handle)

theorem noted_recordAt : (s.noted st h).recordAt h = (s.recordAt h).afterFire st :=
  State.putRecord_recordAt_same _ h _

theorem noted_only : OnlyRecord s (s.noted st h) h :=
  (OnlyRecord.putRecord (s.lineRequest (s.recordAt h).action) h ((s.recordAt h).afterFire st)).congr
    (lineRequest_records s _).symm (lineRequest_pendingSet s _).symm rfl rfl

theorem noted_ax (j : AxisId) : (s.noted st h).ax j = s.ax j := lineRequest_ax s _ j

theorem noted_engine : (s.noted st h).engine = s.engine := lineRequest_engine s _

theorem noted_freePool : (s.noted st h).freePool = s.freePool := lineRequest_freePool s _

theorem noted_rest : RestKept s (s.noted st h) := (lineRequest_rest s _).putRecord h _

end Noted

theorem fire_eq (s : State) (k : AxisId) (st : CrossingStep) (h : Handle) : s.fire k h st.dir st.turn =
    match (s.recordAt h).followOn with
    | .none => (s.noted st h).finishFire k h
    | .switch => ((s.noted st h).updAx k Axis.toggleBank).finishFire k h
    | .link target =>
      if (s.noted st h).engine.queue.length < Config.linkQueueDepth
        then ((s.noted st h).placeLink h target).finishFire k h
        else (s.noted st h).holdFire k h target := by
  unfold State.fire State.noted
  simp only [fired_eq] <;> rfl

/-- The placing of a request, as one update of the engine and of its source (R67, R98, R100). -/
theorem placeLink_eq (s : State) (source target : Handle) : s.placeLink source target =
    (s.updEngine (fun g => Engine.withArrival { g with queue := g.queue ++ [{ source := source, target := target }] })).putRecord
      source { s.recordAt source with outstanding := (s.recordAt source).outstanding + 1 } := by
  unfold State.placeLink
  simp only [arrived_eq]

section Parts
variable {s : State} {k : AxisId} {st : CrossingStep} {h : Handle}

theorem noted_fired (plain : (s.recordAt h).followOn = .none) : Fired s k st h (s.noted st h) where
  record := by
    rw [noted_recordAt]
    unfold Record.afterLink Record.afterFire
    simp only [plain]
  only := noted_only s st h
  axis := by
    rw [noted_ax]
    unfold bankAfter
    simp only [plain]
  others j _ := noted_ax s st h j
  lines := rfl
  engine := by
    rw [noted_engine]
    unfold Engine.afterFire
    simp only [plain]
  freePool := noted_freePool s st h
  rest := noted_rest s st h

theorem switched_fired (switch : (s.recordAt h).followOn = .switch) :
    Fired s k st h ((s.noted st h).updAx k Axis.toggleBank) where
  record := by
    rw [State.updAx_recordAt, noted_recordAt]
    unfold Record.afterLink Record.afterFire
    simp only [switch]
  only := (noted_only s st h).congr rfl rfl rfl rfl
  axis := by
    rw [State.updAx_ax_same, noted_ax]
    unfold bankAfter Axis.toggleBank
    simp only [switch] <;> rfl
  others j other := by rw [State.updAx_ax_ne _ k j _ other, noted_ax]
  lines := rfl
  engine := by
    rw [State.updAx_engine, noted_engine]
    unfold Engine.afterFire
    simp only [switch]
  freePool := noted_freePool s st h
  rest := (noted_rest s st h).updAx k _

theorem linked_fired {target : Handle} (link : (s.recordAt h).followOn = .link target) :
    Fired s k st h ((s.noted st h).placeLink h target) where
  record := by
    rw [placeLink_eq, State.putRecord_recordAt_same, noted_recordAt]
    unfold Record.afterLink Record.afterFire
    simp only [link]
  only := (noted_only s st h).trans (by
    rw [placeLink_eq]
    exact (OnlyRecord.putRecord (s.noted st h) h _).congr rfl rfl rfl rfl)
  axis := by
    rw [placeLink_ax, noted_ax]
    unfold bankAfter
    simp only [link]
  others j _ := by rw [placeLink_ax, noted_ax]
  lines := rfl
  engine := by
    rw [placeLink_eq]
    show Engine.withArrival { (s.noted st h).engine with
      queue := (s.noted st h).engine.queue ++ [{ source := h, target := target }] } = _
    rw [noted_engine]
    unfold Engine.afterFire
    simp only [link]
  freePool := noted_freePool s st h
  rest := (noted_rest s st h).placeLink h target

/-- A fire that finds room in the queue goes through all its parts (R66, R67). -/
theorem fire_fired (room : ∀ target, (s.recordAt h).followOn = .link target → s.engine.queue.length < 8) :
    ∃ t, s.fire k h st.dir st.turn = t.finishFire k h ∧ Fired s k st h t := by
  rw [fire_eq]
  cases follow : (s.recordAt h).followOn with
  | none => exact ⟨_, rfl, noted_fired follow⟩
  | switch => exact ⟨_, rfl, switched_fired follow⟩
  | link target =>
    refine ⟨_, if_pos ?_, linked_fired follow⟩
    rw [noted_engine]
    exact room target follow

end Parts

/-! ### The examination of an eligible record -/

section Examinations
variable {s : State} {k : AxisId} {st : CrossingStep} {h : Handle} {rest : List Handle}

/-- An eligible record fires on the axis that has taken it from the run, and the step then goes on (R63, R65). -/
theorem examine_fires (x : Examines s k st h rest) (e : Eligible (s.ax k) st h (s.recordAt h) s.qualifiers) :
    exec (.examineRecord k) s = .next (((s.updAx k (Axis.setRun st rest)).fire k h st.dir st.turn).updAx k Axis.stepGoesOn) := by
  rw [exec_examine, examine_eq x, if_pos ((eligible_iff _ st h _ _).mpr e)]

end Examinations

/-- Settles O48: the parts before the budget, then the budget and the guard entry, then the step goes on. -/
theorem fireOfARecordThatGoesOn : Obligations.FireOfARecordThatGoesOn := by
  intro s k st h rest x free e armed more room a r guard
  obtain ⟨u, fires, f⟩ := fire_fired (s := s.updAx k (Axis.setRun st rest)) (k := k) (st := st) (h := h) room
  have record : u.recordAt h = (r.afterFire st).afterLink := f.record
  have budget : (u.recordAt h).budget = r.budget := by rw [record]; exact afterLink_budget _
  have state : (u.recordAt h).state = .armed := by rw [record]; exact (afterLink_state _).trans armed
  have position : (u.recordAt h).position = r.position := by rw [record]; exact afterLink_position _
  have axis := f.axis
  rw [State.updAx_ax_same] at axis
  obtain ⟨recorded, only, fired, others, lines, engine, freePool, rested⟩ :=
    finishFire_goesOn u k h (by rw [budget]; exact more) f.only.own state
  rw [axis, position] at fired
  refine ⟨_, (examine_fires x e).trans (congrArg (fun t => Host.Outcome.next (State.updAx t k Axis.stepGoesOn)) fires),
    ?_, ?_, ?_, fun j other => ?_,
    lines.trans (f.lines.trans (lineRequest_lines_congr r.action rfl)), engine.trans f.engine, freePool.trans f.freePool, ?_⟩
  · rw [State.updAx_recordAt, recorded, record]
    exact congrArg (fun b => { (r.afterFire st).afterLink with budget := b }) (congrArg (· - 1) (afterLink_budget _))
  · exact (f.only.trans only).congr rfl rfl rfl rfl
  · rw [State.updAx_ax_same, fired]
    exact stepGoesOn_eq _ { st with run := rest } rfl free
  · rw [State.updAx_ax_ne _ k j _ other, others j other, f.others j other, State.updAx_ax_ne s k j _ other]
  · exact (((RestKept.refl s).updAx k _).trans (f.rest.trans rested)).updAx k _

/-- Settles O49: the parts before the budget, then the record leaves its list, then the step goes on. -/
theorem fireThatExhausts : Obligations.FireThatExhausts := by
  intro s k st h rest x free e last room a r spent freed guard
  obtain ⟨u, fires, f⟩ := fire_fired (s := s.updAx k (Axis.setRun st rest)) (k := k) (st := st) (h := h) room
  have record : u.recordAt h = (r.afterFire st).afterLink := f.record
  have budget : (u.recordAt h).budget = 1 := by rw [record]; exact (afterLink_budget _).trans last
  have axis := f.axis
  rw [State.updAx_ax_same] at axis
  have gone := finishFire_exhausted (k := k) budget
  rw [record] at gone
  have releases : spent.autoReleases = true ↔ freed := (autoReleases_iff spent).trans ⟨fun all => all.2, fun all => ⟨rfl, all⟩⟩
  have engine : (u.finishFire k h).engine =
      { s.engine.afterFire h r with occupant := s.engine.occupant.afterRemoval k (a.list.idxOf h) } := by
    rw [gone.engine, f.engine, axis, afterFire_occupant]
    rfl
  refine ⟨_, (examine_fires x e).trans (congrArg (fun t => Host.Outcome.next (State.updAx t k Axis.stepGoesOn)) fires),
    fun kept => ?_, fun released => ?_, ?_, ?_, fun j other => ?_,
    gone.lines.trans (f.lines.trans (lineRequest_lines_congr r.action rfl)), engine, ?_⟩
  · obtain ⟨stored, pool⟩ := gone.kept (mt releases.mp kept)
    exact ⟨stored, pool.trans f.freePool⟩
  · obtain ⟨cleared, pool⟩ := gone.freed (releases.mpr released)
    exact ⟨cleared, pool.trans (congrArg (· ++ [h]) f.freePool)⟩
  · exact (f.only.trans gone.only).congr rfl rfl rfl rfl
  · rw [State.updAx_ax_same, gone.axis, axis]
    exact stepGoesOn_eq _ { st with run := rest } rfl free
  · rw [State.updAx_ax_ne _ k j _ other, gone.others j other, f.others j other, State.updAx_ax_ne s k j _ other]
  · exact (((RestKept.refl s).updAx k _).trans (f.rest.trans gone.rest)).updAx k _

/-- Settles O50: the fire stops before its LINK part, and its axis stalls. -/
theorem linkFireIsHeld : Obligations.LinkFireIsHeld := by
  intro s k st h target rest x free e link full a r
  have holds : (s.updAx k (Axis.setRun st rest)).fire k h st.dir st.turn =
      ((s.updAx k (Axis.setRun st rest)).noted st h).holdFire k h target := by
    rw [fire_eq, State.updAx_recordAt]
    simp only [link]
    refine if_neg ?_
    rw [noted_engine]
    exact full.not_lt
  refine ⟨_, (examine_fires x e).trans (congrArg (fun t => Host.Outcome.next (State.updAx t k Axis.stepGoesOn)) holds),
    ?_, ?_, ?_, fun j other => ?_, lineRequest_lines_congr r.action rfl, ?_, ?_, ?_⟩
  · exact noted_recordAt _ st h
  · exact (noted_only (s.updAx k (Axis.setRun st rest)) st h).congr rfl rfl rfl rfl
  · rw [State.updAx_ax_same]
    unfold State.holdFire
    rw [State.updEngine_ax, State.updAx_ax_same, noted_ax, State.updAx_ax_same]
    exact stepGoesOn_held _ { source := h, target := target } rfl
  · rw [State.updAx_ax_ne _ k j _ other]
    unfold State.holdFire
    rw [State.updEngine_ax, State.updAx_ax_ne _ k j _ other, noted_ax, State.updAx_ax_ne s k j _ other]
  · exact congrArg (fun g : Engine => { g with stalled := g.stalled ++ [k] })
      (noted_engine (s.updAx k (Axis.setRun st rest)) st h)
  · exact noted_freePool _ st h
  · exact ((((RestKept.refl s).updAx k _).trans (noted_rest _ st h)).updAx k _ |>.updEngine _).updAx k _

/-! ### The completion of a held fire -/

/-- The axis of a held fire that has gone through its last parts: the evaluator goes on, and a settle notice is settled (R72, R75,
R79). -/
theorem Axis.completed_eq {b : Axis} {st : CrossingStep} (step : b.eval.step = some st) :
    let state : EvalState := if b.eval.state = .stalled then .tracking else b.eval.state
    let settles := b.eval.settle = true ∧ state = .tracking ∧ b.eval.e = b.front.c
    b.dropHeld.stepGoesOn.settleIfTracking = { b with
      eval := { b.eval with
        state := state
        held := none
        step := if st.run = [] then none else some st
        guard := if st.run = [] then b.eval.guard.filter (staysGuarded b.config b.eval.e) else b.eval.guard
        settle := if settles then false else b.eval.settle }
      flags := if settles then b.flags ||| 0x80 else b.flags } := by
  intro state settles
  rw [stepGoesOn_eq b.dropHeld st step rfl]
  unfold Axis.settleIfTracking
  by_cases tracks : state = .tracking
  · have same : settles ↔ b.eval.settle = true ∧ b.eval.e = b.front.c := by simp [settles, tracks]
    have withdrawn : (if b.eval.e = b.front.c then false else b.eval.settle) = if settles then false else b.eval.settle := by
      by_cases there : b.eval.e = b.front.c
      · rw [if_pos there]
        by_cases all : settles
        · rw [if_pos all]
        · rw [if_neg all, Bool.eq_false_of_not_eq_true fun notice => all (same.mpr ⟨notice, there⟩)]
      · rw [if_neg there, if_neg fun all => there all.2.2]
    have flagged : (if b.eval.settle = true ∧ b.eval.e = b.front.c then b.flags ||| 0x80 else b.flags) =
        if settles then b.flags ||| 0x80 else b.flags := if_congr same.symm rfl rfl
    refine (if_pos tracks).trans ?_
    rw [settleCheck_eq, ← withdrawn, ← flagged]
    rfl
  · have stays : ¬ settles := fun all => tracks all.2.1
    rw [if_neg stays, if_neg stays]
    exact if_neg tracks

/-- The request of a held fire in its place, before the budget of its source is counted (R72, R99). -/
def State.heldPlaced (s : State) (others : List AxisId) (f : HeldFire) : State :=
  (s.updEngine (fun g => { g with stalled := others })).placeLink f.source f.target

section HeldPlaced
variable (s : State) (others : List AxisId) (f : HeldFire)

theorem heldPlaced_recordAt : (s.heldPlaced others f).recordAt f.source =
    { s.recordAt f.source with outstanding := (s.recordAt f.source).outstanding + 1 } :=
  State.putRecord_recordAt_same _ f.source _

theorem heldPlaced_only : OnlyRecord s (s.heldPlaced others f) f.source :=
  (OnlyRecord.putRecord s f.source
    { s.recordAt f.source with outstanding := (s.recordAt f.source).outstanding + 1 }).congr rfl rfl rfl rfl

theorem heldPlaced_engine : (s.heldPlaced others f).engine = Engine.withArrival { s.engine with
    queue := s.engine.queue ++ [{ source := f.source, target := f.target }], stalled := others } :=
  arrived_eq _

theorem heldPlaced_rest : RestKept s (s.heldPlaced others f) := ((RestKept.refl s).updEngine _).placeLink _ _

end HeldPlaced

theorem placeStalled_completes {s : State} {k : AxisId} {others : List AxisId} {f : HeldFire}
    (stalled : s.engine.stalled = k :: others) (held : (s.ax k).eval.held = some f) (room : s.engine.queue.length < 8) :
    s.placeStalled = ((s.heldPlaced others f).finishFire k f.source).updAx k
      (fun b => b.dropHeld.stepGoesOn.settleIfTracking) := by
  have completes : s.placeStalled = (s.updEngine (fun g => { g with stalled := others })).completeHeld k f := by
    unfold State.placeStalled
    rw [stalled]
    dsimp only
    rw [held]
    exact if_pos room
  rw [completes]
  unfold State.completeHeld
  simp only [State.updAx_updAx]
  rfl

/-- Settles O51: the request is placed, then the budget counted, then the axis goes on. -/
theorem heldFireCompletes : Obligations.HeldFireCompletes := by
  intro s k others f st stalled held step room armed a r placed state settles completed
  have budget : ((s.heldPlaced others f).recordAt f.source).budget = r.budget := by rw [heldPlaced_recordAt]
  have engine := heldPlaced_engine s others f
  have goesOn (t : State) (list : List Handle) (cursor : Option Nat) (guard : List GuardEntry) (flags : BitVec 8)
      (axis : t.ax k = { a with list := list, cursor := cursor, eval := { a.eval with guard := guard }, flags := flags }) :
      (t.updAx k (fun b => b.dropHeld.stepGoesOn.settleIfTracking)).ax k = completed list cursor guard flags := by
    rw [State.updAx_ax_same, axis]
    exact Axis.completed_eq step
  refine ⟨_, congrArg Host.Outcome.next (placeStalled_completes stalled held room), ?_⟩
  by_cases last : r.budget = 1
  · have gone := finishFire_exhausted (k := k) (budget.trans last)
    have keeps : ¬ ({ (s.heldPlaced others f).recordAt f.source with budget := 0, state := .spent } : Record).autoReleases =
        true := by
      rw [autoReleases_iff, heldPlaced_recordAt]
      exact fun all => Nat.succ_ne_zero _ all.2.2.2
    obtain ⟨stored, pool⟩ := gone.kept keeps
    refine ⟨?_, fun j other => ?_, gone.lines, ?_, fun more => absurd last more, fun _ => ⟨?_, ?_, pool, ?_⟩⟩
    · exact ((heldPlaced_only s others f).trans gone.only).congr rfl rfl rfl rfl
    · exact (State.updAx_ax_ne _ k j _ other).trans (gone.others j other)
    · exact ((heldPlaced_rest s others f).trans gone.rest).updAx k _
    · exact stored.trans (by rw [heldPlaced_recordAt])
    · refine gone.engine.trans ?_
      rw [engine, withArrival_occupant]
      rfl
    · exact goesOn _ _ _ _ _ gone.axis
  · have still : ((s.heldPlaced others f).recordAt f.source).state = .armed := by rw [heldPlaced_recordAt]; exact armed
    obtain ⟨recorded, only, axis, other_axes, lines, engine', freePool, rest⟩ := finishFire_goesOn (s.heldPlaced others f) k
      f.source (fun one => last (budget.symm.trans one)) (heldPlaced_only s others f).own still
    refine ⟨?_, fun j other => ?_, lines, ?_, fun _ => ⟨?_, engine'.trans engine, freePool, ?_⟩, fun one => absurd one last⟩
    · exact ((heldPlaced_only s others f).trans only).congr rfl rfl rfl rfl
    · exact (State.updAx_ax_ne _ k j _ other).trans (other_axes j other)
    · exact ((heldPlaced_rest s others f).trans rest).updAx k _
    · exact recorded.trans (by rw [heldPlaced_recordAt])
    · rw [heldPlaced_recordAt] at axis
      exact goesOn _ _ _ _ _ axis

end Sys2Proof.Machine
end
